-- ==== Sys2Proof/Word.lean ====
section
/-! DEFINITION. The word types of the 80486 (00_scope.md R18, 20_memory.md R140). -/

set_option Elab.async false

namespace Sys2Proof

/-- A byte, 8 bits (R18). -/
abbrev Byte := BitVec 8
/-- A word, 16 bits (R18). -/
abbrev Word := BitVec 16
/-- A doubleword, 32 bits (R18). -/
abbrev DWord := BitVec 32
/-- A physical or linear address, 32 bits (20_memory.md R140). -/
abbrev Addr := BitVec 32

end Sys2Proof
end

