-- ==== Sys2Proof/Syntax.lean ====
section
/-! DEFINITION. The abstract syntax: one constructor of `Instr` for each row of spec/opcode_table.json (30_encoding.md R228
to R234). Operand sizes, address sizes and segments are resolved here (30_encoding.md R226), so that a meaning needs no
encoding. Prefix rows and bus-cycle rows are constructors of their own (log 1, log 2). -/

set_option Elab.async false

namespace Sys2Proof

/-- The general registers, numbered EAX = 0 to EDI = 7 (10_state.md R40). -/
inductive Reg where
  | eax | ecx | edx | ebx | esp | ebp | esi | edi
  deriving DecidableEq, Repr

/-- The byte registers, numbered AL = 0 to BH = 7 (10_state.md R41). -/
inductive Reg8 where
  | al | cl | dl | bl | ah | ch | dh | bh
  deriving DecidableEq, Repr

/-- The segment registers (10_state.md R46). -/
inductive SegReg where
  | es | cs | ss | ds | fs | gs
  deriving DecidableEq, Repr

/-- The operand size of a word-or-doubleword form (30_encoding.md R226). -/
inductive OpSize where
  | w16 | w32
  deriving DecidableEq, Repr

/-- The number of bits of an operand size. -/
abbrev OpSize.bits : OpSize → Nat
  | .w16 => 16
  | .w32 => 32

/-- The address size (30_encoding.md R226). -/
inductive AddrSize where
  | a16 | a32
  deriving DecidableEq, Repr

/-- The base of a 16-bit effective address (30_encoding.md R223, second table). -/
inductive Base16 where
  | bxSi | bxDi | bpSi | bpDi | si | di | bp | bx
  deriving DecidableEq, Repr

/-- A displacement as encoded: none, one byte (sign-extended), or a full one of `n` bits (30_encoding.md R225). -/
inductive Disp (n : Nat) where
  | none
  | short (d : BitVec 8)
  | full (d : BitVec n)
  deriving DecidableEq, Repr

/-- An effective address as ModR/M and SIB encode it (30_encoding.md R223, R224). -/
inductive Ea where
  /-- 16-bit addressing with a base. -/
  | base16 (b : Base16) (d : Disp 16)
  /-- 16-bit addressing, displacement only. -/
  | abs16 (d : BitVec 16)
  /-- 32-bit addressing with a base register. -/
  | base32 (b : Reg) (d : Disp 32)
  /-- 32-bit addressing, displacement only. -/
  | abs32 (d : BitVec 32)
  /-- SIB with a base; index ESP (100b) means no index. -/
  | sib (scale : BitVec 2) (index : Reg) (base : Reg) (d : Disp 32)
  /-- SIB without a base (mod = 00, base = 101b). -/
  | sibAbs (scale : BitVec 2) (index : Reg) (d : BitVec 32)
  deriving DecidableEq, Repr

/-- A memory operand: its segment (default or override) and effective address (30_encoding.md R221, R223). -/
structure MemOp where
  seg : SegReg
  ea : Ea
  deriving DecidableEq, Repr

/-- The r/m operand of ModR/M: a register (mod = 11b) or memory (30_encoding.md R223). -/
inductive Rm (ρ : Type) where
  | reg (r : ρ)
  | mem (m : MemOp)
  deriving DecidableEq, Repr

/-- The offset of a `moffs` form, as wide as the address size (30_encoding.md R225). -/
inductive Offset where
  | o16 (d : BitVec 16)
  | o32 (d : BitVec 32)
  deriving DecidableEq, Repr

/-- A `moffs` operand (30_encoding.md R225). -/
structure Moffs where
  seg : SegReg
  off : Offset
  deriving DecidableEq, Repr

/-- An immediate or relative displacement of the operand size (30_encoding.md R225). -/
inductive Imm where
  | i16 (v : BitVec 16)
  | i32 (v : BitVec 32)
  deriving DecidableEq, Repr

/-- The operands of a bus cycle: doubleword address, the pin levels of BE3#..BE0# (0 = asserted), the data of a write
(42_bus_transactions.md R400; log 2). -/
structure BusOp where
  addr : BitVec 30
  be : BitVec 4
  data : BitVec 32
  deriving DecidableEq, Repr

/-- The instructions, prefixes and bus cycles of spec/opcode_table.json, one constructor a row. -/
inductive Instr where
  | bswap (os : OpSize) (r : Reg)
  | xaddRm8R8 (rm : Rm Reg8) (r : Reg8)
  | xaddRmR (os : OpSize) (rm : Rm Reg) (r : Reg)
  | cmpxchgRm8R8 (rm : Rm Reg8) (r : Reg8)
  | cmpxchgRmR (os : OpSize) (rm : Rm Reg) (r : Reg)
  | invd
  | wbinvd
  | invlpg (m : MemOp)
  | rsm
  | cpuid
  | movAlMoffs (m : Moffs)
  | movEaxMoffs (os : OpSize) (m : Moffs)
  | movMoffsAl (m : Moffs)
  | movMoffsEax (os : OpSize) (m : Moffs)
  | movR8Rm8 (r : Reg8) (rm : Rm Reg8)
  | movRRm (os : OpSize) (r : Reg) (rm : Rm Reg)
  | movRm8R8 (rm : Rm Reg8) (r : Reg8)
  | movRmR (os : OpSize) (rm : Rm Reg) (r : Reg)
  | movR8Imm8 (r : Reg8) (v : BitVec 8)
  | movRImm (r : Reg) (v : Imm)
  | inAlImm8 (p : BitVec 8)
  | inEaxImm8 (os : OpSize) (p : BitVec 8)
  | inAlDx
  | inEaxDx (os : OpSize)
  | outImm8Al (p : BitVec 8)
  | outImm8Eax (os : OpSize) (p : BitVec 8)
  | outDxAl
  | outDxEax (os : OpSize)
  | outsb (seg : SegReg) (as : AddrSize)
  | outswd (os : OpSize) (seg : SegReg) (as : AddrSize)
  | repPrefix
  | xchgRm8R8 (rm : Rm Reg8) (r : Reg8)
  | xchgRmR (os : OpSize) (rm : Rm Reg) (r : Reg)
  | xchgEaxR (os : OpSize) (r : Reg)
  | lockPrefix
  | hlt
  | esc (os : OpSize) (op : BitVec 3) (reg : BitVec 3) (rm : Rm (BitVec 3))
  | wait
  | jmpRel8 (os : OpSize) (d : BitVec 8)
  | jmpRel (d : Imm)
  | intN (v : BitVec 8)
  | movRCr (r : Reg) (n : BitVec 3)
  | movCrR (n : BitVec 3) (r : Reg)
  | movRDr (r : Reg) (n : BitVec 3)
  | movDrR (n : BitVec 3) (r : Reg)
  | movRTr (r : Reg) (n : BitVec 3)
  | movTrR (n : BitVec 3) (r : Reg)
  | pushf (os : OpSize)
  | popf (os : OpSize)
  | opSizePrefix
  | addrSizePrefix
  | intAckCycle (op : BusOp)
  | specialCycle (op : BusOp)
  | ioReadCycle (op : BusOp)
  | ioWriteCycle (op : BusOp)
  | codeReadCycle (op : BusOp)
  | reservedCycle
  | memReadCycle (op : BusOp)
  | memWriteCycle (op : BusOp)
  | shutdownCycle
  | flushCycle
  | secondFlushAckCycle
  | haltCycle
  | stopGrantCycle
  | firstFlushAckCycle
  | writeBackCycle
  deriving DecidableEq, Repr

end Sys2Proof
end

