-- ==== Sys2Proof/WellFormed.lean ====
section
/-! DEFINITION. Which syntax an encoding exists for, in a decoding context (30_encoding.md R223 to R226). -/

set_option Elab.async false

namespace Sys2Proof

/-- What the prefixes and the code segment fix before the opcode is read (30_encoding.md R221, R226): the effective operand
and address sizes and a segment override. -/
structure DecodeCtx where
  os : OpSize
  as : AddrSize
  seg : Option SegReg
  deriving DecidableEq, Repr

/-- The default segment of an effective address: SS with base BP, EBP or ESP, else DS (30_encoding.md R223, R224). -/
def Ea.defaultSeg : Ea → SegReg
  | .base16 .bpSi _ | .base16 .bpDi _ | .base16 .bp _ => .ss
  | .base16 _ _ => .ds
  | .abs16 _ => .ds
  | .base32 .ebp _ => .ss
  | .base32 _ _ => .ds
  | .abs32 _ => .ds
  | .sib _ _ .esp _ | .sib _ _ .ebp _ => .ss
  | .sib _ _ _ _ => .ds
  | .sibAbs _ _ _ => .ds

/-- The address size an effective address is written in. -/
def Ea.size : Ea → AddrSize
  | .base16 _ _ | .abs16 _ => .a16
  | .base32 _ _ | .abs32 _ | .sib _ _ _ _ | .sibAbs _ _ _ => .a32

/-- mod = 00 with BP (16-bit) or EBP (32-bit) means displacement only, and rm = 100b with 32-bit addressing means SIB, so
those bases have no such encoding (30_encoding.md R223, R224). -/
def Ea.encodable : Ea → Bool
  | .base16 .bp .none => false
  | .base32 .esp _ => false
  | .base32 .ebp .none => false
  | .sib _ _ .ebp .none => false
  | _ => true

def MemOp.wf (c : DecodeCtx) (m : MemOp) : Bool :=
  m.ea.encodable && m.ea.size == c.as && m.seg == c.seg.getD m.ea.defaultSeg

def Rm.wf {ρ : Type} (c : DecodeCtx) : Rm ρ → Bool
  | .reg _ => true
  | .mem m => m.wf c

def Offset.size : Offset → AddrSize
  | .o16 _ => .a16
  | .o32 _ => .a32

def Moffs.wf (c : DecodeCtx) (m : Moffs) : Bool :=
  m.off.size == c.as && m.seg == c.seg.getD .ds

def Imm.size : Imm → OpSize
  | .i16 _ => .w16
  | .i32 _ => .w32

/-- The bus-cycle rows of the opcode table: no instruction bytes stand for them (30_encoding.md R230, R231). -/
def Instr.isBusCycle : Instr → Bool
  | .intAckCycle _ | .specialCycle _ | .ioReadCycle _ | .ioWriteCycle _ | .codeReadCycle _ | .reservedCycle
  | .memReadCycle _ | .memWriteCycle _ | .shutdownCycle | .flushCycle | .secondFlushAckCycle | .haltCycle
  | .stopGrantCycle | .firstFlushAckCycle | .writeBackCycle => true
  | _ => false

/-- `i` is what some instruction bytes stand for in the context `c`. -/
def Instr.wf (c : DecodeCtx) : Instr → Bool
  | .bswap os _ => os == c.os
  | .xaddRm8R8 rm _ => rm.wf c
  | .xaddRmR os rm _ => os == c.os && rm.wf c
  | .cmpxchgRm8R8 rm _ => rm.wf c
  | .cmpxchgRmR os rm _ => os == c.os && rm.wf c
  | .invd => true
  | .wbinvd => true
  | .invlpg m => m.wf c
  | .rsm => true
  | .cpuid => true
  | .movAlMoffs m => m.wf c
  | .movEaxMoffs os m => os == c.os && m.wf c
  | .movMoffsAl m => m.wf c
  | .movMoffsEax os m => os == c.os && m.wf c
  | .movR8Rm8 _ rm => rm.wf c
  | .movRRm os _ rm => os == c.os && rm.wf c
  | .movRm8R8 rm _ => rm.wf c
  | .movRmR os rm _ => os == c.os && rm.wf c
  | .movR8Imm8 _ _ => true
  | .movRImm _ v => v.size == c.os
  | .inAlImm8 _ => true
  | .inEaxImm8 os _ => os == c.os
  | .inAlDx => true
  | .inEaxDx os => os == c.os
  | .outImm8Al _ => true
  | .outImm8Eax os _ => os == c.os
  | .outDxAl => true
  | .outDxEax os => os == c.os
  | .outsb seg as => seg == c.seg.getD .ds && as == c.as
  | .outswd os seg as => os == c.os && seg == c.seg.getD .ds && as == c.as
  | .repPrefix => true
  | .xchgRm8R8 rm _ => rm.wf c
  | .xchgRmR os rm _ => os == c.os && rm.wf c
  | .xchgEaxR os _ => os == c.os
  | .lockPrefix => true
  | .hlt => true
  | .esc os _ _ rm => os == c.os && rm.wf c
  | .wait => true
  | .jmpRel8 os _ => os == c.os
  | .jmpRel d => d.size == c.os
  | .intN _ => true
  | .movRCr _ _ => true
  | .movCrR _ _ => true
  | .movRDr _ _ => true
  | .movDrR _ _ => true
  | .movRTr _ _ => true
  | .movTrR _ _ => true
  | .pushf os => os == c.os
  | .popf os => os == c.os
  | .opSizePrefix => true
  | .addrSizePrefix => true
  | .intAckCycle _ => false
  | .specialCycle _ => false
  | .ioReadCycle _ => false
  | .ioWriteCycle _ => false
  | .codeReadCycle _ => false
  | .reservedCycle => false
  | .memReadCycle _ => false
  | .memWriteCycle _ => false
  | .shutdownCycle => false
  | .flushCycle => false
  | .secondFlushAckCycle => false
  | .haltCycle => false
  | .stopGrantCycle => false
  | .firstFlushAckCycle => false
  | .writeBackCycle => false

end Sys2Proof
end

