-- ==== Sys2Proof/Decode.lean ====
section
/-! DEFINITION. The decoder, total on any bytes, and the encoder (30_encoding.md R220 to R235). Instruction bytes are read in
increasing address order, multi-byte fields least significant byte first (30_encoding.md R225). -/

set_option Elab.async false

namespace Sys2Proof

/-- A byte the step itself takes as a prefix because the opcode table has no row for it: a segment override or REPNE
(30_encoding.md R221; log 1). -/
inductive ExtraPrefix where
  | seg (s : SegReg)
  | repne
  deriving DecidableEq, Repr

/-- What decoding gives. -/
inductive Dec (α : Type) where
  /-- A value and the bytes after it. -/
  | ok (a : α) (rest : List Byte)
  /-- The bytes end inside the instruction. -/
  | more
  /-- No instruction: the invalid-opcode exception (30_encoding.md R235). -/
  | illegal
  /-- An 80386 instruction without a rule, by its opcode: `Base386` (00_scope.md R8, log 7). -/
  | base386 (twoByte : Bool) (b : Byte) (modRm : Option Byte)
  /-- A segment override or REPNE byte. -/
  | extra (p : ExtraPrefix)
  deriving DecidableEq, Repr

def Dec.bind {α β : Type} (x : Dec α) (k : α → List Byte → Dec β) : Dec β :=
  match x with
  | .ok a rest => k a rest
  | .more => .more
  | .illegal => .illegal
  | .base386 t b m => .base386 t b m
  | .extra p => .extra p

def Dec.map {α β : Type} (f : α → β) (x : Dec α) : Dec β :=
  x.bind fun a rest => .ok (f a) rest

/-! ### Register numbers (30_encoding.md R229, 10_state.md R40, R41, R46) -/

def Reg.ofBits (b : BitVec 3) : Reg :=
  match b.toNat with
  | 0 => .eax | 1 => .ecx | 2 => .edx | 3 => .ebx | 4 => .esp | 5 => .ebp | 6 => .esi | _ => .edi

def Reg.toBits : Reg → BitVec 3
  | .eax => 0 | .ecx => 1 | .edx => 2 | .ebx => 3 | .esp => 4 | .ebp => 5 | .esi => 6 | .edi => 7

def Reg8.ofBits (b : BitVec 3) : Reg8 :=
  match b.toNat with
  | 0 => .al | 1 => .cl | 2 => .dl | 3 => .bl | 4 => .ah | 5 => .ch | 6 => .dh | _ => .bh

def Reg8.toBits : Reg8 → BitVec 3
  | .al => 0 | .cl => 1 | .dl => 2 | .bl => 3 | .ah => 4 | .ch => 5 | .dh => 6 | .bh => 7

def Base16.ofBits (b : BitVec 3) : Base16 :=
  match b.toNat with
  | 0 => .bxSi | 1 => .bxDi | 2 => .bpSi | 3 => .bpDi | 4 => .si | 5 => .di | 6 => .bp | _ => .bx

def Base16.toBits : Base16 → BitVec 3
  | .bxSi => 0 | .bxDi => 1 | .bpSi => 2 | .bpDi => 3 | .si => 4 | .di => 5 | .bp => 6 | .bx => 7

/-! ### Fields (30_encoding.md R223 to R225) -/

def modField (b : Byte) : BitVec 2 := b.extractLsb' 6 2
def regField (b : Byte) : BitVec 3 := b.extractLsb' 3 3
def rmField (b : Byte) : BitVec 3 := b.extractLsb' 0 3
/-- A byte from its 2-, 3- and 3-bit fields: ModR/M, SIB, and opcodes with a register number. -/
def mkByte (m : BitVec 2) (r : BitVec 3) (b : BitVec 3) : Byte := m ++ r ++ b

def dec8 : List Byte → Dec (BitVec 8)
  | b :: rest => .ok b rest
  | [] => .more

def dec16 : List Byte → Dec (BitVec 16)
  | a :: b :: rest => .ok (b ++ a) rest
  | _ => .more

def dec32 : List Byte → Dec (BitVec 32)
  | a :: b :: c :: d :: rest => .ok (d ++ c ++ b ++ a) rest
  | _ => .more

def enc16 (v : BitVec 16) : List Byte := [v.extractLsb' 0 8, v.extractLsb' 8 8]
def enc32 (v : BitVec 32) : List Byte :=
  [v.extractLsb' 0 8, v.extractLsb' 8 8, v.extractLsb' 16 8, v.extractLsb' 24 8]

def decImm (os : OpSize) (bs : List Byte) : Dec Imm :=
  match os with
  | .w16 => (dec16 bs).map .i16
  | .w32 => (dec32 bs).map .i32

def encImm : Imm → List Byte
  | .i16 v => enc16 v
  | .i32 v => enc32 v

def decOffset (as : AddrSize) (bs : List Byte) : Dec Offset :=
  match as with
  | .a16 => (dec16 bs).map .o16
  | .a32 => (dec32 bs).map .o32

def encOffset : Offset → List Byte
  | .o16 d => enc16 d
  | .o32 d => enc32 d

/-- The displacement that `mod` selects (30_encoding.md R223). -/
def decDisp16 (md : BitVec 2) (bs : List Byte) : Dec (Disp 16) :=
  if md = 0 then .ok .none bs
  else if md = 1 then (dec8 bs).map .short
  else (dec16 bs).map .full

def decDisp32 (md : BitVec 2) (bs : List Byte) : Dec (Disp 32) :=
  if md = 0 then .ok .none bs
  else if md = 1 then (dec8 bs).map .short
  else (dec32 bs).map .full

def Disp.modBits {n : Nat} : Disp n → BitVec 2
  | .none => 0
  | .short _ => 1
  | .full _ => 2

def encDisp16 : Disp 16 → List Byte
  | .none => []
  | .short d => [d]
  | .full d => enc16 d

def encDisp32 : Disp 32 → List Byte
  | .none => []
  | .short d => [d]
  | .full d => enc32 d

/-- 16-bit addressing (30_encoding.md R223, second table). -/
def decEa16 (md : BitVec 2) (rm : BitVec 3) (bs : List Byte) : Dec Ea :=
  if md = 0 ∧ rm = 6 then (dec16 bs).map .abs16
  else (decDisp16 md bs).map (.base16 (Base16.ofBits rm))

/-- The SIB byte and its displacement (30_encoding.md R224). -/
def decSib (md : BitVec 2) (bs : List Byte) : Dec Ea :=
  (dec8 bs).bind fun s rest =>
    if md = 0 ∧ rmField s = 5 then
      (dec32 rest).map (.sibAbs (modField s) (Reg.ofBits (regField s)))
    else
      (decDisp32 md rest).map (.sib (modField s) (Reg.ofBits (regField s)) (Reg.ofBits (rmField s)))

/-- 32-bit addressing (30_encoding.md R223, first table). -/
def decEa32 (md : BitVec 2) (rm : BitVec 3) (bs : List Byte) : Dec Ea :=
  if rm = 4 then decSib md bs
  else if md = 0 ∧ rm = 5 then (dec32 bs).map .abs32
  else (decDisp32 md bs).map (.base32 (Reg.ofBits rm))

/-- A memory operand with its default segment or the override (30_encoding.md R221, R223). -/
def decMem (c : DecodeCtx) (md : BitVec 2) (rm : BitVec 3) (bs : List Byte) : Dec MemOp :=
  (match c.as with
    | .a16 => decEa16 md rm bs
    | .a32 => decEa32 md rm bs).map fun (ea : Ea) => (⟨c.seg.getD ea.defaultSeg, ea⟩ : MemOp)

/-- ModR/M with a general or other register operand: the reg field and the r/m operand. -/
def decModRm {ρ : Type} (c : DecodeCtx) (reg : BitVec 3 → ρ) (bs : List Byte) : Dec (BitVec 3 × Rm ρ) :=
  (dec8 bs).bind fun b rest =>
    if modField b = 3 then .ok (regField b, .reg (reg (rmField b))) rest
    else (decMem c (modField b) (rmField b) rest).map fun m => (regField b, .mem m)

def decMoffs (c : DecodeCtx) (bs : List Byte) : Dec Moffs :=
  (decOffset c.as bs).map fun (o : Offset) => (⟨c.seg.getD .ds, o⟩ : Moffs)

/-! ### The opcode map -/

/-- Two-byte opcodes of the 80386 that have no rule (00_scope.md R8, log 7). -/
def isBase386TwoByte (n : Nat) : Bool :=
  n == 0x00 || n == 0x02 || n == 0x03 || n == 0x06 || (0x80 ≤ n && n ≤ 0xA1) || n == 0xA3 || n == 0xA4 || n == 0xA5
    || n == 0xA8 || n == 0xA9 || n == 0xAB || n == 0xAC || n == 0xAD || n == 0xAF || (0xB2 ≤ n && n ≤ 0xB7)
    || (0xBA ≤ n && n ≤ 0xBF)

/-- The 80386 instructions without a row that take LOCK with a memory destination, by the reg field of the ModR/M byte
(44_instructions_referenced.md R536; 20_memory.md R181): ADD, OR, ADC, SBB, AND, SUB, XOR, INC, DEC, NOT, NEG, BTS, BTR, BTC. -/
def lockForms (twoByte : Bool) (b : Byte) : List Nat :=
  if twoByte then
    if b.toNat ∈ [0xAB, 0xB3, 0xBB] then [0, 1, 2, 3, 4, 5, 6, 7]
    else if b.toNat = 0xBA then [5, 6, 7]
    else []
  else if b.toNat ∈ [0x00, 0x01, 0x08, 0x09, 0x10, 0x11, 0x18, 0x19, 0x20, 0x21, 0x28, 0x29, 0x30, 0x31] then [0, 1, 2, 3, 4, 5, 6, 7]
  else if b.toNat ∈ [0x80, 0x81, 0x83] then [0, 1, 2, 3, 4, 5, 6]
  else if b.toNat ∈ [0xF6, 0xF7] then [2, 3]
  else if b.toNat ∈ [0xFE, 0xFF] then [0, 1]
  else []

/-- An 80386 opcode without a row. Its ModR/M byte is read with it where a rule speaks of it: for LOCK, and for MOV to a segment
register (60_exceptions.md R646). -/
def decodeBase (twoByte : Bool) (op : Byte) (bs : List Byte) : Dec Instr :=
  if lockForms twoByte op ≠ [] ∨ (twoByte = false ∧ op = 0x8E#8) then
    (dec8 bs).bind fun m _ => .base386 twoByte op (some m)
  else .base386 twoByte op none

/-- The second opcode byte after 0Fh (30_encoding.md R222, R228). -/
def decode0F (c : DecodeCtx) (op : Byte) (bs : List Byte) : Dec Instr :=
  if op.extractLsb' 3 5 = 0x19#5 then .ok (.bswap c.os (Reg.ofBits (rmField op))) bs
  else
    match op.toNat with
    | 0x01 => (dec8 bs).bind fun b rest =>
        if regField b = 7 then
          if modField b = 3 then .illegal
          else (decMem c (modField b) (rmField b) rest).map .invlpg
        else if regField b = 5 then .illegal
        else .base386 true op (some b)
    | 0x08 => .ok .invd bs
    | 0x09 => .ok .wbinvd bs
    | 0x20 => (dec8 bs).bind fun b rest => .ok (.movRCr (Reg.ofBits (rmField b)) (regField b)) rest
    | 0x21 => (dec8 bs).bind fun b rest => .ok (.movRDr (Reg.ofBits (rmField b)) (regField b)) rest
    | 0x22 => (dec8 bs).bind fun b rest => .ok (.movCrR (regField b) (Reg.ofBits (rmField b))) rest
    | 0x23 => (dec8 bs).bind fun b rest => .ok (.movDrR (regField b) (Reg.ofBits (rmField b))) rest
    | 0x24 => (dec8 bs).bind fun b rest => .ok (.movRTr (Reg.ofBits (rmField b)) (regField b)) rest
    | 0x26 => (dec8 bs).bind fun b rest => .ok (.movTrR (regField b) (Reg.ofBits (rmField b))) rest
    | 0xA2 => .ok .cpuid bs
    | 0xAA => .ok .rsm bs
    | 0xB0 => (decModRm c Reg8.ofBits bs).map fun p => .cmpxchgRm8R8 p.2 (Reg8.ofBits p.1)
    | 0xB1 => (decModRm c Reg.ofBits bs).map fun p => .cmpxchgRmR c.os p.2 (Reg.ofBits p.1)
    | 0xC0 => (decModRm c Reg8.ofBits bs).map fun p => .xaddRm8R8 p.2 (Reg8.ofBits p.1)
    | 0xC1 => (decModRm c Reg.ofBits bs).map fun p => .xaddRmR c.os p.2 (Reg.ofBits p.1)
    | n => if isBase386TwoByte n then decodeBase true op bs else .illegal

/-- The first opcode byte (30_encoding.md R222, R228). -/
def decode1 (c : DecodeCtx) (op : Byte) (bs : List Byte) : Dec Instr :=
  if op.extractLsb' 3 5 = 0x12#5 then .ok (.xchgEaxR c.os (Reg.ofBits (rmField op))) bs
  else if op.extractLsb' 3 5 = 0x16#5 then (dec8 bs).map fun v => .movR8Imm8 (Reg8.ofBits (rmField op)) v
  else if op.extractLsb' 3 5 = 0x17#5 then (decImm c.os bs).map fun v => .movRImm (Reg.ofBits (rmField op)) v
  else if op.extractLsb' 3 5 = 0x1B#5 then
    (decModRm c id bs).map fun p => .esc c.os (rmField op) p.1 p.2
  else
    match op.toNat with
    | 0x0F => (dec8 bs).bind fun b rest => decode0F c b rest
    | 0x26 => .extra (.seg .es)
    | 0x2E => .extra (.seg .cs)
    | 0x36 => .extra (.seg .ss)
    | 0x3E => .extra (.seg .ds)
    | 0x64 => .extra (.seg .fs)
    | 0x65 => .extra (.seg .gs)
    | 0x66 => .ok .opSizePrefix bs
    | 0x67 => .ok .addrSizePrefix bs
    | 0x6E => .ok (.outsb (c.seg.getD .ds) c.as) bs
    | 0x6F => .ok (.outswd c.os (c.seg.getD .ds) c.as) bs
    | 0x86 => (decModRm c Reg8.ofBits bs).map fun p => .xchgRm8R8 p.2 (Reg8.ofBits p.1)
    | 0x87 => (decModRm c Reg.ofBits bs).map fun p => .xchgRmR c.os p.2 (Reg.ofBits p.1)
    | 0x88 => (decModRm c Reg8.ofBits bs).map fun p => .movRm8R8 p.2 (Reg8.ofBits p.1)
    | 0x89 => (decModRm c Reg.ofBits bs).map fun p => .movRmR c.os p.2 (Reg.ofBits p.1)
    | 0x8A => (decModRm c Reg8.ofBits bs).map fun p => .movR8Rm8 (Reg8.ofBits p.1) p.2
    | 0x8B => (decModRm c Reg.ofBits bs).map fun p => .movRRm c.os (Reg.ofBits p.1) p.2
    | 0x9B => .ok .wait bs
    | 0x9C => .ok (.pushf c.os) bs
    | 0x9D => .ok (.popf c.os) bs
    | 0xA0 => (decMoffs c bs).map .movAlMoffs
    | 0xA1 => (decMoffs c bs).map (.movEaxMoffs c.os)
    | 0xA2 => (decMoffs c bs).map .movMoffsAl
    | 0xA3 => (decMoffs c bs).map (.movMoffsEax c.os)
    | 0xCD => (dec8 bs).map .intN
    | 0xD6 => .illegal
    | 0xE4 => (dec8 bs).map .inAlImm8
    | 0xE5 => (dec8 bs).map (.inEaxImm8 c.os)
    | 0xE6 => (dec8 bs).map .outImm8Al
    | 0xE7 => (dec8 bs).map (.outImm8Eax c.os)
    | 0xE9 => (decImm c.os bs).map .jmpRel
    | 0xEB => (dec8 bs).map (.jmpRel8 c.os)
    | 0xEC => .ok .inAlDx bs
    | 0xED => .ok (.inEaxDx c.os) bs
    | 0xEE => .ok .outDxAl bs
    | 0xEF => .ok (.outDxEax c.os) bs
    | 0xF0 => .ok .lockPrefix bs
    | 0xF1 => .illegal
    | 0xF2 => .extra .repne
    | 0xF3 => .ok .repPrefix bs
    | 0xF4 => .ok .hlt bs
    | _ => decodeBase false op bs

/-- The decoder: one instruction or one prefix byte from the front of `bs` (30_encoding.md R227). -/
def decode (c : DecodeCtx) (bs : List Byte) : Dec Instr :=
  (dec8 bs).bind fun op rest => decode1 c op rest

/-! ### The encoder -/

/-- ModR/M, SIB and displacement of a memory operand with `r` in the reg field (30_encoding.md R223, R224). -/
def encEa (r : BitVec 3) : Ea → List Byte
  | .base16 b d => mkByte d.modBits r b.toBits :: encDisp16 d
  | .abs16 d => mkByte 0 r 6 :: enc16 d
  | .base32 b d => mkByte d.modBits r b.toBits :: encDisp32 d
  | .abs32 d => mkByte 0 r 5 :: enc32 d
  | .sib s i b d => mkByte d.modBits r 4 :: mkByte s i.toBits b.toBits :: encDisp32 d
  | .sibAbs s i d => mkByte 0 r 4 :: mkByte s i.toBits 5 :: enc32 d

def encRm {ρ : Type} (bits : ρ → BitVec 3) (r : BitVec 3) : Rm ρ → List Byte
  | .reg q => [mkByte 3 r (bits q)]
  | .mem m => encEa r m.ea

/-- The bytes of an instruction (30_encoding.md R228), in a context it fits (`Instr.wf`); the prefixes that made the context
are not among them. Bus cycles have none. -/
def encode : Instr → List Byte
  | .bswap _ r => [0x0F, mkByte 3 1 r.toBits]
  | .xaddRm8R8 rm r => 0x0F :: 0xC0 :: encRm Reg8.toBits r.toBits rm
  | .xaddRmR _ rm r => 0x0F :: 0xC1 :: encRm Reg.toBits r.toBits rm
  | .cmpxchgRm8R8 rm r => 0x0F :: 0xB0 :: encRm Reg8.toBits r.toBits rm
  | .cmpxchgRmR _ rm r => 0x0F :: 0xB1 :: encRm Reg.toBits r.toBits rm
  | .invd => [0x0F, 0x08]
  | .wbinvd => [0x0F, 0x09]
  | .invlpg m => 0x0F :: 0x01 :: encEa 7 m.ea
  | .rsm => [0x0F, 0xAA]
  | .cpuid => [0x0F, 0xA2]
  | .movAlMoffs m => 0xA0 :: encOffset m.off
  | .movEaxMoffs _ m => 0xA1 :: encOffset m.off
  | .movMoffsAl m => 0xA2 :: encOffset m.off
  | .movMoffsEax _ m => 0xA3 :: encOffset m.off
  | .movR8Rm8 r rm => 0x8A :: encRm Reg8.toBits r.toBits rm
  | .movRRm _ r rm => 0x8B :: encRm Reg.toBits r.toBits rm
  | .movRm8R8 rm r => 0x88 :: encRm Reg8.toBits r.toBits rm
  | .movRmR _ rm r => 0x89 :: encRm Reg.toBits r.toBits rm
  | .movR8Imm8 r v => [mkByte 2 6 r.toBits, v]
  | .movRImm r v => mkByte 2 7 r.toBits :: encImm v
  | .inAlImm8 p => [0xE4, p]
  | .inEaxImm8 _ p => [0xE5, p]
  | .inAlDx => [0xEC]
  | .inEaxDx _ => [0xED]
  | .outImm8Al p => [0xE6, p]
  | .outImm8Eax _ p => [0xE7, p]
  | .outDxAl => [0xEE]
  | .outDxEax _ => [0xEF]
  | .outsb _ _ => [0x6E]
  | .outswd _ _ _ => [0x6F]
  | .repPrefix => [0xF3]
  | .xchgRm8R8 rm r => 0x86 :: encRm Reg8.toBits r.toBits rm
  | .xchgRmR _ rm r => 0x87 :: encRm Reg.toBits r.toBits rm
  | .xchgEaxR _ r => [mkByte 2 2 r.toBits]
  | .lockPrefix => [0xF0]
  | .hlt => [0xF4]
  | .esc _ op reg rm => mkByte 3 3 op :: encRm id reg rm
  | .wait => [0x9B]
  | .jmpRel8 _ d => [0xEB, d]
  | .jmpRel d => 0xE9 :: encImm d
  | .intN v => [0xCD, v]
  | .movRCr r n => [0x0F, 0x20, mkByte 3 n r.toBits]
  | .movCrR n r => [0x0F, 0x22, mkByte 3 n r.toBits]
  | .movRDr r n => [0x0F, 0x21, mkByte 3 n r.toBits]
  | .movDrR n r => [0x0F, 0x23, mkByte 3 n r.toBits]
  | .movRTr r n => [0x0F, 0x24, mkByte 3 n r.toBits]
  | .movTrR n r => [0x0F, 0x26, mkByte 3 n r.toBits]
  | .pushf _ => [0x9C]
  | .popf _ => [0x9D]
  | .opSizePrefix => [0x66]
  | .addrSizePrefix => [0x67]
  | .intAckCycle _ | .specialCycle _ | .ioReadCycle _ | .ioWriteCycle _ | .codeReadCycle _ | .reservedCycle
  | .memReadCycle _ | .memWriteCycle _ | .shutdownCycle | .flushCycle | .secondFlushAckCycle | .haltCycle
  | .stopGrantCycle | .firstFlushAckCycle | .writeBackCycle => []

/-! ### Bus-cycle words (30_encoding.md R230, R231; the layout above bit 7 is the model's, log 2) -/

/-- The operand bits of a bus-cycle word: BE3#..BE0# in bits 11:8, A31:A2 in bits 41:12, data in bits 73:42. -/
def busOpOf (w : Nat) : BusOp :=
  ⟨BitVec.ofNat 30 (w / 2 ^ 12), BitVec.ofNat 4 (w / 2 ^ 8), BitVec.ofNat 32 (w / 2 ^ 42)⟩

/-- The bus cycle whose code stands in the low byte: M/IO#, D/C#, W/R# (R230), or for a special cycle also BE3#..BE0# and
the address qualifier (R231). -/
def decodeBus (w : Nat) : Option Instr :=
  match w % 256 with
  | 0 => some (.intAckCycle (busOpOf w))
  | 1 => some (.specialCycle (busOpOf w))
  | 2 => some (.ioReadCycle (busOpOf w))
  | 3 => some (.ioWriteCycle (busOpOf w))
  | 4 => some (.codeReadCycle (busOpOf w))
  | 5 => some .reservedCycle
  | 6 => some (.memReadCycle (busOpOf w))
  | 7 => some (.memWriteCycle (busOpOf w))
  | 0x3C => some .shutdownCycle
  | 0x3A => some .flushCycle
  | 0x3B => some .secondFlushAckCycle
  | 0x36 => some .haltCycle
  | 0x37 => some .stopGrantCycle
  | 0x2F => some .firstFlushAckCycle
  | 0x2E => some .writeBackCycle
  | _ => none

def BusOp.word (op : BusOp) : Nat := op.be.toNat * 2 ^ 8 + op.addr.toNat * 2 ^ 12 + op.data.toNat * 2 ^ 42

/-- The word of a bus-cycle row. -/
def encodeBus : Instr → Option Nat
  | .intAckCycle op => some op.word
  | .specialCycle op => some (1 + op.word)
  | .ioReadCycle op => some (2 + op.word)
  | .ioWriteCycle op => some (3 + op.word)
  | .codeReadCycle op => some (4 + op.word)
  | .reservedCycle => some 5
  | .memReadCycle op => some (6 + op.word)
  | .memWriteCycle op => some (7 + op.word)
  | .shutdownCycle => some 0x3C
  | .flushCycle => some 0x3A
  | .secondFlushAckCycle => some 0x3B
  | .haltCycle => some 0x36
  | .stopGrantCycle => some 0x37
  | .firstFlushAckCycle => some 0x2F
  | .writeBackCycle => some 0x2E
  | _ => none

/-! ### The opcode table's words -/

/-- The bytes of an instruction whose bits are `w`, numbered as spec/opcode_table.json numbers them: its match strings have
the first byte leftmost, so the first byte is the most significant of the `nbits / 8`; zeros follow, up to fifteen bytes. -/
def tableBytes (nbits w : Nat) : List Byte :=
  ((List.range (nbits / 8)).map fun k => BitVec.ofNat 8 (w / 2 ^ (8 * (nbits / 8 - 1 - k))))
    ++ List.replicate (15 - nbits / 8) 0

/-- The decoding context right after reset: real mode, 16-bit sizes (30_encoding.md R226). -/
def DecodeCtx.reset : DecodeCtx := ⟨.w16, .a16, none⟩

/-- The instruction the decoder reads from a row's bits: instruction bytes first, else a bus-cycle word (log 2). -/
def decodeTableWord (nbits w : Nat) : Option Instr :=
  match decode DecodeCtx.reset (tableBytes nbits w) with
  | .ok i _ => some i
  | _ => decodeBus w

end Sys2Proof
end

