-- ==== Sys2Proof/Config.lean ====
section
/-! DEFINITION. What the installed part fixes (00_scope.md R9 to R11, R21), the shapes of the registers, of the cache and of the
TLB (10_state.md R40 to R78), and the free values: constants with no body, for what the spec leaves open (log 7, 8, 17, 18,
19, 20, 22, 27, 39). -/

set_option Elab.async false

namespace Sys2Proof

namespace Machine

/-! ### Registers -/

/-- The eight general registers (10_state.md R40). -/
structure Regs where
  eax : DWord
  ecx : DWord
  edx : DWord
  ebx : DWord
  esp : DWord
  ebp : DWord
  esi : DWord
  edi : DWord
  deriving DecidableEq, Repr, Inhabited

/-- A segment register with its hidden part (10_state.md R46). `ar` holds descriptor bits 55:40. -/
structure Seg where
  sel : Word
  base : DWord
  limit : DWord
  ar : Word
  deriving DecidableEq, Repr, Inhabited

/-- The six segment registers (10_state.md R46). -/
structure Segs where
  es : Seg
  cs : Seg
  ss : Seg
  ds : Seg
  fs : Seg
  gs : Seg
  deriving DecidableEq, Repr, Inhabited

/-- GDTR or IDTR (10_state.md R58, R59). -/
structure TableReg where
  base : DWord
  limit : Word
  deriving DecidableEq, Repr, Inhabited

/-- How far a repeated string I/O instruction steps back when it is restarted: (E)CX by one, (E)SI or (E)DI by `delta`
(60_exceptions.md R675). -/
structure StepBack where
  as : AddrSize
  /-- The register is (E)DI, not (E)SI. -/
  dst : Bool
  delta : DWord
  deriving DecidableEq, Repr

end Machine

open Machine

/-! ### The part -/

/-- The family members (00_scope.md R3, R11 `Variant`). -/
inductive Variant where
  | dx | sx | sx2 | dx2 | dx2wb | dx4
  deriving DecidableEq, Repr

/-- What CPUID leaves in EAX, EBX, ECX and EDX (43_instructions_new.md R495). -/
structure CpuidRegs where
  eax : DWord
  ebx : DWord
  ecx : DWord
  edx : DWord
  deriving DecidableEq, Repr

/-- The floating-point registers (10_state.md R62 to R66). -/
structure Fpu where
  st0 : BitVec 80
  st1 : BitVec 80
  st2 : BitVec 80
  st3 : BitVec 80
  st4 : BitVec 80
  st5 : BitVec 80
  st6 : BitVec 80
  st7 : BitVec 80
  control : Word
  status : Word
  tag : Word
  /-- The instruction pointer register: selector and offset of the first byte, prefixes included (R66, log 8). -/
  ipSel : Word
  ip : DWord
  /-- The eleven opcode bits of the last floating-point instruction (R66). -/
  opcode : BitVec 11
  /-- The data pointer register: selector and offset of the operand (R66, log 8). -/
  dpSel : Word
  dp : DWord
  deriving DecidableEq, Repr, Inhabited

/-- `ResetState` (00_scope.md R21, 10_state.md R90 to R95): the program-visible registers after RESET. -/
structure ResetState where
  regs : Regs
  eip : DWord
  eflags : DWord
  segs : Segs
  ldtr : Seg
  tr : Seg
  gdtr : TableReg
  idtr : TableReg
  cr0 : DWord
  cr2 : DWord
  cr3 : DWord
  cr4 : DWord
  dr0 : DWord
  dr1 : DWord
  dr2 : DWord
  dr3 : DWord
  dr6 : DWord
  dr7 : DWord
  tr3 : DWord
  tr4 : DWord
  tr5 : DWord
  tr6 : DWord
  tr7 : DWord
  /-- The floating-point registers; none: they stay as they were before the reset (10_state.md R95, log 4). -/
  fpu : Option Fpu
  deriving DecidableEq, Repr

/-- The parameters of an installed part (00_scope.md R11, R21). No step changes them. -/
structure Part where
  variant : Variant
  /-- SL technology on a member that may lack it (R11; see `Part.hasSL`). -/
  sl : Bool
  /-- `HasExt`: CR4, EFLAGS.ID, VIF, VIP, CPUID, 4MB pages (R11). -/
  hasExt : Bool
  /-- `HasBoundaryScan` (R11): the five TAP pins are there; they act on nothing (40_signal_interface.md R316, D15). -/
  hasBoundaryScan : Bool
  /-- `CpuidValue` (R11, 43_instructions_new.md R495): what CPUID answers for input 1, but that without a floating-point unit bit 0 of EDX
  reads 0 (`Part.cpuidFeatures`). -/
  cpuidOne : CpuidRegs
  /-- What CPUID answers for the other inputs listed. -/
  cpuid : List (DWord × CpuidRegs)
  /-- What CPUID answers for every input that is neither; none: the same as for input 1 (93_implementation_defined.md U43). -/
  cpuidOther : Option CpuidRegs
  /-- The SMM revision identifier (10_state.md R73, 60_exceptions.md R673). -/
  smmRevision : DWord
  /-- `PteCacheBits`: false = PWT bit 3 and PCD bit 4 (the default), true = the order the source prints (20_memory.md R160). -/
  pteBitsAsPrinted : Bool
  /-- `PagingOffAttr`: false = both pins zero (the default), true = from CR3 (20_memory.md R167). -/
  pagingOffFromCr3 : Bool
  /-- `FlushAckAddress` (30_encoding.md R233). -/
  flushAckAddress : DWord
  /-- `ResetState` (R21, D6). -/
  resetState : ResetState
  deriving DecidableEq, Repr

/-- `HasFPU` (00_scope.md R11): absent on the SX members. -/
def Part.hasFPU (p : Part) : Bool :=
  match p.variant with
  | .sx | .sx2 => false
  | .dx | .dx2 | .dx2wb | .dx4 => true

/-- `HasSL`: SMM, STPCLK#, SRESET, auto-HALT (00_scope.md R11). The DX2WB and the DX4 always have it (45_family_variants.md
R596, R599, D2). -/
def Part.hasSL (p : Part) : Bool :=
  match p.variant with
  | .dx2wb | .dx4 => true
  | .dx | .sx | .sx2 | .dx2 => p.sl

/-- `CacheSets` = 256 on the 486DX4, 128 on the other members (00_scope.md R10). -/
def Part.bigCache (p : Part) : Bool := p.variant == .dx4

/-- What a floating-point instruction hands to `Fpu387`: the mode and the operand size, which select the image of FSTENV and FSAVE
(10_state.md R66), the escape opcode's bits, the register operand or none, the bytes of its memory operand, the floating-point
registers (00_scope.md R8). -/
structure FpuCall where
  /-- Protected mode; not real, virtual-8086 or system management mode. -/
  prot : Bool
  /-- A 32-bit operand size. -/
  wide : Bool
  op : BitVec 3
  reg : BitVec 3
  rm : Option (BitVec 3)
  operand : List Byte
  fpu : Fpu
  deriving DecidableEq, Repr

/-- What `Fpu387` answers: the new registers, its status register with the exception flags among them, and what it stores. -/
structure FpuResult where
  fpu : Fpu
  /-- The bytes to store; none: it stores nothing (log 8). -/
  store : Option (List Byte)
  deriving DecidableEq, Repr, Inhabited

/-- A cache line's MESI state (45_family_variants.md R580). On a write-through member a valid line is `shared` (written
through) and an invalid one `invalid` (10_state.md R75). -/
inductive Mesi where
  | modified | exclusive | shared | invalid
  deriving DecidableEq, Repr, Inhabited

/-- One cache line: tag, state, sixteen bytes (10_state.md R74). -/
structure Line where
  tag : BitVec 21
  st : Mesi
  data : Vector Byte 16
  deriving DecidableEq, Repr, Inhabited

/-- One directory entry: four ways and the LRU bits B2 B1 B0 (10_state.md R74). -/
structure CacheSet where
  ways : Vector Line 4
  lru : BitVec 3
  deriving DecidableEq, Repr, Inhabited

/-- The internal cache: 256 sets, of which the members with an 8KB cache use the first 128 (00_scope.md R10). -/
abbrev Cache := Vector CacheSet 256

/-- One TLB entry (10_state.md R78): linear page, frame, and the attributes of 20_memory.md R163, R167. -/
structure TlbEntry where
  valid : Bool
  page : BitVec 20
  frame : BitVec 20
  writable : Bool
  user : Bool
  dirty : Bool
  pcd : Bool
  pwt : Bool
  /-- The entry maps part of a 4MB page (20_memory.md R165). -/
  big : Bool
  deriving DecidableEq, Repr, Inhabited

/-- The TLB: entry `4 * set + way`, eight sets of four ways (10_state.md R78). -/
abbrev Tlb := Vector TlbEntry 32

/-! ### The 80386 instruction set -/

/-- The registers that an 80386 instruction reads and may change (00_scope.md R8 `Base386`). -/
structure BaseRegs where
  regs : Regs
  eflags : DWord
  segs : Segs
  ldtr : Seg
  tr : Seg
  gdtr : TableReg
  idtr : TableReg
  cr0 : DWord
  cr3 : DWord
  dr7 : DWord
  cpl : BitVec 2
  deriving DecidableEq, Repr, Inhabited

/-- How an 80386 instruction ends. -/
structure BaseResult where
  left : BaseRegs
  /-- The segment registers it has loaded; no other one changes. -/
  loaded : List SegReg
  /-- EIP of a control transfer; none goes on with the next instruction. -/
  target : Option DWord
  /-- A repeated string instruction with iterations to come: EIP stays at its first byte (60_exceptions.md R646). -/
  again : Bool
  /-- The instruction was an I/O instruction, with the step of a repeated one (60_exceptions.md R675). -/
  io : Option (Option StepBack)
  /-- A debug trap is due before the next instruction: the task switched to asks for one (60_exceptions.md R637). -/
  debugTrap : Bool
  deriving DecidableEq, Repr, Inhabited

/-- The exceptions that are `Base386`'s to raise (60_exceptions.md R624), those that name a selector with their error code. The others
come from its accesses, or have rules of their own. -/
inductive BaseExc where
  | divideError | boundRange | invalidOpcode
  | invalidTss (code : Word)
  | segmentNotPresent (code : Word)
  | stackFault (code : Word)
  | generalProtection (code : Word)
  deriving DecidableEq, Repr, Inhabited

/-- An 80386 instruction as `Base386` gives it: memory, port and code accesses by the primitives of 00_scope.md R17, then the
registers it leaves, or an exception. It changes memory only once nothing can raise an exception any more (60_exceptions.md R627): at
its end, at a port access or at a `commit`; a read sees what it has written before. -/
inductive BaseOp where
  | done (r : BaseResult)
  /-- The registers it leaves so far stay, whatever comes: a task switch goes on, and faults, in the new task. -/
  | commit (r : BaseResult) (k : BaseOp)
  /-- The next byte of the instruction. -/
  | fetch (k : Byte → BaseOp)
  /-- LinRead and LinWrite of an operand. -/
  | read (seg : SegReg) (off : DWord) (n : Nat) (k : List Byte → BaseOp)
  | write (seg : SegReg) (off : DWord) (bs : List Byte) (k : BaseOp)
  /-- The checks of LinWrite alone, of `n` bytes: before a port is read for them, or where nothing is stored. -/
  | check (seg : SegReg) (off : DWord) (n : Nat) (k : BaseOp)
  /-- A push on the stack of another privilege level, which is not loaded yet: its segment and pointer, the level, the selector's error
  code; goes on with the pointer below it. -/
  | push (seg : Seg) (sp : DWord) (lvl : BitVec 2) (code : Word) (bs : List Byte) (k : DWord → BaseOp)
  /-- A read-modify-write of an operand. -/
  | update (seg : SegReg) (off : DWord) (n : Nat) (f : List Byte → List Byte) (k : List Byte → BaseOp)
  /-- MemRead and MemWrite. -/
  | memRead (pa : Addr) (n : Nat) (k : List Byte → BaseOp)
  | memWrite (pa : Addr) (bs : List Byte) (k : BaseOp)
  /-- A supervisor read of a system table: of a descriptor or a gate all eight bytes (44_instructions_referenced.md R550). -/
  | tableRead (lin : Addr) (n : Nat) (k : List Byte → BaseOp)
  /-- A supervisor write of a system table: outside the TSS in force it is a locked read-modify-write (20_memory.md R180). -/
  | tableWrite (lin : Addr) (bs : List Byte) (k : BaseOp)
  /-- The update of a descriptor that has been read: a locked read-modify-write (20_memory.md R180). -/
  | tableUpdate (lin : Addr) (n : Nat) (f : List Byte → List Byte) (k : BaseOp)
  | portRead (port : Word) (n : Nat) (k : List Byte → BaseOp)
  | portWrite (port : Word) (bs : List Byte) (k : BaseOp)
  | raise (e : BaseExc)
  deriving Inhabited

/-- What is asked of `Base386`: an opcode, or a task switch (60_exceptions.md R625, R626). -/
inductive BaseKind where
  /-- An opcode, with its ModR/M byte where that has been read already. -/
  | opcode (twoByte : Bool) (b : Byte) (modRm : Option Byte)
  /-- An interrupt or exception through a task gate: its vector and error code, and the EIP and the flags that the old task saves
  (60_exceptions.md R627). -/
  | taskGate (tss : Word) (vector : Byte) (code : Option DWord) (pc flags : DWord)
  /-- IRET with NT = 1. -/
  | taskReturn
  deriving DecidableEq, Repr

/-- What `Base386` is given. -/
structure BaseCall where
  kind : BaseKind
  os : OpSize
  as : AddrSize
  seg : Option SegReg
  lock : Bool
  rep : Bool
  repne : Bool
  /-- The offset of the instruction's first byte, and of the next byte, which is not cut to 16 bits (log 49). -/
  start : DWord
  eip : DWord
  state : BaseRegs
  /-- A number that no other call has: `Base386` is a relation. -/
  draw : Nat
  deriving DecidableEq, Repr

/-- A LOCK'd 80386 instruction with its memory destination read (44_instructions_referenced.md R536): the opcode, the reg field of its
ModR/M byte, the immediate's bytes, the destination's bytes, the registers. -/
structure LockedCall where
  twoByte : Bool
  b : Byte
  reg : BitVec 3
  imm : List Byte
  old : List Byte
  state : BaseRegs
  draw : Nat
  deriving DecidableEq, Repr

/-- What it makes of its destination, and the flags it leaves. -/
structure LockedResult where
  new : List Byte
  eflags : DWord
  deriving DecidableEq, Repr, Inhabited

/-! ### Free values -/

/-- A free 32-bit value: BSWAP's 16-bit result (U11), the general registers and DR6 after SMM entry (U1, U2), undefined
flags (U23). Applied to the counter `Bus.draws` (log 19). -/
opaque Config.freeDWord : Nat → DWord
/-- The TLB way that a new translation replaces (U9, log 18). -/
opaque Config.tlbWay : Nat → BitVec 2
/-- Whether a fetch of a byte that differs between the prefetch queue and memory sees the old one (U24, log 27). -/
opaque Config.fetchSeesOld : Nat → Bool
/-- The data an I/O read returns when the environment queued none (D23, U32, log 17). -/
opaque Config.ioData : Nat → DWord
/-- `Fpu387` (00_scope.md R8): the 80387 instruction set (log 8). -/
opaque Config.fpu387 : FpuCall → FpuResult
/-- The cache after a write of test register `n` (10_state.md R69, U15, log 20). -/
opaque Config.cacheAfterTest : Nat → DWord → Cache → Cache
/-- The TLB after a write of test register `n` (10_state.md R69, U15, log 20). -/
opaque Config.tlbAfterTest : Nat → DWord → Tlb → Tlb

/-- `Base386` (00_scope.md R8): the 80386 instruction set (log 7). -/
opaque Config.base386 : BaseCall → BaseOp
/-- How many bytes an instruction of `Base386`, or an invalid opcode, has after its prefixes, at an operand and an address size (00_scope.md
R8; log 27). -/
opaque Config.base386Length : OpSize → AddrSize → List Byte → Nat
/-- `Base386` of the LOCK'd instructions: they access memory in one locked sequence only (44_instructions_referenced.md R536; log 7). -/
opaque Config.base386Locked : LockedCall → LockedResult
/-- What the reserved bytes of the SMM state-save area hold, by their place in the image (30_encoding.md R237; log 22). -/
opaque Config.smmReserved : Nat → Nat → Byte

/-- The level of VOLDET on a DX4, which the source does not give (45_family_variants.md R595; log 39). -/
opaque Config.voldet : Bool

/-- What CPUID answers for input 1: the feature bit of the floating-point unit, EDX bit 0, reads 0 on a part without one
(45_family_variants.md R565, 43_instructions_new.md R495; log 26). -/
def Part.cpuidFeatures (p : Part) : CpuidRegs :=
  { p.cpuidOne with edx := if p.hasFPU then p.cpuidOne.edx else p.cpuidOne.edx &&& 0xFFFFFFFE#32 }

/-- `CpuidValue` (43_instructions_new.md R495; log 26). -/
def Part.cpuidValue (p : Part) (input : DWord) : CpuidRegs :=
  if input = 1 then p.cpuidFeatures
  else
    match p.cpuid.find? (fun e => e.1 == input) with
    | some e => e.2
    | none => p.cpuidOther.getD p.cpuidFeatures

end Sys2Proof
end

