-- ==== Sys2Proof/Machine/State.lean ====
section
/-! DEFINITION. The state of the machine as plain data (10_state.md R40 to R83), the reasons a step stops, and the state after
RESET (10_state.md R90 to R98, log 4, 5). -/

set_option Elab.async false

namespace Sys2Proof.Machine

/-- No meaning raises a fault: every address of the 4GB space exists (20_memory.md R140), and every exception of the machine
is taken (60_exceptions.md R625). -/
inductive Fault where
  /-- An access to an address that does not exist. Raised by nothing: safe. -/
  | noSuchAddress
  deriving DecidableEq, Repr

/-- Why a step has no meaning. Every one of them stops the run where the hardware goes on: safe. -/
inductive Refusal where
  /-- An instruction whose meaning is not written. Raised by the dispatcher: safe. -/
  | notModelled (mnemonic : String)
  /-- RSM with bit 0 of the auto-HALT slot set by the handler (60_exceptions.md R672, U3; log 23). Raised by RSM: safe. -/
  | rsmHaltSlot
  /-- RSM with an I/O restart slot that is neither 0000h nor 00FFh (R675, U4; log 23). Raised by RSM: safe. -/
  | ioRestartSlot
  /-- RSM after the handler changed a part of the state-save map it must not change (R661, U8; log 23). Raised by RSM: safe. -/
  | saveMapAltered
  /-- An input other than INTR, NMI, SMI# changes while CLK is stopped (R703, U16). Raised by the step: safe. -/
  | inputWhileClockStopped
  /-- CLK is removed outside the Stop Grant state (R703). Raised by the step: safe. -/
  | clkRemoved
  /-- A virtual-8086 INT n with CR4.VME = 1 or protected-mode CLI or STI with CR4.PVI = 1 (10_state.md R57, U14; log 21).
  Raised by INT n, PUSHF, POPF and by the step: safe. -/
  | vmeUndisclosed
  /-- The bus cycle definition 101b, which the processor never drives (30_encoding.md R230). Raised by the row Reserved: safe. -/
  | reservedCycle
  /-- A special cycle that the installed part does not run (30_encoding.md R231). Raised by the rows Stop Grant Acknowledge and
  the two Flush Acknowledge cycles on the members without them: safe. -/
  | cycleNotOnMember
  deriving DecidableEq, Repr

/-! ### Memory -/

/-- A sparse memory: (address, byte) pairs, addresses strictly rising, no byte 00h listed (log 6). -/
abbrev Memory := List Host.Cell

/-! ### The bus unit -/

/-- The kinds of bus cycle (30_encoding.md R230). -/
inductive CycleKind where
  | intAck | special | ioRead | ioWrite | codeRead | memRead | memWrite
  deriving DecidableEq, Repr

/-- One item moved on the bus, with the pins that went with it (42_bus_transactions.md R400). -/
structure BusCycle where
  kind : CycleKind
  /-- A31:A2. -/
  addr : BitVec 30
  /-- BE3#..BE0#, pin levels: 0 is asserted. -/
  be : BitVec 4
  data : DWord
  lock : Bool
  plock : Bool
  pcd : Bool
  pwt : Bool
  /-- CACHE# asserted (45_family_variants.md R575). -/
  cache : Bool
  /-- DP3..DP0 (40_signal_interface.md R266). -/
  dp : BitVec 4
  /-- ADS# was asserted for this item: it starts a bus cycle; false in a burst continuation. -/
  ads : Bool
  /-- BLAST# asserted at the item's ready. -/
  blast : Bool
  /-- The bus clocks the item took (42_bus_transactions.md R470). -/
  clocks : Nat
  deriving DecidableEq, Repr

/-- One write buffer (10_state.md R76). -/
structure WbEntry where
  io : Bool
  addr : BitVec 30
  /-- The bytes to write, bit i for byte i (1 = written). -/
  lanes : BitVec 4
  data : DWord
  hit : Bool
  pcd : Bool
  pwt : Bool
  /-- PLOCK# goes with it: more of the same operand follows (20_memory.md R183). -/
  plock : Bool
  /-- A write of the same operand has gone before it. -/
  follows : Bool
  deriving DecidableEq, Repr

/-- One byte of the prefetch queue or of a decode stage (10_state.md R77). -/
structure QByte where
  addr : Addr
  byte : Byte
  /-- What the address held when it was read, or what another master has written there since (20_memory.md R184, log 27). -/
  mem : Byte
  deriving DecidableEq, Repr

/-- The code bytes read ahead, in the order in which they are to run (10_state.md R77, 20_memory.md R184). -/
structure FetchQueue where
  /-- The running instruction and the two in the decode stages (00_scope.md R9): at most fifteen bytes each (30_encoding.md R227). -/
  stages : List QByte
  /-- The prefetch queue: at most 32 bytes (00_scope.md R9). -/
  queue : List QByte
  deriving DecidableEq, Repr

def FetchQueue.empty : FetchQueue := ⟨[], []⟩

/-- All the code bytes read ahead, first the next to run. -/
def FetchQueue.bytes (q : FetchQueue) : List QByte := q.stages ++ q.queue

/-- A request that waits for the bus: a row of the opcode table (log 2) or the write-back of a modified line that a snoop hit,
with HITM# asserted (45_family_variants.md R584, R586). -/
inductive BusReq where
  | row (i : Instr)
  | writeBack (line : BitVec 28) (data : Vector Byte 16)
  deriving DecidableEq, Repr

/-- The pins that go with a cycle (40_signal_interface.md R268, R269, R297, R298; 45_family_variants.md R575). -/
structure CycleAttr where
  lock : Bool
  plock : Bool
  pcd : Bool
  pwt : Bool
  cache : Bool
  deriving DecidableEq, Repr

/-- A doubleword of a transfer: the lanes still to move, what is written (or what a device answers), what has been read. -/
structure BusPart where
  addr : BitVec 30
  lanes : BitVec 4
  data : DWord
  got : DWord
  deriving DecidableEq, Repr

/-- A transfer of the bus unit: one operand, line, message or acknowledge, in one or more bus cycles (10_state.md R79,
42_bus_transactions.md R400). -/
structure Xfer where
  kind : CycleKind
  attr : CycleAttr
  /-- A transfer of the same operand has gone before it: until its first address is driven PLOCK# stays asserted (20_memory.md R183). -/
  follows : Bool
  /-- The doublewords still to move, the first in progress. -/
  parts : List BusPart
  /-- The processor would cache what it reads (20_memory.md R168). -/
  want : Bool
  /-- The first ready has been sampled (41_cache_operations.md R352). -/
  decided : Bool
  /-- The read has become a line fill. -/
  fill : Bool
  /-- WB/WT# at the first ready (45_family_variants.md R583). -/
  wbwt : Bool
  /-- KEN# at the end of the clock before (41_cache_operations.md R352). -/
  ken : Bool
  /-- A snoop has invalidated the line being filled (41_cache_operations.md R366). -/
  stale : Bool
  /-- It writes back a line that a snoop hit: HITM# (45_family_variants.md R575). -/
  hitm : Bool
  /-- The bus size sampled at the end of its bus cycle's T1: 8, 16 or 32; none where no T1 has ended yet (42_bus_transactions.md R425). -/
  size : Option Nat
  /-- ADS# was asserted for the item in progress. -/
  ads : Bool
  /-- The clocks the item has taken. -/
  spent : Nat
  /-- Idle clocks to come before its first cycle (42_bus_transactions.md R410). -/
  idle : Nat
  /-- LOCK# is asserted already when its next cycle starts (20_memory.md R180). -/
  cont : Bool
  deriving DecidableEq, Repr

/-- The states of the bus unit (42_bus_transactions.md R460). -/
inductive BusPhase where
  | ti | t1 | t2 | tb | t1b
  deriving DecidableEq, Repr

/-- How CLKMUL is tied on a DX4 (45_family_variants.md R593). -/
inductive ClkMul where
  | vss | breq | vcc | unconnected
  deriving DecidableEq, Repr

/-- A reset: RESET with UP#, WB/WT# and CLKMUL as its falling edge samples them, or SRESET (70_reset_and_hazards.md R741 to
R743). -/
inductive ResetIn where
  | hard (up : Bool) (wbwt : Bool) (clkmul : ClkMul)
  | soft
  deriving DecidableEq, Repr

/-- The pins that the bus unit samples at the end of one clock, true is asserted (40_signal_interface.md R325), and what another
bus master writes in that clock. -/
structure ClockIn where
  rdy : Bool
  brdy : Bool
  ken : Bool
  /-- WB/WT# high. -/
  wbwt : Bool
  bs8 : Bool
  bs16 : Bool
  boff : Bool
  ahold : Bool
  hold : Bool
  /-- EADS# with A31:A4 and INV. -/
  eads : Option (BitVec 28 × Bool)
  /-- The lanes whose parity bit is wrong. -/
  badParity : BitVec 4
  /-- Another master writes a byte, in SMRAM or in main memory (D23). -/
  master : Option (Bool × Addr × Byte)
  /-- A reset is sampled; it ends whatever runs. -/
  reset : Option ResetIn
  deriving DecidableEq, Repr

/-- The bus unit, the cache, the TLB and the memories behind them. -/
structure Bus where
  mem : Memory
  smram : Memory
  cache : Cache
  /-- The write buffers, oldest first (10_state.md R76). -/
  wb : List WbEntry
  readPassed : Bool
  /-- The prefetch queue and the two decode stages (10_state.md R77, 20_memory.md R184). -/
  fetchq : FetchQueue
  tlb : Tlb
  phase : BusPhase
  /-- The transfers in progress, the first on the bus (10_state.md R79). -/
  cur : List Xfer
  /-- The line-fill buffer: the doublewords read by the transfer, newest first (10_state.md R79, 42_bus_transactions.md R451). -/
  fillBuf : List BusPart
  queue : List BusReq
  /-- The data of the last read cycle (40_signal_interface.md R265). -/
  dataIn : DWord
  /-- The vector of the last interrupt acknowledge (42_bus_transactions.md R410). -/
  vector : Byte
  /-- PCHK# (40_signal_interface.md R267). -/
  pchk : Bool
  /-- The data that I/O devices will return, first the next (log 17). -/
  ioIn : List DWord
  /-- The pins in the coming clocks of the bus unit; past them the environment answers as `Platform` says (log 15, 41). -/
  script : List ClockIn
  /-- HOLD, and AHOLD or BOFF#, at the end of the last clock of the script. -/
  heldHold : Bool
  heldAddr : Bool
  /-- The bus cycles run, newest first. MODEL's own. -/
  trace : List BusCycle
  /-- The bus clocks run. MODEL's own. -/
  clocks : Nat
  /-- The number of free values drawn. MODEL's own (log 19). -/
  draws : Nat
  deriving DecidableEq, Repr

/-! ### The platform -/

/-- An inclusive range of addresses. -/
structure Range where
  lo : Nat
  hi : Nat
  deriving DecidableEq, Repr

/-- How the environment answers bus cycles (42_bus_transactions.md R402; log 15). -/
structure Platform where
  /-- KEN# is not returned (41_cache_operations.md R388). -/
  nonCacheable : List Range
  /-- WB/WT# is low at a fill (45_family_variants.md R583). -/
  writeThrough : List Range
  bus8 : List Range
  bus16 : List Range
  ioBus8 : List Range
  ioBus16 : List Range
  /-- SMRAM beyond the minimum (60_exceptions.md R658). -/
  smramWindows : List Range
  badParity : List Range
  ioBadParity : List Range
  /-- The interrupt acknowledge data has bad parity. -/
  ackBadParity : Bool
  /-- KEN# is inactive at the validation point (41_cache_operations.md R352). -/
  kenAbort : Bool
  /-- BRDY# is returned where a burst is possible (41_cache_operations.md R354). -/
  burst : Bool
  /-- Wait states before each item (42_bus_transactions.md R421). -/
  waits : Nat
  /-- The bus is busy whenever a write is requested: writes wait in the buffers until something drains them. -/
  lazyBus : Bool
  deriving DecidableEq, Repr

/-! ### The processor -/

/-- Clock-control states (10_state.md R80). -/
inductive ClockState where
  | normal | stopGrant | stopClock | autoHaltPowerDown | stopClockSnoop | autoHaltPowerDownFlush
  deriving DecidableEq, Repr

/-- The latches of RESET (10_state.md R83, 70_reset_and_hazards.md R743). `clockMul` is twice the multiplier. -/
structure Latch where
  writeBackMode : Bool
  clockMul2 : Nat
  upgradePresent : Bool
  deriving DecidableEq, Repr

/-- The last completed I/O instruction (60_exceptions.md R675, D22): by how much EIP passed it, and its REP step. -/
structure IoInfo where
  len : DWord
  rep : Option StepBack
  deriving DecidableEq, Repr

/-- Pending edge-triggered requests (10_state.md R83). -/
structure Pending where
  nmi : Bool
  smi : Bool
  flush : Bool
  deriving DecidableEq, Repr

/-- Input pins that act by level; true is asserted. -/
structure Pins where
  intr : Bool
  /-- What the interrupt controller would drive on D7:D0 (60_exceptions.md R621). -/
  intVector : Byte
  stpclk : Bool
  a20m : Bool
  ignne : Bool
  hold : Bool
  ahold : Bool
  boff : Bool
  flush : Bool
  deriving DecidableEq, Repr

/-- The prefixes seen so far of the instruction being decoded (30_encoding.md R220, R221; log 1). -/
structure Decoding where
  active : Bool
  /-- The offset of the instruction's first byte, its first prefix (60_exceptions.md R627). -/
  start : DWord
  /-- The bytes taken so far. -/
  count : Nat
  lock : Bool
  rep : Bool
  repne : Bool
  osz : Bool
  asz : Bool
  seg : Option SegReg
  /-- EFLAGS.TF when the instruction began (60_exceptions.md R637). -/
  tf : Bool
  /-- EFLAGS.RF when the instruction began (log 32). -/
  rf : Bool
  deriving DecidableEq, Repr

/-- No prefix seen. -/
def Decoding.idle : Decoding := ⟨false, 0, 0, false, false, false, false, false, none, false, false⟩

/-- What the environment does, one event a step (40_signal_interface.md R325; log 17). -/
inductive Input where
  | intr (level : Bool) (vector : Byte)
  | nmi
  | smi
  | stpclk (level : Bool)
  | flush (level : Bool)
  | a20m (level : Bool)
  | ignne (level : Bool)
  | hold (level : Bool)
  | ahold (level : Bool)
  | boff (level : Bool)
  /-- EADS# with A31:A4 and INV. -/
  | snoop (line : BitVec 28) (inv : Bool)
  /-- The falling edge of RESET with UP#, WB/WT#, CLKMUL. -/
  | reset (up : Bool) (wbwt : Bool) (clkmul : ClkMul)
  | sreset
  | removeClk
  | restoreClk
  /-- Another bus master writes a byte of SMRAM or of main memory: which one the platform decodes is the event's (D23, log 16). -/
  | masterWrite (smram : Bool) (addr : Addr) (b : Byte)
  /-- The data of a coming I/O read. -/
  | ioData (d : DWord)
  | platform (p : Platform)
  /-- One clock of the bus unit between instructions (42_bus_transactions.md R461). -/
  | busClock (k : ClockIn)
  /-- The pins in the clocks of the bus cycles to come (log 41). -/
  | script (ks : List ClockIn)
  /-- The prefetcher runs (00_scope.md R13; log 27). -/
  | prefetch
  deriving DecidableEq, Repr

/-- What SMM entry saves besides the slots of the state-save map that the spec lays out (60_exceptions.md R661; log 22). -/
structure SmmHidden where
  segs : Segs
  ldtr : Seg
  tr : Seg
  gdtr : TableReg
  idtr : TableReg
  cpl : BitVec 2
  shadow : Bool
  ssShadow : Bool
  trapPending : Bool
  taskTrap : Bool
  dbgHits : BitVec 4
  deriving DecidableEq, Repr

/-- An exception, interrupt or trap to deliver (60_exceptions.md R624, R625). -/
structure Exc where
  vector : Byte
  code : Option DWord
  /-- The saved pc is the instruction's first byte (a fault), else the next instruction's (R627). -/
  fault : Bool
  /-- A software interrupt: the gate's DPL is checked (R625). -/
  soft : Bool
  /-- The linear address a page fault puts in CR2 (R631). -/
  lin : Option Addr
  /-- The bits of DR6 that a debug exception sets (R637; log 32). -/
  dr6 : DWord
  deriving DecidableEq, Repr

structure State where
  part : Part
  latch : Latch
  regs : Regs
  eip : DWord
  eflags : DWord
  segs : Segs
  ldtr : Seg
  tr : Seg
  gdtr : TableReg
  idtr : TableReg
  cr0 : DWord
  cr2 : DWord
  cr3 : DWord
  cr4 : DWord
  dr0 : DWord
  dr1 : DWord
  dr2 : DWord
  dr3 : DWord
  dr6 : DWord
  dr7 : DWord
  tr3 : DWord
  tr4 : DWord
  tr5 : DWord
  tr6 : DWord
  tr7 : DWord
  cpl : BitVec 2
  fpu : Fpu
  fpErrorPending : Bool
  smbase : DWord
  inSMM : Bool
  smiLatched : Bool
  nmiBlocked : Bool
  haltedAtSmi : Bool
  ioAtSmi : Option IoInfo
  smmImage : List Byte
  smmHidden : Option SmmHidden
  halted : Bool
  shutdown : Bool
  clock : ClockState
  snoopReturn : ClockState
  pend : Pending
  inNmi : Bool
  trapPending : Bool
  /-- A task switch has asked for a debug trap in the new task (60_exceptions.md R637, `Base386`). -/
  taskTrap : Bool
  /-- STI, MOV SS or POP SS has just run: INTR waits for one instruction (60_exceptions.md R646). -/
  shadow : Bool
  /-- MOV SS or POP SS has just run: NMI and debug traps wait too (60_exceptions.md R646). -/
  ssShadow : Bool
  /-- Frozen before a floating-point instruction by a pending error (60_exceptions.md R635). -/
  frozen : Bool
  /-- An instruction waits for the bus (40_signal_interface.md R285). -/
  busWanted : Bool
  /-- The data breakpoints that the accesses since the last boundary hit (60_exceptions.md R637). -/
  dbgHits : BitVec 4
  pins : Pins
  dec : Decoding
  lastIo : Option IoInfo
  inputs : List Input
  platform : Platform
  /-- An exception still to be delivered, the last so far of a long row in which each was raised by the delivery of the one before
  (60_exceptions.md R636; log 28). MODEL's own. -/
  serial : Option Exc
  bus : Bus
  deriving DecidableEq, Repr

/-! ### Reset values -/

/-- A data segment register after RESET (10_state.md R92, log 4). -/
def Seg.resetData : Seg := ⟨0, 0, 0xFFFF#32, 0x0093#16⟩

/-- The default of `ResetState` (10_state.md R91 to R95; log 4). -/
def defaultResetState : ResetState :=
  { regs := { eax := 0, ecx := 0, edx := 0x0410#32, ebx := 0, esp := 0, ebp := 0, esi := 0, edi := 0 }
    eip := 0x0000FFF0#32
    eflags := 0x00000002#32
    segs := { es := Seg.resetData, cs := ⟨0xF000#16, 0xFFFF0000#32, 0xFFFF#32, 0x0093#16⟩, ss := Seg.resetData
              ds := Seg.resetData, fs := Seg.resetData, gs := Seg.resetData }
    ldtr := ⟨0, 0, 0xFFFF#32, 0x0082#16⟩
    tr := ⟨0, 0, 0xFFFF#32, 0x008B#16⟩
    gdtr := ⟨0, 0xFFFF#16⟩
    idtr := ⟨0, 0xFFFF#16⟩
    cr0 := 0x60000010#32
    cr2 := 0
    cr3 := 0
    cr4 := 0
    dr0 := 0
    dr1 := 0
    dr2 := 0
    dr3 := 0
    dr6 := 0xFFFF0FF0#32
    dr7 := 0
    tr3 := 0
    tr4 := 0
    tr5 := 0
    tr6 := 0
    tr7 := 0
    fpu := none }

/-- The default part: a 486DX with SL technology and the late extensions (00_scope.md R11, log 3), CPUID by default as in
43_instructions_new.md R495 (model 1, stepping 0; log 26). -/
def defaultPart : Part :=
  { variant := .dx, sl := true, hasExt := true, hasBoundaryScan := true
    cpuidOne := ⟨0x00000410#32, 0, 0, 0x00000003#32⟩
    cpuid := [(0, ⟨0x00000001#32, 0x756E6547#32, 0x6C65746E#32, 0x49656E69#32⟩)]
    cpuidOther := none
    smmRevision := 0x00030000#32, pteBitsAsPrinted := false, pagingOffFromCr3 := false
    flushAckAddress := 0x00000010#32, resetState := defaultResetState }

/-- A plain 32-bit platform with no wait state (log 15). -/
def defaultPlatform : Platform :=
  { nonCacheable := [], writeThrough := [], bus8 := [], bus16 := [], ioBus8 := [], ioBus16 := [], smramWindows := []
    badParity := [], ioBadParity := [], ackBadParity := false, kenAbort := false, burst := true, waits := 0, lazyBus := false }

/-- An invalid line; its tag and bytes are the model's choice (10_state.md R97, log 5). -/
def emptyLine : Line := ⟨0, .invalid, Vector.replicate 16 0⟩

def emptyCache : Cache := Vector.replicate 256 ⟨Vector.replicate 4 emptyLine, 0⟩

def emptyTlbEntry : TlbEntry := ⟨false, 0, 0, false, false, false, false, false, false⟩

def emptyTlb : Tlb := Vector.replicate 32 emptyTlbEntry

/-- The floating-point registers of `State.reset` (10_state.md R95, log 4). -/
def fpuReset : Fpu :=
  { st0 := 0, st1 := 0, st2 := 0, st3 := 0, st4 := 0, st5 := 0, st6 := 0, st7 := 0
    control := 0x037F#16, status := 0, tag := 0xFFFF#16, ipSel := 0, ip := 0, opcode := 0, dpSel := 0, dp := 0 }

/-- The bus unit after a reset with memory, and the environment's coming answers, as they are (10_state.md R98). Requests still
waiting for the bus are dropped, the write-backs of snooped and replaced modified lines among them: the model's choice (log 48). -/
def Bus.reset (mem smram : Memory) (trace : List BusCycle) (clocks draws : Nat) (ioIn : List DWord) (script : List ClockIn) :
    Bus :=
  { mem := mem, smram := smram, cache := emptyCache, wb := [], readPassed := false, fetchq := .empty, tlb := emptyTlb
    phase := .ti, cur := [], fillBuf := [], queue := [], dataIn := 0, vector := 0, pchk := false, ioIn := ioIn
    script := script, heldHold := false, heldAddr := false, trace := trace, clocks := clocks, draws := draws }

/-- The machine right after RESET (10_state.md R90 to R98), for a part, the latches sampled by RESET, the floating-point registers
before it, a platform and a bus unit. -/
def State.afterReset (part : Part) (latch : Latch) (fpu : Fpu) (pins : Pins) (inputs : List Input) (platform : Platform)
    (bus : Bus) : State :=
  let r := part.resetState
  { part := part
    latch := latch
    regs := r.regs
    eip := r.eip
    eflags := r.eflags
    segs := r.segs
    ldtr := r.ldtr
    tr := r.tr
    gdtr := r.gdtr
    idtr := r.idtr
    cr0 := r.cr0
    cr2 := r.cr2
    cr3 := r.cr3
    cr4 := r.cr4
    dr0 := r.dr0
    dr1 := r.dr1
    dr2 := r.dr2
    dr3 := r.dr3
    dr6 := r.dr6
    dr7 := r.dr7
    tr3 := r.tr3
    tr4 := r.tr4
    tr5 := r.tr5
    tr6 := r.tr6
    tr7 := r.tr7
    cpl := 0
    fpu := r.fpu.getD fpu
    fpErrorPending := false
    smbase := 0x00030000#32
    inSMM := false
    smiLatched := false
    nmiBlocked := false
    haltedAtSmi := false
    ioAtSmi := none
    smmImage := []
    smmHidden := none
    halted := false
    shutdown := false
    clock := .normal
    snoopReturn := .normal
    pend := ⟨false, false, false⟩
    inNmi := false
    trapPending := false
    taskTrap := false
    shadow := false
    ssShadow := false
    frozen := false
    busWanted := false
    dbgHits := 0
    pins := pins
    dec := Decoding.idle
    lastIo := none
    inputs := inputs
    platform := platform
    serial := none
    bus := bus }

/-- All level inputs deasserted (log 17). -/
def Pins.idle : Pins := ⟨false, 0, false, false, false, false, false, false, false⟩

/-- The machine right after RESET: the default part on the default platform, memory with nothing listed (10_state.md R90 to
R98; log 3 to 6, 15, 17). -/
def State.reset : State :=
  State.afterReset defaultPart ⟨false, 2, false⟩ fpuReset Pins.idle [] defaultPlatform (Bus.reset [] [] [] 0 0 [] [])

end Sys2Proof.Machine
end

