-- ==== Sys2Proof/Machine/Memory.lean ====
section
/-! DEFINITION. The memory list and byte order (20_memory.md R140, R144; log 6). -/

set_option Elab.async false

namespace Sys2Proof.Machine

/-- What an unlisted address reads as (log 6). -/
def Memory.unlisted : Byte := 0

/-- The byte at an address. -/
def Memory.get : Memory → Nat → Byte
  | [], _ => Memory.unlisted
  | (k, v) :: m, a => if k = a then v else Memory.get m a

/-- Write one byte, keeping the canonical form. -/
def Memory.set : Memory → Nat → Byte → Memory
  | [], a, b => if b = Memory.unlisted then [] else [(a, b)]
  | (k, v) :: m, a, b =>
    if a < k then (if b = Memory.unlisted then (k, v) :: m else (a, b) :: (k, v) :: m)
    else if a = k then (if b = Memory.unlisted then m else (a, b) :: m)
    else (k, v) :: Memory.set m a b

/-- Every listed address is above `lo`, the addresses rise strictly, and no listed byte is what an unlisted one reads as. -/
def Memory.wfFrom : Nat → Memory → Bool
  | _, [] => true
  | lo, (k, v) :: m => decide (lo ≤ k) && (v != Memory.unlisted) && Memory.wfFrom (k + 1) m

/-- The canonical form. -/
def Memory.wf (m : Memory) : Bool := Memory.wfFrom 0 m

/-- Write the bytes of a list from an address on, addresses modulo 2^32. -/
def Memory.setBytes (m : Memory) (a : Addr) : List Byte → Memory
  | [] => m
  | b :: bs => Memory.setBytes (m.set a.toNat b) (a + 1) bs

/-! ### Little-endian values (20_memory.md R144) -/

/-- The number that bytes stand for, the first the least significant. -/
def natOfBytes : List Byte → Nat
  | [] => 0
  | b :: bs => b.toNat + 256 * natOfBytes bs

/-- The low `k` bytes of a number, the least significant first. -/
def bytesOfNat : Nat → Nat → List Byte
  | 0, _ => []
  | k + 1, v => BitVec.ofNat 8 v :: bytesOfNat k (v / 256)

/-- A value of `n` bits from its bytes. -/
def ofBytes (n : Nat) (bs : List Byte) : BitVec n := BitVec.ofNat n (natOfBytes bs)

/-- The first `k` bytes of a value. -/
def toBytes {n : Nat} (k : Nat) (v : BitVec n) : List Byte := bytesOfNat k v.toNat

/-- Bit `i` of a value set to `b`. -/
def setBit {n : Nat} (v : BitVec n) (i : Nat) (b : Bool) : BitVec n :=
  if b then v ||| BitVec.ofNat n (2 ^ i) else v &&& ~~~(BitVec.ofNat n (2 ^ i))

def Range.contains (r : Range) (a : Nat) : Bool := decide (r.lo ≤ a) && decide (a ≤ r.hi)

/-- Whether one of the ranges contains an address. -/
def inRanges (rs : List Range) (a : Nat) : Bool := rs.any fun r => r.contains a

end Sys2Proof.Machine
end

