-- ==== Sys2Proof/Machine/CacheUnit.lean ====
section
/-! DEFINITION. The internal cache (41_cache_operations.md R341 to R366, R376, R382; 45_family_variants.md R580). `big` is the
16KB cache of the 486DX4 (45_family_variants.md R594). -/

set_option Elab.async false

namespace Sys2Proof
open Machine

/-- set(a) (R341): the index is below 128, or below 256 in the big cache. -/
def setOf (big : Bool) (a : Addr) : BitVec 8 :=
  if big then a.extractLsb' 4 8 else (a.extractLsb' 4 7).setWidth 8

/-- tag(a) (R341), in 21 bits. -/
def tagOf (big : Bool) (a : Addr) : BitVec 21 :=
  if big then (a.extractLsb' 12 20).setWidth 21 else a.extractLsb' 11 21

/-- byte(a) (R341). -/
def byteOf (a : Addr) : BitVec 4 := a.extractLsb' 0 4

/-- line_base(a) (R341). -/
def lineBase (a : Addr) : Addr := a.extractLsb' 4 28 ++ 0#4

/-- The base address of the line in set `s` with tag `t` (45_family_variants.md R584). -/
def lineAddr (big : Bool) (t : BitVec 21) (s : BitVec 8) : Addr :=
  if big then (t.setWidth 20 : BitVec 20) ++ s ++ 0#4 else t ++ (s.setWidth 7 : BitVec 7) ++ 0#4

def Line.valid (l : Line) : Bool := l.st != .invalid

/-- The directory entry of a set. -/
def Cache.entry (dir : Cache) (s : BitVec 8) : CacheSet := dir[s.toNat]'(by have := s.isLt; omega)

def Cache.putSet (c : Cache) (s : BitVec 8) (e : CacheSet) : Cache := c.set s.toNat e (by have := s.isLt; omega)

def CacheSet.way (e : CacheSet) (w : BitVec 2) : Line := e.ways[w.toNat]'(by have := w.isLt; omega)

def CacheSet.putWay (e : CacheSet) (w : BitVec 2) (l : Line) : CacheSet :=
  { e with ways := e.ways.set w.toNat l (by have := w.isLt; omega) }

/-- Whether a way holds the line with a tag (R343). -/
def CacheSet.matches (e : CacheSet) (t : BitVec 21) (w : BitVec 2) : Bool := (e.way w).valid && (e.way w).tag == t

/-- The way that holds a tag (R343). -/
def CacheSet.find (e : CacheSet) (t : BitVec 21) : Option (BitVec 2) :=
  if e.matches t 0 then some 0
  else if e.matches t 1 then some 1
  else if e.matches t 2 then some 2
  else if e.matches t 3 then some 3
  else none

/-- Lookup(a) (R343). -/
def Cache.lookup (c : Cache) (big : Bool) (a : Addr) : Option (BitVec 2) :=
  (c.entry (setOf big a)).find (tagOf big a)

/-- Victim(s) (R365): the lowest invalid way, else the pseudo-LRU choice. -/
def CacheSet.victim (e : CacheSet) : BitVec 2 :=
  if !(e.way 0).valid then 0
  else if !(e.way 1).valid then 1
  else if !(e.way 2).valid then 2
  else if !(e.way 3).valid then 3
  else if e.lru.getLsbD 0 then (if e.lru.getLsbD 2 then 3 else 2)
  else (if e.lru.getLsbD 1 then 1 else 0)

/-- The LRU bits after an access to way `w` (R365). -/
def touchLru (lru : BitVec 3) (w : BitVec 2) : BitVec 3 :=
  if w = 0 then setBit (setBit lru 0 true) 1 true
  else if w = 1 then setBit (setBit lru 0 true) 1 false
  else if w = 2 then setBit (setBit lru 0 false) 2 true
  else setBit (setBit lru 0 false) 2 false

/-- Touch(s, w) (R365). -/
def CacheSet.touch (e : CacheSet) (w : BitVec 2) : CacheSet := { e with lru := touchLru e.lru w }

/-- `n` bytes of a line from an offset on. -/
def lineBytes (d : Vector Byte 16) (off : BitVec 4) (n : Nat) : List Byte := (d.toList.drop off.toNat).take n

/-- A line with bytes written from an offset on; bytes past its end are dropped. -/
def lineWrite (d : Vector Byte 16) (off : Nat) : List Byte → Vector Byte 16
  | [] => d
  | b :: bs => lineWrite (if h : off < 16 then d.set off b h else d) (off + 1) bs

/-- The sixteen bytes of a list, 00h where it is short. -/
def lineOfBytes (bs : List Byte) : Vector Byte 16 := lineWrite (Vector.replicate 16 0) 0 bs

/-- Record an access to way `w` of the set of `a`. -/
def Cache.touchAt (c : Cache) (big : Bool) (a : Addr) (w : BitVec 2) : Cache :=
  c.putSet (setOf big a) ((c.entry (setOf big a)).touch w)

/-- A line installed in way `w` of its set (R366). -/
def Cache.install (c : Cache) (big : Bool) (a : Addr) (w : BitVec 2) (st : Mesi) (d : Vector Byte 16) : Cache :=
  c.putSet (setOf big a) (((c.entry (setOf big a)).putWay w ⟨tagOf big a, st, d⟩).touch w)

/-- Change the state of way `w` of the set of `a`. -/
def Cache.setState (c : Cache) (big : Bool) (a : Addr) (w : BitVec 2) (st : Mesi) : Cache :=
  let e := c.entry (setOf big a)
  c.putSet (setOf big a) (e.putWay w { e.way w with st := st })

/-- Bytes written into way `w` of the set of `a`, with a new state, and the access recorded (R370,
45_family_variants.md R582). -/
def Cache.writeHit (c : Cache) (big : Bool) (a : Addr) (w : BitVec 2) (st : Mesi) (bs : List Byte) : Cache :=
  let e := c.entry (setOf big a)
  c.putSet (setOf big a)
    ((e.putWay w { e.way w with st := st, data := lineWrite (e.way w).data (byteOf a).toNat bs }).touch w)

def Line.invalidate (l : Line) : Line := { l with st := .invalid }

/-- Flush() (R382): every line invalid; tags, bytes and LRU bits stay. -/
def Cache.flush (c : Cache) : Cache := c.map fun e => { e with ways := e.ways.map Line.invalidate }

/-- The line as it stands once memory has its bytes. -/
def Line.clean (l : Line) : Line := if l.st = .modified then { l with st := .exclusive } else l

/-- Way `w` of set `s` as it stands once memory has its bytes. -/
def Cache.cleanWay (c : Cache) (s : BitVec 8) (w : BitVec 2) : Cache :=
  c.putSet s ((c.entry s).putWay w ((c.entry s).way w).clean)

/-- The ways of a set whose line is modified. -/
def CacheSet.modifiedWays (e : CacheSet) : List (BitVec 2) := [0, 1, 2, 3].filter fun w => (e.way w).st == .modified

/-- Where the modified lines are: sets rising, ways rising (U38: any order). -/
def Cache.modifiedSlots (c : Cache) : List (BitVec 8 × BitVec 2) :=
  (List.range 256).flatMap fun s => (c.entry (BitVec.ofNat 8 s)).modifiedWays.map fun w => (BitVec.ofNat 8 s, w)

/-- The address of the line in a slot. -/
def Cache.slotAddr (c : Cache) (big : Bool) (s : BitVec 8) (w : BitVec 2) : Addr := lineAddr big ((c.entry s).way w).tag s

/-- The modified lines with their addresses, in the same order. -/
def Cache.modified (c : Cache) (big : Bool) : List (Addr × Vector Byte 16) :=
  c.modifiedSlots.map fun x => (c.slotAddr big x.1 x.2, ((c.entry x.1).way x.2).data)

end Sys2Proof
end

