-- ==== Sys2Proof/Machine/BusUnit.lean ====
section
/-! DEFINITION. The bus unit: transfers and bus sizing (42_bus_transactions.md R400 to R436), line fills
(41_cache_operations.md R350 to R366), snoops (41_cache_operations.md R375 to R378, 45_family_variants.md R586 to R588), the
states of the bus (42_bus_transactions.md R450 to R461), write buffers (20_memory.md R170 to R178), and the physical reads and
writes of the processor through the cache (41_cache_operations.md R343 to R372, 45_family_variants.md R580 to R591). A transfer
runs clock by clock while `Bus.script` says what the environment does in each clock, and whole, as `Platform` answers, where it
says nothing (log 11, 41). -/

set_option Elab.async false

namespace Sys2Proof.Machine

/-- What an access sees of the processor and of the platform. -/
structure MemCtx where
  /-- SMIACT# (20_memory.md R142). -/
  smiact : Bool
  smbase : DWord
  cd : Bool
  nw : Bool
  /-- Write-back mode: `Variant` = DX2WB and `WriteBackMode` (45_family_variants.md R574). -/
  wb : Bool
  big : Bool
  a20m : Bool
  /-- A bus cycle may start: Ti, and HOLD, AHOLD, BOFF# deasserted (42_bus_transactions.md R460). -/
  busFree : Bool
  /-- What the interrupt controller drives in an acknowledge cycle (42_bus_transactions.md R410). -/
  vector : Byte
  /-- `HasSL`: the part has the SRESET pin (40_signal_interface.md R319). -/
  sl : Bool
  plat : Platform
  deriving DecidableEq, Repr

/-- Why an access does not complete. -/
inductive BusStop where
  /-- The bus is not available: the processor waits (42_bus_transactions.md R455; log 36). -/
  | stall
  /-- A page fault with its linear address and error code (60_exceptions.md R631). -/
  | pageFault (lin : Addr) (code : DWord)
  /-- A reset was sampled in one of the access's clocks (40_signal_interface.md R325). -/
  | reset (r : ResetIn)
  deriving DecidableEq, Repr

abbrev BM := EStateM BusStop Bus

/-- A plain cycle: no lock, PCD and PWT deasserted (20_memory.md R167, non-memory cycles). -/
def CycleAttr.plain : CycleAttr := ⟨false, false, false, false, false⟩

/-- A part of an access that lies in one aligned line of sixteen bytes, at its physical address (41_cache_operations.md R345,
42_bus_transactions.md R430). -/
structure PChunk where
  pa : Addr
  len : Nat
  pcd : Bool
  pwt : Bool
  deriving DecidableEq, Repr

/-- A20M# (20_memory.md R188). -/
def maskA20 (c : MemCtx) (a : Addr) : Addr := if c.a20m then setBit a 20 false else a

/-- Whether external logic decodes an address to SMRAM while SMIACT# is asserted: SMBASE + 8000h to SMBASE + FFFFh modulo 2^32
at least (20_memory.md R142, 60_exceptions.md R658, log 16). -/
def inSmram (c : MemCtx) (a : Addr) : Bool :=
  c.smiact && (decide ((a - c.smbase - 0x8000#32).toNat < 0x8000) || inRanges c.plat.smramWindows a.toNat)

/-- The byte that memory behind the bus holds at a physical address. -/
def Bus.physByte (b : Bus) (c : MemCtx) (a : Addr) : Byte :=
  if inSmram c a then b.smram.get a.toNat else b.mem.get a.toNat

/-- Memory behind the bus with one byte written. -/
def Bus.setPhysByte (b : Bus) (c : MemCtx) (a : Addr) (v : Byte) : Bus :=
  if inSmram c a then { b with smram := b.smram.set a.toNat v } else { b with mem := b.mem.set a.toNat v }

/-- Both memories are in canonical form (log 6). -/
def Bus.memWf (b : Bus) : Bool := b.mem.wf && b.smram.wf

/-- Every byte read ahead changed by `f`. -/
def FetchQueue.noting (q : FetchQueue) (f : QByte → QByte) : FetchQueue := ⟨q.stages.map f, q.queue.map f⟩

/-- Another bus master writes a byte of SMRAM or of main memory (D23, log 16). The prefetch queue keeps what it has read
(20_memory.md R184, log 27). -/
def Bus.masterWrite (b : Bus) (c : MemCtx) (smram : Bool) (a : Addr) (v : Byte) : Bus :=
  { b with
    mem := if smram then b.mem else b.mem.set a.toNat v
    smram := if smram then b.smram.set a.toNat v else b.smram
    fetchq := b.fetchq.noting fun q => if q.addr = a && inSmram c a == smram then { q with mem := v } else q }

/-! ### Lanes and bus sizing -/

/-- The address of byte `i` of a doubleword. -/
def laneAddr (a : BitVec 30) (i : BitVec 2) : Addr := a ++ i

/-- Lanes `off` to `off + len - 1` (20_memory.md R146). -/
def laneMask (off : BitVec 2) (len : Nat) : BitVec 4 :=
  ((BitVec.ofNat 4 (2 ^ len - 1)) <<< off.toNat)

/-- The doubleword that carries bytes on the lanes from `off` on. -/
def laneData (off : BitVec 2) (bs : List Byte) : DWord := BitVec.ofNat 32 (natOfBytes bs) <<< (8 * off.toNat)

/-- `old` with the bytes of the lanes taken from `new` (40_signal_interface.md R265). -/
def mergeLanes (lanes : BitVec 4) (old new : DWord) : DWord :=
  let pick := fun (i : Nat) => if lanes.getLsbD i then new.extractLsb' (8 * i) 8 else old.extractLsb' (8 * i) 8
  pick 3 ++ pick 2 ++ pick 1 ++ pick 0

/-- The even parity bits DP3..DP0 of a doubleword (20_memory.md R186). -/
def parityBits (d : DWord) : BitVec 4 :=
  let p := fun (k : Nat) => (List.range 8).foldl (fun (x : Bool) i => xor x (d.getLsbD (8 * k + i))) false
  setBit (setBit (setBit (setBit 0 0 (p 0)) 1 (p 1)) 2 (p 2)) 3 (p 3)

def CycleKind.isRead : CycleKind → Bool
  | .intAck | .ioRead | .codeRead | .memRead => true
  | .special | .ioWrite | .memWrite => false

/-- The width of the device at an address: 8, 16 or 32 bits; BS8# wins (40_signal_interface.md R304). -/
def busWidth (c : MemCtx) (kind : CycleKind) (a : BitVec 30) : Nat :=
  match kind with
  | .ioRead | .ioWrite =>
    if inRanges c.plat.ioBus8 (laneAddr a 0).toNat then 8 else if inRanges c.plat.ioBus16 (laneAddr a 0).toNat then 16 else 32
  | .codeRead | .memRead | .memWrite =>
    if inRanges c.plat.bus8 (laneAddr a 0).toNat then 8 else if inRanges c.plat.bus16 (laneAddr a 0).toNat then 16 else 32
  | .intAck | .special => 32

/-- The lanes moved by the next item when the lanes `e` remain (42_bus_transactions.md R425). -/
def movedLanes (width : Nat) (e : BitVec 4) : BitVec 4 :=
  if width = 8 then
    if e.getLsbD 0 then 1 else if e.getLsbD 1 then 2 else if e.getLsbD 2 then 4 else e &&& 8
  else if width = 16 then
    if e &&& 3 = 0 then e &&& 12 else e &&& 3
  else e

/-- The items of one doubleword at one bus size: for each, the lanes that remain (42_bus_transactions.md R425). -/
def itemLanes (width : Nat) : Nat → BitVec 4 → List (BitVec 4)
  | 0, _ => []
  | n + 1, e =>
    if e &&& ~~~(movedLanes width e) = 0 then [e]
    else e :: itemLanes width n (e &&& ~~~(movedLanes width e))

/-- The same where the first item moves at the size `w` and the others at `w'`: each bus cycle samples the size anew
(42_bus_transactions.md R425). -/
def cycleLanes (w w' : Nat) (e : BitVec 4) : List (BitVec 4) :=
  if e &&& ~~~(movedLanes w e) = 0 then [e] else e :: itemLanes w' 3 (e &&& ~~~(movedLanes w e))

/-- The lanes whose parity bit the platform's device drives wrong (20_memory.md R186). -/
def platformParity (c : MemCtx) (kind : CycleKind) (a : BitVec 30) : BitVec 4 :=
  let of := fun (rs : List Range) =>
    setBit (setBit (setBit (setBit 0#4 0 (inRanges rs (laneAddr a 0).toNat)) 1 (inRanges rs (laneAddr a 1).toNat)) 2
      (inRanges rs (laneAddr a 2).toNat)) 3 (inRanges rs (laneAddr a 3).toNat)
  match kind with
  | .codeRead | .memRead => of c.plat.badParity
  | .ioRead => of c.plat.ioBadParity
  | .intAck => if c.plat.ackBadParity then 0xF#4 else 0
  | .special | .ioWrite | .memWrite => 0

/-! ### Transfers -/

/-- A transfer about to start. -/
def Xfer.new (kind : CycleKind) (attr : CycleAttr) (parts : List BusPart) : Xfer :=
  { kind := kind, attr := attr, follows := false, parts := parts, want := false, decided := false, fill := false, wbwt := false, ken := false
    stale := false, hitm := false, size := none, ads := true, spent := 0, idle := 0, cont := false }

/-- The line a transfer is about. -/
def Xfer.line (x : Xfer) : BitVec 28 :=
  match x.parts with
  | p :: _ => p.addr.extractLsb' 2 28
  | [] => 0

/-- The pins that go with an item. PLOCK#, never in write-back mode: more items of the operand or of the line follow, doublewords or the
bus cycles that BS8# or BS16# makes of one; an operand of several transfers says so in `attr` (20_memory.md R183,
40_signal_interface.md R269, 45_family_variants.md R577, log 11). CACHE#: a read that may become a fill, up to its first ready, and a
write-back (45_family_variants.md R575). -/
def Xfer.pins (c : MemCtx) (x : Xfer) (first more : Bool) : CycleAttr :=
  { lock := x.attr.lock
    plock := !c.wb && (x.attr.plock || (more && (x.fill || x.kind != .codeRead)))
    pcd := x.attr.pcd
    pwt := x.attr.pwt
    cache := x.attr.cache || (c.wb && x.want && first) }

/-- The k-th doubleword address of a line fill (41_cache_operations.md R356). -/
def fillAddr (a : BitVec 30) (k : Nat) : BitVec 30 := a ^^^ BitVec.ofNat 30 k

/-- The four doublewords of a line, first the one asked for (41_cache_operations.md R350, R351, R356). -/
def lineParts (a : BitVec 30) : List BusPart :=
  [⟨fillAddr a 0, 0xF, 0, 0⟩, ⟨fillAddr a 1, 0xF, 0, 0⟩, ⟨fillAddr a 2, 0xF, 0, 0⟩, ⟨fillAddr a 3, 0xF, 0, 0⟩]

/-- The first ready: with KEN# in the clock before it, a read that the processor would cache becomes a line fill; WB/WT# is
sampled with it (41_cache_operations.md R351, R352; 45_family_variants.md R583). -/
def Xfer.decide (x : Xfer) (ken wbwt : Bool) : Xfer :=
  if x.decided then x
  else
    match x.parts with
    | p :: _ =>
      if x.want && ken then { x with decided := true, fill := true, wbwt := wbwt, parts := lineParts p.addr }
      else { x with decided := true }
    | [] => { x with decided := true }

/-- Bus cycles run: they enter the trace, newest first, and their clocks are counted. -/
def Bus.record (b : Bus) (cs : List BusCycle) : Bus :=
  { b with trace := cs.reverse ++ b.trace, clocks := b.clocks + (cs.map (·.clocks)).sum }

/-- The doubleword that memory holds. -/
def Bus.physDword (b : Bus) (c : MemCtx) (a : BitVec 30) : DWord :=
  b.physByte c (laneAddr a 3) ++ b.physByte c (laneAddr a 2) ++ b.physByte c (laneAddr a 1) ++ b.physByte c (laneAddr a 0)

/-- The data of an item: memory's on a memory read, else what the part carries. -/
def Bus.answer (b : Bus) (c : MemCtx) (kind : CycleKind) (p : BusPart) : DWord :=
  match kind with
  | .memRead | .codeRead => b.physDword c p.addr
  | .intAck | .special | .ioRead | .ioWrite | .memWrite => p.data

/-- Memory behind the bus with the lanes of one doubleword written. -/
def Bus.storeLanes (b : Bus) (c : MemCtx) (a : BitVec 30) (lanes : BitVec 4) (d : DWord) : Bus :=
  let w := fun (b : Bus) (i : Nat) =>
    if lanes.getLsbD i then b.setPhysByte c (laneAddr a (BitVec.ofNat 2 i)) (d.extractLsb' (8 * i) 8) else b
  w (w (w (w b 0) 1) 2) 3

/-- The lanes of an item arrive: in memory, or in the data latch, with PCHK# asserted if the parity of one of these lanes is
wrong (20_memory.md R186, log 43); the second interrupt acknowledge brings the vector. I/O writes and special cycles change no
memory (20_memory.md R141). -/
def Bus.moveLanes (b : Bus) (c : MemCtx) (kind : CycleKind) (a : BitVec 30) (lanes : BitVec 4) (d : DWord) (bad : BitVec 4) :
    Bus :=
  match kind with
  | .memWrite => b.storeLanes c a lanes d
  | .ioWrite | .special => b
  | .memRead | .codeRead | .ioRead =>
    { b with dataIn := mergeLanes lanes b.dataIn d, pchk := b.pchk || (bad &&& lanes != 0) }
  | .intAck =>
    { b with dataIn := mergeLanes lanes b.dataIn d, pchk := b.pchk || (bad &&& lanes != 0)
             vector := if a = 0 then d.setWidth 8 else b.vector }

/-- A doubleword read enters the line-fill buffer. -/
def Bus.keepPart (b : Bus) (kind : CycleKind) (p : BusPart) : Bus :=
  if kind.isRead then { b with fillBuf := p :: b.fillBuf } else b

/-- The byte of an address in the line-fill buffer. -/
def partByte : List BusPart → Addr → Byte
  | [], _ => 0
  | p :: ps, a => if p.addr = a.extractLsb' 2 30 then p.got.extractLsb' (8 * (a.extractLsb' 0 2).toNat) 8 else partByte ps a

/-- The `n` bytes from an address on in the line-fill buffer. -/
def Bus.readBytes (b : Bus) (a : Addr) (n : Nat) : List Byte := (List.range n).map fun i => partByte b.fillBuf (a + BitVec.ofNat 32 i)

/-- The write-back of a line: four doublewords rising, CACHE#, PCD and PWT asserted (45_family_variants.md R584). -/
def writeBackXfer (line : BitVec 28) (d : Vector Byte 16) (hitm : Bool) : Xfer :=
  let part := fun (k : Nat) => (⟨line ++ BitVec.ofNat 2 k, 0xF, ofBytes 32 (lineBytes d (BitVec.ofNat 4 (4 * k)) 4), 0⟩ : BusPart)
  { Xfer.new .memWrite ⟨false, false, true, true, true⟩ [part 0, part 1, part 2, part 3] with hitm := hitm }

/-- A line filled (41_cache_operations.md R366): its bytes from the line-fill buffer are installed. A modified victim is to be
written back as the very next transfer (45_family_variants.md R585, D19). -/
def Bus.installLine (b : Bus) (c : MemCtx) (line : BitVec 28) (wbwt : Bool) : Bus × Option Xfer :=
  let a : Addr := line ++ 0#4
  let s := setOf c.big a
  let e := b.cache.entry s
  let w := e.victim
  let old := e.way w
  let st : Mesi := if c.wb && wbwt then .exclusive else .shared
  ({ b with cache := b.cache.install c.big a w st (lineOfBytes (b.readBytes a 16)) },
    if old.st = .modified then some (writeBackXfer ((lineAddr c.big old.tag s).extractLsb' 4 28) old.data false) else none)

/-! ### Transfers run whole, as the platform answers -/

/-- The bus size of the item in progress at a doubleword: as sampled in its bus cycle, else as the platform's device there is wide
(42_bus_transactions.md R425). -/
def Xfer.width (c : MemCtx) (x : Xfer) (a : BitVec 30) : Nat := x.size.getD (busWidth c x.kind a)

/-- The items of one doubleword on the bus. `driven`: the enables asserted with the first of them (41_cache_operations.md R351);
`first`: no ready has come before it; `ads`: ADS# starts it; `more`: other doublewords of the transfer follow. An item takes T1, where
it starts a bus cycle, one T2 and the wait states (42_bus_transactions.md R470); `x.spent` counts those gone by, T1 among them once it has
sampled the bus size. -/
def itemCycles (c : MemCtx) (x : Xfer) (p : BusPart) (driven : BitVec 4) (d : DWord) (first ads more : Bool) : List BusCycle :=
  let es := cycleLanes (x.width c p.addr) (if c.plat.burst then x.width c p.addr else busWidth c x.kind p.addr) p.lanes
  es.zipIdx.map fun (e, k) =>
    let start := if k == 0 then ads else !c.plat.burst
    let t := x.pins c (first && k == 0) (more || k + 1 < es.length)
    { kind := x.kind, addr := p.addr, be := ~~~(if k == 0 then driven else e), data := d, lock := t.lock, plock := t.plock
      pcd := t.pcd, pwt := t.pwt, cache := t.cache, dp := parityBits d ^^^ platformParity c x.kind p.addr, ads := start
      blast := !more && k + 1 == es.length
      clocks := (if start && !(k == 0 && x.size.isSome) then 2 else 1) + c.plat.waits + (if k == 0 then x.idle + x.spent else 0) }

/-- One doubleword of a transfer. -/
def Bus.movePart (b : Bus) (c : MemCtx) (x : Xfer) (p : BusPart) (driven : BitVec 4) (first ads more : Bool) : Bus :=
  let d := b.answer c x.kind p
  ((b.record (itemCycles c x p driven d first ads more)).moveLanes c x.kind p.addr p.lanes d
    (platformParity c x.kind p.addr)).keepPart x.kind { p with lanes := 0, got := mergeLanes p.lanes p.got d }

/-- The doublewords after the first. -/
def Bus.moveRest (c : MemCtx) (x : Xfer) : List BusPart → Bus → Bus
  | [], b => b
  | p :: ps, b => Bus.moveRest c x ps (b.movePart c x p p.lanes false (!c.plat.burst) (!ps.isEmpty))

/-- A transfer past its first doubleword: a burst goes on in the same bus cycle, at the size sampled in its only T1, that of the first
doubleword; else each doubleword is a bus cycle of its own, which samples its size anew (42_bus_transactions.md R425). -/
def Xfer.onward (c : MemCtx) (x : Xfer) : Xfer :=
  { x with idle := 0, spent := 0, size := if c.plat.burst then x.parts.head?.map fun p => x.width c p.addr else none }

/-- Every doubleword of a transfer. -/
def Bus.moveAll (b : Bus) (c : MemCtx) (x : Xfer) (driven : BitVec 4) (first : Bool) : Bus :=
  match x.parts with
  | [] => b
  | p :: ps => Bus.moveRest c (x.onward c) ps (b.movePart c x p driven first x.ads (!ps.isEmpty))

/-- KEN# as sampled in the last clock of the script, where the next ready comes right after it: in a bus cycle that the script's end cuts
in T2, with no wait states to come (41_cache_operations.md R352; log 41). -/
def Xfer.kenSampled (c : MemCtx) (x : Xfer) : Option Bool := if x.size.isSome && c.plat.waits == 0 then some x.ken else none

/-- The first ready as the platform gives it (41_cache_operations.md R388, 45_family_variants.md R583), with the KEN# of the clock before
it. The platform's ranges are asked at the base address of the line: the model's choice (log 15). -/
def Xfer.answered (c : MemCtx) (x : Xfer) : Xfer :=
  x.decide ((x.kenSampled c).getD (!inRanges c.plat.nonCacheable (x.line ++ 0#4 : Addr).toNat))
    (!inRanges c.plat.writeThrough (x.line ++ 0#4 : Addr).toNat)

/-- The validation sample: KEN# in the clock before the last ready (41_cache_operations.md R352), the platform's unless the last ready is
the next one. -/
def Xfer.validated (c : MemCtx) (x : Xfer) : Bool :=
  match x.parts with
  | [p] =>
    if p.lanes &&& ~~~(movedLanes (x.width c p.addr) p.lanes) = 0 then (x.kenSampled c).getD (!c.plat.kenAbort)
    else !c.plat.kenAbort
  | _ => !c.plat.kenAbort

/-- A transfer run to its end: a fill installs its line unless KEN# was inactive at the validation point or a snoop has hit the
line (41_cache_operations.md R352, R366). The line it replaces is written back with it, so before one that a snoop hit meanwhile and
whose write-back waits: the model's choice (log 50; `Bus.startNext` has the other order). -/
def Bus.finish (b : Bus) (c : MemCtx) (x : Xfer) : Bus :=
  let y := x.answered c
  let b := b.moveAll c y (x.parts.headD ⟨0, 0, 0, 0⟩).lanes (!x.decided)
  if y.fill && !y.stale && y.validated c then
    match b.installLine c y.line y.wbwt with
    | (b, none) => b
    | (b, some v) => b.moveAll c v 0xF true
  else b

/-- Transfers run one after the other. -/
def Bus.finishAll (b : Bus) (c : MemCtx) (xs : List Xfer) : Bus := xs.foldl (fun b x => b.finish c x) b

/-! ### Snoops -/

/-- The write-back of a line. -/
def Xfer.writesBack (x : Xfer) (line : BitVec 28) : Bool := x.line == line && x.kind == .memWrite && x.attr.cache

/-- What a snoop of a line does to a transfer in progress: a fill of the line that the snoop invalidates will not be made valid
(41_cache_operations.md R366), a write-back of it answers with HITM# (45_family_variants.md R585). An inquire snoop (INV = 0 in
write-back mode) of the line being filled, which 45_family_variants.md R588 does not describe (91_not_in_source.md N8), lets the fill
complete and the line become valid: the model's choice (log 55). -/
def Xfer.snooped (x : Xfer) (line : BitVec 28) (invalidates : Bool) : Xfer :=
  if x.line = line then
    { x with stale := x.stale || (x.fill && invalidates), hitm := x.hitm || x.writesBack line }
  else x

def BusReq.isWriteBack : BusReq → Bool
  | .writeBack _ _ => true
  | .row _ => false

/-- A write-back scheduled: before everything else (92_eei_decisions.md D18) but the write-backs scheduled before it, so that of several
lines the one snooped first is written first: the model's choice (log 50). -/
def scheduleWriteBack (q : BusReq) : List BusReq → List BusReq
  | [] => [q]
  | x :: xs => if x.isWriteBack then x :: scheduleWriteBack q xs else q :: x :: xs

/-- A write-back of the line that no snoop has asked for is on the bus: that of WBINVD, of FLUSH# or of a locked access, which finds the
line still modified. -/
def Bus.ownWriteBack (b : Bus) (line : BitVec 28) : Bool := b.cur.any fun x => x.writesBack line && !x.hitm

/-- A snoop's effect (41_cache_operations.md R376, R385; 45_family_variants.md R581, R586, R587). Every hit on a modified line schedules
its write-back, also where an older copy of the line, stored to since, still waits or is on its way; only one whose own write-back is on
the bus already is not written twice (U38). -/
def Bus.snoop (b : Bus) (c : MemCtx) (line : BitVec 28) (inv : Bool) : Bus :=
  let a : Addr := line ++ 0#4
  let own := b.ownWriteBack line
  let b : Bus := { b with cur := b.cur.map fun x => x.snooped line (!c.wb || inv) }
  match b.cache.lookup c.big a with
  | none => b
  | some w =>
    let l := (b.cache.entry (setOf c.big a)).way w
    if c.wb then
      if l.st = .modified then
        { b with
          cache := b.cache.setState c.big a w (if inv then .invalid else .exclusive)
          queue := if own then b.queue else scheduleWriteBack (.writeBack line l.data) b.queue }
      else if inv then { b with cache := b.cache.setState c.big a w .invalid }
      else b
    else if c.cd && c.nw then b
    else { b with cache := b.cache.setState c.big a w .invalid }

/-! ### The bus clock by clock (42_bus_transactions.md R450 to R461; log 41) -/

/-- A buffered write as a transfer (20_memory.md R171, R176). -/
def WbEntry.xfer (e : WbEntry) : Xfer :=
  { Xfer.new (if e.io then .ioWrite else .memWrite) ⟨false, e.plock, e.pcd, e.pwt, false⟩ [⟨e.addr, e.lanes, e.data, 0⟩] with
    follows := e.follows }

/-- A special cycle: `be` as pin levels, the address (30_encoding.md R231). -/
def specialXfer (be : BitVec 4) (a : BitVec 30) : Xfer := Xfer.new .special .plain [⟨a, ~~~be, 0, 0⟩]

/-- The two locked interrupt acknowledge cycles with four idle clocks between; the second brings the vector
(42_bus_transactions.md R410, 30_encoding.md R232). -/
def ackXfers (v : Byte) : List Xfer :=
  [Xfer.new .intAck ⟨true, false, false, false, false⟩ [⟨1, 1, 0, 0⟩],
    { Xfer.new .intAck ⟨true, false, false, false, false⟩ [⟨0, 1, v.setWidth 32, 0⟩] with idle := 4, cont := true }]

/-- The data a device returns for an I/O read: what the environment queued, else a free value (log 17). -/
def Bus.deviceData (b : Bus) : DWord × Bus :=
  match b.ioIn with
  | d :: rest => (d, { b with ioIn := rest })
  | [] => (Config.ioData b.draws, { b with draws := b.draws + 1 })

/-- The transfer of a plain access of the bus unit's own. -/
def plainXfer (kind : CycleKind) (op : BusOp) (d : DWord) : Xfer := Xfer.new kind .plain [⟨op.addr, ~~~op.be, d, 0⟩]

/-- The transfers of a row of the opcode table that transfers data or a message, and the bus unit with an I/O read's data taken;
none for the rows whose effect is more than their cycle (log 2). -/
def Bus.rowXfers (b : Bus) (c : MemCtx) : Instr → List Xfer × Bus
  | .intAckCycle _ => (ackXfers c.vector, b)
  | .specialCycle op => ([specialXfer op.be op.addr], b)
  | .ioReadCycle op => ([plainXfer .ioRead op b.deviceData.1], b.deviceData.2)
  | .ioWriteCycle op => ([plainXfer .ioWrite op op.data], b)
  | .codeReadCycle op => ([plainXfer .codeRead op 0], b)
  | .memReadCycle op => ([plainXfer .memRead op 0], b)
  | .memWriteCycle op => ([plainXfer .memWrite op op.data], b)
  | .flushCycle => ([specialXfer 0xD 0], b)
  | .haltCycle => ([specialXfer 0xB 0], b)
  | .writeBackCycle => ([specialXfer 0x7 0], b)
  | _ => ([], b)

/-- The snooped line whose write-back comes before everything else (D18). -/
def Bus.urgent (b : Bus) : Option (BitVec 28 × Vector Byte 16) :=
  match b.queue with
  | .writeBack line d :: _ => some (line, d)
  | _ => none

/-- What the bus unit does next of its own: the oldest buffered write, else the oldest row (20_memory.md R171, R172, R174). -/
def Bus.nextOwn (b : Bus) (c : MemCtx) : Bus :=
  match b.wb with
  | e :: rest => { b with cur := [e.xfer], wb := rest, readPassed := b.readPassed && !rest.isEmpty }
  | [] =>
    match b.queue with
    | .row i :: rest =>
      match b.rowXfers c i with
      | ([], _) => b
      | (xs, b') => { b' with cur := xs, queue := rest, fillBuf := [], pchk := if (xs.any (·.kind.isRead)) then false else b.pchk }
    | _ => b

/-- The first transfer of `cur` starts its next cycle, or idles (42_bus_transactions.md R410). -/
def Bus.startCur (b : Bus) : Bus :=
  match b.cur with
  | [] => { b with phase := .ti }
  | x :: _ => { b with phase := if x.idle = 0 then .t1 else .ti }

/-- A clock in Ti has ended: one of the idle clocks before the first transfer's cycle, if it has any to come, has gone by
(42_bus_transactions.md R410, R470). -/
def Bus.idled (b : Bus) : Bus :=
  match b.cur with
  | [] => b
  | x :: xs => if x.idle = 0 then b else { b with cur := { x with idle := x.idle - 1, spent := x.spent + 1 } :: xs }

/-- LOCK# is asserted: from the first clock of the first locked cycle to the last clock of the last one, in the idle clocks between
them too (40_signal_interface.md R268, 42_bus_transactions.md R410). -/
def Bus.locked (b : Bus) : Bool :=
  match b.cur with
  | x :: _ => x.attr.lock && (x.cont || b.phase != .ti)
  | [] => false

/-- HOLD sampled by a clock has been acknowledged: never under LOCK# (40_signal_interface.md R286, R289). -/
def Bus.granted (b : Bus) : Bool := b.heldHold && b.phase == .ti && !b.locked

/-- Whether the snoop of a clock is taken: while the address bus is floated, by AHOLD or BOFF# since the clock before or by HOLD
(41_cache_operations.md R375, 40_signal_interface.md R292). -/
def Bus.takesSnoop (b : Bus) (k : ClockIn) : Bool := k.eads.isSome && (b.heldAddr || b.granted)

/-- The transfer on the bus, or next on it, is the write-back of a snooped line: another one waits for its end (log 50). -/
def Bus.answering (b : Bus) : Bool := b.cur.head?.any (·.hitm)

/-- A snooped line's write-back put before the transfers of `cur`, but not inside a locked sequence (D18, 42_bus_transactions.md
R440), nor before another one's. -/
def Bus.urgentFirst (b : Bus) : Bus :=
  match b.queue with
  | .writeBack line d :: rest =>
    if b.locked || b.answering then b
    else { b with cur := writeBackXfer line d true :: b.cur, queue := rest }
  | _ => b

/-- From Ti, or at the end of a cycle: what starts if HOLD, AHOLD and BOFF# are deasserted (R460 refs 1, 4, 5); HOLD is not
honoured under LOCK# (R440). A snooped line is written back before anything but the rest of a fill, of a locked sequence or of the
write-back of a line snooped before it (45_family_variants.md R588, D18): also before the modified line that the fill has replaced, where 45_family_variants.md R585 and R586
each put their own write-back next: the model's choice (log 50). `own`: between instructions, where the bus unit goes on with requests of
its own; `keep`: LOCK# stays asserted after the transfers of `cur`. -/
def Bus.startNext (b : Bus) (c : MemCtx) (own keep : Bool) (k : ClockIn) : Bus :=
  let x := b.cur.headD (Xfer.new .special .plain [])
  if k.boff || k.ahold || (k.hold && !x.cont) || (keep && b.cur.isEmpty) then { b with phase := .ti }
  else if x.cont || x.fill || b.answering then b.startCur
  else
    match b.queue with
    | .writeBack line d :: rest => { b with phase := .t1, cur := writeBackXfer line d true :: b.cur, queue := rest }
    | _ => if b.cur.isEmpty && own then (b.nextOwn c).startCur else b.startCur

/-- The reset sampled in a clock; SRESET only on a part that has the pin (70_reset_and_hazards.md R742). -/
def ClockIn.resets (k : ClockIn) (sl : Bool) : Option ResetIn :=
  match k.reset with
  | some .soft => if sl then some .soft else none
  | r => r

/-- The bus size sampled (40_signal_interface.md R303, R304). -/
def ClockIn.size (k : ClockIn) (kind : CycleKind) : Nat :=
  match kind with
  | .intAck | .special => 32
  | _ => if k.bs8 then 8 else if k.bs16 then 16 else 32

/-- A ready (42_bus_transactions.md R461): the item in progress moves. The validation sample of a fill is KEN# in the clock before
the last ready (41_cache_operations.md R352). -/
def Bus.ready (b : Bus) (c : MemCtx) (own keep : Bool) (k : ClockIn) (x : Xfer) (xs : List Xfer) : Bus :=
  let y := x.decide x.ken k.wbwt
  match y.parts with
  | [] => { b with cur := xs }.startNext c own keep k
  | p :: ps =>
    let moved := movedLanes (y.size.getD 32) p.lanes
    let d := b.answer c y.kind p
    let left := p.lanes &&& ~~~moved
    let bad := if y.kind.isRead then k.badParity else 0
    let t := y.pins c (!x.decided) (!ps.isEmpty || left != 0)
    let cycle : BusCycle :=
      { kind := y.kind, addr := p.addr, be := ~~~(if x.decided then p else x.parts.headD p).lanes, data := d, lock := t.lock
        plock := t.plock, pcd := t.pcd, pwt := t.pwt, cache := t.cache, dp := parityBits d ^^^ bad, ads := y.ads
        blast := ps.isEmpty && left == 0, clocks := y.spent + 1 }
    let b := { b with trace := cycle :: b.trace }.moveLanes c y.kind p.addr moved d bad
    let p' : BusPart := { p with lanes := left, got := mergeLanes moved p.got d }
    let rest := if left = 0 then ps else p' :: ps
    let b := if left = 0 then b.keepPart y.kind p' else b
    if rest.isEmpty then
      if y.fill && !y.stale && x.ken then
        match b.installLine c y.line y.wbwt with
        | (b, v) => { b with cur := v.toList ++ xs }.startNext c own keep k
      else { b with cur := xs }.startNext c own keep k
    else
      let b := { b with cur := { y with parts := rest, ken := k.ken, spent := 0, ads := k.rdy, cont := y.attr.lock } :: xs }
      if k.rdy then b.startNext c own keep k else b

/-- One bus clock (R460, R461), at the end of which the pins are `k`. A snoop is taken before a ready of the same clock: the model's
choice (41_cache_operations.md R366, log 41). When BOFF# is released the cycle that it stopped starts again, after the write-back of a
line snooped meanwhile (R450, D18); while HOLD or AHOLD is asserted, which keeps the write-back, a new cycle, from starting (R455,
45_family_variants.md R586) and not the restart (R460 ref 8), it starts again at once: the model's choice (log 50). The four idle clocks
between the acknowledge cycles (R410) do not count while AHOLD or BOFF# is asserted in them: the model's choice (log 41). `keep`: LOCK#
stays asserted after the transfers of `cur`. -/
def Bus.clock (b : Bus) (c : MemCtx) (own keep : Bool) (k : ClockIn) : Bus :=
  let b : Bus :=
    match k.master with
    | some (sm, a, v) => b.masterWrite c sm a v
    | none => b
  let b : Bus :=
    match k.eads with
    | some (line, inv) => if b.takesSnoop k then b.snoop c line inv else b
    | none => b
  let b : Bus := { b with clocks := b.clocks + 1, heldHold := k.hold, heldAddr := k.ahold || k.boff }
  match b.phase, b.cur with
  | .ti, _ => (if k.boff || k.ahold then b else b.idled).startNext c own keep k
  | .tb, _ => if k.boff then b else { (if k.ahold || k.hold then b else b.urgentFirst) with phase := .t1b }
  | _, [] => { b with phase := .ti }
  | .t1, x :: xs | .t1b, x :: xs =>
    if k.boff then { b with phase := .tb }
    else { b with phase := .t2, cur := { x with size := some (k.size x.kind), ken := k.ken, ads := true, spent := x.spent + 1 } :: xs }
  | .t2, x :: xs =>
    if k.boff then { b with phase := .tb }
    else if k.rdy || k.brdy then b.ready c own keep k x xs
    else { b with cur := { x with ken := k.ken, spent := x.spent + 1 } :: xs }

/-! ### Transfers of the processor -/

/-- The snooped lines at the head of the queue written back whole. -/
def Bus.runUrgent (b : Bus) (c : MemCtx) : List BusReq → Bus
  | .writeBack line d :: rest => Bus.runUrgent ({ b with queue := rest }.finish c (writeBackXfer line d true)) c rest
  | q => { b with queue := q }

/-- A transfer whose next item starts a bus cycle: with ADS#, and the bus size sampled anew (42_bus_transactions.md R425, R450). -/
def Xfer.anew (x : Xfer) : Xfer := { x with ads := true, size := none }

/-- The transfers left where the bus stands. Only the first one, in T2, has its bus cycle on the bus. The others start a bus cycle: one
that BOFF# or a ready has stopped, also where the write-back of a snooped line stands before it, and one not begun (R425, R450, R470). -/
def restarted (phase : BusPhase) : List Xfer → List Xfer
  | x :: xs => (if phase == .t2 then x else x.anew) :: xs.map Xfer.anew
  | [] => []

/-- The transfers that go before the write-back of a snooped line when the script ends: the one on the bus, a fill begun, the rest
of a locked sequence, and the write-back of a line snooped before (D18, 42_bus_transactions.md R440, 45_family_variants.md R588; log 41). -/
def Bus.underWay (b : Bus) : List Xfer :=
  match b.cur with
  | x :: xs =>
    let more := xs.takeWhile (·.cont)
    if (b.phase != .ti && b.phase != .tb) || b.locked || (b.phase == .ti && x.fill) || x.hitm then x :: more else []
  | [] => []

/-- The script is used up, and the environment answers as the platform says: what is under way ends, then the snooped lines are
written back, then the rest runs. The clocks that the items in progress have taken are counted with them (42_bus_transactions.md R470), so
no clock is counted twice. -/
def Bus.finishCur (b : Bus) (c : MemCtx) (keep : Bool) : Bus :=
  let spent := (b.cur.map (·.spent)).sum
  let xs := restarted b.phase b.cur
  let n := b.underWay.length
  let b := { b with phase := .ti, cur := [], clocks := b.clocks - spent, heldHold := false, heldAddr := false }.finishAll c (xs.take n)
  if keep then b.finishAll c (xs.drop n)
  else
    let b := (b.runUrgent c b.queue).finishAll c (xs.drop n)
    b.runUrgent c b.queue

/-- The transfers of `cur` clock by clock as the script says, then the write-backs that snoops in these clocks asked for. -/
def driveClocks (c : MemCtx) (keep : Bool) : List ClockIn → BM Unit
  | [] => fun b => .ok () ({ b with script := [] }.finishCur c keep)
  | k :: ks => fun b =>
    if b.cur.isEmpty && (keep || b.urgent.isNone) then .ok () { b with script := k :: ks, phase := .ti }
    else
      let b' := { b with script := ks }.clock c false keep k
      match k.resets c.sl with
      | some r => .error (.reset r) b'
      | none => driveClocks c keep ks b'

/-- Run transfers of one access. `keep`: LOCK# stays asserted after them. The line-fill buffer takes what is read; PCHK# is driven
anew by reads (log 43). -/
def transact (c : MemCtx) (keep : Bool) (xs : List Xfer) : BM Unit := fun b =>
  let b : Bus := if xs.any (·.kind.isRead) then { b with fillBuf := [], pchk := false } else b
  if b.script.isEmpty then .ok () (b.finishAll c xs)
  else
    let wait := b.heldAddr || (b.heldHold && !(xs.headD (Xfer.new .special .plain [])).cont)
    driveClocks c keep b.script
      (if wait then { b with cur := xs, phase := .ti } else { ({ b with cur := xs } : Bus).urgentFirst with phase := .t1 })

/-- After a locked sequence: a line snooped during it is written back before anything else (D18). -/
def writeBackSnooped (c : MemCtx) : BM Unit := fun b => .ok () (if b.script.isEmpty then b.runUrgent c b.queue else b)

/-! ### Write buffers -/

/-- The bus, or a stall (log 36). -/
def needBus (c : MemCtx) : BM Unit := if c.busFree then pure () else throw .stall

/-- Every buffered write reaches the bus, oldest first (20_memory.md R171, R178), the platform answering. -/
def Bus.drain (b : Bus) (c : MemCtx) : Bus := { b with wb := [], readPassed := false }.finishAll c (b.wb.map WbEntry.xfer)

/-- The buffers drained: their events are in 20_memory.md R178. -/
def drainBuffers (c : MemCtx) : BM Unit := fun b =>
  if b.wb.isEmpty then .ok () b
  else if c.busFree then transact c false (b.wb.map WbEntry.xfer) { b with wb := [], readPassed := false }
  else .error .stall b

/-- The oldest buffered write reaches the bus. -/
def drainOne (c : MemCtx) : BM Unit := fun b =>
  match b.wb with
  | [] => .ok () b
  | e :: rest => transact c false [e.xfer] { b with wb := rest, readPassed := b.readPassed && !rest.isEmpty }

/-- A write requested of the bus unit (20_memory.md R170): directly when the buffers are empty and the bus is idle and not granted away
(42_bus_transactions.md R455), else into a buffer; with four buffers full the oldest goes out first. -/
def postWrite (c : MemCtx) (e : WbEntry) : BM Unit := fun b =>
  if b.wb.isEmpty && c.busFree && !b.heldHold && !b.heldAddr && !c.plat.lazyBus then transact c false [e.xfer] b
  else if b.wb.length < 4 then .ok () { b with wb := b.wb ++ [e] }
  else if c.busFree then
    match drainOne c b with
    | .ok () b => .ok () { b with wb := b.wb ++ [e] }
    | .error r b => .error r b
  else .error .stall b

/-! ### Parts of an access -/

/-- A part of an access that lies in one aligned block. -/
structure LChunk where
  lin : Addr
  len : Nat
  deriving DecidableEq, Repr

/-- The parts of `n` bytes at an address that lie in aligned blocks of 2^w bytes, lowest first (20_memory.md R146, R147; log 11). -/
def chunksOf (w : Nat) : Nat → Addr → Nat → List LChunk
  | 0, _, _ => []
  | fuel + 1, a, n =>
    if n = 0 then []
    else
      let k := min n (2 ^ w - a.toNat % 2 ^ w)
      ⟨a, k⟩ :: chunksOf w fuel (a + BitVec.ofNat 32 k) (n - k)

/-- The doublewords of `n` bytes at an address. -/
def dwordsOf (a : Addr) (n : Nat) : List LChunk := chunksOf 2 (n + 1) a n

/-- The lanes of a part that lies in one doubleword (20_memory.md R146). -/
def LChunk.lanes (l : LChunk) : BitVec 4 := laneMask (l.lin.extractLsb' 0 2) l.len

/-- The doublewords of a read. -/
def readParts (a : Addr) (n : Nat) : List BusPart := (dwordsOf a n).map fun l => ⟨l.lin.extractLsb' 2 30, l.lanes, 0, 0⟩

/-- The buffered writes of the bytes of an access; PLOCK# goes with all but the last, and with that too if `more` of the operand
follows (20_memory.md R183). `follows`: other writes of the operand go before them. -/
def writeEntries (io hit pcd pwt follows more : Bool) (addr : Addr → BitVec 30) : List LChunk → List Byte → List WbEntry
  | [], _ => []
  | l :: ls, bs =>
    ⟨io, addr l.lin, l.lanes, laneData (l.lin.extractLsb' 0 2) (bs.take l.len), hit, pcd, pwt, more || !ls.isEmpty, follows⟩
      :: writeEntries io hit pcd pwt true more addr ls (bs.drop l.len)

/-- Writes requested in order. -/
def postWrites (c : MemCtx) : List WbEntry → BM Unit
  | [] => return ()
  | e :: es => do
    postWrite c e
    postWrites c es

/-- The doubleword address of a memory byte. -/
def memDword (a : Addr) : BitVec 30 := a.extractLsb' 2 30

/-! ### Reads and writes through the cache -/

/-- Make memory behind the bus current for a read miss: one read may pass the buffered writes when all of them were cache hits
(20_memory.md R172, R173) and none of them is to the line read (log 12); else the buffers drain first. -/
def orderRead (c : MemCtx) (a : Addr) : BM Unit := fun b =>
  if !c.busFree then .error .stall b
  else if !b.wb.isEmpty && b.wb.all (·.hit) && !b.readPassed
      && b.wb.all (fun e => e.addr.extractLsb' 2 28 != a.extractLsb' 4 28) then
    .ok () { b with readPassed := true }
  else drainBuffers c b

/-- An operand has been written in part, and its next write, oldest in the buffers, is yet to be driven (20_memory.md R183). -/
def Bus.operandBegun (b : Bus) : Bool := b.wb.head?.any (·.follows)

/-- The transfer of a read miss (41_cache_operations.md R346, R347; 20_memory.md R168). -/
def readXfer (c : MemCtx) (kind : CycleKind) (ch : PChunk) (more : Bool) (parts : List BusPart) : Xfer :=
  { Xfer.new kind ⟨false, more, ch.pcd, ch.pwt, false⟩ parts with want := !c.cd && !ch.pcd }

/-- Read the bytes of one chunk: from the cache on a hit, else on the bus, where a fill may result
(41_cache_operations.md R345, R346; 20_memory.md R168). `more`: other cycles of the operand follow. PLOCK# goes with the read, too, where
it passes a buffered write of an operand that has been written in part (20_memory.md R172, R183). -/
def readChunk (c : MemCtx) (kind : CycleKind) (more : Bool) (ch : PChunk) : BM (List Byte) := do
  let a := maskA20 c ch.pa
  let b ← get
  match b.cache.lookup c.big a with
  | some w =>
    set { b with cache := b.cache.touchAt c.big a w }
    return lineBytes (((b.cache.entry (setOf c.big a)).way w).data) (byteOf a) ch.len
  | none =>
    orderRead c a
    let b ← get
    transact c false [readXfer c kind ch (more || b.operandBegun) (readParts a ch.len)]
    let b ← get
    return b.readBytes a ch.len

/-- A write that hits stays in the cache: of a line in state M or E in write-back mode, or with CD = NW = 1 (45_family_variants.md R582,
41_cache_operations.md R385). -/
def keepsWrite (c : MemCtx) (st : Mesi) : Bool := (c.wb && (st == .modified || st == .exclusive)) || (c.cd && c.nw)

/-- Write the bytes of one chunk (41_cache_operations.md R370, R371, R385; 45_family_variants.md R582, R591; log 14). -/
def writeChunk (c : MemCtx) (follows more : Bool) (ch : PChunk) (bs : List Byte) : BM Unit := do
  let a := maskA20 c ch.pa
  let b ← get
  match b.cache.lookup c.big a with
  | some w =>
    let st := ((b.cache.entry (setOf c.big a)).way w).st
    let st' : Mesi := if c.wb && st == .exclusive then .modified else st
    set { b with cache := b.cache.writeHit c.big a w st' bs }
    if keepsWrite c st then return ()
    else postWrites c (writeEntries false true ch.pcd ch.pwt follows more memDword (dwordsOf a ch.len) bs)
  | none => postWrites c (writeEntries false false ch.pcd ch.pwt follows more memDword (dwordsOf a ch.len) bs)

/-- Whether the write of a chunk goes on the bus. -/
def Bus.postsWrite (b : Bus) (c : MemCtx) (ch : PChunk) : Bool :=
  match b.cache.lookup c.big (maskA20 c ch.pa) with
  | some w => !keepsWrite c ((b.cache.entry (setOf c.big (maskA20 c ch.pa))).way w).st
  | none => true

/-- Whether the read of a chunk goes on the bus. -/
def Bus.readMisses (b : Bus) (c : MemCtx) (ch : PChunk) : Bool := (b.cache.lookup c.big (maskA20 c ch.pa)).isNone

/-- Read chunks in order. PLOCK# announces only cycles of the operand that the bus will see (40_signal_interface.md R269). -/
def readChunks (c : MemCtx) (kind : CycleKind) : List PChunk → BM (List Byte)
  | [] => return []
  | ch :: chs => do
    let b ← get
    let x ← readChunk c kind (chs.any (b.readMisses c)) ch
    let y ← readChunks c kind chs
    return x ++ y

/-- Write bytes to chunks in order. `follows`: other writes of the operand have gone before them. -/
def writeChunks (c : MemCtx) (follows : Bool) : List PChunk → List Byte → BM Unit
  | [], _ => return ()
  | ch :: chs, bs => do
    let b ← get
    writeChunk c follows (chs.any (b.postsWrite c)) ch (bs.take ch.len)
    writeChunks c (follows || b.postsWrite c ch) chs (bs.drop ch.len)

/-! ### Locked accesses (20_memory.md R180, R181; 42_bus_transactions.md R440) -/

/-- The line of a slot is written back if it is still modified (45_family_variants.md R584); it is exclusive once memory has its bytes
(log 13). -/
def writeBackSlot (c : MemCtx) (s : BitVec 8) (w : BitVec 2) : BM Unit := do
  let b ← get
  let l := (b.cache.entry s).way w
  if l.st = .modified then
    transact c false [writeBackXfer ((b.cache.slotAddr c.big s w).extractLsb' 4 28) l.data false]
    modify fun b => { b with cache := b.cache.cleanWay s w }

/-- The lines of several slots written back one after the other: one that a snoop has had written back meanwhile is not written again
(93_implementation_defined.md U38). -/
def writeBackSlots (c : MemCtx) : List (BitVec 8 × BitVec 2) → BM Unit
  | [] => return ()
  | x :: xs => do
    writeBackSlot c x.1 x.2
    writeBackSlots c xs

/-- The modified line that holds an address is written back, so that a locked cycle finds memory current (log 13). -/
def cleanLine (c : MemCtx) (a : Addr) : BM Unit := do
  let b ← get
  match b.cache.lookup c.big a with
  | some w => writeBackSlot c (setOf c.big a) w
  | none => return ()

def cleanLines (c : MemCtx) : List PChunk → BM Unit
  | [] => return ()
  | ch :: chs => do
    cleanLine c (maskA20 c ch.pa)
    cleanLines c chs

/-- The transfers of locked reads; `cont`: others have come before. -/
def lockedReads (c : MemCtx) (cont : Bool) : List PChunk → List Xfer
  | [] => []
  | ch :: chs =>
    { Xfer.new .memRead ⟨true, !chs.isEmpty, ch.pcd, ch.pwt, false⟩ (readParts (maskA20 c ch.pa) ch.len) with cont := cont }
      :: lockedReads c true chs

/-- A locked read: the buffers drain, and the cycles run on the bus even on a hit (20_memory.md R178, R181;
41_cache_operations.md R344); LOCK# stays asserted. -/
def readChunksLocked (c : MemCtx) (chs : List PChunk) : BM (List Byte) := do
  needBus c
  drainBuffers c
  cleanLines c chs
  transact c true (lockedReads c false chs)
  let b ← get
  return chs.flatMap fun ch => b.readBytes (maskA20 c ch.pa) ch.len

/-- The transfers of locked writes. `follows`: others of the operand have gone before them. -/
def lockedWrites (c : MemCtx) (follows : Bool) : List PChunk → List Byte → List Xfer
  | [], _ => []
  | ch :: chs, bs =>
    ((writeEntries false true ch.pcd ch.pwt follows (!chs.isEmpty) memDword (dwordsOf (maskA20 c ch.pa) ch.len)
      (bs.take ch.len)).map fun e => { e.xfer with attr := { e.xfer.attr with lock := true }, cont := true })
      ++ lockedWrites c true chs (bs.drop ch.len)

/-- The lines that hold the bytes of chunks, written. -/
def Bus.storeHits (c : MemCtx) : List PChunk → List Byte → Bus → Bus
  | [], _, b => b
  | ch :: chs, bs, b =>
    let a := maskA20 c ch.pa
    Bus.storeHits c chs (bs.drop ch.len)
      (match b.cache.lookup c.big a with
       | some w =>
         { b with cache := b.cache.writeHit c.big a w ((b.cache.entry (setOf c.big a)).way w).st (bs.take ch.len) }
       | none => b)

/-- A locked write, after the locked read of the same bytes: on the bus at once, and into the lines that hold them
(43_instructions_new.md R482). -/
def writeChunksLocked (c : MemCtx) (chs : List PChunk) (bs : List Byte) : BM Unit := do
  modify fun b => b.storeHits c chs bs
  transact c false (lockedWrites c false chs bs)

/-! ### The processor's view -/

/-- The newest buffered byte for a physical address, if a write to it is pending. -/
def wbByte (a : Addr) : List WbEntry → Option Byte
  | [] => none
  | e :: rest =>
    match wbByte a rest with
    | some v => some v
    | none =>
      if !e.io && e.addr == a.extractLsb' 2 30 && e.lanes.getLsbD (a.extractLsb' 0 2).toNat then
        some (e.data.extractLsb' (8 * (a.extractLsb' 0 2).toNat) 8)
      else none

/-- The byte the processor sees at a physical address: its cache's, else the newest buffered one, else memory's. -/
def Bus.view (b : Bus) (c : MemCtx) (a : Addr) : Byte :=
  match b.cache.lookup c.big a with
  | some w => ((b.cache.entry (setOf c.big a)).way w).data[(byteOf a).toNat]'(by have := (byteOf a).isLt; omega)
  | none => (wbByte a b.wb).getD (b.physByte c a)

end Sys2Proof.Machine
end

