-- ==== Sys2Proof/Machine/Paging.lean ====
section
/-! DEFINITION. The paging unit and the TLB (20_memory.md R158 to R167; log 18, 25), and the prefetcher's line reads
(20_memory.md R184, 41_cache_operations.md R364). -/

set_option Elab.async false

namespace Sys2Proof.Machine

/-- What a translation sees of the processor. -/
structure PageCtx where
  /-- CR0.PG. -/
  pg : Bool
  /-- CR0.WP. -/
  wp : Bool
  /-- CR4.PSE, on a part that has it. -/
  pse : Bool
  cr3 : DWord
  /-- A user access: CPL = 3 (20_memory.md R163). -/
  user : Bool
  /-- `PteCacheBits` (20_memory.md R160). -/
  asPrinted : Bool
  /-- `PagingOffAttr` (20_memory.md R167). -/
  offFromCr3 : Bool
  deriving DecidableEq, Repr

/-- The PCD bit of a page entry (20_memory.md R160). -/
def pteDisable (p : PageCtx) (e : DWord) : Bool := if p.asPrinted then e.getLsbD 3 else e.getLsbD 4
/-- The PWT bit of a page entry (20_memory.md R160). -/
def pteThrough (p : PageCtx) (e : DWord) : Bool := if p.asPrinted then e.getLsbD 4 else e.getLsbD 3

/-- The error code of a page fault (60_exceptions.md R631). -/
def pageFaultCode (p : PageCtx) (present write : Bool) : DWord :=
  (if present then 1#32 else 0) ||| (if write then 2#32 else 0) ||| (if p.user then 4#32 else 0)

/-- Whether the effective rights of a page allow an access (20_memory.md R163). -/
def pageAllows (p : PageCtx) (write writable user : Bool) : Bool :=
  (!p.user || user) && (!write || writable || (!p.user && !p.wp))

/-- The TLB set of a linear address (log 18). -/
def tlbSet (lin : Addr) : BitVec 3 := lin.extractLsb' 12 3

def tlbIndex (s : BitVec 3) (w : BitVec 2) : BitVec 5 := s ++ w

def tlbAt (t : Tlb) (i : BitVec 5) : TlbEntry := t[i.toNat]'(by have := i.isLt; omega)

def tlbPut (t : Tlb) (i : BitVec 5) (e : TlbEntry) : Tlb := t.set i.toNat e (by have := i.isLt; omega)

def tlbMatches (t : Tlb) (lin : Addr) (w : BitVec 2) : Bool :=
  let e := tlbAt t (tlbIndex (tlbSet lin) w)
  e.valid && e.page == lin.extractLsb' 12 20

/-- The entry for a linear address, if the TLB holds one (20_memory.md R166). -/
def tlbFind (t : Tlb) (lin : Addr) : Option (BitVec 2) :=
  if tlbMatches t lin 0 then some 0
  else if tlbMatches t lin 1 then some 1
  else if tlbMatches t lin 2 then some 2
  else if tlbMatches t lin 3 then some 3
  else none

/-- The way a new translation goes to: the one that holds the page already, else a free choice (10_state.md R78, U9; log 18). -/
def tlbVictim (t : Tlb) (lin : Addr) (draw : Nat) : BitVec 2 := (tlbFind t lin).getD (Config.tlbWay draw)

/-- Every entry invalid (20_memory.md R185). -/
def tlbFlush (t : Tlb) : Tlb := t.map fun e => { e with valid := false }

/-- The entries for a linear page invalid, and those of the 4MB page that holds it (43_instructions_new.md R491). -/
def tlbInvalidate (t : Tlb) (lin : Addr) : Tlb :=
  t.map fun e =>
    if e.page == lin.extractLsb' 12 20 || (e.big && e.page.extractLsb' 10 10 == lin.extractLsb' 22 10) then
      { e with valid := false }
    else e

/-- A translated address with the attributes of its cycles (20_memory.md R167). -/
structure Phys where
  pa : Addr
  pcd : Bool
  pwt : Bool
  deriving DecidableEq, Repr

/-- What a page-table walk finds. -/
structure Walk where
  entry : TlbEntry
  pdeAddr : PChunk
  pde : DWord
  /-- The page-table entry and where it stands; none for a 4MB page. -/
  pte : Option (PChunk × DWord)
  deriving DecidableEq, Repr

/-- Read a page entry: a memory data read through the cache (20_memory.md R161). -/
def readEntry (c : MemCtx) (ch : PChunk) : BM DWord := do
  return ofBytes 32 (← readChunk c .memRead false ch)

/-- Walk the tables and check the rights, changing neither (20_memory.md R161, R163, R165). -/
def walk (c : MemCtx) (p : PageCtx) (lin : Addr) (write : Bool) : BM Walk := do
  let pdeAddr : PChunk := ⟨p.cr3.extractLsb' 12 20 ++ lin.extractLsb' 22 10 ++ 0#2, 4, p.cr3.getLsbD 4, p.cr3.getLsbD 3⟩
  let pde ← readEntry c pdeAddr
  if !pde.getLsbD 0 then throw (.pageFault lin (pageFaultCode p false write))
  if p.pse && pde.getLsbD 7 then
    let e : TlbEntry :=
      { valid := true, page := lin.extractLsb' 12 20, frame := pde.extractLsb' 22 10 ++ lin.extractLsb' 12 10
        writable := pde.getLsbD 1, user := pde.getLsbD 2, dirty := pde.getLsbD 6 || write
        pcd := pteDisable p pde, pwt := pteThrough p pde, big := true }
    if !pageAllows p write e.writable e.user then throw (.pageFault lin (pageFaultCode p true write))
    return ⟨e, pdeAddr, pde, none⟩
  else
    let pteAddr : PChunk :=
      ⟨pde.extractLsb' 12 20 ++ lin.extractLsb' 12 10 ++ 0#2, 4, pteDisable p pde, pteThrough p pde⟩
    let pte ← readEntry c pteAddr
    if !pte.getLsbD 0 then throw (.pageFault lin (pageFaultCode p false write))
    let e : TlbEntry :=
      { valid := true, page := lin.extractLsb' 12 20, frame := pte.extractLsb' 12 20
        writable := pde.getLsbD 1 && pte.getLsbD 1, user := pde.getLsbD 2 && pte.getLsbD 2
        dirty := pte.getLsbD 6 || write, pcd := pteDisable p pte, pwt := pteThrough p pte, big := false }
    if !pageAllows p write e.writable e.user then throw (.pageFault lin (pageFaultCode p true write))
    return ⟨e, pdeAddr, pde, some (pteAddr, pte)⟩

/-- Set bits of a page entry by a locked read-modify-write, unless they are set (20_memory.md R162). -/
def setEntryBits (c : MemCtx) (ch : PChunk) (v bits : DWord) : BM Unit := do
  if v &&& bits = bits then return ()
  else
    let old := ofBytes 32 (← readChunksLocked c [ch])
    writeChunksLocked c [ch] (toBytes 4 (old ||| bits))
    writeBackSnooped c

/-- Set A, and D on a write, in the entries of a walk (20_memory.md R162), and enter the translation in the TLB. -/
def commitWalk (c : MemCtx) (lin : Addr) (write : Bool) (w : Walk) : BM Unit := do
  match w.pte with
  | none => setEntryBits c w.pdeAddr w.pde (if write then 0x60#32 else 0x20#32)
  | some (pteAddr, pte) => do
    setEntryBits c w.pdeAddr w.pde 0x20#32
    setEntryBits c pteAddr pte (if write then 0x60#32 else 0x20#32)
  let b ← get
  let way := tlbVictim b.tlb lin b.draws
  set { b with tlb := tlbPut b.tlb (tlbIndex (tlbSet lin) way) w.entry, draws := b.draws + 1 }

def TlbEntry.phys (e : TlbEntry) (lin : Addr) : Phys := ⟨e.frame ++ lin.extractLsb' 0 12, e.pcd, e.pwt⟩

/-- The physical address of a linear one with paging off (20_memory.md R155, R167). -/
def flatPhys (p : PageCtx) (lin : Addr) : Phys :=
  ⟨lin, p.offFromCr3 && p.cr3.getLsbD 4, p.offFromCr3 && p.cr3.getLsbD 3⟩

/-- Translate a linear address (20_memory.md R158 to R166). A write that finds an entry with D = 0 walks the tables again, and takes
the frame and the rights found then: the model's choice (log 44). -/
def translate (c : MemCtx) (p : PageCtx) (lin : Addr) (write : Bool) : BM Phys := do
  if !p.pg then return flatPhys p lin
  else
    let b ← get
    match tlbFind b.tlb lin with
    | some w =>
      let e := tlbAt b.tlb (tlbIndex (tlbSet lin) w)
      if !pageAllows p write e.writable e.user then throw (.pageFault lin (pageFaultCode p true write))
      if write && !e.dirty then
        let wk ← walk c p lin write
        commitWalk c lin write wk
        return TlbEntry.phys wk.entry lin
      else return TlbEntry.phys e lin
    | none =>
      let wk ← walk c p lin write
      commitWalk c lin write wk
      return TlbEntry.phys wk.entry lin

/-- Raise the page fault a translation would raise, setting no A or D bit and loading no TLB entry (60_exceptions.md R631). -/
def probe (c : MemCtx) (p : PageCtx) (lin : Addr) (write : Bool) : BM Unit := do
  if !p.pg then return ()
  else
    let b ← get
    match tlbFind b.tlb lin with
    | some w =>
      let e := tlbAt b.tlb (tlbIndex (tlbSet lin) w)
      if !pageAllows p write e.writable e.user then throw (.pageFault lin (pageFaultCode p true write))
      if write && !e.dirty then
        let _ ← walk c p lin write
        return ()
      else return ()
    | none =>
      let _ ← walk c p lin write
      return ()

/-- Whether `n` bytes at a linear address touch two pages. -/
def crossesPage (lin : Addr) (n : Nat) : Bool := (lin.extractLsb' 0 12).toNat + n > 4096

def probeAll (c : MemCtx) (p : PageCtx) (write : Bool) : List LChunk → BM Unit
  | [] => return ()
  | l :: ls => do
    probe c p l.lin write
    probeAll c p write ls

def translateAll (c : MemCtx) (p : PageCtx) (write : Bool) : List LChunk → BM (List PChunk)
  | [] => return []
  | l :: ls => do
    let ph ← translate c p l.lin write
    let rest ← translateAll c p write ls
    return ⟨ph.pa, l.len, ph.pcd, ph.pwt⟩ :: rest

/-- Translate the whole of an access before any of it is performed; where it touches two pages, both are checked before either
table is updated. -/
def translateRange (c : MemCtx) (p : PageCtx) (lin : Addr) (n : Nat) (write : Bool) : BM (List PChunk) := do
  let ls := chunksOf 4 (n + 1) lin n
  if crossesPage lin n then probeAll c p write ls
  translateAll c p write ls

/-- Read `n` bytes at a linear address. -/
def linRead (c : MemCtx) (p : PageCtx) (lin : Addr) (n : Nat) : BM (List Byte) := do
  let ps ← translateRange c p lin n false
  readChunks c .memRead ps

/-- Write bytes at a linear address. -/
def linWrite (c : MemCtx) (p : PageCtx) (lin : Addr) (bs : List Byte) : BM Unit := do
  let ps ← translateRange c p lin bs.length true
  writeChunks c false ps bs

/-- Reads of several sizes, one after the other in memory (20_memory.md R151). -/
def linReads (c : MemCtx) (p : PageCtx) : Addr → List Nat → BM (List Byte)
  | _, [] => return []
  | lin, n :: ns => do
    let x ← linRead c p lin n
    let y ← linReads c p (lin + BitVec.ofNat 32 n) ns
    return x ++ y

/-- Writes of several sizes, one after the other in memory (20_memory.md R151). -/
def linWrites (c : MemCtx) (p : PageCtx) : Addr → List Nat → List Byte → BM Unit
  | _, [], _ => return ()
  | lin, n :: ns, bs => do
    linWrite c p lin (bs.take n)
    linWrites c p (lin + BitVec.ofNat 32 n) ns (bs.drop n)

/-- The page fault that a write of `n` bytes would raise, before any of it is performed. -/
def probeWrite (c : MemCtx) (p : PageCtx) (lin : Addr) (n : Nat) : BM Unit := probeAll c p true (chunksOf 12 (n + 1) lin n)

/-! ### The prefetcher -/

/-- Read the line of code that holds a physical address (41_cache_operations.md R364, 42_bus_transactions.md R430). -/
def readCodeLine (c : MemCtx) (ph : Phys) : BM (List Byte) := do
  let a := ph.pa
  let b ← get
  match b.cache.lookup c.big a with
  | some w =>
    set { b with cache := b.cache.touchAt c.big a w }
    return ((b.cache.entry (setOf c.big a)).way w).data.toList
  | none =>
    orderRead c a
    let b ← get
    transact c false [readXfer c .codeRead ⟨a, 16, ph.pcd, ph.pwt⟩ b.operandBegun (lineParts (a.extractLsb' 2 30))]
    let b ← get
    return b.readBytes (lineBase a) 16

/-- What the prefetch queue holds of an address. -/
def queuedByte (a : Addr) (q : List QByte) : Option QByte := q.find? fun e => e.addr == a

/-- The bytes of the prefetch queue (00_scope.md R9, 10_state.md R77). -/
def queueSize : Nat := 32

/-- The bytes of a line from the one at `a` on, as the prefetch queue takes them. -/
def lineFrom (a : Addr) (bs : List Byte) : List QByte :=
  (bs.zipIdx.map fun (x : Byte × Nat) => (⟨lineBase a + BitVec.ofNat 32 x.2, x.1, x.1⟩ : QByte)).drop (byteOf a).toNat

/-- The last bytes that fit in the prefetch queue. -/
def lastBytes (q : List QByte) : List QByte := q.drop (q.length - queueSize)

/-- The bytes of a line from the one at `a` on, which an instruction needs now, enter the prefetch queue: what stands there has run, or
belongs to that instruction. -/
def enqueueLine (a : Addr) (bs : List Byte) : BM Unit := modify fun b =>
  { b with fetchq := { b.fetchq with queue := lastBytes (b.fetchq.queue ++ lineFrom a bs) } }

/-- The code byte at a linear address (20_memory.md R184, D13; log 27): from its line, which enters the prefetch queue, or from the
bytes read ahead: there a byte that a store of this processor has changed since may be seen old or new, and one that only another master has
changed is seen old. The queue is looked up by physical address; it is kept when CR0.PE or CR0.PG changes. -/
def fetchByte (c : MemCtx) (p : PageCtx) (lin : Addr) : BM Byte := do
  let ph ← translate c p lin false
  let a := maskA20 c ph.pa
  let b ← get
  match queuedByte a b.fetchq.bytes with
  | some q =>
    if q.mem = b.view c a || q.byte = b.view c a then return q.byte
    else
      set { b with draws := b.draws + 1 }
      return if Config.fetchSeesOld b.draws then q.byte else b.view c a
  | none =>
    let bs ← readCodeLine c { ph with pa := a }
    enqueueLine a bs
    return bs.getD (byteOf a).toNat 0

/-- The bytes of a line from the one at `a` on enter the prefetch queue ahead of execution, as many as it has room for (log 27). -/
def appendLine (a : Addr) (bs : List Byte) : BM Unit := modify fun b =>
  { b with fetchq := { b.fetchq with queue := (b.fetchq.queue ++ lineFrom a bs).take queueSize } }

/-- What comes before the byte at `a` has run, and leaves the decode stages and the prefetch queue. -/
def FetchQueue.dropBefore (q : FetchQueue) (a : Addr) : FetchQueue :=
  let gone := (q.bytes.takeWhile (·.addr != a)).length
  ⟨q.stages.drop gone, q.queue.drop (gone - q.stages.length)⟩

/-- The first `n` bytes stand in the decode stages, those of the prefetch queue among them having left it. -/
def FetchQueue.advance (q : FetchQueue) (n : Nat) : FetchQueue :=
  ⟨q.stages ++ q.queue.take (n - q.stages.length), q.queue.drop (n - q.stages.length)⟩

/-- The prefetcher runs at a linear address (20_memory.md R184, 00_scope.md R13; log 27): what has run leaves the queue, the decode stages
take the instructions that stand whole in it, `stages` of their bytes, and the line goes on being read where the queue ends, unless the
queue is full or the code segment ends there. `room`: the bytes up to the segment's limit. -/
def prefetchAhead (c : MemCtx) (p : PageCtx) (lin : Addr) (room : Nat) (stages : List Byte → Nat) : BM Unit := do
  let ph ← translate c p lin false
  modify fun b =>
    let q := b.fetchq.dropBefore (maskA20 c ph.pa)
    { b with fetchq := q.advance (stages (q.bytes.map (·.byte))) }
  let b ← get
  let n := b.fetchq.bytes.length
  if b.fetchq.queue.length < queueSize && n < room then
    let ph ← translate c p (lin + BitVec.ofNat 32 n) false
    let a := maskA20 c ph.pa
    let bs ← readCodeLine c { ph with pa := a }
    appendLine a bs

end Sys2Proof.Machine
end

