-- ==== Sys2Proof/Machine/Ops.lean ====
section
/-! DEFINITION. The named operations of the processor over registers, segments, memory, ports and the stack, resets
(70_reset_and_hazards.md R740 to R744), the 80386 instructions of `Base386` (00_scope.md R8), taking an exception (60_exceptions.md
R624 to R641) and returning from one (R626). -/

set_option Elab.async false

namespace Sys2Proof.Machine

/-- Why a meaning does not complete. -/
inductive Stop where
  | exc (e : Exc)
  /-- An exception after a task switch, in the new task: the registers stay as they are (R627, log 7). -/
  | taskExc (e : Exc)
  /-- The processor waits for the bus (log 36). -/
  | stall
  /-- Frozen before a floating-point instruction (60_exceptions.md R635). -/
  | freeze
  /-- A reset is sampled in one of the clocks of a bus cycle (log 41). -/
  | reset (r : ResetIn)
  | refuse (r : Refusal)
  deriving DecidableEq, Repr

/-- A computation of the processor: it may raise an exception, wait or be refused. -/
abbrev M := EStateM Stop State

def Exc.ofVector (v : Byte) (code : Option DWord) : Exc := ⟨v, code, true, false, none, 0⟩

/-- `InvalidOpcode` (R632). -/
def invalidOpcode : Exc := .ofVector 6 none
/-- `DeviceNotAvailable` (R634). -/
def deviceNotAvailable : Exc := .ofVector 7 none
/-- `DoubleFault` (R636). An abort, whose saved pc R627 calls unreliable: that it is the first byte of the instruction is the model's choice
(log 28). -/
def doubleFault : Exc := .ofVector 8 (some 0)
def invalidTss (code : DWord) : Exc := .ofVector 10 (some code)
def segmentNotPresent (code : DWord) : Exc := .ofVector 11 (some code)
def stackFault (code : DWord) : Exc := .ofVector 12 (some code)
/-- `GeneralProtection` (R630). -/
def generalProtection (code : DWord) : Exc := .ofVector 13 (some code)
/-- `FloatingPointError` (R635). -/
def floatingPointError : Exc := .ofVector 16 none
/-- `AlignmentCheck` (R633). -/
def alignmentCheck : Exc := .ofVector 17 (some 0)
/-- `PageFault` (R631). -/
def pageFault (lin : Addr) (code : DWord) : Exc := ⟨14, some code, true, false, some lin, 0⟩
/-- The trap of a single step or of data breakpoints, with its status (R637). -/
def debugTrap (dr6 : DWord) : Exc := ⟨1, none, false, false, none, dr6⟩
/-- The fault of an instruction breakpoint, or of an access to a protected debug register (R637; log 32). -/
def debugFault (dr6 : DWord) : Exc := ⟨1, none, true, false, none, dr6⟩
/-- An interrupt from outside: INTR or NMI (R621, R622). -/
def externalInterrupt (v : Byte) : Exc := ⟨v, none, false, false, none, 0⟩
/-- INT n (R623). -/
def softwareInterrupt (v : Byte) : Exc := ⟨v, none, false, true, none, 0⟩

def raise {α : Type} (e : Exc) : M α := throw (.exc e)
def refuse {α : Type} (r : Refusal) : M α := throw (.refuse r)

/-! ### Registers (10_state.md R40, R41) -/

def Regs.get (g : Regs) : Reg → DWord
  | .eax => g.eax | .ecx => g.ecx | .edx => g.edx | .ebx => g.ebx
  | .esp => g.esp | .ebp => g.ebp | .esi => g.esi | .edi => g.edi

def Regs.set (g : Regs) (r : Reg) (v : DWord) : Regs :=
  match r with
  | .eax => { g with eax := v }
  | .ecx => { g with ecx := v }
  | .edx => { g with edx := v }
  | .ebx => { g with ebx := v }
  | .esp => { g with esp := v }
  | .ebp => { g with ebp := v }
  | .esi => { g with esi := v }
  | .edi => { g with edi := v }

/-- The general register a byte register lies in, and whether it is its second byte (R41). -/
def Reg8.home : Reg8 → Reg × Bool
  | .al => (.eax, false) | .cl => (.ecx, false) | .dl => (.edx, false) | .bl => (.ebx, false)
  | .ah => (.eax, true) | .ch => (.ecx, true) | .dh => (.edx, true) | .bh => (.ebx, true)

def Regs.get8 (g : Regs) (r : Reg8) : BitVec 8 :=
  (g.get (Reg8.home r).1).extractLsb' (if (Reg8.home r).2 then 8 else 0) 8

/-- A write to a byte register changes only its bits (R41). -/
def Regs.set8 (g : Regs) (r : Reg8) (v : BitVec 8) : Regs :=
  let x := g.get (Reg8.home r).1
  g.set (Reg8.home r).1
    (if (Reg8.home r).2 then x.extractLsb' 16 16 ++ v ++ x.extractLsb' 0 8 else x.extractLsb' 8 24 ++ v)

/-- The low 16 bits of a register replaced (R41). -/
def low16 (x : DWord) (v : BitVec 16) : DWord := x.extractLsb' 16 16 ++ v

/-- A register read at an operand size. -/
def Regs.getSz (g : Regs) (os : OpSize) (r : Reg) : BitVec os.bits := (g.get r).setWidth os.bits

/-- A register written at an operand size: the 16-bit form changes only the low half (R41). -/
def Regs.setSz (g : Regs) (os : OpSize) (r : Reg) (v : BitVec os.bits) : Regs :=
  match os, v with
  | .w16, v => g.set r (low16 (g.get r) v)
  | .w32, v => g.set r v

def Segs.get (g : Segs) : SegReg → Seg
  | .es => g.es | .cs => g.cs | .ss => g.ss | .ds => g.ds | .fs => g.fs | .gs => g.gs

def Segs.set (g : Segs) (r : SegReg) (v : Seg) : Segs :=
  match r with
  | .es => { g with es := v }
  | .cs => { g with cs := v }
  | .ss => { g with ss := v }
  | .ds => { g with ds := v }
  | .fs => { g with fs := v }
  | .gs => { g with gs := v }

def setReg (r : Reg) (v : DWord) : M Unit := modify fun s => { s with regs := s.regs.set r v }
def setReg8 (r : Reg8) (v : BitVec 8) : M Unit := modify fun s => { s with regs := s.regs.set8 r v }
def setRegSz (os : OpSize) (r : Reg) (v : BitVec os.bits) : M Unit := modify fun s => { s with regs := s.regs.setSz os r v }

/-! ### Modes and control bits (10_state.md R43, R48, R57; 60_exceptions.md R648, R649) -/

def State.pe (s : State) : Bool := s.cr0.getLsbD 0
def State.mp (s : State) : Bool := s.cr0.getLsbD 1
def State.em (s : State) : Bool := s.cr0.getLsbD 2
def State.ts (s : State) : Bool := s.cr0.getLsbD 3
def State.ne (s : State) : Bool := s.cr0.getLsbD 5
def State.wp (s : State) : Bool := s.cr0.getLsbD 16
def State.am (s : State) : Bool := s.cr0.getLsbD 18
def State.nw (s : State) : Bool := s.cr0.getLsbD 29
def State.cd (s : State) : Bool := s.cr0.getLsbD 30
def State.pg (s : State) : Bool := s.cr0.getLsbD 31
def State.tf (s : State) : Bool := s.eflags.getLsbD 8
def State.if_ (s : State) : Bool := s.eflags.getLsbD 9
def State.df (s : State) : Bool := s.eflags.getLsbD 10
def State.iopl (s : State) : BitVec 2 := s.eflags.extractLsb' 12 2
def State.rf (s : State) : Bool := s.eflags.getLsbD 16
def State.nt (s : State) : Bool := s.eflags.getLsbD 14
def State.vm (s : State) : Bool := s.eflags.getLsbD 17
def State.ac (s : State) : Bool := s.eflags.getLsbD 18
def State.vme (s : State) : Bool := s.cr4.getLsbD 0
def State.pvi (s : State) : Bool := s.cr4.getLsbD 1
/-- Virtual-8086 mode (R648). -/
def State.v86 (s : State) : Bool := s.pe && s.vm
/-- Protected mode, not virtual-8086 (R648). -/
def State.prot (s : State) : Bool := s.pe && !s.vm
/-- The privilege level in force (R649). In SMM it is 0 while PE = 0; once the handler has set PE it is `cpl`, or 3 with VM, as outside:
the model's choice (log 10). -/
def State.level (s : State) : BitVec 2 := if !s.pe then 0 else if s.vm then 3 else s.cpl
/-- A 32-bit code segment (30_encoding.md R226). The D bit decides as soon as PE = 1, in SMM too: the model's choice (log 46). -/
def State.code32 (s : State) : Bool := s.prot && s.segs.cs.ar.getLsbD 14
/-- A 32-bit stack. -/
def State.stack32 (s : State) : Bool := s.prot && s.segs.ss.ar.getLsbD 14
/-- Write-back mode (45_family_variants.md R574). -/
def State.wbMode (s : State) : Bool := s.part.variant == .dx2wb && s.latch.writeBackMode
/-- FERR# (60_exceptions.md R635). -/
def State.ferr (s : State) : Bool := s.part.hasFPU && s.fpErrorPending
/-- VOLDET, on the DX4 only (45_family_variants.md R595; log 39). -/
def State.voldet (s : State) : Option Bool := if s.part.variant = .dx4 then some Config.voldet else none
/-- HOLD, AHOLD or BOFF# was asserted at the end of the last clock and no further clock is told, so that it still is. -/
def Bus.held (b : Bus) : Bool := b.script.isEmpty && (b.heldHold || b.heldAddr)
/-- A bus cycle may start (42_bus_transactions.md R460, 40_signal_interface.md R289). -/
def State.busFree (s : State) : Bool :=
  s.bus.phase == .ti && s.bus.cur.isEmpty && !s.pins.hold && !s.pins.ahold && !s.pins.boff && !s.bus.held
/-- BREQ: a bus cycle is pending inside (40_signal_interface.md R285). With an upgrade processor present every output is floated
(70_reset_and_hazards.md R744), here and below. -/
def State.breq (s : State) : Bool :=
  !s.latch.upgradePresent && (!s.bus.queue.isEmpty || !s.bus.wb.isEmpty || !s.bus.cur.isEmpty || s.busWanted)
/-- `LockActive` (10_state.md R79): LOCK# is asserted. -/
def State.lockActive (s : State) : Bool := !s.latch.upgradePresent && s.bus.locked
/-- HLDA (40_signal_interface.md R286, R287): HOLD as an input event or as sampled by the last clock, between bus cycles and never under
LOCK# (R289). -/
def State.hlda (s : State) : Bool :=
  !s.latch.upgradePresent && ((s.pins.hold && s.bus.phase == .ti && !s.bus.locked) || s.bus.granted)
/-- The processor does not drive its address bus (10_state.md R79, 40_signal_interface.md R292). -/
def State.addrFloated (s : State) : Bool :=
  s.latch.upgradePresent || s.pins.ahold || s.pins.boff || s.bus.heldAddr || s.hlda

/-- HITM#: from the snoop of a modified line to the last ready of its write-back (45_family_variants.md R575, R586). -/
def State.hitm (s : State) : Bool :=
  !s.latch.upgradePresent && (s.bus.queue.any BusReq.isWriteBack || s.bus.cur.any (·.hitm))

def State.memCtx (s : State) : MemCtx :=
  { smiact := s.inSMM, smbase := s.smbase, cd := s.cd, nw := s.nw, wb := s.wbMode, big := s.part.bigCache
    a20m := s.pins.a20m, busFree := s.busFree, vector := s.pins.intVector, sl := s.part.hasSL, plat := s.platform }

/-- More items follow the one in progress: another doubleword, or at the bus size last sampled another cycle of this one. -/
def Xfer.more (x : Xfer) : Bool :=
  match x.parts with
  | p :: ps => !ps.isEmpty || p.lanes &&& ~~~(movedLanes (x.size.getD 32) p.lanes) != 0
  | [] => false

/-- `PlockActive` (10_state.md R79): PLOCK# is asserted, from the first T1 of an operand of several bus cycles until the address of the
last one is driven, so also in the idle clocks between them, and where the next of its writes still stands in a buffer, while another
transfer goes before that write, unless the bus is granted away (42_bus_transactions.md R445). Before its first ready a read that may become a line fill asserts it: the model's choice
(log 11). -/
def State.plockActive (s : State) : Bool :=
  !s.latch.upgradePresent && !s.memCtx.wb
    && ((s.bus.operandBegun && !s.hlda)
      || match s.bus.cur with
         | x :: _ =>
           if s.bus.phase = .ti then (x.follows || (x.decided && (x.fill || x.kind != .codeRead))) && !s.hlda
           else (x.pins s.memCtx (!x.decided) x.more).plock || (!x.decided && x.want)
         | [] => false)

def State.pageCtx (s : State) (user : Bool) : PageCtx :=
  { pg := s.pg, wp := s.wp, pse := s.part.hasExt && s.cr4.getLsbD 4, cr3 := s.cr3, user := user
    asPrinted := s.part.pteBitsAsPrinted, offFromCr3 := s.part.pagingOffFromCr3 }

/-- The processor's view of a physical byte. -/
def State.view (s : State) (a : Addr) : Byte := s.bus.view s.memCtx a

/-! ### The bus unit seen from the processor -/

/-- Run an access of the bus unit: only `bus` changes. -/
def bus {α : Type} (x : MemCtx → BM α) : M α := fun s =>
  match x s.memCtx s.bus with
  | .ok a b => .ok a { s with bus := b }
  | .error .stall b => .error .stall { s with bus := b }
  | .error (.pageFault lin code) b => .error (.exc (pageFault lin code)) { s with bus := b }
  | .error (.reset r) b => .error (.reset r) { s with bus := b }

/-- A free 32-bit value (log 19). -/
def freeDWord : M DWord := fun s =>
  .ok (Config.freeDWord s.bus.draws) { s with bus := { s.bus with draws := s.bus.draws + 1 } }

/-- The write buffers drained (20_memory.md R178). -/
def drain : M Unit := bus drainBuffers

/-- A special cycle after every buffered write (42_bus_transactions.md R412). -/
def specialCycle (be : BitVec 4) (a : DWord) : M Unit := bus fun c => do
  needBus c
  drainBuffers c
  transact c false [specialXfer be (a.extractLsb' 2 30)]

/-- Shutdown, Flush, Halt, Stop Grant, Write-back and the two Flush Acknowledge cycles (30_encoding.md R231, R233). -/
def shutdownSpecial : M Unit := specialCycle 0xE 0
def flushSpecial : M Unit := specialCycle 0xD 0
def haltSpecial : M Unit := specialCycle 0xB 0
def stopGrantSpecial : M Unit := specialCycle 0xB 0x10
def writeBackSpecial : M Unit := specialCycle 0x7 0
def firstFlushAckSpecial (part : Part) : M Unit := specialCycle 0x7 part.flushAckAddress
def secondFlushAckSpecial (part : Part) : M Unit := specialCycle 0xD part.flushAckAddress

/-- The prefetch queue emptied (10_state.md R77). -/
def clearFetch : M Unit := modify fun s => { s with bus := { s.bus with fetchq := .empty } }

/-! ### Segmentation (20_memory.md R155 to R157; log 30) -/

/-- Whether an access of `n` bytes lies within the limit. -/
def Seg.inLimit (g : Seg) (pm : Bool) (off : DWord) (n : Nat) : Bool :=
  if pm && g.ar.getLsbD 4 && !g.ar.getLsbD 3 && g.ar.getLsbD 2 then
    decide (g.limit.toNat < off.toNat)
      && decide (off.toNat + n ≤ (if g.ar.getLsbD 14 then 0x100000000 else 0x10000))
  else decide (off.toNat + n ≤ g.limit.toNat + 1)

/-- Whether the access rights allow an access: present; a code segment is never written and read only if readable; a data
segment is written only if writable. -/
def Seg.rightsAllow (g : Seg) (write : Bool) : Bool :=
  g.ar.getLsbD 7 && g.ar.getLsbD 4
    && (if g.ar.getLsbD 3 then !write && g.ar.getLsbD 1 else !write || g.ar.getLsbD 1)

/-- The linear address of an access through a segment of protected mode, or of another mode, or the exception `e`. -/
def segLinearIn (pm : Bool) (g : Seg) (e : Exc) (off : DWord) (n : Nat) (write : Bool) : M Addr := do
  if pm && !g.rightsAllow write then raise e
  if !g.inLimit pm off n then raise e
  return g.base + off

/-- The linear address of an access in the mode in force, or the exception `e`. -/
def segLinear (g : Seg) (e : Exc) (off : DWord) (n : Nat) (write : Bool) : M Addr := do
  let s ← get
  segLinearIn s.prot g e off n write

/-- The exception of an access outside a segment: #SS through SS, else #GP (log 30). -/
def segFault (r : SegReg) : Exc := if r = .ss then stackFault 0 else generalProtection 0

/-- The alignment check (20_memory.md R148). -/
def checkAlign (lin : Addr) (n : Nat) : M Unit := do
  let s ← get
  if s.am && s.ac && s.level == 3 && (n == 2 || n == 4 || n == 8) && lin.toNat % n != 0 then raise alignmentCheck

/-- The breakpoints that an access of `n` bytes hits, of the kinds that `kind` admits (60_exceptions.md R637). The layout of DR7 is
the family's (log 32): bits 2i and 2i + 1 enable breakpoint i, bits 16 + 4i and up give its kind (0 instruction, 1 write, 3 read or
write) and its length (0, 1, 3: one, two, four bytes, aligned). -/
def State.breakHits (s : State) (kind : BitVec 2 → Bool) (lin : Addr) (n : Nat) : BitVec 4 :=
  let hit := fun (i : Nat) (a : DWord) =>
    let len := s.dr7.extractLsb' (18 + 4 * i) 2
    let size := if len = 3 then 4 else if len = 1 then 2 else 1
    let base := a &&& ~~~(BitVec.ofNat 32 (size - 1))
    (s.dr7.getLsbD (2 * i) || s.dr7.getLsbD (2 * i + 1)) && kind (s.dr7.extractLsb' (16 + 4 * i) 2)
      && (decide ((lin - base).toNat < size) || decide ((base - lin).toNat < n))
  setBit (setBit (setBit (setBit 0#4 0 (hit 0 s.dr0)) 1 (hit 1 s.dr1)) 2 (hit 2 s.dr2)) 3 (hit 3 s.dr3)

/-- The data breakpoints that an access hits: linear addresses are compared (60_exceptions.md R637). -/
def State.dataHits (s : State) (lin : Addr) (n : Nat) (write : Bool) : BitVec 4 :=
  s.breakHits (fun k => k == 3 || (write && k == 1)) lin n

/-- A data access noted for the trap after the instruction. -/
def watch (lin : Addr) (n : Nat) (write : Bool) : M Unit := modify fun s =>
  if s.dataHits lin n write = 0 then s else { s with dbgHits := s.dbgHits ||| s.dataHits lin n write }

/-- LinRead (00_scope.md R17). -/
def readMem (r : SegReg) (off : DWord) (n : Nat) : M (List Byte) := do
  let s ← get
  let lin ← segLinear (s.segs.get r) (segFault r) off n false
  checkAlign lin n
  watch lin n false
  bus fun c => linRead c (s.pageCtx (s.level == 3)) lin n

/-- LinWrite (00_scope.md R17). -/
def writeMem (r : SegReg) (off : DWord) (bs : List Byte) : M Unit := do
  let s ← get
  let lin ← segLinear (s.segs.get r) (segFault r) off bs.length true
  checkAlign lin bs.length
  watch lin bs.length true
  bus fun c => linWrite c (s.pageCtx (s.level == 3)) lin bs

/-- The alignment checks of an operand that is moved in pieces (20_memory.md R151). -/
def checkAligns : Addr → List Nat → M Unit
  | _, [] => return ()
  | lin, n :: ns => do
    checkAlign lin n
    checkAligns (lin + BitVec.ofNat 32 n) ns

/-- An operand read in pieces of these sizes (20_memory.md R151). -/
def readPieces (r : SegReg) (off : DWord) (ns : List Nat) : M (List Byte) := do
  let s ← get
  let lin ← segLinear (s.segs.get r) (segFault r) off ns.sum false
  checkAligns lin ns
  watch lin ns.sum false
  bus fun c => linReads c (s.pageCtx (s.level == 3)) lin ns

/-- An operand written in pieces of these sizes: nothing of it before its last page has been checked. -/
def writePieces (r : SegReg) (off : DWord) (ns : List Nat) (bs : List Byte) : M Unit := do
  let s ← get
  let lin ← segLinear (s.segs.get r) (segFault r) off ns.sum true
  checkAligns lin ns
  watch lin ns.sum true
  bus fun c => do
    if crossesPage lin ns.sum then probeWrite c (s.pageCtx (s.level == 3)) lin ns.sum
    linWrites c (s.pageCtx (s.level == 3)) lin ns bs

/-- The checks of a write of an operand in pieces of these sizes, and no access. -/
def checkPieces (r : SegReg) (off : DWord) (ns : List Nat) : M Unit := do
  let s ← get
  let lin ← segLinear (s.segs.get r) (segFault r) off ns.sum true
  checkAligns lin ns
  bus fun c => probeWrite c (s.pageCtx (s.level == 3)) lin ns.sum

/-- The first half of a read-modify-write: the write is checked before anything changes (43_instructions_new.md R481, R483),
then the bytes are read, locked or not. Answers where they are. -/
def rmwRead (r : SegReg) (off : DWord) (n : Nat) (lock : Bool) : M (List PChunk × List Byte) := do
  let s ← get
  let lin ← segLinear (s.segs.get r) (segFault r) off n true
  checkAlign lin n
  watch lin n true
  bus fun c => do
    let ps ← translateRange c (s.pageCtx (s.level == 3)) lin n true
    let bs ← if lock then readChunksLocked c ps else readChunks c .memRead ps
    return (ps, bs)

/-- The second half of a read-modify-write. -/
def rmwWrite (ps : List PChunk) (bs : List Byte) (lock : Bool) : M Unit :=
  bus fun c => if lock then writeChunksLocked c ps bs else writeChunks c false ps bs

/-- A read of a system table (IDT, GDT, LDT, TSS, I/O permission bitmap) at a linear address: a supervisor access at every level, never
alignment-checked: the model's choices (log 45). -/
def sysRead (lin : Addr) (n : Nat) : M Nat := do
  let s ← get
  return natOfBytes (← bus fun c => linRead c (s.pageCtx false) lin n)

/-! ### Writes held back (60_exceptions.md R627) -/

/-- A write whose page faults have been taken and that waits until nothing can raise an exception any more: where its bytes go, the
bytes, and how they get there. The A and D bits of its page entries are set already: the model's choice (log 7). -/
structure HeldWrite where
  chunks : List PChunk
  bytes : List Byte
  perform : M Unit

/-- The writes performed, oldest first. -/
def performAll : List HeldWrite → M Unit
  | [] => return ()
  | w :: ws => do
    w.perform
    performAll ws

/-- The physical addresses of chunks, byte by byte. -/
def chunkAddrs (c : MemCtx) (chs : List PChunk) : List Addr :=
  chs.flatMap fun ch => (List.range ch.len).map fun i => maskA20 c ch.pa + BitVec.ofNat 32 i

/-- What waits to be written at a physical address: the newest write counts. -/
def heldByte (c : MemCtx) (a : Addr) : List HeldWrite → Option Byte
  | [] => none
  | w :: ws =>
    match heldByte c a ws with
    | some v => some v
    | none => ((chunkAddrs c w.chunks).zip w.bytes).findSome? fun x => if x.1 = a then some x.2 else none

/-- Bytes as the instruction sees them, its own writes among them. -/
def withHeld (c : MemCtx) (ws : List HeldWrite) (chs : List PChunk) (bs : List Byte) : List Byte :=
  List.zipWith (fun a v => (heldByte c a ws).getD v) (chunkAddrs c chs) bs

/-- A read of the chunks that `x` answers. -/
def readHeld (ws : List HeldWrite) (x : MemCtx → BM (List PChunk)) : M (List Byte) := bus fun c => do
  let chs ← x c
  let bs ← readChunks c .memRead chs
  return withHeld c ws chs bs

/-- A write at a linear address. -/
def holdWrite (p : PageCtx) (lin : Addr) (bs : List Byte) : M HeldWrite := do
  let chs ← bus fun c => translateRange c p lin bs.length true
  return ⟨chs, bs, bus fun c => writeChunks c false chs bs⟩

/-! ### The stack -/

/-- A stack to push on: its segment, its pointer, whether its segment is one of protected mode, whether accesses are user accesses, and
the exception of a bad push. -/
structure Stack where
  seg : Seg
  sp : DWord
  prot : Bool
  user : Bool
  exc : Exc
  deriving DecidableEq, Repr

/-- The offset `n` below a stack pointer, and the pointer there: 16-bit stacks wrap in the low half. -/
def stackDown (wide : Bool) (sp : DWord) (n : Nat) : DWord × DWord :=
  if wide then (sp - BitVec.ofNat 32 n, sp - BitVec.ofNat 32 n)
  else
    let lo := sp.setWidth 16 - BitVec.ofNat 16 n
    (lo.setWidth 32, low16 sp lo)

/-- A push, its checks made and its write held back, and the stack after it. -/
def holdPush (k : Stack) (bs : List Byte) : M (Stack × HeldWrite) := do
  let s ← get
  let d := stackDown (k.prot && k.seg.ar.getLsbD 14) k.sp bs.length
  let lin ← segLinearIn k.prot k.seg k.exc d.1 bs.length true
  if k.user then checkAlign lin bs.length
  watch lin bs.length true
  let w ← holdWrite (s.pageCtx k.user) lin bs
  return ({ k with sp := d.2 }, w)

/-- Push bytes on a stack. -/
def pushOn (k : Stack) (bs : List Byte) : M Stack := do
  let (k', w) ← holdPush k bs
  w.perform
  return k'

/-- Several values of `n` bytes pushed, their writes held back. -/
def holdPushes (n : Nat) : List DWord → Stack → M (Stack × List HeldWrite)
  | [], k => return (k, [])
  | v :: vs, k => do
    let (k', w) ← holdPush k (toBytes n v)
    let (k'', ws) ← holdPushes n vs k'
    return (k'', w :: ws)

/-- Push several values of `n` bytes, or none of them where one of the pushes faults (60_exceptions.md R627). -/
def pushAll (n : Nat) (vs : List DWord) (k : Stack) : M Stack := do
  let (k', ws) ← holdPushes n vs k
  performAll ws
  return k'

/-- The stack in use. -/
def State.stack (s : State) : Stack := ⟨s.segs.ss, s.regs.esp, s.prot, s.level == 3, stackFault 0⟩

/-- Push a value of the operand size. -/
def push (os : OpSize) (v : DWord) : M Unit := do
  let s ← get
  let k ← pushOn s.stack (toBytes (match os with | .w16 => 2 | .w32 => 4) v)
  setReg .esp k.sp

/-- The offset of the top of the stack plus `k` bytes. -/
def stackOff (wide : Bool) (sp : DWord) (k : Nat) : DWord :=
  if wide then sp + BitVec.ofNat 32 k else (sp.setWidth 16 + BitVec.ofNat 16 k).setWidth 32

/-- Read `n` bytes, `k` bytes above the top of the stack. -/
def peek (k n : Nat) : M DWord := do
  let s ← get
  return ofBytes 32 (← readMem .ss (stackOff s.stack32 s.regs.esp k) n)

/-- The stack pointer `n` bytes higher. -/
def stackUp (wide : Bool) (sp : DWord) (n : Nat) : DWord :=
  if wide then sp + BitVec.ofNat 32 n else low16 sp (sp.setWidth 16 + BitVec.ofNat 16 n)

/-- Release `n` bytes of the stack. -/
def release (n : Nat) : M Unit := modify fun s => { s with regs := { s.regs with esp := stackUp s.stack32 s.regs.esp n } }

/-! ### Flags as a whole (10_state.md R43, R44) -/

/-- The bits of EFLAGS that exist: ID, VIP and VIF only with `HasExt` (10_state.md R44, log 24). -/
def flagBits (p : Part) : DWord := if p.hasExt then 0x003F7FD5#32 else 0x00077FD5#32

/-- A value as EFLAGS holds it: reserved bits 0, bit 1 set. -/
def normFlags (p : Part) (v : DWord) : DWord := (v &&& flagBits p) ||| 2#32

def setFlags (v : DWord) : M Unit := modify fun s => { s with eflags := normFlags s.part v }

/-- `old` with the bits of `mask` taken from `new`. -/
def mergeBits (mask old new : DWord) : DWord := (old &&& ~~~mask) ||| (new &&& mask)

/-! ### Descriptors (`Base386`, log 9) -/

def descBase (d : Nat) : DWord := BitVec.ofNat 32 (d / 2 ^ 16 % 2 ^ 24 + d / 2 ^ 56 % 256 * 2 ^ 24)
def descAr (d : Nat) : Word := BitVec.ofNat 16 (d / 2 ^ 40) &&& 0xF0FF#16
def descLimit (d : Nat) : DWord :=
  let raw := d % 2 ^ 16 + d / 2 ^ 48 % 16 * 2 ^ 16
  if (descAr d).getLsbD 15 then BitVec.ofNat 32 (raw * 4096 + 4095) else BitVec.ofNat 32 raw

def descSeg (sel : Word) (d : Nat) : Seg := ⟨sel, descBase d, descLimit d, descAr d⟩

/-- The error code that names a selector. -/
def selCode (sel : Word) : DWord := (sel &&& 0xFFFC#16).setWidth 32

/-- The address and contents of the descriptor of a selector: an 8-byte pseudo-locked read (42_bus_transactions.md R445); the
exception `e` outside the table. -/
def readDesc (sel : Word) (e : Exc) : M (Addr × Nat) := do
  let s ← get
  let base := if sel.getLsbD 2 then s.ldtr.base else s.gdtr.base
  let limit := if sel.getLsbD 2 then s.ldtr.limit else s.gdtr.limit.setWidth 32
  let idx := sel.toNat / 8 * 8
  if limit.toNat < idx + 7 then raise e
  let a := base + BitVec.ofNat 32 idx
  return (a, ← sysRead a 8)

/-- Exactly `n` bytes. -/
def fitBytes (n : Nat) (bs : List Byte) : List Byte := (bs ++ List.replicate n 0).take n

/-- A locked read-modify-write of `n` bytes of a system table, as a supervisor access (20_memory.md R180). -/
def tableUpdate (lin : Addr) (n : Nat) (f : List Byte → List Byte) : M Unit := do
  let s ← get
  bus fun c => do
    let ps ← translateRange c (s.pageCtx false) lin n true
    let bs ← readChunksLocked c ps
    writeChunksLocked c ps (fitBytes n (f bs))
    writeBackSnooped c

/-- Whether bytes at a linear address touch the global or the local descriptor table. -/
def State.inDescriptors (s : State) (lin : Addr) (n : Nat) : Bool :=
  let touches := fun (base limit : DWord) => decide ((lin - base).toNat ≤ limit.toNat) || decide ((base - lin).toNat < n)
  touches s.gdtr.base (s.gdtr.limit.setWidth 32) || (s.ldtr.sel &&& 0xFFFC#16 != 0 && touches s.ldtr.base s.ldtr.limit)

/-- A system table's bytes that are no descriptor: those of the TSS in force. -/
def State.inTss (s : State) (lin : Addr) (n : Nat) : Bool :=
  decide ((lin - s.tr.base).toNat + n ≤ s.tr.limit.toNat + 1) && !s.inDescriptors lin n

/-- A write of a system table: a descriptor is changed by a locked read-modify-write (20_memory.md R180, 42_bus_transactions.md R441). -/
def tableWrite (lin : Addr) (bs : List Byte) : M Unit := do
  let s ← get
  if s.inTss lin bs.length then bus fun c => linWrite c (s.pageCtx false) lin bs
  else tableUpdate lin bs.length fun _ => bs

/-- Where a read of a system table starts and the sizes of its accesses: of a descriptor or a gate the whole eight bytes, as one
pseudo-locked read (42_bus_transactions.md R445, 44_instructions_referenced.md R550). -/
def State.tableSpan (s : State) (lin : Addr) (n : Nat) : Addr × List Nat :=
  let entries := fun (base : DWord) =>
    let at_ := (lin - base).toNat
    (base + BitVec.ofNat 32 (at_ / 8 * 8), List.replicate ((at_ % 8 + n + 7) / 8) 8)
  let inside := fun (base limit : DWord) => decide ((lin - base).toNat ≤ limit.toNat)
  if inside s.gdtr.base (s.gdtr.limit.setWidth 32) then entries s.gdtr.base
  else if s.ldtr.sel &&& 0xFFFC#16 != 0 && inside s.ldtr.base s.ldtr.limit then entries s.ldtr.base
  else if s.pe && inside s.idtr.base (s.idtr.limit.setWidth 32) then entries s.idtr.base
  else (lin, [n])

/-- The limit of a segment outside protected mode: FFFFFFFFh in real mode in SMM, else FFFFh (20_memory.md R156). -/
def State.realLimit (s : State) : DWord := if s.inSMM && !s.pe then 0xFFFFFFFF#32 else 0xFFFF#32

/-- A segment register loaded in real-address mode or virtual-8086 mode: base = selector x 16, the limit of that mode (20_memory.md
R156), and the access rights stay (log 7). -/
def Seg.loadReal (g : Seg) (limit : DWord) (sel : Word) : Seg :=
  { g with sel := sel, base := sel.setWidth 32 <<< 4, limit := limit }

/-- The segment registers with one limit. -/
def Segs.withLimit (g : Segs) (limit : DWord) : Segs :=
  { es := { g.es with limit := limit }, cs := { g.cs with limit := limit }, ss := { g.ss with limit := limit }
    ds := { g.ds with limit := limit }, fs := { g.fs with limit := limit }, gs := { g.gs with limit := limit } }

/-- A new value in CR0. With PE gone the segments have the limit of real mode at once; selectors, bases and access rights stay: the
model's choice (20_memory.md R156, log 7). -/
def State.setCr0 (s : State) (v : DWord) : State :=
  { s with
    cr0 := v
    segs := if s.pe && !v.getLsbD 0 then s.segs.withLimit { s with cr0 := v }.realLimit else s.segs }

/-- A segment register as virtual-8086 mode loads it. -/
def segV86 (sel : Word) : Seg := ⟨sel, sel.setWidth 32 <<< 4, 0xFFFF#32, 0x00F3#16⟩

/-- A segment register loaded with a null selector: nothing can be accessed through it. -/
def segNull (sel : Word) : Seg := ⟨sel, 0, 0, 0⟩

/-! ### Control registers as a whole (10_state.md R48, R54, R56, R57) -/

/-- The bits of CR0 that exist (10_state.md R48, log 24). -/
def cr0Bits : DWord := 0xE005003F#32

/-- A value as CR0 holds it: ET is 1, reserved bits are 0 (44_instructions_referenced.md R545). -/
def normCr0 (v : DWord) : DWord := (v &&& cr0Bits) ||| 0x10#32

/-- The combinations CR0 must not hold: CD = 0 with NW = 1, PG = 1 with PE = 0 (10_state.md R54). -/
def cr0Illegal (v : DWord) : Bool := (!v.getLsbD 30 && v.getLsbD 29) || (v.getLsbD 31 && !v.getLsbD 0)

/-- The reserved bits of CR4 (10_state.md R57). -/
def cr4Reserved : DWord := 0xFFFFFFEC#32

/-- A value as CR3 holds it: the directory base, PCD and PWT (10_state.md R56, log 24). -/
def normCr3 (v : DWord) : DWord := v &&& 0xFFFFF018#32

/-- A value as DR6 holds it (92_eei_decisions.md D5; the family's layout, log 38). -/
def normDr6 (v : DWord) : DWord := v &&& 0x0000E00F#32

/-- A value as DR7 holds it (92_eei_decisions.md D5; the family's layout, log 38). -/
def normDr7 (v : DWord) : DWord := v &&& 0xFFFF23FF#32

def flushTlb : M Unit := modify fun s => { s with bus := { s.bus with tlb := tlbFlush s.bus.tlb } }

/-! ### Ports (44_instructions_referenced.md R525 to R531) -/

/-- A port access denied or allowed by the TSS bitmap (R525; `Base386`, log 9). -/
def ioBitmapAllows (port : Word) (n : Nat) : M Bool := do
  let s ← get
  if !(s.tr.ar.getLsbD 3 && decide (0x67 ≤ s.tr.limit.toNat)) then return false
  else
    let start ← sysRead (s.tr.base + 0x66) 2
    let at_ := start + port.toNat / 8
    if s.tr.limit.toNat < at_ + 1 then return false
    else
      let bits ← sysRead (s.tr.base + BitVec.ofNat 32 at_) 2
      return bits / 2 ^ (port.toNat % 8) % 2 ^ n == 0

/-- The permission check of an I/O instruction (R525); none in SMM (60_exceptions.md R665). -/
def ioPermission (port : Word) (n : Nat) : M Unit := do
  let s ← get
  if !s.inSMM && s.pe && (s.iopl < s.level || s.vm) then
    let ok ← ioBitmapAllows port n
    if !ok then raise (generalProtection 0)

/-- The doubleword address of a port: A31:A16 are 0 (42_bus_transactions.md R422). -/
def portAddr (a : Addr) : BitVec 30 := (a.extractLsb' 2 14).setWidth 30

/-- The doublewords of an I/O access, with the data that the device will return for each (20_memory.md R147; log 17). -/
def Bus.portParts (b : Bus) : List LChunk → List BusPart × Bus
  | [] => ([], b)
  | l :: ls =>
    (⟨portAddr l.lin, l.lanes, b.deviceData.1, 0⟩ :: (b.deviceData.2.portParts ls).1, (b.deviceData.2.portParts ls).2)

/-- The doublewords of an I/O access read: one transfer for each aligned block of sixteen ports. -/
def readPortLines (c : MemCtx) : List LChunk → BM (List Byte)
  | [] => return []
  | l :: ls => do
    let b ← get
    let r := b.portParts (dwordsOf l.lin l.len)
    set r.2
    transact c false [Xfer.new .ioRead ⟨false, !ls.isEmpty, false, false, false⟩ r.1]
    let b ← get
    let bs := (dwordsOf l.lin l.len).flatMap fun d => b.readBytes (portAddr d.lin ++ d.lin.extractLsb' 0 2) d.len
    let rest ← readPortLines c ls
    return bs ++ rest

/-- IoRead: after every buffered write, on the bus, never cached (R525; 20_memory.md R174). -/
def ioRead (port : Word) (n : Nat) : M (List Byte) := bus fun c => do
  needBus c
  drainBuffers c
  readPortLines c (chunksOf 4 (n + 1) (port.setWidth 32) n)

/-- The writes of an I/O access. -/
def portWrites (port : Word) (bs : List Byte) : List WbEntry :=
  writeEntries true false false false false false portAddr (dwordsOf (port.setWidth 32) bs.length) bs

/-- IoWrite, unbuffered: after every buffered write, and the cycle has ended when the instruction ends (R527; 20_memory.md
R175, D10). -/
def ioWrite (port : Word) (bs : List Byte) : M Unit := bus fun c => do
  needBus c
  drainBuffers c
  transact c false ((portWrites port bs).map WbEntry.xfer)

/-- IoWrite of a repeated OUTS, through the write buffers (20_memory.md R176). -/
def ioWriteBuffered (port : Word) (bs : List Byte) : M Unit := bus fun c => postWrites c (portWrites port bs)

/-! ### Resets (70_reset_and_hazards.md R740 to R744) -/

/-- Twice the multiplier that the tie of CLKMUL gives on a DX4 (45_family_variants.md R593). -/
def ClkMul.ratio2 : ClkMul → Nat
  | .vss => 4
  | .breq => 5
  | .vcc | .unconnected => 6

/-- What RESET samples (R743): WB/WT# on the DX2WB, CLKMUL on the DX4, UP#. -/
def Part.latchAtReset (p : Part) (up wbwt : Bool) (clkmul : ClkMul) : Latch :=
  { writeBackMode := p.variant == .dx2wb && wbwt
    clockMul2 :=
      match p.variant with
      | .dx4 => clkmul.ratio2
      | .dx2 | .sx2 | .dx2wb => 4
      | .dx | .sx => 2
    upgradePresent := up }

/-- The bus unit after a reset: memory, the environment's coming answers and the record of what happened stay. -/
def Bus.afterReset (b : Bus) : Bus := Bus.reset b.mem b.smram b.trace b.clocks b.draws b.ioIn b.script

/-- RESET (R741). No pin asks for the self test (91_not_in_source.md N32), so the floating-point registers stay as they are
(10_state.md R95, log 4). -/
def State.resetPin (s : State) (up wbwt : Bool) (clkmul : ClkMul) : State :=
  State.afterReset s.part (Part.latchAtReset s.part up wbwt clkmul) s.fpu s.pins s.inputs s.platform s.bus.afterReset

/-- SRESET (R742): SMBASE and the latches stay; in write-back mode so do the cache, CD and NW (45_family_variants.md R578). What
waits in the bus unit is dropped, the write-back of a snooped or replaced line among it: the model's choice (log 48). -/
def State.sreset (s : State) : State :=
  let t := State.afterReset s.part s.latch s.fpu s.pins s.inputs s.platform s.bus.afterReset
  let t := { t with smbase := s.smbase }
  if s.wbMode then
    { t with cr0 := mergeBits 0x60000000#32 t.cr0 s.cr0, bus := { t.bus with cache := s.bus.cache } }
  else t

/-- A reset; a part without SL technology has no SRESET pin. -/
def State.applyReset (s : State) : ResetIn → State
  | .hard up wbwt clkmul => s.resetPin up wbwt clkmul
  | .soft => if s.part.hasSL then s.sreset else s

/-! ### The 80386 instruction set (00_scope.md R8 `Base386`; log 7) -/

/-- What `Base386` sees of the processor. -/
def State.baseRegs (s : State) : BaseRegs :=
  { regs := s.regs, eflags := s.eflags, segs := s.segs, ldtr := s.ldtr, tr := s.tr, gdtr := s.gdtr, idtr := s.idtr, cr0 := s.cr0
    cr3 := s.cr3, dr7 := s.dr7, cpl := s.cpl }

/-- The sizes and the segment override in force (30_encoding.md R226). -/
def State.decodeCtx (s : State) : DecodeCtx :=
  { os := if s.code32 != s.dec.osz then .w32 else .w16
    as := if s.code32 != s.dec.asz then .a32 else .a16
    seg := s.dec.seg }

/-- A segment register that `Base386` has loaded: in real mode and in SMM the base is selector x 16 and the limit that of the mode, and
the access rights stay (10_state.md R46, 20_memory.md R156, 60_exceptions.md R665). In SMM too a load is that of protected mode once the handler has set PE (R669): the
model's choice (log 46). -/
def State.loadedSeg (s : State) (r : BaseResult) (x : SegReg) : Seg :=
  if !r.loaded.contains x then s.segs.get x
  else if s.pe then r.left.segs.get x
  else (s.segs.get x).loadReal s.realLimit (r.left.segs.get x).sel

/-- EIP after an 80386 instruction: the first byte of a repeated one that goes on; the target of a control transfer, in real mode and in
SMM truncated to 16 bits unless the operand size is 32 bits (60_exceptions.md R665); else the next instruction. -/
def State.baseEip (s : State) (r : BaseResult) : DWord :=
  if r.again then s.dec.start
  else
    match r.target with
    | some t => if s.pe || s.decodeCtx.os == .w32 then t else t &&& 0xFFFF#32
    | none => s.eip

/-- The registers that an 80386 instruction leaves, as they hold them: reserved bits as always, CR0 never in a combination it must
not hold (10_state.md R54); a change of CR3, PG, PE or WP empties the TLB (20_memory.md R185), a control transfer the prefetch queue
(20_memory.md R184). -/
def State.withBase (s : State) (r : BaseResult) : State :=
  let g := r.left
  let cr0 := if cr0Illegal g.cr0 then s.cr0 else normCr0 g.cr0
  let flush := (s.cr0 ^^^ cr0) &&& 0x80010001#32 != 0 || s.cr3 != normCr3 g.cr3
  let eflags := normFlags s.part g.eflags
  let t := { s with
    regs := g.regs
    eip := s.baseEip r
    eflags := if r.again then setBit eflags 16 s.dec.rf else eflags
    segs := { es := s.loadedSeg r .es, cs := s.loadedSeg r .cs, ss := s.loadedSeg r .ss, ds := s.loadedSeg r .ds
              fs := s.loadedSeg r .fs, gs := s.loadedSeg r .gs }
    ldtr := g.ldtr
    tr := g.tr
    gdtr := g.gdtr
    idtr := g.idtr
    cr3 := normCr3 g.cr3
    dr7 := normDr7 g.dr7
    cpl := if s.pe then g.cpl else s.cpl
    taskTrap := s.taskTrap || r.debugTrap
    lastIo := r.io.map fun rep => ⟨s.baseEip r - s.dec.start, rep⟩
    bus :=
      { s.bus with
        tlb := if flush then tlbFlush s.bus.tlb else s.bus.tlb
        fetchq := if r.target.isSome && !r.again then .empty else s.bus.fetchq } }
  t.setCr0 cr0

/-- The program counter in its segment: 16 bits in a 16-bit code segment (10_state.md R42, D4). -/
def State.wrapPc (s : State) (off : DWord) : DWord := if s.code32 then off else off &&& 0xFFFF#32

/-- The offset after the bytes taken of the instruction begun, not cut to 16 bits: where a relative jump counts from and where INT n returns
to, for what a 16-bit code segment cuts is EIP after an instruction that transfers nowhere (10_state.md R42; 44_instructions_referenced.md
R543, R544; log 49). -/
def State.nextPc (s : State) : DWord := s.dec.start + BitVec.ofNat 32 s.dec.count

/-- The first byte of an instruction: its place, TF and RF are noted (60_exceptions.md R627, R637; log 32). -/
def State.begin (s : State) : State :=
  if s.dec.active then { s with busWanted := false }
  else { s with dec := { Decoding.idle with start := s.eip, tf := s.tf, rf := s.rf }, busWanted := false }

/-- The offset of the `k`-th byte after those taken of the instruction begun: in a 16-bit segment it wraps at 16 bits, unless a 32-bit
transfer has taken EIP past FFFFh (60_exceptions.md R665). It wraps in real mode as in SMM, so that an instruction across FFFFh takes
no limit fault: the model's choice (log 49). -/
def State.byteOffset (s : State) (k : Nat) : DWord :=
  let off := s.dec.start + BitVec.ofNat 32 (s.dec.count + k)
  if s.dec.start.extractLsb' 16 16 = 0 then s.wrapPc off else off

/-- The offset of the `k`-th byte from where the next instruction, or the rest of the one begun, is read. -/
def State.codeOffset (s : State) (k : Nat) : DWord := s.begin.byteOffset k

/-- One byte of the instruction stream: the limit is checked, then the byte comes through paging and the prefetch queue. -/
def codeByte (off : DWord) : M Byte := do
  let s ← get
  if !s.segs.cs.inLimit false off 1 then raise (generalProtection 0)
  bus fun c => fetchByte c (s.pageCtx (s.level == 3)) (s.segs.cs.base + off)

/-- EIP past the bytes taken (10_state.md R42); the resume flag has done its work (log 32). -/
def State.advance (s : State) (n : Nat) : State :=
  { s with eip := s.wrapPc (s.eip + BitVec.ofNat 32 n), eflags := setBit s.eflags 16 false
           dec := { s.dec with count := s.dec.count + n } }

/-- The next byte of the instruction; more than fifteen are a general protection fault (30_encoding.md R227). -/
def nextCodeByte : M Byte := do
  let s ← get
  if 15 ≤ s.dec.count then raise (generalProtection 0)
  let b ← codeByte (s.byteOffset 0)
  modify fun s => s.advance 1
  return b

/-- An exception of `Base386`'s own with the error code that its vector has (60_exceptions.md R624). -/
def baseExc : BaseExc → Exc
  | .divideError => .ofVector 0 none
  | .boundRange => .ofVector 5 none
  | .invalidOpcode => Machine.invalidOpcode
  | .invalidTss code => Machine.invalidTss (code.setWidth 32)
  | .segmentNotPresent code => Machine.segmentNotPresent (code.setWidth 32)
  | .stackFault code => Machine.stackFault (code.setWidth 32)
  | .generalProtection code => Machine.generalProtection (code.setWidth 32)

/-- A read of a system table in accesses of these sizes. -/
def readTable (ws : List HeldWrite) : Addr → List Nat → M (List Byte)
  | _, [] => return []
  | lin, n :: ns => do
    let s ← get
    let x ← readHeld ws fun c => translateRange c (s.pageCtx false) lin n false
    let y ← readTable ws (lin + BitVec.ofNat 32 n) ns
    return x ++ y

/-- The update of a descriptor, held back (20_memory.md R180). -/
def holdUpdate (ws : List HeldWrite) (p : PageCtx) (lin : Addr) (n : Nat) (f : List Byte → List Byte) : M HeldWrite := do
  let chs ← bus fun c => translateRange c p lin n true
  let s ← get
  let old := (chunkAddrs s.memCtx chs).map fun a => (heldByte s.memCtx a ws).getD (s.view a)
  return ⟨chs, fitBytes n (f old), tableUpdate lin n f⟩

/-- The accessed bit of a descriptor, to be set by a locked read-modify-write unless it is set (20_memory.md R180). The locked cycles move
byte 5 alone, after the unlocked read of the whole descriptor: the model's choice (log 9). -/
def holdAccessed (a : Addr) (d : Nat) : M (List HeldWrite) := do
  if (descAr d).getLsbD 0 then return []
  else
    let s ← get
    let w ← holdUpdate [] (s.pageCtx false) (a + 5) 1 fun bs => bs.map (· ||| 1#8)
    return [w]

/-- The chunks of an access at a physical address, with the attributes of one that paging does not translate (20_memory.md R167). -/
def State.physChunks (s : State) (pa : Addr) (n : Nat) : List PChunk :=
  (chunksOf 4 (n + 1) pa n).map fun l =>
    ⟨l.lin, l.len, (flatPhys (s.pageCtx false) l.lin).pcd, (flatPhys (s.pageCtx false) l.lin).pwt⟩

/-- The linear address of an operand's access, its checks made and its breakpoints noted. -/
def operandAt (seg : SegReg) (off : DWord) (n : Nat) (write : Bool) : M Addr := do
  let s ← get
  let lin ← segLinear (s.segs.get seg) (segFault seg) off n write
  checkAlign lin n
  watch lin n write
  return lin

/-- The state that a failed instruction or a failed delivery leaves for the next delivery: registers as they were, but for those that
report; the bus as it is. -/
def State.afterFailed (s t : State) : State := { s with bus := t.bus, cr2 := t.cr2, dr6 := t.dr6, dr7 := t.dr7 }

/-- What `Base386` has left so far stays: a task switch is in the new task from here on, at its first instruction. -/
def State.switched (s : State) (r : BaseResult) : State :=
  let t := s.withBase r
  { t with dec := { t.dec with start := t.eip, count := 0 } }

/-- What comes after a task switch: an exception is taken in the new task. -/
def inNewTask (m : M Unit) : M Unit := fun s =>
  match m s with
  | .error (.exc e) t => .error (.taskExc e) (s.afterFailed t)
  | r => r

/-- Perform what `Base386` gives: its accesses by the primitives of 00_scope.md R17, with their checks, locks and order. `ws` are the
writes that wait. -/
def runBase (ws : List HeldWrite) : BaseOp → M Unit
  | .done r => do
    performAll ws
    modify fun s => s.withBase r
  | .commit r k => do
    performAll ws
    modify fun s => s.switched r
    inNewTask (runBase [] k)
  | .fetch k => do
    let b ← nextCodeByte
    runBase ws (k b)
  | .read seg off n k => do
    let lin ← operandAt seg off n false
    let s ← get
    let bs ← readHeld ws fun c => translateRange c (s.pageCtx (s.level == 3)) lin n false
    runBase ws (k bs)
  | .write seg off bs k => do
    let lin ← operandAt seg off bs.length true
    let s ← get
    let w ← holdWrite (s.pageCtx (s.level == 3)) lin bs
    runBase (ws ++ [w]) k
  | .check seg off n k => do
    checkPieces seg off [n]
    runBase ws k
  | .push seg sp lvl code bs k => do
    let s ← get
    let (t, w) ← holdPush ⟨seg, sp, s.prot, lvl == 3, Machine.stackFault (code.setWidth 32)⟩ bs
    runBase (ws ++ [w]) (k t.sp)
  | .update seg off n f k => do
    let lin ← operandAt seg off n true
    let s ← get
    let chs ← bus fun c => translateRange c (s.pageCtx (s.level == 3)) lin n true
    let bs ← readHeld ws fun _ => pure chs
    let new := fitBytes n (f bs)
    runBase (ws ++ [⟨chs, new, bus fun c => writeChunks c false chs new⟩]) (k bs)
  | .memRead pa n k => do
    let s ← get
    let bs ← readHeld ws fun _ => pure (s.physChunks pa n)
    runBase ws (k bs)
  | .memWrite pa bs k => do
    let s ← get
    let chs := s.physChunks pa bs.length
    runBase (ws ++ [⟨chs, bs, bus fun c => writeChunks c false chs bs⟩]) k
  | .tableRead lin n k => do
    let s ← get
    let (a, ns) := s.tableSpan lin n
    let bs ← readTable ws a ns
    runBase ws (k ((bs.drop (lin - a).toNat).take n))
  | .tableWrite lin bs k => do
    let s ← get
    let w ← holdWrite (s.pageCtx false) lin bs
    runBase (ws ++ [{ w with perform := tableWrite lin bs }]) k
  | .tableUpdate lin n f k => do
    let s ← get
    let w ← holdUpdate ws (s.pageCtx false) lin n f
    runBase (ws ++ [w]) k
  | .portRead port n k => do
    ioPermission port n
    performAll ws
    let bs ← ioRead port n
    runBase [] (k bs)
  | .portWrite port bs k => do
    ioPermission port bs.length
    performAll ws
    ioWrite port bs
    runBase [] k
  | .raise e => raise (baseExc e)

/-- What `Base386` is asked. -/
def State.baseCall (s : State) (kind : BaseKind) : BaseCall :=
  { kind := kind, os := s.decodeCtx.os, as := s.decodeCtx.as, seg := s.dec.seg, lock := s.dec.lock, rep := s.dec.rep
    repne := s.dec.repne, start := s.dec.start, eip := s.nextPc, state := s.baseRegs, draw := s.bus.draws }

/-- Run an 80386 instruction or a task switch as `Base386` gives it. -/
def base386 (kind : BaseKind) : M Unit := do
  let s ← get
  modify fun s => { s with bus := { s.bus with draws := s.bus.draws + 1 } }
  runBase [] (Config.base386 (s.baseCall kind))

/-! ### Taking an exception (60_exceptions.md R625) -/

/-- The pc an exception saves (R627): of a fault the first byte of its instruction, of INT n, INT 3 and INTO the offset after it, of what is
taken between instructions that of the next one. Of a double fault, an abort, R627 calls it unreliable, and the first byte of the instruction
whose exceptions led to it is the model's choice (log 28). -/
def Exc.returnPc (e : Exc) (s : State) : DWord := if e.fault then s.dec.start else if e.soft then s.nextPc else s.eip

/-- The flags an exception saves: a fault sets RF in them, so that no instruction breakpoint stops the instruction again (log 32). -/
def Exc.savedFlags (e : Exc) (s : State) : DWord := if e.fault && e.vector != 1 then setBit s.eflags 16 true else s.eflags

/-- Delivery in real mode and in SMM (R625). -/
def deliverReal (e : Exc) : M Unit := do
  let s ← get
  let v := e.vector.toNat
  if s.idtr.limit.toNat < 4 * v + 3 then raise (generalProtection (BitVec.ofNat 32 (8 * v + 2)))
  let k ← pushAll 2 [e.savedFlags s, s.segs.cs.sel.setWidth 32, e.returnPc s] s.stack
  let ip ← sysRead (s.idtr.base + BitVec.ofNat 32 (4 * v)) 2
  let cs ← sysRead (s.idtr.base + BitVec.ofNat 32 (4 * v + 2)) 2
  modify fun s =>
    { s with
      regs := { s.regs with esp := k.sp }
      eflags := s.eflags &&& 0xFFFBFCFF#32
      eip := BitVec.ofNat 32 ip
      segs := { s.segs with cs := s.segs.cs.loadReal s.realLimit (BitVec.ofNat 16 cs) } }

/-- The inner stack of a privilege level, from the TSS (R625, log 9), and the write that its descriptor waits for. `ext`: the EXT bit of
the error codes raised here and by the pushes, which R624 does not speak of: the model's choice (log 28). -/
def innerStack (ext : DWord) (lvl : BitVec 2) : M (Stack × List HeldWrite) := do
  let s ← get
  let e := invalidTss (selCode s.tr.sel ||| ext)
  let is386 := s.tr.ar.getLsbD 3
  let at_ := if is386 then 4 + 8 * lvl.toNat else 2 + 4 * lvl.toNat
  let n := if is386 then 4 else 2
  if s.tr.limit.toNat < at_ + n + 1 then raise e
  let sp ← sysRead (s.tr.base + BitVec.ofNat 32 at_) n
  let ss ← sysRead (s.tr.base + BitVec.ofNat 32 (at_ + n)) 2
  let sel := BitVec.ofNat 16 ss
  let es := invalidTss (selCode sel ||| ext)
  if sel &&& 0xFFFC#16 = 0 then raise e
  let (a, d) ← readDesc sel es
  let ar := descAr d
  if !(sel.extractLsb' 0 2 == lvl && ar.extractLsb' 5 2 == lvl && ar.getLsbD 4 && !ar.getLsbD 3 && ar.getLsbD 1) then
    raise es
  if !ar.getLsbD 7 then raise (stackFault (selCode sel ||| ext))
  let ws ← holdAccessed a d
  return (⟨descSeg sel d, BitVec.ofNat 32 sp, true, false, stackFault (selCode sel ||| ext)⟩, ws)

/-- Delivery through an interrupt or trap gate (R625, log 9). Nothing is written before its last check (R627). -/
def deliverGate (e : Exc) (g : Nat) : M Unit := do
  let s ← get
  let ext : DWord := if e.soft then 0 else 1
  let idtCode : DWord := BitVec.ofNat 32 (8 * e.vector.toNat + 2) ||| ext
  let gar := BitVec.ofNat 16 (g / 2 ^ 40)
  let kind := gar.extractLsb' 0 5
  if !(kind == 6 || kind == 7 || kind == 0xE || kind == 0xF) then raise (generalProtection idtCode)
  if e.soft && gar.extractLsb' 5 2 < s.level then raise (generalProtection idtCode)
  if !gar.getLsbD 7 then raise (segmentNotPresent idtCode)
  let sel := BitVec.ofNat 16 (g / 2 ^ 16)
  let wide := kind == 0xE || kind == 0xF
  let off : DWord := BitVec.ofNat 32 (g % 2 ^ 16 + (if wide then g / 2 ^ 48 % 2 ^ 16 * 2 ^ 16 else 0))
  if sel &&& 0xFFFC#16 = 0 then raise (generalProtection ext)
  let ge := generalProtection (selCode sel ||| ext)
  let (a, d) ← readDesc sel ge
  let ar := descAr d
  let dpl : BitVec 2 := ar.extractLsb' 5 2
  let conforming := ar.getLsbD 2
  if !(ar.getLsbD 4 && ar.getLsbD 3) || s.level < dpl then raise ge
  if s.vm && (conforming || dpl != 0) then raise ge
  if !ar.getLsbD 7 then raise (segmentNotPresent (selCode sel ||| ext))
  let lvl : BitVec 2 := if conforming then s.level else dpl
  let ws ← holdAccessed a d
  let n := if wide then 4 else 2
  let inner := lvl < s.level
  let (k0, ws') ← if inner then innerStack ext lvl else pure ({ s.stack with exc := stackFault ext }, [])
  let k0 := { k0 with user := lvl == 3 }
  let sel32 := fun (r : SegReg) => ((s.segs.get r).sel.setWidth 32 : DWord)
  let old := if s.vm then [sel32 .gs, sel32 .fs, sel32 .ds, sel32 .es] else []
  let outer := if inner then [sel32 .ss, s.regs.esp] else []
  let code := match e.code with
    | some x => [x]
    | none => []
  let cs := descSeg (sel &&& 0xFFFC#16 ||| lvl.setWidth 16) d
  if !cs.inLimit true off 1 then raise (generalProtection ext)
  let (k, pushes) ← holdPushes n (old ++ outer ++ [e.savedFlags s, sel32 .cs, e.returnPc s] ++ code) k0
  performAll (ws ++ ws' ++ pushes)
  modify fun t =>
    let segs : Segs := { t.segs with cs := cs, ss := if inner then k.seg else t.segs.ss }
    { t with
      regs := { t.regs with esp := k.sp }
      eflags := t.eflags &&& (if kind == 6 || kind == 0xE then 0xFFFDBCFF#32 else 0xFFFDBEFF#32)
      eip := off
      cpl := lvl
      segs := if s.vm then { segs with gs := segNull 0, fs := segNull 0, ds := segNull 0, es := segNull 0 } else segs }

/-- Delivery in protected and virtual-8086 mode (R625, log 9): through a gate, or by a task switch, which `Base386` gives. -/
def deliverProtected (e : Exc) : M Unit := do
  let s ← get
  let v := e.vector.toNat
  let ext : DWord := if e.soft then 0 else 1
  let idtCode : DWord := BitVec.ofNat 32 (8 * v + 2) ||| ext
  if s.idtr.limit.toNat < 8 * v + 7 then raise (generalProtection idtCode)
  let g ← sysRead (s.idtr.base + BitVec.ofNat 32 (8 * v)) 8
  let gar := BitVec.ofNat 16 (g / 2 ^ 40)
  let kind := gar.extractLsb' 0 5
  if kind = 5 then
    if e.soft && gar.extractLsb' 5 2 < s.level then raise (generalProtection idtCode)
    if !gar.getLsbD 7 then raise (segmentNotPresent idtCode)
    base386 (.taskGate (BitVec.ofNat 16 (g / 2 ^ 16)) e.vector e.code (e.returnPc s) (e.savedFlags s))
  else deliverGate e g

/-- What a fault or trap leaves in the registers that report it: CR2 on a page fault (R631), DR6 on a debug exception, which also
opens the debug registers; bits of DR6 that earlier ones have set stay (R637; log 32). -/
def State.reported (s : State) (e : Exc) : State :=
  { s with cr2 := e.lin.getD s.cr2, dr6 := s.dr6 ||| e.dr6, dr7 := if e.dr6 = 0 then s.dr7 else setBit s.dr7 13 false }

/-- TAKING AN EXCEPTION (R625): CR2 for a page fault, the return information pushed, flags and mode changed, the pc at the
handler's address. The prefetch queue empties. A single-step trap that MOV SS or POP SS has deferred is dropped where the next
instruction faults or is INT n, while data breakpoints and the trap of a task switch stay due: the model's choice (R646, log 29). An
INT n, INT 3 or INTO that itself began with TF = 1 leaves no single-step trap due, although R637 gives one after each instruction with
TF = 1: its delivery clears TF, and the handler's first instruction is next: the model's choice (log 29). An
exception ends the halt state, also the single-step trap of HLT itself, which the
exits of R640 do not name: the model's choice (log 42). -/
def deliver (e : Exc) : M Unit := do
  modify fun s => s.reported e
  let s ← get
  if s.pe then deliverProtected e else deliverReal e
  clearFetch
  modify fun s =>
    { s with dec := Decoding.idle, halted := false, trapPending := false, shadow := false, ssShadow := false, frozen := false
             busWanted := false, lastIo := none
             clock := if s.clock = .autoHaltPowerDown then .normal else s.clock }

/-- Contributory exceptions (R636): faults of these vectors; an interrupt through such a vector is none. -/
def Exc.contributory (e : Exc) : Bool :=
  e.fault && (e.vector == 0 || e.vector == 10 || e.vector == 11 || e.vector == 12 || e.vector == 13)

/-- A page fault, not an interrupt through vector 14. -/
def Exc.isPageFault (e : Exc) : Bool := e.fault && e.vector == 14

/-- What is delivered when delivering `e` raises `f`, or none for a shutdown (R636). -/
def escalate (e f : Exc) : Option Exc :=
  if e.fault && e.vector == 8 then none
  else if (e.contributory && f.contributory) || (e.isPageFault && (f.isPageFault || f.contributory)) then some doubleFault
  else some f

/-- The shutdown state (R641): the shutdown special cycle, then no execution. The data breakpoints matched, the single-step trap and the trap
of a task switch that are still due are dropped: the model's choice (10_state.md R81, log 51). -/
def enterShutdown : M Unit := do
  shutdownSpecial
  modify fun s => { s with shutdown := true, halted := false, dec := Decoding.idle, trapPending := false, taskTrap := false
                           shadow := false, ssShadow := false, frozen := false, busWanted := false, dbgHits := 0, serial := none
                           clock := if s.clock = .autoHaltPowerDown then .normal else s.clock }

/-- An exception left for the next step to deliver, before anything else is recognised (R636; log 28). It ends the halt state, as its delivery
will. -/
def State.parked (s : State) (e : Exc) : State :=
  { s with serial := some e, halted := false, clock := if s.clock = .autoHaltPowerDown then .normal else s.clock }

/-- Deliver an exception, then the one that its delivery raises, or the double fault that the two make, and so on, or shut down (R636). A row
longer than `n` goes on in the next step. A page fault in the delivery of another exception leaves its address in CR2 too (10_state.md
R55). -/
def takeException : Nat → Exc → M Unit
  | 0, e => modify fun s => s.parked e
  | n + 1, e => fun s =>
    match deliver e s with
    | .ok () t => .ok () t
    | .error (.exc f) t =>
      match escalate e f with
      | some g => takeException n g ((s.afterFailed t).reported f)
      | none => enterShutdown ((s.afterFailed t).reported f)
    | .error (.taskExc f) t =>
      match escalate e f with
      | some g => takeException n g (t.reported f)
      | none => enterShutdown (t.reported f)
    | .error r t => .error r t

/-- TAKING AN EXCEPTION AND WHAT COMES OF IT (R636), up to five deliveries in one step: a benign exception, a contributory one, a page fault
and a double fault have room. A row has no end where benign ones go on raising benign ones; how many deliveries a step makes is the model's
choice (log 28). -/
def takeExc (e : Exc) : M Unit := takeException 5 e

/-! ### Returning from one: IRET (60_exceptions.md R626; log 7, 9) -/

/-- The flag bits IRET and POPF may change at a privilege level: IOPL only at level 0, IF only up to IOPL. -/
def popMask (lvl iopl : BitVec 2) : DWord :=
  0x003C4DD5#32 ||| (if lvl = 0 then 0x3000#32 else 0) ||| (if lvl ≤ iopl then 0x200#32 else 0)

/-- The end of an IRET: NMI is recognised again (R622), the prefetch queue empties. -/
def iretDone : M Unit := do
  clearFetch
  modify fun s => { s with inNmi := false, nmiBlocked := false }

/-- A data segment register after a return to an outer level: null where the new level may not use it. -/
def Seg.afterReturn (g : Seg) (lvl : BitVec 2) : Seg :=
  if g.ar.getLsbD 4 && (!g.ar.getLsbD 3 || !g.ar.getLsbD 2) && g.ar.extractLsb' 5 2 < lvl then segNull 0 else g

/-- IRET in real and virtual-8086 mode: in the second IOPL and VM stay (log 31). -/
def iretReal (os : OpSize) : M Unit := do
  let s ← get
  if s.v86 && s.iopl != 3 then raise (generalProtection 0)
  let n := match os with | .w16 => 2 | .w32 => 4
  let ip ← peek 0 n
  let cs ← peek n n
  let fl ← peek (2 * n) n
  if !s.segs.cs.inLimit false ip 1 then raise (generalProtection 0)
  release (3 * n)
  let mask : DWord := (if s.v86 then 0x003D4FD5#32 else 0x003D7FD5#32) &&& (if n = 2 then 0xFFFF#32 else 0xFFFFFFFF#32)
  modify fun t =>
    { t with
      eip := ip
      segs := { t.segs with cs := t.segs.cs.loadReal t.realLimit (cs.setWidth 16) }
      eflags := normFlags t.part (mergeBits mask t.eflags fl) }
  iretDone

/-- IRET in protected mode: to the same level, to an outer level, or to virtual-8086 mode. Nothing is written before its last check
(R627). -/
def iretProt (os : OpSize) : M Unit := do
  let s ← get
  let n := match os with | .w16 => 2 | .w32 => 4
  let ip ← peek 0 n
  let csw ← peek n n
  let fl ← peek (2 * n) n
  let sel : Word := csw.setWidth 16
  let szMask : DWord := if n = 2 then 0xFFFF#32 else 0xFFFFFFFF#32
  if n = 4 && fl.getLsbD 17 && s.cpl == 0 then
    let esp ← peek 12 4
    let ss ← peek 16 4
    let es ← peek 20 4
    let ds ← peek 24 4
    let fs ← peek 28 4
    let gs ← peek 32 4
    modify fun t =>
      { t with
        eip := ip &&& 0xFFFF#32
        regs := { t.regs with esp := esp }
        eflags := normFlags t.part fl
        cpl := 3
        segs := { cs := segV86 sel, ss := segV86 (ss.setWidth 16), es := segV86 (es.setWidth 16)
                  ds := segV86 (ds.setWidth 16), fs := segV86 (fs.setWidth 16), gs := segV86 (gs.setWidth 16) } }
    iretDone
  else
    let lvl : BitVec 2 := sel.extractLsb' 0 2
    let ge := generalProtection (selCode sel)
    if sel &&& 0xFFFC#16 = 0 then raise (generalProtection 0)
    if lvl < s.cpl then raise ge
    let (a, d) ← readDesc sel ge
    let ar := descAr d
    let dpl : BitVec 2 := ar.extractLsb' 5 2
    if !(ar.getLsbD 4 && ar.getLsbD 3) then raise ge
    if (if ar.getLsbD 2 then decide (lvl < dpl) else dpl != lvl) then raise ge
    if !ar.getLsbD 7 then raise (segmentNotPresent (selCode sel))
    let cs := descSeg sel d
    if !cs.inLimit true ip 1 then raise (generalProtection 0)
    let mask := popMask s.cpl s.iopl ||| 0x00014000#32
    let flags := fun (t : State) => normFlags t.part (mergeBits (mask &&& szMask) t.eflags fl)
    if lvl = s.cpl then
      performAll (← holdAccessed a d)
      release (3 * n)
      modify fun t => { t with eip := ip, eflags := flags t, segs := { t.segs with cs := cs } }
      iretDone
    else
      let esp ← peek (3 * n) n
      let ssw ← peek (4 * n) n
      let ss : Word := ssw.setWidth 16
      let se := generalProtection (selCode ss)
      if ss &&& 0xFFFC#16 = 0 then raise (generalProtection 0)
      let (sa, sd) ← readDesc ss se
      let sar := descAr sd
      if !(ss.extractLsb' 0 2 == lvl && sar.extractLsb' 5 2 == lvl && sar.getLsbD 4 && !sar.getLsbD 3 && sar.getLsbD 1) then
        raise se
      if !sar.getLsbD 7 then raise (stackFault (selCode ss))
      let ws ← holdAccessed a d
      let ws' ← holdAccessed sa sd
      performAll (ws ++ ws')
      modify fun t =>
        { t with
          eip := ip
          eflags := flags t
          cpl := lvl
          regs := { t.regs with esp := if sar.getLsbD 14 then esp else low16 t.regs.esp (esp.setWidth 16) }
          segs := { cs := cs, ss := descSeg ss sd, es := t.segs.es.afterReturn lvl, ds := t.segs.ds.afterReturn lvl
                    fs := t.segs.fs.afterReturn lvl, gs := t.segs.gs.afterReturn lvl } }
      iretDone

/-- IRET to another task (log 7): NMI is recognised again also where the new task takes an exception at once. -/
def iretTask : M Unit := fun s =>
  match (base386 .taskReturn) s with
  | .ok () t => iretDone t
  | .error (.taskExc e) t => .error (.taskExc e) { t with inNmi := false, nmiBlocked := false }
  | r => r

/-- RETURNING FROM AN EXCEPTION: IRET (60_exceptions.md R626). -/
def iret (os : OpSize) : M Unit := do
  let s ← get
  if !s.prot then iretReal os
  else if s.nt then
    iretTask
  else iretProt os

/-! ### The end of an instruction -/

/-- An instruction has completed: its prefixes are used up; a single-step trap is due if TF was set when it began (R637), or one that
waited is; `io` is what an I/O instruction leaves for its restart (R675). -/
def State.complete (s : State) (io : Option IoInfo) : State :=
  { s with dec := Decoding.idle, trapPending := s.trapPending || s.dec.tf, shadow := false, ssShadow := false, lastIo := io }

/-- The processor goes back to the first byte of its instruction, which will start again. -/
def State.again (s : State) : State :=
  { s with eip := s.dec.start, eflags := setBit s.eflags 16 s.dec.rf, dec := Decoding.idle }

/-- The processor waits for the bus, with BREQ asserted; the instruction starts again at its first byte (log 36). -/
def State.waiting (s : State) : State := { s.again with busWanted := true }

/-- The processor is frozen before a floating-point instruction until an interrupt is taken, also one that STI has deferred
(60_exceptions.md R635, log 36). -/
def State.freezing (s : State) : State := { s.again with frozen := true, shadow := false, ssShadow := false }

/-- What an instruction leaves that was stopped in the state `t`. -/
def stopped (s : State) (r : Stop) (t : State) : Host.Outcome State Fault Refusal :=
  match r with
  | .stall => .next s.waiting
  | .freeze => .next s.freezing
  | .reset r => .next (t.applyReset r)
  | .refuse r => .refused r
  | .exc _ | .taskExc _ => .next t

/-- The outcome of the instruction begun in `s` when an exception is taken in the state `t`. -/
def exceptIn (s : State) (e : Exc) (t : State) : Host.Outcome State Fault Refusal :=
  match takeExc e t with
  | .ok () u => .next u
  | .error r u => stopped s r u

/-- The outcome of an instruction that raised an exception in the state `t`: its registers are as before it (R627), and the
exception is taken. -/
def except (s : State) (e : Exc) (t : State) : Host.Outcome State Fault Refusal := exceptIn s e (s.afterFailed t)

/-- Run an instruction: its effect, or the exception it raises taken, or a wait, a reset or a refusal. `fin` says what a completed
one leaves. -/
def runWith (m : M Unit) (fin : State → State) (s : State) : Host.Outcome State Fault Refusal :=
  match m s with
  | .ok () t => .next (fin t)
  | .error (.exc e) t => except s e t
  | .error (.taskExc e) t => exceptIn s e t
  | .error r t => stopped s r t

/-- An instruction that is no I/O instruction. -/
def run (m : M Unit) (s : State) : Host.Outcome State Fault Refusal := runWith m (fun t => t.complete none) s

/-- LOCK before an instruction that does not accept it, or without a memory destination (20_memory.md R181). Of two exceptions in one
instruction this one comes first, then the privilege check, then the others: the model's choice (log 53). -/
def lockable (ok : Bool) : M Unit := do
  let s ← get
  if s.dec.lock && !ok then raise invalidOpcode

/-- The privilege check of the privileged instructions (60_exceptions.md R649). -/
def privileged : M Unit := do
  let s ← get
  if s.level != 0 then raise (generalProtection 0)

/-- Control goes to an offset: the prefetch queue empties (20_memory.md R184). -/
def jumpTo (target : DWord) : M Unit := do
  modify fun s => { s with eip := target }
  clearFetch

end Sys2Proof.Machine
end

