-- ==== Sys2Proof/Machine/Flags.lean ====
section
/-! DEFINITION. The arithmetic flags (10_state.md R43; 43_instructions_new.md R481, R483). -/

set_option Elab.async false

namespace Sys2Proof.Machine

/-- The six status flags. -/
structure ArithFlags where
  cf : Bool
  pf : Bool
  af : Bool
  zf : Bool
  sf : Bool
  of : Bool
  deriving DecidableEq, Repr

/-- PF: the low byte has an even number of 1 bits. -/
def parityEven {n : Nat} (v : BitVec n) : Bool :=
  !((List.range 8).foldl (fun (x : Bool) i => xor x (v.getLsbD i)) false)

/-- The flags of ADD a, b (R481). -/
def addFlags {n : Nat} (a b : BitVec n) : ArithFlags :=
  let t := a + b
  { cf := decide (2 ^ n ≤ a.toNat + b.toNat)
    pf := parityEven t
    af := decide (16 ≤ a.toNat % 16 + b.toNat % 16)
    zf := t == 0
    sf := t.msb
    of := a.msb == b.msb && t.msb != a.msb }

/-- The flags of CMP a, b: of the subtraction a - b (R483). -/
def subFlags {n : Nat} (a b : BitVec n) : ArithFlags :=
  let t := a - b
  { cf := decide (a.toNat < b.toNat)
    pf := parityEven t
    af := decide (a.toNat % 16 < b.toNat % 16)
    zf := t == 0
    sf := t.msb
    of := a.msb != b.msb && t.msb != a.msb }

/-- EFLAGS with the six status flags replaced. -/
def putFlags (fl : DWord) (f : ArithFlags) : DWord :=
  setBit (setBit (setBit (setBit (setBit (setBit fl 0 f.cf) 2 f.pf) 4 f.af) 6 f.zf) 7 f.sf) 11 f.of

def setArith (f : ArithFlags) : M Unit := modify fun s => { s with eflags := putFlags s.eflags f }

/-- The places of the six status flags. -/
def statusMask : DWord := 0x8D5#32

/-- Free status flags (44_instructions_referenced.md R545, U23; log 19). -/
def freeStatus : M Unit := do
  let v ← freeDWord
  modify fun s => { s with eflags := mergeBits statusMask s.eflags v }

end Sys2Proof.Machine
end

