-- ==== Sys2Proof/Machine/Operands.lean ====
section
/-! DEFINITION. Effective addresses and operands (30_encoding.md R223 to R229). -/

set_option Elab.async false

namespace Sys2Proof.Machine

/-- A displacement at the address size: disp8 is sign-extended (R225). -/
def dispValue {n : Nat} : Disp n → BitVec n
  | .none => 0
  | .short d => d.signExtend n
  | .full d => d

/-- The base of a 16-bit effective address (R223). -/
def base16Value (g : Regs) : Base16 → BitVec 16
  | .bxSi => g.ebx.setWidth 16 + g.esi.setWidth 16
  | .bxDi => g.ebx.setWidth 16 + g.edi.setWidth 16
  | .bpSi => g.ebp.setWidth 16 + g.esi.setWidth 16
  | .bpDi => g.ebp.setWidth 16 + g.edi.setWidth 16
  | .si => g.esi.setWidth 16
  | .di => g.edi.setWidth 16
  | .bp => g.ebp.setWidth 16
  | .bx => g.ebx.setWidth 16

/-- The scaled index; ESP means none (R224). -/
def indexValue (g : Regs) (scale : BitVec 2) (i : Reg) : DWord :=
  if i = .esp then 0 else g.get i <<< scale.toNat

/-- The offset of an effective address: 16-bit ones wrap modulo 2^16 (R223, R224). -/
def eaOffset (g : Regs) : Ea → DWord
  | .base16 b d => (base16Value g b + dispValue d).setWidth 32
  | .abs16 d => d.setWidth 32
  | .base32 b d => g.get b + dispValue d
  | .abs32 d => d
  | .sib s i b d => g.get b + indexValue g s i + dispValue d
  | .sibAbs s i d => indexValue g s i + d

/-- The offset of a moffs operand (R225). -/
def moffsOffset : Offset → DWord
  | .o16 d => d.setWidth 32
  | .o32 d => d

/-- The bytes of an operand size. -/
def OpSize.bytes : OpSize → Nat
  | .w16 => 2
  | .w32 => 4

/-- Read a byte operand (R223, R229). -/
def readRm8 (rm : Rm Reg8) : M (BitVec 8) := do
  let s ← get
  match rm with
  | .reg r => return s.regs.get8 r
  | .mem m => return ofBytes 8 (← readMem m.seg (eaOffset s.regs m.ea) 1)

/-- Write a byte operand. -/
def writeRm8 (rm : Rm Reg8) (v : BitVec 8) : M Unit := do
  let s ← get
  match rm with
  | .reg r => setReg8 r v
  | .mem m => writeMem m.seg (eaOffset s.regs m.ea) (toBytes 1 v)

/-- Read a word or doubleword operand. -/
def readRm (os : OpSize) (rm : Rm Reg) : M (BitVec os.bits) := do
  let s ← get
  match rm with
  | .reg r => return s.regs.getSz os r
  | .mem m => return ofBytes os.bits (← readMem m.seg (eaOffset s.regs m.ea) (OpSize.bytes os))

/-- Write a word or doubleword operand. -/
def writeRm (os : OpSize) (rm : Rm Reg) (v : BitVec os.bits) : M Unit := do
  let s ← get
  match rm with
  | .reg r => setRegSz os r v
  | .mem m => writeMem m.seg (eaOffset s.regs m.ea) (toBytes (OpSize.bytes os) v)

/-- A read-modify-write of a byte operand: `f` takes the old value and says the new one and what else to do; the operand is
written last (43_instructions_new.md R481). -/
def modifyRm8 (rm : Rm Reg8) (lock : Bool) (f : BitVec 8 → BitVec 8) (other : BitVec 8 → M Unit) : M Unit := do
  let s ← get
  match rm with
  | .reg r =>
    let old := s.regs.get8 r
    other old
    setReg8 r (f old)
  | .mem m =>
    let (ps, bs) ← rmwRead m.seg (eaOffset s.regs m.ea) 1 lock
    let old : BitVec 8 := ofBytes 8 bs
    rmwWrite ps (toBytes 1 (f old)) lock
    other old

/-- A read-modify-write of a word or doubleword operand. -/
def modifyRm (os : OpSize) (rm : Rm Reg) (lock : Bool) (f : BitVec os.bits → BitVec os.bits)
    (other : BitVec os.bits → M Unit) : M Unit := do
  let s ← get
  match rm with
  | .reg r =>
    let old := s.regs.getSz os r
    other old
    setRegSz os r (f old)
  | .mem m =>
    let (ps, bs) ← rmwRead m.seg (eaOffset s.regs m.ea) (OpSize.bytes os) lock
    let old : BitVec os.bits := ofBytes os.bits bs
    rmwWrite ps (toBytes (OpSize.bytes os) (f old)) lock
    other old

/-- Whether an operand is in memory. -/
def Rm.isMem {ρ : Type} : Rm ρ → Bool
  | .reg _ => false
  | .mem _ => true

end Sys2Proof.Machine
end

