-- ==== Sys2Proof/Machine/Control.lean ====
section
/-! DEFINITION. JMP, INT n, HLT, PUSHF and POPF (44_instructions_referenced.md R538, R543, R544, R550). -/

set_option Elab.async false

namespace Sys2Proof.Machine

/-- The target of a relative jump from the next instruction's offset, at an operand size (R543). -/
def jumpTarget (os : OpSize) (next : DWord) (d : DWord) : DWord :=
  match os with
  | .w16 => (next + d) &&& 0xFFFF#32
  | .w32 => next + d

/-- A relative jump, from the offset after the instruction, which a 16-bit code segment does not cut for it (R543, log 49): a target past the
code segment's limit faults (10_state.md R42, log 30). -/
def jumpRelative (os : OpSize) (d : DWord) : M Unit := do
  lockable false
  let s ← get
  let t := jumpTarget os s.nextPc d
  if !s.segs.cs.inLimit false t 1 then raise (generalProtection 0)
  jumpTo t

/-- JMP rel8 (R543). -/
def execJmpRel8 (os : OpSize) (d : BitVec 8) (s : State) : Host.Outcome State Fault Refusal :=
  run (jumpRelative os (d.signExtend 32)) s

/-- JMP rel16 and JMP rel32 (R543). -/
def execJmpRel (d : Imm) (s : State) : Host.Outcome State Fault Refusal :=
  run (match d with
    | .i16 v => jumpRelative .w16 (v.signExtend 32)
    | .i32 v => jumpRelative .w32 v) s

/-- A software interrupt: in virtual-8086 mode only with IOPL 3, and undisclosed with CR4.VME (R544; log 21). -/
def softInterrupt (v : Byte) : M Unit := do
  let s ← get
  if s.v86 && s.vme then refuse .vmeUndisclosed
  if s.v86 && s.iopl != 3 then raise (generalProtection 0)
  raise (softwareInterrupt v)

/-- INT n (R544): its effect is the delivery of vector n. One that began with TF = 1 leaves no single-step trap due: the model's choice
(60_exceptions.md R625, R637; log 29). -/
def execIntN (v : BitVec 8) (s : State) : Host.Outcome State Fault Refusal :=
  run (do
    lockable false
    softInterrupt v) s

/-- HLT (R538, 60_exceptions.md R704). -/
def execHlt (s : State) : Host.Outcome State Fault Refusal :=
  run (do
    lockable false
    privileged
    haltSpecial
    modify fun t =>
      { t with halted := true, clock := if t.part.hasSL then .autoHaltPowerDown else t.clock }) s

/-- PUSHF and PUSHFD (R550; log 31): VM and RF are pushed as 0. -/
def execPushf (os : OpSize) (s : State) : Host.Outcome State Fault Refusal :=
  run (do
    lockable false
    if s.v86 && s.vme then refuse .vmeUndisclosed
    if s.v86 && s.iopl != 3 then raise (generalProtection 0)
    push os (s.eflags &&& 0xFFFCFFFF#32)) s

/-- POPF and POPFD (R550; log 31): they can change AC, and with `HasExt` ID, VIF and VIP. -/
def execPopf (os : OpSize) (s : State) : Host.Outcome State Fault Refusal :=
  run (do
    lockable false
    if s.v86 && s.vme then refuse .vmeUndisclosed
    if s.v86 && s.iopl != 3 then raise (generalProtection 0)
    let n := OpSize.bytes os
    let v ← peek 0 n
    release n
    let mask := (popMask s.level s.iopl) &&& (match os with | .w16 => 0xFFFF#32 | .w32 => 0xFFFFFFFF#32)
    setFlags (mergeBits mask s.eflags v)) s

end Sys2Proof.Machine
end

