-- ==== Sys2Proof/Machine/BusRows.lean ====
section
/-! DEFINITION. The bus-cycle rows of the opcode table: requests of the bus unit (30_encoding.md R230 to R233,
42_bus_transactions.md R400 to R417; log 2). A request whose bus is not available waits. -/

set_option Elab.async false

namespace Sys2Proof.Machine

/-- Run a request of the bus unit; a wait leaves the state as it was. -/
def runRow (m : M Unit) (s : State) : Host.Outcome State Fault Refusal :=
  match m s with
  | .ok () t => .next t
  | .error (.refuse r) _ => .refused r
  | .error (.reset r) t => .next (t.applyReset r)
  | .error _ _ => .next s

/-- Run the transfers of a row after every buffered write (20_memory.md R172, R174). -/
def runTransfers (i : Instr) : M Unit := bus fun c => do
  needBus c
  drainBuffers c
  let b ← get
  let r := b.rowXfers c i
  set r.2
  transact c false r.1

/-- Interrupt Acknowledge (42_bus_transactions.md R410): the two cycles; the vector is the one the environment drives. The
address, enables and data of the request are not used: the cycle has its own. -/
def execIntAckCycle (op : BusOp) (s : State) : Host.Outcome State Fault Refusal := runRow (runTransfers (.intAckCycle op)) s

/-- Special Cycle (R412): the enables and the address of the request are the message. -/
def execSpecialCycle (op : BusOp) (s : State) : Host.Outcome State Fault Refusal :=
  runRow (specialCycle op.be (op.addr ++ 0#2)) s

/-- I/O Read (R422): the data latch takes what the device returns. -/
def execIoReadCycle (op : BusOp) (s : State) : Host.Outcome State Fault Refusal := runRow (runTransfers (.ioReadCycle op)) s

/-- I/O Write (R422). -/
def execIoWriteCycle (op : BusOp) (s : State) : Host.Outcome State Fault Refusal := runRow (runTransfers (.ioWriteCycle op)) s

/-- Code Read (R400): the data latch takes the doubleword. -/
def execCodeReadCycle (op : BusOp) (s : State) : Host.Outcome State Fault Refusal := runRow (runTransfers (.codeReadCycle op)) s

/-- Reserved: the processor never drives it (30_encoding.md R230), so it has no effect to give. -/
def execReservedCycle (_s : State) : Host.Outcome State Fault Refusal := .refused .reservedCycle

/-- Memory Data Read (R400, R420): the data latch takes the doubleword. -/
def execMemReadCycle (op : BusOp) (s : State) : Host.Outcome State Fault Refusal := runRow (runTransfers (.memReadCycle op)) s

/-- Memory Data Write (R400, R420): the enabled bytes of memory are written. -/
def execMemWriteCycle (op : BusOp) (s : State) : Host.Outcome State Fault Refusal := runRow (runTransfers (.memWriteCycle op)) s

/-- Special: Shutdown (R413): the processor stops all execution after it. -/
def execShutdownCycle (s : State) : Host.Outcome State Fault Refusal := runRow enterShutdown s

/-- Special: Flush (R414). -/
def execFlushCycle (s : State) : Host.Outcome State Fault Refusal := runRow flushSpecial s

/-- Special: Second Flush Acknowledge (30_encoding.md R231): DX2WB in write-back mode only. -/
def execSecondFlushAckCycle (s : State) : Host.Outcome State Fault Refusal :=
  runRow (do
    if !s.wbMode then refuse .cycleNotOnMember
    secondFlushAckSpecial s.part) s

/-- Special: Halt (R415). -/
def execHaltCycle (s : State) : Host.Outcome State Fault Refusal := runRow haltSpecial s

/-- Special: Stop Grant Acknowledge (R416): `HasSL` only. -/
def execStopGrantCycle (s : State) : Host.Outcome State Fault Refusal :=
  runRow (do
    if !s.part.hasSL then refuse .cycleNotOnMember
    stopGrantSpecial) s

/-- Special: First Flush Acknowledge (30_encoding.md R231): DX2WB in write-back mode only. -/
def execFirstFlushAckCycle (s : State) : Host.Outcome State Fault Refusal :=
  runRow (do
    if !s.wbMode then refuse .cycleNotOnMember
    firstFlushAckSpecial s.part) s

/-- Special: Write-back (R417). -/
def execWriteBackCycle (s : State) : Host.Outcome State Fault Refusal := runRow writeBackSpecial s

end Sys2Proof.Machine
end

