-- ==== Sys2Proof/Machine/Data.lean ====
section
/-! DEFINITION. MOV and XCHG (44_instructions_referenced.md R520 to R523, R534). -/

set_option Elab.async false

namespace Sys2Proof.Machine

/-- MOV AL, moffs8 (R521). -/
def execMovAlMoffs (m : Moffs) (s : State) : Host.Outcome State Fault Refusal :=
  run (do
    lockable false
    let bs ← readMem m.seg (moffsOffset m.off) 1
    setReg8 .al (ofBytes 8 bs)) s

/-- MOV eAX, moffs (R521). -/
def execMovEaxMoffs (os : OpSize) (m : Moffs) (s : State) : Host.Outcome State Fault Refusal :=
  run (do
    lockable false
    let bs ← readMem m.seg (moffsOffset m.off) (OpSize.bytes os)
    setRegSz os .eax (ofBytes os.bits bs)) s

/-- MOV moffs8, AL (R522). -/
def execMovMoffsAl (m : Moffs) (s : State) : Host.Outcome State Fault Refusal :=
  run (do
    lockable false
    writeMem m.seg (moffsOffset m.off) (toBytes 1 (s.regs.get8 .al))) s

/-- MOV moffs, eAX (R522). -/
def execMovMoffsEax (os : OpSize) (m : Moffs) (s : State) : Host.Outcome State Fault Refusal :=
  run (do
    lockable false
    writeMem m.seg (moffsOffset m.off) (toBytes (OpSize.bytes os) (s.regs.getSz os .eax))) s

/-- MOV r8, r/m8 (R521). -/
def execMovR8Rm8 (r : Reg8) (rm : Rm Reg8) (s : State) : Host.Outcome State Fault Refusal :=
  run (do
    lockable false
    let v ← readRm8 rm
    setReg8 r v) s

/-- MOV r16, r/m16 and MOV r32, r/m32 (R521). -/
def execMovRRm (os : OpSize) (r : Reg) (rm : Rm Reg) (s : State) : Host.Outcome State Fault Refusal :=
  run (do
    lockable false
    let v ← readRm os rm
    setRegSz os r v) s

/-- MOV r/m8, r8 (R522). -/
def execMovRm8R8 (rm : Rm Reg8) (r : Reg8) (s : State) : Host.Outcome State Fault Refusal :=
  run (do
    lockable false
    writeRm8 rm (s.regs.get8 r)) s

/-- MOV r/m16, r16 and MOV r/m32, r32 (R522). -/
def execMovRmR (os : OpSize) (rm : Rm Reg) (r : Reg) (s : State) : Host.Outcome State Fault Refusal :=
  run (do
    lockable false
    writeRm os rm (s.regs.getSz os r)) s

/-- MOV r8, imm8 (R523). -/
def execMovR8Imm8 (r : Reg8) (v : BitVec 8) (s : State) : Host.Outcome State Fault Refusal :=
  run (do
    lockable false
    setReg8 r v) s

/-- MOV r16, imm16 and MOV r32, imm32 (R523). -/
def execMovRImm (r : Reg) (v : Imm) (s : State) : Host.Outcome State Fault Refusal :=
  run (do
    lockable false
    match v with
    | .i16 x => setRegSz .w16 r x
    | .i32 x => setRegSz .w32 r x) s

/-- XCHG r/m8, r8: with a memory operand the bus is locked, prefix or not (R534). -/
def execXchgRm8R8 (rm : Rm Reg8) (r : Reg8) (s : State) : Host.Outcome State Fault Refusal :=
  run (do
    lockable (Rm.isMem rm)
    let v := s.regs.get8 r
    modifyRm8 rm true (fun _ => v) fun old => setReg8 r old) s

/-- XCHG r/m16, r16 and XCHG r/m32, r32 (R534). -/
def execXchgRmR (os : OpSize) (rm : Rm Reg) (r : Reg) (s : State) : Host.Outcome State Fault Refusal :=
  run (do
    lockable (Rm.isMem rm)
    let v := s.regs.getSz os r
    modifyRm os rm true (fun _ => v) fun old => setRegSz os r old) s

/-- XCHG eAX, r; NOP is XCHG eAX, eAX (R534). -/
def execXchgEaxR (os : OpSize) (r : Reg) (s : State) : Host.Outcome State Fault Refusal :=
  run (do
    lockable false
    let a := s.regs.getSz os .eax
    let b := s.regs.getSz os r
    setRegSz os r a
    setRegSz os .eax b) s

end Sys2Proof.Machine
end

