-- ==== Sys2Proof/Machine/FpuUnit.lean ====
section
/-! DEFINITION. The floating-point escapes and WAIT (44_instructions_referenced.md R540, R541; 60_exceptions.md R634, R635;
log 8). What the 80387 computes is `Config.fpu387`; the gate before it, its memory operand, the pointers and the six control
instructions the rules name are here. -/

set_option Elab.async false

namespace Sys2Proof.Machine

/-- The memory operand of an escape: its direction and the sizes of the accesses that move it, the lowest address first
(20_memory.md R151; log 8). -/
inductive FpuOperand where
  | none
  | read (ns : List Nat)
  | write (ns : List Nat)
  deriving DecidableEq, Repr

/-- The sizes of the accesses of the environment and of the whole state (log 8). -/
def envPieces (os : OpSize) : List Nat :=
  match os with
  | .w16 => List.replicate 7 2
  | .w32 => List.replicate 7 4

def savePieces (os : OpSize) : List Nat := envPieces os ++ (List.replicate 8 [8, 2]).flatten

/-- The memory operand that the opcode's three bits and the reg field select (log 8). -/
def fpuOperand (os : OpSize) (op reg : BitVec 3) : FpuOperand :=
  match op.toNat, reg.toNat with
  | 0, _ => .read [4]
  | 1, 0 => .read [4]
  | 1, 1 => .none
  | 1, 2 | 1, 3 => .write [4]
  | 1, 4 => .read (envPieces os)
  | 1, 5 => .read [2]
  | 1, 6 => .write (envPieces os)
  | 1, _ => .write [2]
  | 2, _ => .read [4]
  | 3, 0 => .read [4]
  | 3, 2 | 3, 3 => .write [4]
  | 3, 5 => .read [8, 2]
  | 3, 7 => .write [8, 2]
  | 3, _ => .none
  | 4, _ => .read [8]
  | 5, 0 => .read [8]
  | 5, 2 | 5, 3 => .write [8]
  | 5, 4 => .read (savePieces os)
  | 5, 6 => .write (savePieces os)
  | 5, 7 => .write [2]
  | 5, _ => .none
  | 6, _ => .read [2]
  | _, 0 => .read [2]
  | _, 2 | _, 3 => .write [2]
  | _, 4 => .read [8, 2]
  | _, 5 => .read [8]
  | _, 6 => .write [8, 2]
  | _, 7 => .write [8]
  | _, _ => .none

/-- The escapes with an effect of their own here, and the rest of the 80387 set. -/
inductive FpuOp where
  | fninit | fnclex | fnstswAx | fnstswMem | fnstcw | fldcw
  /-- FNSTENV and FNSAVE, which do not wait. -/
  | storeState
  /-- FLDENV and FRSTOR. -/
  | loadState
  | other
  deriving DecidableEq, Repr

def fpuOp (op reg : BitVec 3) (rm : Rm (BitVec 3)) : FpuOp :=
  match rm with
  | .reg r =>
    if op = 3 ∧ reg = 4 ∧ r = 3 then .fninit
    else if op = 3 ∧ reg = 4 ∧ r = 2 then .fnclex
    else if op = 7 ∧ reg = 4 ∧ r = 0 then .fnstswAx
    else .other
  | .mem _ =>
    if op = 5 ∧ reg = 7 then .fnstswMem
    else if op = 1 ∧ reg = 7 then .fnstcw
    else if op = 1 ∧ reg = 5 then .fldcw
    else if (op = 1 ∧ reg = 6) ∨ (op = 5 ∧ reg = 6) then .storeState
    else if (op = 1 ∧ reg = 4) ∨ (op = 5 ∧ reg = 4) then .loadState
    else .other

/-- The no-wait forms, which a pending error does not stop (R540). -/
def FpuOp.noWait : FpuOp → Bool
  | .fninit | .fnclex | .fnstswAx | .fnstswMem | .fnstcw | .storeState => true
  | .fldcw | .loadState | .other => false

/-- The check for a pending error (R635): exception 16, a freeze, or nothing. -/
def fpErrorCheck : M Unit := do
  let s ← get
  if s.ferr then
    if s.ne then raise floatingPointError
    else if s.pins.ignne then pure ()
    else throw .freeze

/-- The gate in front of every escape (R540, 45_family_variants.md R561). -/
def escGate (noWait : Bool) : M Unit := do
  let s ← get
  if !s.part.hasFPU || s.em || s.ts then raise deviceNotAvailable
  if !noWait then fpErrorCheck

/-- The eleven opcode bits of an escape (10_state.md R66). -/
def escOpcode (op reg : BitVec 3) (rm : Rm (BitVec 3)) : BitVec 11 :=
  op ++ ((encRm id reg rm).headD 0)

/-- An unmasked exception flag is set: status bits 5:0 whose mask, the control bit of the same number, is 0 (10_state.md R65, R82;
60_exceptions.md R635). -/
def fpuUnmasked (f : Fpu) : Bool := f.status.extractLsb' 0 6 &&& ~~~(f.control.extractLsb' 0 6) != 0

/-- Whether an error is pending after an instruction that leaves these registers (60_exceptions.md R635): FNSTENV and FNSAVE clear it
(40_signal_interface.md R300). -/
def escPending (op : FpuOp) (f : Fpu) : Bool := op != .storeState && fpuUnmasked f

/-- The floating-point registers after an instruction, and the pending error with them. -/
def State.withFpu (s : State) (op : FpuOp) (f : Fpu) : State := { s with fpu := f, fpErrorPending := escPending op f }

/-- Record the instruction and operand pointers (10_state.md R66): as selector and offset, the model's choice (log 8). -/
def recordPointers (op reg : BitVec 3) (rm : Rm (BitVec 3)) (s : State) (f : Fpu) : Fpu :=
  let f := { f with ipSel := s.segs.cs.sel, ip := s.dec.start, opcode := escOpcode op reg rm }
  match rm with
  | .reg _ => f
  | .mem m => { f with dpSel := (s.segs.get m.seg).sel, dp := eaOffset s.regs m.ea }

/-- Execute by `Fpu387` (R540). Where it stores nothing the operand is checked all the same: the model's choice (log 8). -/
def escExecute (os : OpSize) (op reg : BitVec 3) (rm : Rm (BitVec 3)) : M FpuResult := do
  let s ← get
  let call := fun (r : Option (BitVec 3)) (bs : List Byte) =>
    Config.fpu387 ⟨s.prot, os == .w32, op, reg, r, bs, s.fpu⟩
  match rm with
  | .reg r => return call (some r) []
  | .mem m =>
    match fpuOperand os op reg with
    | .none => return call none []
    | .read ns => return call none (← readPieces m.seg (eaOffset s.regs m.ea) ns)
    | .write ns =>
      let res := call none []
      match res.store with
      | some bs => writePieces m.seg (eaOffset s.regs m.ea) ns (fitBytes ns.sum bs)
      | none => checkPieces m.seg (eaOffset s.regs m.ea) ns
      return res

/-- The registers after FNINIT, before the pointers are recorded. -/
def fpuInitialised (f : Fpu) : Fpu :=
  { f with control := 0x037F#16, status := 0, tag := 0xFFFF#16, ipSel := 0, ip := 0, opcode := 0, dpSel := 0, dp := 0 }

/-- The registers after an escape, what it moves moved: the six control instructions of the rules as they say, the others by
`Fpu387` (R540, 60_exceptions.md R635; log 8). FLDCW leaves the status register as it was, also where it masks or unmasks an exception
flag that is set: the error-summary and busy bits follow no field that the spec describes (10_state.md R65), the model's choice (log 8).
-/
def escEffect (os : OpSize) (op reg : BitVec 3) (rm : Rm (BitVec 3)) : M Fpu := do
  let s ← get
  match fpuOp op reg rm, rm with
  | .fninit, _ => return fpuInitialised s.fpu
  | .fnclex, _ => return { s.fpu with status := s.fpu.status &&& 0x7F00#16 }
  | .fnstswAx, _ => do
    setRegSz .w16 .eax s.fpu.status
    return s.fpu
  | .fnstswMem, .mem m => do
    writeMem m.seg (eaOffset s.regs m.ea) (toBytes 2 s.fpu.status)
    return s.fpu
  | .fnstcw, .mem m => do
    writeMem m.seg (eaOffset s.regs m.ea) (toBytes 2 s.fpu.control)
    return s.fpu
  | .fldcw, .mem m => do
    let bs ← readMem m.seg (eaOffset s.regs m.ea) 2
    return { s.fpu with control := ofBytes 16 bs }
  | _, _ => do
    let res ← escExecute os op reg rm
    return res.fpu

/-- ESC (R540). The pointers of every escape are recorded (10_state.md R66). -/
def execEsc (os : OpSize) (op reg : BitVec 3) (rm : Rm (BitVec 3)) (s : State) : Host.Outcome State Fault Refusal :=
  run (do
    lockable false
    escGate (fpuOp op reg rm).noWait
    let f ← escEffect os op reg rm
    modify fun t => t.withFpu (fpuOp op reg rm) (recordPointers op reg rm s f)) s

/-- WAIT (R541). -/
def execWait (s : State) : Host.Outcome State Fault Refusal :=
  run (do
    lockable false
    if s.mp && s.ts then raise deviceNotAvailable
    fpErrorCheck) s

end Sys2Proof.Machine
end

