-- ==== Sys2Proof/Machine/Io.lean ====
section
/-! DEFINITION. IN, OUT and OUTS (44_instructions_referenced.md R525 to R531). -/

set_option Elab.async false

namespace Sys2Proof.Machine

/-- How far EIP is past the instruction's first byte (60_exceptions.md R675). -/
def State.ioLength (s : State) : DWord := s.eip - s.dec.start

/-- Run an I/O instruction: what its restart needs is remembered (60_exceptions.md R675, D22). -/
def runIo (m : M Unit) (s : State) : Host.Outcome State Fault Refusal :=
  runWith m (fun t => t.complete (some ⟨s.ioLength, none⟩)) s

def inByte (port : Word) : M Unit := do
  lockable false
  ioPermission port 1
  let bs ← ioRead port 1
  setReg8 .al (ofBytes 8 bs)

def inSized (os : OpSize) (port : Word) : M Unit := do
  lockable false
  ioPermission port (OpSize.bytes os)
  let bs ← ioRead port (OpSize.bytes os)
  setRegSz os .eax (ofBytes os.bits bs)

def outBytes (port : Word) (bs : List Byte) : M Unit := do
  lockable false
  ioPermission port bs.length
  ioWrite port bs

/-- IN AL, imm8 (R525): the port number is zero-extended (30_encoding.md R225). -/
def execInAlImm8 (p : BitVec 8) (s : State) : Host.Outcome State Fault Refusal := runIo (inByte (p.setWidth 16)) s

/-- IN eAX, imm8 (R525). -/
def execInEaxImm8 (os : OpSize) (p : BitVec 8) (s : State) : Host.Outcome State Fault Refusal :=
  runIo (inSized os (p.setWidth 16)) s

/-- IN AL, DX (R525). -/
def execInAlDx (s : State) : Host.Outcome State Fault Refusal := runIo (inByte (s.regs.edx.setWidth 16)) s

/-- IN eAX, DX (R525). -/
def execInEaxDx (os : OpSize) (s : State) : Host.Outcome State Fault Refusal :=
  runIo (inSized os (s.regs.edx.setWidth 16)) s

/-- OUT imm8, AL (R527). -/
def execOutImm8Al (p : BitVec 8) (s : State) : Host.Outcome State Fault Refusal :=
  runIo (outBytes (p.setWidth 16) (toBytes 1 (s.regs.get8 .al))) s

/-- OUT imm8, eAX (R527). -/
def execOutImm8Eax (os : OpSize) (p : BitVec 8) (s : State) : Host.Outcome State Fault Refusal :=
  runIo (outBytes (p.setWidth 16) (toBytes (OpSize.bytes os) (s.regs.getSz os .eax))) s

/-- OUT DX, AL (R527). -/
def execOutDxAl (s : State) : Host.Outcome State Fault Refusal :=
  runIo (outBytes (s.regs.edx.setWidth 16) (toBytes 1 (s.regs.get8 .al))) s

/-- OUT DX, eAX (R527). -/
def execOutDxEax (os : OpSize) (s : State) : Host.Outcome State Fault Refusal :=
  runIo (outBytes (s.regs.edx.setWidth 16) (toBytes (OpSize.bytes os) (s.regs.getSz os .eax))) s

/-- A value as an address or a count of an address size. -/
def addressSized (as : AddrSize) (v : DWord) : DWord :=
  match as with
  | .a16 => v &&& 0xFFFF#32
  | .a32 => v

/-- A register moved by `d` at an address size. -/
def stepValue (as : AddrSize) (v d : DWord) : DWord :=
  match as with
  | .a16 => low16 v (v.setWidth 16 + d.setWidth 16)
  | .a32 => v + d

/-- How (E)SI moves: up by the operand's bytes, down with DF (R530). -/
def outsDelta (n : Nat) (df : Bool) : DWord := if df then 0 - BitVec.ofNat 32 n else BitVec.ofNat 32 n

/-- One OUTS (R530): unbuffered alone, buffered under REP. -/
def outsOnce (n : Nat) (seg : SegReg) (as : AddrSize) (buffered : Bool) : M Unit := do
  let s ← get
  let port : Word := s.regs.edx.setWidth 16
  ioPermission port n
  let bs ← readMem seg (addressSized as s.regs.esi) n
  if buffered then ioWriteBuffered port bs else ioWrite port bs
  modify fun s => { s with regs := { s.regs with esi := stepValue as s.regs.esi (outsDelta n s.df) } }

/-- OUTS without REP. -/
def outsSingle (n : Nat) (seg : SegReg) (as : AddrSize) (s : State) : Host.Outcome State Fault Refusal :=
  runIo (do
    lockable false
    outsOnce n seg as false) s

/-- One iteration of REP OUTS (R531): (E)CX counts down, and EIP stays at the instruction while it is not 0, RF with it, so that
events are taken between iterations, with TF = 1 a single-step trap among them: the model's choice (60_exceptions.md R637, R646; log 29).
With (E)CX = 0 nothing is done. -/
def outsRep (n : Nat) (seg : SegReg) (as : AddrSize) (s : State) : Host.Outcome State Fault Refusal :=
  if addressSized as s.regs.ecx = 0 then run (lockable false) s
  else
    let last := addressSized as (s.regs.ecx - 1) = 0
    runWith (do
        lockable false
        outsOnce n seg as true
        modify fun t =>
          { t with
            regs := { t.regs with ecx := stepValue as t.regs.ecx (0 - 1#32) }
            eip := if last then t.eip else t.dec.start
            eflags := if last then t.eflags else setBit t.eflags 16 t.dec.rf })
      (fun t => t.complete (some ⟨if last then s.ioLength else 0, some ⟨as, false, outsDelta n s.df⟩⟩)) s

/-- OUTSB (R530, R531). -/
def execOutsb (seg : SegReg) (as : AddrSize) (s : State) : Host.Outcome State Fault Refusal :=
  if s.dec.rep || s.dec.repne then outsRep 1 seg as s else outsSingle 1 seg as s

/-- OUTSW and OUTSD (R530, R531). -/
def execOutswd (os : OpSize) (seg : SegReg) (as : AddrSize) (s : State) : Host.Outcome State Fault Refusal :=
  if s.dec.rep || s.dec.repne then outsRep (OpSize.bytes os) seg as s else outsSingle (OpSize.bytes os) seg as s

end Sys2Proof.Machine
end

