-- ==== Sys2Proof/Machine/New486.lean ====
section
/-! DEFINITION. The instructions the 80486 adds, but for RSM (43_instructions_new.md R480 to R499). -/

set_option Elab.async false

namespace Sys2Proof.Machine

/-- The bytes of a doubleword reversed (R497). -/
def swapBytes (v : DWord) : DWord := v.extractLsb' 0 8 ++ v.extractLsb' 8 8 ++ v.extractLsb' 16 8 ++ v.extractLsb' 24 8

/-- BSWAP (R497); its 16-bit form leaves a free value in the low half (R498, log 19). -/
def execBswap (os : OpSize) (r : Reg) (s : State) : Host.Outcome State Fault Refusal :=
  run (do
    lockable false
    let g := s.regs
    match os with
    | .w32 => setReg r (swapBytes (g.get r))
    | .w16 =>
      let v ← freeDWord
      setReg r (low16 (g.get r) (v.setWidth 16))) s

/-- XADD r/m8, r8 (R481, R482). -/
def execXaddRm8R8 (rm : Rm Reg8) (r : Reg8) (s : State) : Host.Outcome State Fault Refusal :=
  run (do
    lockable (Rm.isMem rm)
    let src := s.regs.get8 r
    modifyRm8 rm s.dec.lock (fun old => old + src) fun old => do
      setReg8 r old
      setArith (addFlags old src)) s

/-- XADD r/m16, r16 and XADD r/m32, r32 (R481, R482). -/
def execXaddRmR (os : OpSize) (rm : Rm Reg) (r : Reg) (s : State) : Host.Outcome State Fault Refusal :=
  run (do
    lockable (Rm.isMem rm)
    let src := s.regs.getSz os r
    modifyRm os rm s.dec.lock (fun old => old + src) fun old => do
      setRegSz os r old
      setArith (addFlags old src)) s

/-- CMPXCHG r/m8, r8 (R483, R484): the destination is written in both cases. -/
def execCmpxchgRm8R8 (rm : Rm Reg8) (r : Reg8) (s : State) : Host.Outcome State Fault Refusal :=
  run (do
    lockable (Rm.isMem rm)
    let acc := s.regs.get8 .al
    let src := s.regs.get8 r
    modifyRm8 rm s.dec.lock (fun old => if acc = old then src else old) fun old => do
      if acc = old then pure () else setReg8 .al old
      setArith (subFlags acc old)) s

/-- CMPXCHG r/m16, r16 and CMPXCHG r/m32, r32 (R483, R484). -/
def execCmpxchgRmR (os : OpSize) (rm : Rm Reg) (r : Reg) (s : State) : Host.Outcome State Fault Refusal :=
  run (do
    lockable (Rm.isMem rm)
    let acc := s.regs.getSz os .eax
    let src := s.regs.getSz os r
    modifyRm os rm s.dec.lock (fun old => if acc = old then src else old) fun old => do
      if acc = old then pure () else setRegSz os .eax old
      setArith (subFlags acc old)) s

/-- Every line of the cache invalid (41_cache_operations.md R382). -/
def flushCache : M Unit := modify fun s => { s with bus := { s.bus with cache := s.bus.cache.flush } }

/-- Every modified line written to memory, once, after the buffered writes (43_instructions_new.md R489, U38). A line stays modified until its
write-back has ended: a snoop of one that waits has it written next (45_family_variants.md R586), and an SRESET in these clocks keeps
those not yet written (45_family_variants.md R578). -/
def writeBackModified : M Unit := bus fun c => do
  needBus c
  drainBuffers c
  let b ← get
  writeBackSlots c b.cache.modifiedSlots

/-- INVD (R487): nothing is written back. -/
def execInvd (s : State) : Host.Outcome State Fault Refusal :=
  run (do
    lockable false
    privileged
    flushCache
    flushSpecial) s

/-- WBINVD (R489): in write-back mode the modified lines are written first; then the write-back and the flush special
cycles. -/
def execWbinvd (s : State) : Host.Outcome State Fault Refusal :=
  run (do
    lockable false
    privileged
    if s.wbMode then writeBackModified
    flushCache
    writeBackSpecial
    flushSpecial) s

/-- INVLPG (R491): the operand is not accessed and faults on nothing. -/
def execInvlpg (m : MemOp) (s : State) : Host.Outcome State Fault Refusal :=
  run (do
    lockable false
    privileged
    let lin := (s.segs.get m.seg).base + eaOffset s.regs m.ea
    modify fun s => { s with bus := { s.bus with tlb := tlbInvalidate s.bus.tlb lin } }) s

/-- CPUID (R495, log 26): the buffers drain and the prefetch queue is refilled. -/
def execCpuid (s : State) : Host.Outcome State Fault Refusal :=
  run (do
    lockable false
    if !s.part.hasExt then raise invalidOpcode
    drain
    clearFetch
    let v := s.part.cpuidValue s.regs.eax
    modify fun s => { s with regs := { s.regs with eax := v.eax, ebx := v.ebx, ecx := v.ecx, edx := v.edx } }) s

end Sys2Proof.Machine
end

