-- ==== Sys2Proof/Machine/Prefix.lean ====
section
/-! DEFINITION. The prefix rows: each is a step that marks the instruction it belongs to (30_encoding.md R221, R226; log 1).
A prefix byte leaves the instruction's decoding open: no event is recognised before the instruction has run. -/

set_option Elab.async false

namespace Sys2Proof.Machine

/-- LOCK (44_instructions_referenced.md R536): the instruction it precedes checks it. -/
def execLockPrefix (s : State) : Host.Outcome State Fault Refusal :=
  .next { s with dec := { s.dec with active := true, lock := true } }

/-- REP (44_instructions_referenced.md R531). REPNE before it is replaced (log 40). -/
def execRepPrefix (s : State) : Host.Outcome State Fault Refusal :=
  .next { s with dec := { s.dec with active := true, rep := true, repne := false } }

/-- 66h: the other operand size for this instruction (30_encoding.md R226). -/
def execOpSizePrefix (s : State) : Host.Outcome State Fault Refusal :=
  .next { s with dec := { s.dec with active := true, osz := true } }

/-- 67h: the other address size for this instruction (30_encoding.md R226). -/
def execAddrSizePrefix (s : State) : Host.Outcome State Fault Refusal :=
  .next { s with dec := { s.dec with active := true, asz := true } }

end Sys2Proof.Machine
end

