-- ==== Sys2Proof/Machine/System.lean ====
section
/-! DEFINITION. Moves to and from control, debug and test registers (44_instructions_referenced.md R545 to R547). The six
status flags are free after each of them (R545, U23; log 19). -/

set_option Elab.async false

namespace Sys2Proof.Machine

/-- The value of control register `n`, or an invalid opcode (R545). -/
def readCr (n : BitVec 3) : M DWord := do
  let s ← get
  match n.toNat with
  | 0 => return s.cr0
  | 2 => return s.cr2
  | 3 => return s.cr3
  | 4 => if s.part.hasExt then return s.cr4 else raise invalidOpcode
  | _ => raise invalidOpcode

/-- Write control register `n` (R545, 10_state.md R54, R56, R57; clearing PE: 20_memory.md R156). -/
def writeCr (n : BitVec 3) (v : DWord) : M Unit := do
  let s ← get
  match n.toNat with
  | 0 =>
    if cr0Illegal v then raise (generalProtection 0)
    modify fun t => t.setCr0 (normCr0 v)
    if (s.cr0 ^^^ normCr0 v) &&& 0x80010001#32 = 0 then pure () else flushTlb
  | 2 => modify fun t => { t with cr2 := v }
  | 3 =>
    modify fun t => { t with cr3 := normCr3 v }
    flushTlb
  | 4 =>
    if !s.part.hasExt then raise invalidOpcode
    if v &&& cr4Reserved = 0 then modify fun t => { t with cr4 := v } else raise (generalProtection 0)
  | _ => raise invalidOpcode

/-- MOV r32, CRn (R545). -/
def execMovRCr (r : Reg) (n : BitVec 3) (s : State) : Host.Outcome State Fault Refusal :=
  run (do
    lockable false
    privileged
    let v ← readCr n
    setReg r v
    freeStatus) s

/-- MOV CRn, r32 (R545). -/
def execMovCrR (n : BitVec 3) (r : Reg) (s : State) : Host.Outcome State Fault Refusal :=
  run (do
    lockable false
    privileged
    writeCr n (s.regs.get r)
    freeStatus) s

/-- Debug register `n`: DR4 and DR5 alias DR6 and DR7 (R546). -/
def State.dr (s : State) (n : BitVec 3) : DWord :=
  match n.toNat with
  | 0 => s.dr0
  | 1 => s.dr1
  | 2 => s.dr2
  | 3 => s.dr3
  | 4 | 6 => s.dr6
  | _ => s.dr7

/-- Debug register `n` written: reserved bits of DR6 and DR7 stay 0 (92_eei_decisions.md D5; log 38). -/
def State.setDr (s : State) (n : BitVec 3) (v : DWord) : State :=
  match n.toNat with
  | 0 => { s with dr0 := v }
  | 1 => { s with dr1 := v }
  | 2 => { s with dr2 := v }
  | 3 => { s with dr3 := v }
  | 4 | 6 => { s with dr6 := normDr6 v }
  | _ => { s with dr7 := normDr7 v }

/-- DR7.GD protects the debug registers: an access is a debug fault with DR6.BD (60_exceptions.md R637; the family's layout, log
32). -/
def debugProtected : M Unit := do
  let s ← get
  if s.dr7.getLsbD 13 then raise (debugFault 0x2000#32)

/-- MOV r32, DRn (R546). -/
def execMovRDr (r : Reg) (n : BitVec 3) (s : State) : Host.Outcome State Fault Refusal :=
  run (do
    lockable false
    privileged
    debugProtected
    setReg r (s.dr n)
    freeStatus) s

/-- MOV DRn, r32 (R546). -/
def execMovDrR (n : BitVec 3) (r : Reg) (s : State) : Host.Outcome State Fault Refusal :=
  run (do
    lockable false
    privileged
    debugProtected
    modify fun t => t.setDr n (s.regs.get r)
    freeStatus) s

/-- Test register `n`, for `n` at least 3 (R547). -/
def State.testReg (s : State) (n : BitVec 3) : DWord :=
  match n.toNat with
  | 3 => s.tr3
  | 4 => s.tr4
  | 5 => s.tr5
  | 6 => s.tr6
  | _ => s.tr7

def State.setTestReg (s : State) (n : BitVec 3) (v : DWord) : State :=
  match n.toNat with
  | 3 => { s with tr3 := v }
  | 4 => { s with tr4 := v }
  | 5 => { s with tr5 := v }
  | 6 => { s with tr6 := v }
  | _ => { s with tr7 := v }

/-- MOV r32, TRn: the value last written (R547). -/
def execMovRTr (r : Reg) (n : BitVec 3) (s : State) : Host.Outcome State Fault Refusal :=
  run (do
    lockable false
    privileged
    if n.toNat < 3 then raise invalidOpcode
    setReg r (s.testReg n)
    freeStatus) s

/-- MOV TRn, r32 (R547): the register is written, and what TR3 to TR5 do to the cache and TR6, TR7 to the TLB is free
(10_state.md R69, U15; log 20). -/
def execMovTrR (n : BitVec 3) (r : Reg) (s : State) : Host.Outcome State Fault Refusal :=
  run (do
    lockable false
    privileged
    if n.toNat < 3 then raise invalidOpcode
    let v := s.regs.get r
    modify fun t =>
      let b := if n.toNat < 6 then { t.bus with cache := Config.cacheAfterTest n.toNat v t.bus.cache }
        else { t.bus with tlb := Config.tlbAfterTest n.toNat v t.bus.tlb }
      { t.setTestReg n v with bus := b }
    freeStatus) s

end Sys2Proof.Machine
end

