-- ==== Sys2Proof/Machine/Smm.lean ====
section
/-! DEFINITION. System management mode: the state-save map, entry and RSM (60_exceptions.md R650 to R690;
43_instructions_new.md R493; log 22, 23). -/

set_option Elab.async false

namespace Sys2Proof.Machine

/-! ### The state-save map (R661): byte `k` of the image stands at SMBASE + FE00h + k -/

/-- What SMM entry keeps inside the processor (log 22). -/
def State.hidden (s : State) : SmmHidden :=
  { segs := s.segs, ldtr := s.ldtr, tr := s.tr, gdtr := s.gdtr, idtr := s.idtr, cpl := s.cpl, shadow := s.shadow
    ssShadow := s.ssShadow, trapPending := s.trapPending, taskTrap := s.taskTrap, dbgHits := s.dbgHits }

/-- The 512 bytes that SMM entry saves (R660, R661). What the reserved bytes hold, and the upper halves of the selectors' slots, is open
(30_encoding.md R237), but for CR4, which stands at byte 92 by the model's choice (91_not_in_source.md N25, log 22). -/
def smmSave (s : State) : List Byte :=
  let reserved := fun (k n : Nat) => (List.range n).map fun i => Config.smmReserved s.bus.draws (k + i)
  let sel := fun (k : Nat) (w : Word) => toBytes 2 w ++ reserved (k + 2) 2
  reserved 0 92 ++ toBytes 4 s.cr4 ++ reserved 96 152
    ++ toBytes 4 s.smbase ++ toBytes 4 s.part.smmRevision
    ++ toBytes 2 (0#16) ++ toBytes 2 (if s.haltedAtSmi then 1#16 else 0#16)
    ++ reserved 0x104 164
    ++ sel 0x1A8 s.segs.es.sel ++ sel 0x1AC s.segs.cs.sel ++ sel 0x1B0 s.segs.ss.sel ++ sel 0x1B4 s.segs.ds.sel
    ++ sel 0x1B8 s.segs.fs.sel ++ sel 0x1BC s.segs.gs.sel ++ sel 0x1C0 s.ldtr.sel ++ sel 0x1C4 s.tr.sel
    ++ toBytes 4 s.dr7 ++ toBytes 4 s.dr6
    ++ toBytes 4 s.regs.eax ++ toBytes 4 s.regs.ecx ++ toBytes 4 s.regs.edx ++ toBytes 4 s.regs.ebx
    ++ toBytes 4 s.regs.esp ++ toBytes 4 s.regs.ebp ++ toBytes 4 s.regs.esi ++ toBytes 4 s.regs.edi
    ++ toBytes 4 s.eip ++ toBytes 4 s.eflags ++ toBytes 4 s.cr3 ++ toBytes 4 s.cr0

/-- The address of byte `k` of the image. -/
def smmAddr (smbase : DWord) (k : Nat) : Addr := smbase + BitVec.ofNat 32 (0xFE00 + k)

/-- The doublewords of the image, from the lowest address up. -/
def smmChunks (smbase : DWord) (p : PageCtx) : List PChunk :=
  (List.range 128).map fun k =>
    let ph := flatPhys p (smmAddr smbase (4 * k))
    ⟨ph.pa, 4, ph.pcd, ph.pwt⟩

/-- Doublewords written one by one, as ordinary memory writes. -/
def writeImage (c : MemCtx) : List PChunk → List Byte → BM Unit
  | [], _ => return ()
  | ch :: chs, bs => do
    writeChunk c false false ch (bs.take ch.len)
    writeImage c chs (bs.drop ch.len)

/-- Doublewords read one by one. -/
def readImage (c : MemCtx) : List PChunk → BM (List Byte)
  | [] => return []
  | ch :: chs => do
    let x ← readChunk c .memRead false ch
    let y ← readImage c chs
    return x ++ y

/-- The image's doublewords, the last first. -/
def downward (img : List Byte) : List Byte := (List.range 128).flatMap fun k => (img.drop (508 - 4 * k)).take 4

/-- The general registers after SMM entry: free values (R662, U1). -/
def freeRegs : M Regs := do
  return ⟨← freeDWord, ← freeDWord, ← freeDWord, ← freeDWord, ← freeDWord, ← freeDWord, ← freeDWord, ← freeDWord⟩

/-- A data segment register after SMM entry (R662); its access rights, like those of CS, are the model's choice (log 52). -/
def Seg.smmData : Seg := ⟨0, 0, 0xFFFFFFFF#32, 0x0093#16⟩

/-- SMM entry (R660): the image is written from the top downward, as ordinary memory writes. `io` is what an I/O restart will
need (R655). -/
def enterSmm (io : Option IoInfo) : M Unit := do
  bus needBus
  drain
  modify fun s =>
    { s with inSMM := true, pend := { s.pend with smi := false }, nmiBlocked := true, haltedAtSmi := s.halted, ioAtSmi := io }
  let s ← get
  let img := smmSave s
  bus fun c => writeImage c (smmChunks s.smbase { s.pageCtx false with pg := false }).reverse (downward img)
  let _ ← freeDWord
  let g ← freeRegs
  let d6 ← freeDWord
  clearFetch
  modify fun t =>
    { t with
      regs := g
      eflags := 0x00000002#32
      eip := 0x00008000#32
      segs := { cs := ⟨t.smbase.extractLsb' 4 16, t.smbase, 0xFFFFFFFF#32, 0x0093#16⟩, ds := Seg.smmData, es := Seg.smmData
                fs := Seg.smmData, gs := Seg.smmData, ss := Seg.smmData }
      cr0 := t.cr0 &&& 0x7FFFFFF2#32
      dr6 := normDr6 d6
      dr7 := t.dr7 &&& 0x3000#32
      cpl := 0
      smmImage := img
      smmHidden := some s.hidden
      halted := false
      clock := if t.clock = .autoHaltPowerDown then .normal else t.clock
      dec := Decoding.idle
      trapPending := false
      taskTrap := false
      dbgHits := 0
      shadow := false
      ssShadow := false
      frozen := false
      busWanted := false
      lastIo := none }

/-! ### RSM -/

def at16 (img : List Byte) (k : Nat) : Word := ofBytes 16 ((img.drop k).take 2)
def at32 (img : List Byte) (k : Nat) : DWord := ofBytes 32 ((img.drop k).take 4)

/-- The handler may change these bytes of the image; the revision identifier is ignored (R661, R673). -/
def smmWritable (k : Nat) : Bool := (0xF8 ≤ k && k < 0x104) || (0x1D0 ≤ k && k < 0x1F8)

/-- Whether the image differs from what was saved only where it may (R661, U8). -/
def smmUnaltered : Nat → List Byte → List Byte → Bool
  | k, a :: as, b :: bs => (smmWritable k || a == b) && smmUnaltered (k + 1) as bs
  | _, _, _ => true

/-- CR4 of an image (log 22). -/
def imageCr4 (img : List Byte) : DWord := at32 img 92

/-- An image RSM shuts down on (R683). -/
def imageInvalid (img : List Byte) : Bool :=
  (at32 img 0xF8).extractLsb' 0 15 != 0 || (imageCr4 img) &&& cr4Reserved != 0 || cr0Illegal (at32 img 0x1FC)

/-- Step 4 of RSM: every register of the image (R680), and what the processor kept inside. RSM leaves no single-step trap of its own
due, whatever TF was when it began: the model's choice (log 47). -/
def restoreImage (img : List Byte) (s : State) : State :=
  let h := s.smmHidden.getD s.hidden
  { s with
    regs := { eax := at32 img 0x1D0, ecx := at32 img 0x1D4, edx := at32 img 0x1D8, ebx := at32 img 0x1DC
              esp := at32 img 0x1E0, ebp := at32 img 0x1E4, esi := at32 img 0x1E8, edi := at32 img 0x1EC }
    eip := at32 img 0x1F0
    eflags := normFlags s.part (at32 img 0x1F4)
    cr3 := normCr3 (at32 img 0x1F8)
    cr0 := normCr0 (at32 img 0x1FC)
    dr7 := at32 img 0x1C8
    dr6 := at32 img 0x1CC
    segs := { es := { h.segs.es with sel := at16 img 0x1A8 }, cs := { h.segs.cs with sel := at16 img 0x1AC }
              ss := { h.segs.ss with sel := at16 img 0x1B0 }, ds := { h.segs.ds with sel := at16 img 0x1B4 }
              fs := { h.segs.fs with sel := at16 img 0x1B8 }, gs := { h.segs.gs with sel := at16 img 0x1BC } }
    ldtr := { h.ldtr with sel := at16 img 0x1C0 }
    tr := { h.tr with sel := at16 img 0x1C4 }
    gdtr := h.gdtr
    idtr := h.idtr
    cr4 := imageCr4 img
    cpl := h.cpl
    shadow := h.shadow
    ssShadow := h.ssShadow
    trapPending := h.trapPending
    taskTrap := h.taskTrap
    dbgHits := h.dbgHits }

/-- (E)SI, or (E)DI, moved by `f`. -/
def stepBack (g : Regs) (dst : Bool) (f : DWord → DWord) : Regs :=
  if dst then { g with edi := f g.edi } else { g with esi := f g.esi }

/-- The I/O restart slot (R675): EIP back to the I/O instruction, and a repeated one back by one iteration. Without a recorded
I/O instruction EIP moves back by a free length (70_reset_and_hazards.md R763). -/
def restartIo (io : Option IoInfo) : M Unit := do
  match io with
  | some i =>
    modify fun t =>
      let g :=
        match i.rep with
        | none => t.regs
        | some b =>
          match b.as with
          | .a16 => stepBack { t.regs with ecx := low16 t.regs.ecx (t.regs.ecx.setWidth 16 + 1) } b.dst fun v =>
              low16 v (v.setWidth 16 - b.delta.setWidth 16)
          | .a32 => stepBack { t.regs with ecx := t.regs.ecx + 1 } b.dst fun v => v - b.delta
      { t with eip := t.eip - i.len, regs := g }
  | none =>
    let v ← freeDWord
    modify fun t => { t with eip := t.eip - v }

/-- RSM (R680). With an SMI# latched SMM is entered again at once (R654), also where a FLUSH# is pending or held at the boundary between:
the model's choice (log 54). -/
def rsmBody : M Unit := do
  lockable false
  let s ← get
  if !s.part.hasSL || !s.inSMM then raise invalidOpcode
  drain
  let img ← bus fun c => readImage c (smmChunks s.smbase { s.pageCtx false with pg := false })
  if imageInvalid img then enterShutdown
  else
    let rehalt := (at16 img 0x102).getLsbD 0
    let slot := at16 img 0x100
    if rehalt && !s.haltedAtSmi then refuse .rsmHaltSlot
    if slot != 0 && slot != 0xFF then refuse .ioRestartSlot
    if !smmUnaltered 0 img s.smmImage then refuse .saveMapAltered
    clearFetch
    modify fun t =>
      { restoreImage img t with
        smbase := at32 img 0xF8, inSMM := false, nmiBlocked := false, ioAtSmi := none, haltedAtSmi := false, smmImage := []
        smmHidden := none, smiLatched := false, dec := Decoding.idle, lastIo := none }
    if slot == 0xFF then restartIo s.ioAtSmi
    if s.smiLatched then
      modify fun t => { t with halted := rehalt }
      enterSmm s.ioAtSmi
    else if rehalt then
      haltSpecial
      modify fun t => { t with halted := true, clock := .autoHaltPowerDown }

/-- RSM (43_instructions_new.md R493): outside SMM, and on a part without it, an invalid opcode. -/
def execRsm (s : State) : Host.Outcome State Fault Refusal := runWith rsmBody id s

end Sys2Proof.Machine
end

