-- ==== Sys2Proof/Machine/Dispatch.lean ====
section
/-! DEFINITION. One arm per instruction: each a call of its meaning. -/

namespace Sys2Proof.Machine

def exec (i : Instr) (s : State) : Host.Outcome State Fault Refusal :=
  match i with
  | .bswap os r => Sys2Proof.Machine.execBswap os r s
  | .xaddRm8R8 rm r => Sys2Proof.Machine.execXaddRm8R8 rm r s
  | .xaddRmR os rm r => Sys2Proof.Machine.execXaddRmR os rm r s
  | .cmpxchgRm8R8 rm r => Sys2Proof.Machine.execCmpxchgRm8R8 rm r s
  | .cmpxchgRmR os rm r => Sys2Proof.Machine.execCmpxchgRmR os rm r s
  | .invd => Sys2Proof.Machine.execInvd s
  | .wbinvd => Sys2Proof.Machine.execWbinvd s
  | .invlpg m => Sys2Proof.Machine.execInvlpg m s
  | .rsm => Sys2Proof.Machine.execRsm s
  | .cpuid => Sys2Proof.Machine.execCpuid s
  | .movAlMoffs m => Sys2Proof.Machine.execMovAlMoffs m s
  | .movEaxMoffs os m => Sys2Proof.Machine.execMovEaxMoffs os m s
  | .movMoffsAl m => Sys2Proof.Machine.execMovMoffsAl m s
  | .movMoffsEax os m => Sys2Proof.Machine.execMovMoffsEax os m s
  | .movR8Rm8 r rm => Sys2Proof.Machine.execMovR8Rm8 r rm s
  | .movRRm os r rm => Sys2Proof.Machine.execMovRRm os r rm s
  | .movRm8R8 rm r => Sys2Proof.Machine.execMovRm8R8 rm r s
  | .movRmR os rm r => Sys2Proof.Machine.execMovRmR os rm r s
  | .movR8Imm8 r v => Sys2Proof.Machine.execMovR8Imm8 r v s
  | .movRImm r v => Sys2Proof.Machine.execMovRImm r v s
  | .inAlImm8 p => Sys2Proof.Machine.execInAlImm8 p s
  | .inEaxImm8 os p => Sys2Proof.Machine.execInEaxImm8 os p s
  | .inAlDx => Sys2Proof.Machine.execInAlDx s
  | .inEaxDx os => Sys2Proof.Machine.execInEaxDx os s
  | .outImm8Al p => Sys2Proof.Machine.execOutImm8Al p s
  | .outImm8Eax os p => Sys2Proof.Machine.execOutImm8Eax os p s
  | .outDxAl => Sys2Proof.Machine.execOutDxAl s
  | .outDxEax os => Sys2Proof.Machine.execOutDxEax os s
  | .outsb seg as => Sys2Proof.Machine.execOutsb seg as s
  | .outswd os seg as => Sys2Proof.Machine.execOutswd os seg as s
  | .repPrefix => Sys2Proof.Machine.execRepPrefix s
  | .xchgRm8R8 rm r => Sys2Proof.Machine.execXchgRm8R8 rm r s
  | .xchgRmR os rm r => Sys2Proof.Machine.execXchgRmR os rm r s
  | .xchgEaxR os r => Sys2Proof.Machine.execXchgEaxR os r s
  | .lockPrefix => Sys2Proof.Machine.execLockPrefix s
  | .hlt => Sys2Proof.Machine.execHlt s
  | .esc os op reg rm => Sys2Proof.Machine.execEsc os op reg rm s
  | .wait => Sys2Proof.Machine.execWait s
  | .jmpRel8 os d => Sys2Proof.Machine.execJmpRel8 os d s
  | .jmpRel d => Sys2Proof.Machine.execJmpRel d s
  | .intN v => Sys2Proof.Machine.execIntN v s
  | .movRCr r n => Sys2Proof.Machine.execMovRCr r n s
  | .movCrR n r => Sys2Proof.Machine.execMovCrR n r s
  | .movRDr r n => Sys2Proof.Machine.execMovRDr r n s
  | .movDrR n r => Sys2Proof.Machine.execMovDrR n r s
  | .movRTr r n => Sys2Proof.Machine.execMovRTr r n s
  | .movTrR n r => Sys2Proof.Machine.execMovTrR n r s
  | .pushf os => Sys2Proof.Machine.execPushf os s
  | .popf os => Sys2Proof.Machine.execPopf os s
  | .opSizePrefix => Sys2Proof.Machine.execOpSizePrefix s
  | .addrSizePrefix => Sys2Proof.Machine.execAddrSizePrefix s
  | .intAckCycle op => Sys2Proof.Machine.execIntAckCycle op s
  | .specialCycle op => Sys2Proof.Machine.execSpecialCycle op s
  | .ioReadCycle op => Sys2Proof.Machine.execIoReadCycle op s
  | .ioWriteCycle op => Sys2Proof.Machine.execIoWriteCycle op s
  | .codeReadCycle op => Sys2Proof.Machine.execCodeReadCycle op s
  | .reservedCycle => Sys2Proof.Machine.execReservedCycle s
  | .memReadCycle op => Sys2Proof.Machine.execMemReadCycle op s
  | .memWriteCycle op => Sys2Proof.Machine.execMemWriteCycle op s
  | .shutdownCycle => Sys2Proof.Machine.execShutdownCycle s
  | .flushCycle => Sys2Proof.Machine.execFlushCycle s
  | .secondFlushAckCycle => Sys2Proof.Machine.execSecondFlushAckCycle s
  | .haltCycle => Sys2Proof.Machine.execHaltCycle s
  | .stopGrantCycle => Sys2Proof.Machine.execStopGrantCycle s
  | .firstFlushAckCycle => Sys2Proof.Machine.execFirstFlushAckCycle s
  | .writeBackCycle => Sys2Proof.Machine.execWriteBackCycle s

end Sys2Proof.Machine
end

