-- ==== Sys2Proof/Machine/Fetch.lean ====
section
/-! DEFINITION. Fetching, decoding and running one instruction (10_state.md R42; 30_encoding.md R220 to R227), and the 80386
instructions without a row: five that the rules name, and the rest of `Base386` (log 7). -/

set_option Elab.async false

namespace Sys2Proof.Machine

/-- Fetch bytes until they decode (30_encoding.md R227): more than fifteen, prefixes included, are a general protection
fault. -/
def fetchDecode : Nat → List Byte → M (Dec Instr × Nat)
  | 0, _ => raise (generalProtection 0)
  | n + 1, got => do
    let s ← get
    if 15 ≤ s.dec.count + got.length then raise (generalProtection 0)
    let b ← codeByte (s.byteOffset got.length)
    let bs := got ++ [b]
    match decode s.decodeCtx bs with
    | .more => fetchDecode n bs
    | d => return (d, bs.length)

/-- A segment override or REPNE byte taken as a prefix (30_encoding.md R221; log 1, 40). -/
def State.latchExtra (s : State) (p : ExtraPrefix) : State :=
  match p with
  | .seg r => { s with dec := { s.dec with active := true, seg := some r } }
  | .repne => { s with dec := { s.dec with active := true, repne := true, rep := false } }

/-- CLI and STI: the check on IOPL; undisclosed with CR4.PVI or CR4.VME (10_state.md R57; log 21). -/
def ifPermission : M Unit := do
  let s ← get
  if s.pe && s.iopl < s.level then
    if (s.vm && s.vme) || (!s.vm && s.pvi && s.level == 3) then refuse .vmeUndisclosed
    else raise (generalProtection 0)

/-! ### LOCK before an 80386 instruction without a row (44_instructions_referenced.md R536; log 7) -/

/-- The next `n` bytes of the instruction. -/
def nextCodeBytes : Nat → M (List Byte)
  | 0 => return []
  | n + 1 => do
    let b ← nextCodeByte
    let bs ← nextCodeBytes n
    return b :: bs

/-- The memory operand of a ModR/M byte, its SIB and displacement bytes fetched (30_encoding.md R223, R224). -/
def fetchMem (m : Byte) : Nat → List Byte → M MemOp
  | 0, _ => raise (generalProtection 0)
  | n + 1, got => do
    let s ← get
    match decMem s.decodeCtx (modField m) (rmField m) got with
    | .ok op _ => return op
    | _ => do
      let b ← nextCodeByte
      fetchMem m n (got ++ [b])

/-- The bytes of a LOCK'd instruction's destination: one for the even opcodes of the first page, else a word or doubleword. -/
def lockedSize (twoByte : Bool) (b : Byte) (os : OpSize) : Nat := if !twoByte && !b.getLsbD 0 then 1 else OpSize.bytes os

/-- The bytes of its immediate: of 80, 83 and 0F BA one, of 81 the operand size. -/
def lockedImm (twoByte : Bool) (b : Byte) (os : OpSize) : Nat :=
  if twoByte then (if b = 0xBA#8 then 1 else 0)
  else if b = 0x80#8 ∨ b = 0x83#8 then 1
  else if b = 0x81#8 then OpSize.bytes os
  else 0

/-- How far from its address BTS, BTR and BTC with a bit offset in a register find the word or doubleword that holds the bit. -/
def bitDisplacement (os : OpSize) (off : DWord) : DWord :=
  match os with
  | .w16 => ((off.setWidth 16).sshiftRight 4).signExtend 32 <<< 1
  | .w32 => off.sshiftRight 5 <<< 2

/-- The effect of a LOCK'd instruction: its destination is read and written in one locked sequence; the result and the six status flags
are what `Base386` gives, and nothing else changes. -/
def runLocked (twoByte : Bool) (b m : Byte) : M Unit := do
  let s ← get
  let os := s.decodeCtx.os
  let op ← fetchMem m 7 []
  let imm ← nextCodeBytes (lockedImm twoByte b os)
  let g := s.regs
  let bit := if twoByte && b != 0xBA#8 then bitDisplacement os (g.get (Reg.ofBits (regField m))) else 0
  let n := lockedSize twoByte b os
  let (ps, old) ← rmwRead op.seg (addressSized s.decodeCtx.as (eaOffset g op.ea + bit)) n true
  let t ← get
  let r := Config.base386Locked ⟨twoByte, b, regField m, imm, old, t.baseRegs, t.bus.draws⟩
  rmwWrite ps (fitBytes n r.new) true
  modify fun t =>
    { t with eflags := mergeBits statusMask t.eflags r.eflags, bus := { t.bus with draws := t.bus.draws + 1 } }

/-- An 80386 instruction with LOCK: one of `lockForms` with a memory destination, else an invalid opcode. -/
def lockBase (twoByte : Bool) (b : Byte) (modRm : Option Byte) : M Unit :=
  match modRm with
  | some m =>
    if modField m = 3 || !((lockForms twoByte b).contains (regField m).toNat) then raise invalidOpcode
    else runLocked twoByte b m
  | none => raise invalidOpcode

/-! ### The decode stages (00_scope.md R9, 30_encoding.md R227; log 27) -/

/-- The other operand size. -/
def OpSize.other : OpSize → OpSize
  | .w16 => .w32
  | .w32 => .w16

/-- The other address size. -/
def AddrSize.other : AddrSize → AddrSize
  | .a16 => .a32
  | .a32 => .a16

/-- The bytes of the instruction, prefixes included, that stands whole at the front of `bs`, in a segment with the sizes of `d`; `c` has the
prefixes seen so far. How many bytes an opcode without a row has is `Base386`'s. -/
def wholeInstr (d : DecodeCtx) : Nat → DecodeCtx → List Byte → Option Nat
  | 0, _, _ => none
  | n + 1, c, bs =>
    match decode c bs with
    | .ok .opSizePrefix rest => (wholeInstr d n { c with os := OpSize.other d.os } rest).map (· + 1)
    | .ok .addrSizePrefix rest => (wholeInstr d n { c with as := AddrSize.other d.as } rest).map (· + 1)
    | .ok .lockPrefix rest | .ok .repPrefix rest => (wholeInstr d n c rest).map (· + 1)
    | .extra (.seg r) => (wholeInstr d n { c with seg := some r } (bs.drop 1)).map (· + 1)
    | .extra .repne => (wholeInstr d n c (bs.drop 1)).map (· + 1)
    | .ok _ rest => some (bs.length - rest.length)
    | .more => none
    | .illegal | .base386 _ _ _ => some (Config.base386Length c.os c.as bs)

/-- The bytes that the running instruction and those in the two decode stages have, of the first `k` instructions of `bs` as many as stand
there whole; none has more than fifteen bytes (30_encoding.md R227). -/
def stageBytes (d : DecodeCtx) : Nat → List Byte → Nat
  | 0, _ => 0
  | k + 1, bs =>
    match wholeInstr d 15 d bs with
    | some n => if n ≤ 15 && n ≤ bs.length then n + stageBytes d k (bs.drop n) else 0
    | none => 0

/-! ### Running what was decoded -/

/-- MOV SS and POP SS (60_exceptions.md R646): 8E with SS in the reg field, and 17. -/
def loadsSs (twoByte : Bool) (b : Byte) (modRm : Option Byte) : Bool :=
  !twoByte && (b == 0x17#8 || (b == 0x8E#8 && (modRm.map regField) == some 2#3))

/-- The 80386 instructions without a row. IRET, INT 3, INTO, CLI and STI are as the rules say (60_exceptions.md R623, R626, R646,
R647); the others are what `Base386` gives (00_scope.md R8; log 7). After MOV SS and POP SS interrupts, NMI and debug traps wait for
one instruction (R646). -/
def runBase386 (twoByte : Bool) (b : Byte) (modRm : Option Byte) (s : State) : Host.Outcome State Fault Refusal :=
  match twoByte, b.toNat with
  | false, 0xCF =>
    run (do
      lockable false
      if s.v86 && s.vme then refuse .vmeUndisclosed
      iret s.decodeCtx.os) s
  | false, 0xCC =>
    run (do
      lockable false
      raise (softwareInterrupt 3)) s
  | false, 0xCE =>
    run (do
      lockable false
      if s.eflags.getLsbD 11 then raise (softwareInterrupt 4)) s
  | false, 0xFA =>
    run (do
      lockable false
      ifPermission
      modify fun t => { t with eflags := setBit t.eflags 9 false }) s
  | false, 0xFB =>
    runWith (do
        lockable false
        ifPermission
        modify fun t => { t with eflags := setBit t.eflags 9 true })
      (fun t => { t.complete none with shadow := true }) s
  | _, _ =>
    runWith (if s.dec.lock then lockBase twoByte b modRm else base386 (.opcode twoByte b modRm))
      (fun t => { t.complete (if s.dec.lock then none else t.lastIo) with
        shadow := loadsSs twoByte b modRm, ssShadow := loadsSs twoByte b modRm }) s

/-- Run what was decoded. -/
def runDecoded (d : Dec Instr) (s : State) : Host.Outcome State Fault Refusal :=
  match d with
  | .ok i _ => exec i s
  | .more => run (raise (generalProtection 0)) s
  | .illegal => run (raise invalidOpcode) s
  | .base386 t b m => runBase386 t b m s
  | .extra p => .next (s.latchExtra p)

/-- Fetch, decode and run one instruction or one prefix byte. -/
def runInstr (s : State) : Host.Outcome State Fault Refusal :=
  match fetchDecode 15 [] s.begin with
  | .ok (d, n) t => runDecoded d (t.advance n)
  | .error (.exc e) t => except s.begin e t
  | .error r t => stopped s.begin r t

/-! ### Placing an instruction (log 2) -/

/-- One byte stored where a fetch reads it: in the memory behind the bus, and in the line that holds it. -/
def State.placeByte (s : State) (a : Addr) (b : Byte) : State :=
  let c := s.memCtx
  let bus := s.bus.setPhysByte c a b
  { s with
    bus :=
      match bus.cache.lookup c.big a with
      | some w => { bus with cache := bus.cache.writeHit c.big a w ((bus.cache.entry (setOf c.big a)).way w).st [b] }
      | none => bus }

/-- Bytes stored where the next instruction is read, the first `k` places on. -/
def State.placeBytes (s : State) (k : Nat) : List Byte → State
  | [] => s
  | b :: bs =>
    State.placeBytes (s.placeByte (maskA20 s.memCtx (s.segs.cs.base + s.codeOffset k)) b) (k + 1) bs

/-- An instruction's bits stored at CS:EIP with the prefetch queue empty, or a bus cycle's at the head of the bus unit's
requests. -/
def State.placeWord (s : State) (nbits w : Nat) : State :=
  let placed := s.placeBytes 0 (tableBytes nbits w)
  let bytes := { placed with bus := { placed.bus with fetchq := .empty } }
  match decode DecodeCtx.reset (tableBytes nbits w) with
  | .ok _ _ => bytes
  | _ =>
    match decodeBus w with
    | some i => { s with bus := { s.bus with queue := .row i :: s.bus.queue } }
    | none => bytes

end Sys2Proof.Machine
end

