-- ==== Sys2Proof/Machine/Events.lean ====
section
/-! DEFINITION. What happens between instructions: inputs (40_signal_interface.md R325), snoops (41_cache_operations.md R375,
45_family_variants.md R586), clocks of the bus (42_bus_transactions.md R460, R461), the prefetcher (20_memory.md R184), interrupts in
their priority (60_exceptions.md R645), and clock control (R700 to R707). -/

set_option Elab.async false

namespace Sys2Proof.Machine

/-- Run something between instructions; a wait leaves the state as it was, with BREQ asserted (40_signal_interface.md R285). -/
def runEvent (m : M Unit) (s : State) : Host.Outcome State Fault Refusal :=
  match m s with
  | .ok () t => .next { t with busWanted := false }
  | .error .stall _ => .next { s with busWanted := true }
  | .error r t => stopped s r t

/-! ### Snoops -/

/-- The clock state once a snoop is taken: from Stop Grant and Auto HALT Power Down the processor passes through Stop Clock Snoop
(60_exceptions.md R706, R707; 45_family_variants.md R592). -/
def State.snooping (s : State) : State :=
  if s.clock = .stopGrant ∨ s.clock = .autoHaltPowerDown then { s with clock := .stopClockSnoop, snoopReturn := s.clock } else s

/-- A snoop (41_cache_operations.md R375, R379): taken only while the address bus is floated. With an upgrade processor present nothing
happens (70_reset_and_hazards.md R744). -/
def State.snoop (s : State) (line : BitVec 28) (inv : Bool) : State :=
  if s.addrFloated && !s.latch.upgradePresent then { s with bus := s.bus.snoop s.memCtx line inv }.snooping else s

/-! ### The prefetcher -/

/-- The prefetcher reads ahead (00_scope.md R13, 20_memory.md R184; log 27), from CS:EIP, or from the first byte of the instruction begun,
on: the running instruction and two after it stand in the decode stages, and the prefetch queue goes on behind them. It raises nothing: past the code segment's limit, on a page fault or without the bus it does nothing; it rests
while the processor does, and while a data access waits (42_bus_transactions.md R462). -/
def State.readAhead (s : State) : Host.Outcome State Fault Refusal :=
  let off := s.begin.dec.start
  if s.halted || s.shutdown || s.clock != .normal || s.latch.upgradePresent || s.busWanted || !s.bus.queue.isEmpty
      || !s.segs.cs.inLimit false off 1 then .next s
  else
    match prefetchAhead s.memCtx (s.pageCtx (s.level == 3)) (s.segs.cs.base + off) (s.segs.cs.limit.toNat + 1 - off.toNat)
        (stageBytes { s with dec := Decoding.idle }.decodeCtx 3) s.bus with
    | .ok () b => .next { s with bus := b }
    | .error (.reset r) b => .next ({ s with bus := b }.applyReset r)
    | .error _ _ => .next s

/-! ### Inputs -/

/-- Whether an input may change while CLK is stopped (60_exceptions.md R703, U16): INTR, NMI, SMI#, CLK itself, a reset; what
the environment does to itself is no input. -/
def Input.clockFree : Input → Bool
  | .intr _ _ | .nmi | .smi | .restoreClk | .reset _ _ _ | .sreset | .masterWrite _ _ _ | .ioData _ | .platform _ | .script _ => true
  | .stpclk _ | .flush _ | .a20m _ | .ignne _ | .hold _ | .ahold _ | .boff _ | .snoop _ _ | .removeClk | .busClock _ | .prefetch =>
    false

/-- The bus unit before a clock: HOLD, AHOLD and BOFF# have been sampled as their events have left them (log 17), so that a snoop in the
first clock after such an event is taken (40_signal_interface.md R291, R325). -/
def State.heldBus (s : State) : Bus :=
  { s.bus with heldHold := s.bus.heldHold || s.pins.hold, heldAddr := s.bus.heldAddr || s.pins.ahold || s.pins.boff }

/-- The pins of a clock: a level that an event has asserted stays until another deasserts it (log 17). -/
def State.levels (s : State) (k : ClockIn) : ClockIn :=
  { k with hold := k.hold || s.pins.hold, ahold := k.ahold || s.pins.ahold, boff := k.boff || s.pins.boff }

/-- One clock of the bus between instructions, with the snoop it may take; a reset sampled in it follows. What the clock itself asserts
stays in the bus unit, what an event has asserted in `pins`. -/
def State.busClock (s : State) (k : ClockIn) : State :=
  if s.latch.upgradePresent then
    match k.resets s.part.hasSL with
    | some r => s.applyReset r
    | none => s
  else
    let b := s.heldBus.clock s.memCtx true false (s.levels k)
    let t := { s with bus := { b with heldHold := k.hold, heldAddr := k.ahold || k.boff } }
    let t := if s.heldBus.takesSnoop k then t.snooping else t
    match k.resets s.part.hasSL with
    | some r => t.applyReset r
    | none => t

/-- One input event. An NMI or SMI# edge is latched at once, also while CLK is stopped, though nothing is served before CLK is back: the
model's choice (60_exceptions.md R703, log 17). The pins of a part without SL technology do nothing. Another master's write goes where the event says, to SMRAM
or to main memory (D23, log 16). -/
def applyInput (e : Input) (s : State) : Host.Outcome State Fault Refusal :=
  if s.clock = .stopClock && !e.clockFree then .refused .inputWhileClockStopped
  else
    match e with
    | .intr l v => .next { s with pins := { s.pins with intr := l, intVector := v } }
    | .nmi => .next { s with pend := { s.pend with nmi := true } }
    | .smi =>
      if !s.part.hasSL then .next s
      else if s.inSMM then .next { s with smiLatched := true }
      else .next { s with pend := { s.pend with smi := true } }
    | .stpclk l => .next (if s.part.hasSL then { s with pins := { s.pins with stpclk := l } } else s)
    | .flush l => .next { s with pins := { s.pins with flush := l }, pend := { s.pend with flush := s.pend.flush || l } }
    | .a20m l => .next { s with pins := { s.pins with a20m := l } }
    | .ignne l => .next { s with pins := { s.pins with ignne := l } }
    | .hold l => .next { s with pins := { s.pins with hold := l } }
    | .ahold l => .next { s with pins := { s.pins with ahold := l } }
    | .boff l => .next { s with pins := { s.pins with boff := l } }
    | .snoop line inv => .next (s.snoop line inv)
    | .reset up wbwt m => .next (s.resetPin up wbwt m)
    | .sreset => .next (s.applyReset .soft)
    | .removeClk => if s.clock = .stopGrant then .next { s with clock := .stopClock } else .refused .clkRemoved
    | .restoreClk => .next (if s.clock = .stopClock then { s with clock := .stopGrant } else s)
    | .masterWrite sm a b => .next { s with bus := s.bus.masterWrite s.memCtx sm a b }
    | .ioData d => .next { s with bus := { s.bus with ioIn := s.bus.ioIn ++ [d] } }
    | .platform p => .next { s with platform := p }
    | .busClock k => .next (s.busClock k)
    | .script ks => .next { s with bus := { s.bus with script := s.bus.script ++ ks } }
    | .prefetch => s.readAhead

/-! ### Events at an instruction boundary -/

/-- An exception of its own between instructions: the next instruction is where it returns to (60_exceptions.md R627). -/
def takeEvent (e : Exc) : M Unit := do
  modify fun s => { s with dec := { s.dec with start := s.eip } }
  takeExc e

/-- The status that a debug trap leaves in DR6: the data breakpoints hit, BS for a single step and BT for a task switch
(60_exceptions.md R637; log 29, 32). -/
def State.trapStatus (s : State) : DWord := setBit (setBit (s.dbgHits.setWidth 32) 14 s.trapPending) 15 s.taskTrap

/-- The trap of a single step, of data breakpoints or of a task switch (60_exceptions.md R637). -/
def takeTrap : M Unit := do
  let s ← get
  modify fun s => { s with dbgHits := 0, trapPending := false, taskTrap := false }
  takeEvent (debugTrap s.trapStatus)

/-- The instruction breakpoints at the next instruction (60_exceptions.md R637; log 32). -/
def State.codeHits (s : State) : BitVec 4 := s.breakHits (· == 0) (s.segs.cs.base + s.codeOffset 0) 1

/-- An instruction breakpoint: a fault before the instruction (60_exceptions.md R637; log 32). -/
def takeBreak : M Unit := do
  let s ← get
  takeEvent (debugFault (s.codeHits.setWidth 32))

/-- NMI (60_exceptions.md R622). -/
def takeNmi : M Unit := do
  modify fun s => { s with pend := { s.pend with nmi := false }, halted := false, shutdown := false, inNmi := true }
  takeEvent (externalInterrupt 2)

/-- INTR (60_exceptions.md R621): the acknowledge cycles bring the vector. -/
def takeIntr : M Unit := do
  bus fun c => do
    needBus c
    drainBuffers c
    transact c false (ackXfers c.vector)
  modify fun s => { s with halted := false }
  let s ← get
  takeEvent (externalInterrupt s.bus.vector)

/-- FLUSH# (41_cache_operations.md R382, 45_family_variants.md R589). -/
def serviceFlush : M Unit := do
  let s ← get
  if s.wbMode then
    writeBackModified
    flushCache
    firstFlushAckSpecial s.part
    secondFlushAckSpecial s.part
  else flushCache
  modify fun s => { s with pend := { s.pend with flush := false } }

/-- STPCLK# recognised (60_exceptions.md R700, R705). -/
def enterStopGrant : M Unit := do
  clearFetch
  drain
  stopGrantSpecial
  modify fun s => { s with clock := .stopGrant }

/-- A debug trap is due (60_exceptions.md R637). -/
def State.trapDue (s : State) : Bool := s.trapPending || s.taskTrap || s.dbgHits != 0

/-- An NMI is pending that nothing but MOV SS or POP SS can hold off (60_exceptions.md R622, R646). -/
def State.nmiDue (s : State) : Bool := s.pend.nmi && !s.nmiBlocked && !s.inNmi

/-- A wake event of the halt state (60_exceptions.md R705): one that can be served. -/
def State.wakes (s : State) : Bool := (s.pins.intr && s.if_) || s.nmiDue || s.pend.smi

/-- STPCLK# deasserted (60_exceptions.md R702, R705): back to the halt state with a halt special cycle, or on. -/
def leaveStopGrant : M Unit := do
  let s ← get
  if s.halted && !s.wakes then
    haltSpecial
    modify fun s => { s with clock := .autoHaltPowerDown }
  else modify fun s => { s with clock := .normal }

/-- FLUSH# held active empties the cache at every boundary (41_cache_operations.md R382). On a DX2WB in write-back mode the modified
lines are written back first and no flush acknowledge cycles run again: the model's choice (log 42). -/
def heldFlush : M Unit := do
  let s ← get
  if s.pins.flush then
    if s.wbMode && !(s.bus.cache.modified s.part.bigCache).isEmpty then writeBackModified
    flushCache

/-- STPCLK# comes after every interrupt request and trap that is pending, one that STI or MOV SS has deferred among them
(60_exceptions.md R645, R646, R700). -/
def State.stpclkDue (s : State) : Bool :=
  s.pins.stpclk && s.part.hasSL && !s.hlda && !(s.pins.intr && s.if_) && !(s.ssShadow && (s.trapDue || s.nmiDue))

/-- The event recognised at an instruction boundary (60_exceptions.md R645): a trap of the instruction just finished, FLUSH#,
SMI#, NMI, INTR, STPCLK#; a halted, shut-down or frozen processor does nothing else; then an instruction breakpoint; none means that
an instruction runs. An NMI ends a shutdown whatever blocks it else (R641, U20); STPCLK# waits until a shutdown has ended: the model's
choice (log 51). An instruction breakpoint at the instruction after MOV SS or POP SS is neither taken nor kept for later, though R646 speaks
of debug traps and it is a fault: the model's choice (log 32). -/
def boundaryEvent (s : State) : Option (M Unit) :=
  if s.trapDue && !s.ssShadow then some takeTrap
  else if s.pend.flush then some serviceFlush
  else if s.pend.smi && s.part.hasSL && !s.inSMM && !s.shutdown then some (enterSmm s.lastIo)
  else if (s.pend.nmi && s.shutdown) || (s.nmiDue && !s.ssShadow) then some takeNmi
  else if s.shutdown then some (pure ())
  else if s.pins.intr && s.if_ && !s.shadow then some takeIntr
  else if s.stpclkDue then some enterStopGrant
  else if s.halted || s.frozen then some (pure ())
  else if s.codeHits != 0 && !s.rf && !s.ssShadow then some takeBreak
  else none

/-- The rest of a row of exceptions, each raised by the delivery of the one before (60_exceptions.md R636; log 28). -/
def takeSerial (e : Exc) : M Unit := do
  modify fun s => { s with serial := none }
  takeExc e

/-- One instruction, or the event recognised before it, where no exception is left to deliver. -/
def boundary (s : State) : Host.Outcome State Fault Refusal :=
  if s.dec.active then runInstr s
  else
    match heldFlush s with
    | .ok () t =>
      match boundaryEvent t with
      | some m => runEvent m t
      | none => runInstr t
    | .error .stall _ => .next { s with busWanted := true }
    | .error r t => stopped s r t

/-- The processor's step: the exception left over from the step before; else an instruction or an event. -/
def proceed (s : State) : Host.Outcome State Fault Refusal :=
  match s.serial with
  | some e => runEvent (takeSerial e) s
  | none => boundary s

/-- The processor in its clock state (60_exceptions.md R707, 45_family_variants.md R592). A trap that is due comes before a FLUSH# in Auto
HALT Power Down too (60_exceptions.md R645). -/
def stepClocked (s : State) : Host.Outcome State Fault Refusal :=
  match s.clock with
  | .stopClock => .next s
  | .stopClockSnoop => .next (if s.hitm then s else { s with clock := s.snoopReturn })
  | .stopGrant => if s.pins.stpclk then .next s else runEvent leaveStopGrant s
  | .autoHaltPowerDownFlush =>
    runEvent (do
      serviceFlush
      modify fun s => { s with clock := .autoHaltPowerDown }) s
  | .autoHaltPowerDown =>
    if s.wbMode && s.pend.flush && !(s.trapDue && !s.ssShadow) then .next { s with clock := .autoHaltPowerDownFlush }
    else proceed s
  | .normal => proceed s

/-- The oldest request of the bus unit, run whole (45_family_variants.md R586; log 2). -/
def runRequest (q : BusReq) (s : State) : Host.Outcome State Fault Refusal :=
  match q with
  | .row i => exec i s
  | .writeBack line d => runEvent (bus fun c => transact c false [writeBackXfer line d true]) s

/-- Buffered writes reach the bus when it is free and not granted away (20_memory.md R170, 42_bus_transactions.md R455; log 11). -/
def State.settle (s : State) : State :=
  if s.busFree && !s.bus.heldHold && !s.bus.heldAddr && !s.platform.lazyBus && !s.bus.wb.isEmpty then
    match drain s with
    | .ok () t => t
    | .error (.reset r) t => t.applyReset r
    | .error _ t => t
  else s

def settleOutcome : Host.Outcome State Fault Refusal → Host.Outcome State Fault Refusal
  | .next s => .next s.settle
  | .fault f => .fault f
  | .refused r => .refused r

/-- One step of the machine: an input event; else nothing, with an upgrade processor present (70_reset_and_hazards.md R744);
else a request of the bus unit; else the processor. -/
def stepMachine (s : State) : Host.Outcome State Fault Refusal :=
  match s.inputs with
  | e :: rest => applyInput e { s with inputs := rest }
  | [] =>
    if s.latch.upgradePresent then .next s
    else
      match s.bus.queue with
      | q :: rest =>
        if s.busFree && s.clock != .stopClock then runRequest q { s with bus := { s.bus with queue := rest } }
        else settleOutcome (stepClocked s)
      | [] => settleOutcome (stepClocked s)

end Sys2Proof.Machine
end

