-- ==== Sys2Proof/Machine/Step.lean ====
section
/-! DEFINITION. The step, and where it fetches its next instruction (log 2). -/

set_option Elab.async false

namespace Sys2Proof.Machine

/-- One step of the machine. -/
def step (s : State) : Host.Outcome State Fault Refusal := stepMachine s

/-- The state with an instruction stored where the next step fetches it: its bytes at CS:EIP (paging off) with the prefetch
queue empty, or a bus cycle as the next request of the bus unit (log 2). -/
def State.withFetchWord (s : State) (nbits w : Nat) : State := s.placeWord nbits w

end Sys2Proof.Machine
end

