-- ==== Sys2Proof/Safety.lean ====
section
/-! DEFINITION. The terms the statements are written in: what an access needs in order to complete, what it leaves alone, and
the invariants of the machine. -/

set_option Elab.async false

namespace Sys2Proof.Machine

/-! ### What an access leaves alone -/

/-- The bus unit but for memory, the cache, the write buffers, what reads bring (data latch, line-fill buffer, PCHK#) and the record
of cycles: prefetch queue, TLB, requests, interrupt vector, what the environment will do, free values drawn. -/
structure Bus.SameControl (b b' : Bus) : Prop where
  fetchq : b'.fetchq = b.fetchq
  tlb : b'.tlb = b.tlb
  phase : b'.phase = b.phase
  cur : b'.cur = b.cur
  queue : b'.queue = b.queue
  vector : b'.vector = b.vector
  ioIn : b'.ioIn = b.ioIn
  script : b'.script = b.script
  heldHold : b'.heldHold = b.heldHold
  heldAddr : b'.heldAddr = b.heldAddr
  draws : b'.draws = b.draws

/-- What memory will hold of a byte once the write buffers are empty: the newest buffered byte, else memory's. -/
def Bus.memView (b : Bus) (c : MemCtx) (a : Addr) : Byte := (wbByte a b.wb).getD (b.physByte c a)

/-- The doubleword at an address as the processor sees it. -/
def Bus.word (b : Bus) (c : MemCtx) (a : Addr) : DWord := b.view c (a + 3) ++ b.view c (a + 2) ++ b.view c (a + 1) ++ b.view c a

/-- What a locked access finds on the bus at a byte is what the processor sees: no modified line holds it, and no other line differs
there from what memory will hold. -/
def Bus.CleanByte (b : Bus) (c : MemCtx) (a : Addr) : Prop :=
  (∀ w, b.cache.lookup c.big a = some w → ((b.cache.entry (setOf c.big a)).way w).st ≠ .modified)
    ∧ b.view c a = b.memView c a

/-- The newest bus cycles are the reads and the writes of these doublewords, the newest doubleword first, LOCK# asserted in each
(42_bus_transactions.md R440). -/
def Bus.lastUpdates (b : Bus) (as : List (BitVec 30)) : Prop :=
  ∃ cs older, b.trace = cs ++ older
    ∧ cs.map (fun x => (x.kind, x.lock, x.addr)) = as.flatMap fun a => [(.memWrite, true, a), (.memRead, true, a)]

/-- The processor sees every byte as before, the memories keep their form, and the bus unit's control state stays. -/
structure Bus.Quiet (c : MemCtx) (b b' : Bus) : Prop where
  wf : b.memWf = true → b'.memWf = true
  control : Bus.SameControl b b'
  view : ∀ x, b'.view c x = b.view c x

/-- The processor sees the bytes `bs` at the addresses `at_ 0`, `at_ 1`, …, every other byte as before, and the bus unit's
control state stays. -/
structure Bus.Stored (c : MemCtx) (b : Bus) (at_ : Nat → Addr) (bs : List Byte) (b' : Bus) : Prop where
  wf : b'.memWf = true
  control : Bus.SameControl b b'
  written : ∀ i, i < bs.length → b'.view c (at_ i) = bs.getD i 0
  others : ∀ x, (∀ i, i < bs.length → x ≠ at_ i) → b'.view c x = b.view c x

/-! ### What an access needs -/

/-- A bus cycle may start, the environment answers as the platform says (log 41), and the memories are in canonical form. -/
structure State.BusReady (s : State) : Prop where
  bus : s.busFree = true
  script : s.bus.script = []
  wf : s.bus.memWf = true

/-- Paging is off and the bus is ready. -/
structure State.Flat (s : State) : Prop where
  pg : s.pg = false
  ready : s.BusReady

/-- The physical address of byte `i` of a data operand with paging off (20_memory.md R155, R188). -/
def State.dataAddr (s : State) (seg : SegReg) (off : DWord) (i : Nat) : Addr :=
  maskA20 s.memCtx ((s.segs.get seg).base + off + BitVec.ofNat 32 i)

/-- The segment admits the access: in protected mode its rights allow it, and it lies within the limit (20_memory.md R157). -/
def State.segAdmits (s : State) (seg : SegReg) (off : DWord) (n : Nat) (write : Bool) : Prop :=
  (s.prot = true → (s.segs.get seg).rightsAllow write = true) ∧ (s.segs.get seg).inLimit s.prot off n = true

/-- The alignment check passes (20_memory.md R148). -/
def State.aligned (s : State) (lin : Addr) (n : Nat) : Prop :=
  s.am = true → s.ac = true → s.level = 3 → (n = 2 ∨ n = 4 ∨ n = 8) → lin.toNat % n = 0

/-- A data access of `n` bytes faults on nothing and hits no data breakpoint (60_exceptions.md R637). -/
structure State.Admits (s : State) (seg : SegReg) (off : DWord) (n : Nat) (write : Bool) : Prop where
  segment : s.segAdmits seg off n write
  align : s.aligned ((s.segs.get seg).base + off) n
  unwatched : s.dataHits ((s.segs.get seg).base + off) n write = 0

/-- The same for an operand moved in pieces of these sizes (20_memory.md R151). -/
structure State.AdmitsPieces (s : State) (seg : SegReg) (off : DWord) (ns : List Nat) (write : Bool) : Prop where
  segment : s.segAdmits seg off ns.sum write
  align : ∀ k, k < ns.length →
    s.aligned ((s.segs.get seg).base + off + BitVec.ofNat 32 (ns.take k).sum) (ns.getD k 0)
  unwatched : s.dataHits ((s.segs.get seg).base + off) ns.sum write = 0

/-- A read fills no line: the cache is disabled, or holds every byte of the operand (20_memory.md R168). -/
def State.NoFill (s : State) (seg : SegReg) (off : DWord) (n : Nat) : Prop :=
  s.cd = true ∨ ∀ i, i < n → (s.bus.cache.lookup s.part.bigCache (s.dataAddr seg off i)).isSome = true

/-- The state of the line that holds an address, if one does. -/
def Cache.stateAt (c : Cache) (big : Bool) (a : Addr) : Option Mesi :=
  (c.lookup big a).map fun w => ((c.entry (setOf big a)).way w).st

/-- What a locked read finds on the bus is what the processor sees: no modified line holds a byte of the operand, and no other
line differs there from what memory will hold. -/
def State.Clean (s : State) (seg : SegReg) (off : DWord) (n : Nat) : Prop :=
  ∀ i, i < n → Cache.stateAt s.bus.cache s.part.bigCache (s.dataAddr seg off i) ≠ some .modified
    ∧ s.view (s.dataAddr seg off i) = s.bus.memView s.memCtx (s.dataAddr seg off i)

/-- What the read half of a read-modify-write needs, locked or not. -/
def State.RmwReady (s : State) (seg : SegReg) (off : DWord) (n : Nat) (lock : Bool) : Prop :=
  if lock then s.Clean seg off n else s.NoFill seg off n

/-- The bytes of a data operand as the processor sees them, the lowest address first. -/
def State.seenBytes (s : State) (seg : SegReg) (off : DWord) (n : Nat) : List Byte :=
  (List.range n).map fun i => s.view (s.dataAddr seg off i)

/-! ### Instructions -/

/-- No prefix that the instruction would refuse. -/
def State.noLock (s : State) : Prop := s.dec.lock = false

/-- The flags of `fl` outside the six status flags are those of `fl'`. -/
def sameOtherFlags (fl fl' : DWord) : Prop := fl &&& ~~~statusMask = fl' &&& ~~~statusMask

/-- No debt before a bus cycle that must come after every buffered write: the buffers are empty, memory holds what they held, and the
processor sees every byte as before. -/
structure Bus.Drained (c : MemCtx) (b b' : Bus) : Prop where
  wf : b'.memWf = true
  wb : b'.wb = []
  mem : ∀ a, b'.physByte c a = b.memView c a
  view : ∀ a, b'.view c a = b.view c a
  cache : b'.cache = b.cache
  fetchq : b'.fetchq = b.fetchq
  tlb : b'.tlb = b.tlb
  queue : b'.queue = b.queue
  cur : b'.cur = b.cur
  phase : b'.phase = b.phase
  script : b'.script = b.script

/-- The same, and nothing the bus unit controls is touched. -/
structure Bus.DrainedOnly (c : MemCtx) (b b' : Bus) : Prop where
  drained : Bus.Drained c b b'
  control : Bus.SameControl b b'

/-- The newest bus cycle is the special cycle with these byte enables and this address (30_encoding.md R231). -/
def Bus.lastSpecial (b : Bus) (be : BitVec 4) (addr : BitVec 30) : Prop :=
  ∃ c rest, b.trace = c :: rest ∧ c.kind = .special ∧ c.be = be ∧ c.addr = addr

/-- Where a port's bytes lie in its doubleword. -/
def portLane (port : Word) : Nat := port.toNat % 4

/-- An I/O write of these bytes at a port, within one doubleword: its address, the lanes it moves and the data on them
(42_bus_transactions.md R422, 20_memory.md R146). -/
def isIoWrite (port : Word) (bs : List Byte) (addr : BitVec 30) (lanes : BitVec 4) (data : DWord) : Prop :=
  addr = (port.extractLsb' 2 14).setWidth 30 ∧ lanes = BitVec.ofNat 4 (2 ^ bs.length - 1) <<< portLane port
    ∧ data.extractLsb' (8 * portLane port) (8 * bs.length) = ofBytes (8 * bs.length) bs

/-- The newest bus cycle is that I/O write. -/
def Bus.lastIoWrite (b : Bus) (port : Word) (bs : List Byte) : Prop :=
  ∃ c rest, b.trace = c :: rest ∧ c.kind = .ioWrite ∧ isIoWrite port bs c.addr (~~~c.be) c.data

/-- The newest buffered write is that I/O write (20_memory.md R176). -/
def Bus.lastBufferedOut (b : Bus) (port : Word) (bs : List Byte) : Prop :=
  ∃ older e, b.wb = older ++ [e] ∧ e.io = true ∧ isIoWrite port bs e.addr e.lanes e.data

/-- I/O needs no permission from the TSS: in SMM, in real mode, and where IOPL admits the level outside virtual-8086 mode
(44_instructions_referenced.md R525, 60_exceptions.md R665). -/
def State.ioPermitted (s : State) : Prop := s.inSMM = true ∨ s.pe = false ∨ (s.level ≤ s.iopl ∧ s.vm = false)

/-- OUTSB, OUTSW and OUTSD with their number of bytes (44_instructions_referenced.md R530). -/
def OutsForm (i : Instr) (n : Nat) (seg : SegReg) (as : AddrSize) : Prop :=
  (i = .outsb seg as ∧ n = 1) ∨ ∃ os, i = .outswd os seg as ∧ n = OpSize.bytes os

/-- A register at an address size: its low half, or all of it (30_encoding.md R226). -/
def atSize (as : AddrSize) (v : DWord) : DWord :=
  match as with
  | .a16 => v &&& 0xFFFF#32
  | .a32 => v

/-- (E)SI after one OUTS of `n` bytes (44_instructions_referenced.md R530): up, or down with DF; the 16-bit form keeps the upper
half. -/
def outsNext (as : AddrSize) (df : Bool) (esi : DWord) (n : Nat) : DWord :=
  match as with
  | .a16 => esi.extractLsb' 16 16 ++ (if df then esi.setWidth 16 - BitVec.ofNat 16 n else esi.setWidth 16 + BitVec.ofNat 16 n)
  | .a32 => if df then esi - BitVec.ofNat 32 n else esi + BitVec.ofNat 32 n

/-- (E)CX counted down by one (44_instructions_referenced.md R531). -/
def countDown (as : AddrSize) (ecx : DWord) : DWord :=
  match as with
  | .a16 => ecx.extractLsb' 16 16 ++ (ecx.setWidth 16 - 1#16)
  | .a32 => ecx - 1

/-- In virtual-8086 mode PUSHF and POPF need IOPL 3 and no extension (log 21, 31). -/
def State.flagsMove (s : State) : Prop := s.v86 = true → s.vme = false ∧ s.iopl = 3

/-- A floating-point instruction may run: the unit is there, EM and TS are clear (60_exceptions.md R634), and no error stops it:
none is pending, IGNNE# ignores it, or the form does not wait (60_exceptions.md R635). -/
structure State.FpuReady (s : State) (noWait : Bool) : Prop where
  fpu : s.part.hasFPU = true
  em : s.em = false
  ts : s.ts = false
  error : noWait = true ∨ s.fpErrorPending = false ∨ (s.ne = false ∧ s.pins.ignne = true)

/-- What `Fpu387` gives for an escape in a state (44_instructions_referenced.md R540), with the bytes it read. -/
def State.fpuResult (s : State) (os : OpSize) (op reg : BitVec 3) (rm : Option (BitVec 3)) (bs : List Byte) : FpuResult :=
  Config.fpu387 ⟨s.prot, os == .w32, op, reg, rm, bs, s.fpu⟩

/-- The state after an escape with a register operand that leaves the registers `f` (10_state.md R65, R66): the pointers are those of
the instruction, and an error is pending if an unmasked exception flag is set. -/
def State.escReg (s : State) (op reg r : BitVec 3) (f : Fpu) : State :=
  let f' := { f with ipSel := s.segs.cs.sel, ip := s.dec.start, opcode := op ++ (3#2 ++ reg ++ r) }
  { s with fpu := f', fpErrorPending := f'.status.extractLsb' 0 6 &&& ~~~(f'.control.extractLsb' 0 6) != 0 }

/-- The same with a memory operand. -/
def State.escMem (s : State) (op reg : BitVec 3) (m : MemOp) (f : Fpu) : State :=
  let f' := { f with
    ipSel := s.segs.cs.sel, ip := s.dec.start, opcode := escOpcode op reg (.mem m)
    dpSel := (s.segs.get m.seg).sel, dp := eaOffset s.regs m.ea }
  { s with fpu := f', fpErrorPending := f'.status.extractLsb' 0 6 &&& ~~~(f'.control.extractLsb' 0 6) != 0 }

/-- An escape with a memory operand done, `res` being what `Fpu387` gave: after FNSTENV and FNSAVE no error is pending
(40_signal_interface.md R300). -/
def State.escDone (s : State) (op reg : BitVec 3) (m : MemOp) (res : FpuResult) : State :=
  if fpuOp op reg (.mem m) = .storeState then { s.escMem op reg m res.fpu with fpErrorPending := false }
  else s.escMem op reg m res.fpu

end Sys2Proof.Machine

namespace Sys2Proof

/-- The instructions that refuse LOCK (44_instructions_referenced.md R536): all but XADD, CMPXCHG and XCHG with a memory operand,
the prefixes and the bus cycles. -/
def Instr.refusesLock : Instr → Bool
  | .xaddRm8R8 (.mem _) _ | .xaddRmR _ (.mem _) _ | .cmpxchgRm8R8 (.mem _) _ | .cmpxchgRmR _ (.mem _) _
  | .xchgRm8R8 (.mem _) _ | .xchgRmR _ (.mem _) _ => false
  | .lockPrefix | .repPrefix | .opSizePrefix | .addrSizePrefix => false
  | i => !i.isBusCycle

/-- The instructions that need level 0 (60_exceptions.md R649). -/
def Instr.isPrivileged : Instr → Bool
  | .invd | .wbinvd | .invlpg _ | .hlt | .movRCr _ _ | .movCrR _ _ | .movRDr _ _ | .movDrR _ _ | .movRTr _ _ | .movTrR _ _ => true
  | _ => false

/-- The instructions that need IOPL 3 in virtual-8086 mode (44_instructions_referenced.md R544, R550; log 21). -/
def Instr.needsIopl : Instr → Bool
  | .intN _ | .pushf _ | .popf _ => true
  | _ => false

end Sys2Proof

namespace Sys2Proof.Machine

/-- A free 32-bit value has been drawn. -/
def Bus.drawn (b : Bus) : Bus := { b with draws := b.draws + 1 }

/-- The processor shut down (60_exceptions.md R641): out of every other wait, no trap and no matched data breakpoint due any more, which is
the model's choice (10_state.md R81, log 51). -/
def State.shutDown (s : State) : State :=
  { s with shutdown := true, halted := false, dec := Decoding.idle, trapPending := false, taskTrap := false, shadow := false
           ssShadow := false, frozen := false, busWanted := false, dbgHits := 0, serial := none
           clock := if s.clock = .autoHaltPowerDown then .normal else s.clock }

/-! ### Exceptions in real mode (60_exceptions.md R625) -/

/-- The offset of the k-th word below the top of a 16-bit stack. -/
def State.below16 (s : State) (k : Nat) : DWord := (s.regs.esp.setWidth 16 - BitVec.ofNat 16 (2 * k)).setWidth 32

/-- Delivery of a vector in real mode meets no fault and fills no line: the vector lies in the interrupt table and three words fit
on the stack. -/
structure State.RealReady (s : State) (v : Byte) : Prop where
  real : s.pe = false
  flat : s.Flat
  uncached : s.cd = true
  vector : 4 * v.toNat + 3 ≤ s.idtr.limit.toNat
  room : ∀ k, 1 ≤ k → k ≤ 3 → s.segs.ss.inLimit false (s.below16 k) 2 = true
  unwatched : ∀ k, 1 ≤ k → k ≤ 3 → s.dataHits (s.segs.ss.base + s.below16 k) 2 true = 0

/-- Where the six bytes of a real-mode delivery go, the lowest first. -/
def State.frameAddr (s : State) (i : Nat) : Addr := s.dataAddr .ss (s.below16 (3 - i / 2)) (i % 2)

/-- A word of the real-mode interrupt table, as the processor sees it with the bus unit `b`. -/
def State.tableWord (s : State) (b : Bus) (off : Nat) : Word :=
  b.view s.memCtx (maskA20 s.memCtx (s.idtr.base + BitVec.ofNat 32 off + 1))
    ++ b.view s.memCtx (maskA20 s.memCtx (s.idtr.base + BitVec.ofNat 32 off))

/-- The state after a real-mode delivery of `e` with the bus unit `b`: SP six lower, IF, TF and AC clear, CS:IP from the table (the limit
of CS that of the mode, 20_memory.md R156), CR2 and DR6 as the exception reports itself, the processor out of every wait. -/
def State.entered (s : State) (e : Exc) (b : Bus) : State :=
  { s.reported e with
    regs := { s.regs with esp := s.regs.esp.extractLsb' 16 16 ++ (s.regs.esp.setWidth 16 - 6#16) }
    eflags := s.eflags &&& 0xFFFBFCFF#32
    eip := (s.tableWord b (4 * e.vector.toNat)).setWidth 32
    segs := { s.segs with cs := { s.segs.cs with
      sel := s.tableWord b (4 * e.vector.toNat + 2)
      base := (s.tableWord b (4 * e.vector.toNat + 2)).setWidth 32 <<< 4
      limit := s.realLimit } }
    dec := Decoding.idle, halted := false, trapPending := false, shadow := false, ssShadow := false, frozen := false
    busWanted := false, lastIo := none
    clock := if s.clock = .autoHaltPowerDown then .normal else s.clock
    bus := { b with fetchq := .empty } }

/-- The bytes a real-mode delivery pushes, the lowest first: return offset, CS, flags. -/
def State.frameBytes (s : State) (pc : DWord) : List Byte := toBytes 2 pc ++ toBytes 2 s.segs.cs.sel ++ toBytes 2 s.eflags

/-! ### System management mode -/

/-- Byte `k` of the state-save map of an SMBASE as the processor sees it (60_exceptions.md R661). -/
def State.mapByte (s : State) (smbase : DWord) (k : Nat) : Byte := s.view (maskA20 s.memCtx (smmAddr smbase k))

/-- The 512 bytes of the state-save map as the processor sees them. -/
def State.mapImage (s : State) : List Byte := (List.range 512).map (s.mapByte s.smbase)

/-- The state that RSM leaves of a state-save map before its restart slots act (60_exceptions.md R661, R680, R684): the registers from their
slots, what the map has no place for from where SMM entry kept it (log 22), SMM left, with the bus unit `b`, the prefetch queue empty. -/
def State.returned (s : State) (img : List Byte) (b : Bus) : State :=
  let h := s.smmHidden.getD s.hidden
  { s with
    regs := { eax := at32 img 0x1D0, ecx := at32 img 0x1D4, edx := at32 img 0x1D8, ebx := at32 img 0x1DC
              esp := at32 img 0x1E0, ebp := at32 img 0x1E4, esi := at32 img 0x1E8, edi := at32 img 0x1EC }
    eip := at32 img 0x1F0, eflags := normFlags s.part (at32 img 0x1F4)
    cr3 := normCr3 (at32 img 0x1F8), cr0 := normCr0 (at32 img 0x1FC), cr4 := imageCr4 img
    dr7 := at32 img 0x1C8, dr6 := at32 img 0x1CC
    segs := { es := { h.segs.es with sel := at16 img 0x1A8 }, cs := { h.segs.cs with sel := at16 img 0x1AC }
              ss := { h.segs.ss with sel := at16 img 0x1B0 }, ds := { h.segs.ds with sel := at16 img 0x1B4 }
              fs := { h.segs.fs with sel := at16 img 0x1B8 }, gs := { h.segs.gs with sel := at16 img 0x1BC } }
    ldtr := { h.ldtr with sel := at16 img 0x1C0 }, tr := { h.tr with sel := at16 img 0x1C4 }
    gdtr := h.gdtr, idtr := h.idtr, cpl := h.cpl
    shadow := h.shadow, ssShadow := h.ssShadow, trapPending := h.trapPending, taskTrap := h.taskTrap
    dbgHits := h.dbgHits
    smbase := at32 img 0xF8, inSMM := false, nmiBlocked := false, ioAtSmi := none, haltedAtSmi := false, smmImage := []
    smmHidden := none, smiLatched := false, dec := Decoding.idle, lastIo := none
    bus := { b with fetchq := .empty } }

/-- The registers one iteration of a REP I/O instruction back (60_exceptions.md R675): (E)CX one up, (E)SI or (E)DI back by the step, at the
address size. -/
def Regs.iterationBack (g : Regs) (r : StepBack) : Regs :=
  let half := fun (old : DWord) (v : BitVec 16) => old.extractLsb' 16 16 ++ v
  let count := match r.as with
    | .a16 => half g.ecx (g.ecx.setWidth 16 + 1#16)
    | .a32 => g.ecx + 1
  let back := fun (v : DWord) => match r.as with
    | .a16 => half v (v.setWidth 16 - r.delta.setWidth 16)
    | .a32 => v - r.delta
  if r.dst then { g with ecx := count, edi := back g.edi } else { g with ecx := count, esi := back g.esi }

/-- The I/O instruction before the SMI# is to run again (60_exceptions.md R675): EIP back by its length, a REP one back by one iteration; by a
free length where there was none (70_reset_and_hazards.md R763; log 23). -/
def State.ioRestarted (s : State) (io : Option IoInfo) : State :=
  match io with
  | some i =>
    { s with
      eip := s.eip - i.len
      regs := match i.rep with
        | some r => s.regs.iterationBack r
        | none => s.regs }
  | none => { s with eip := s.eip - Config.freeDWord s.bus.draws, bus := s.bus.drawn }

/-- An SMI# is accepted, the write buffers can drain and the map lies on a 32KB boundary (60_exceptions.md R660). -/
structure State.SmiReady (s : State) : Prop where
  sl : s.part.hasSL = true
  outside : s.inSMM = false
  ready : s.BusReady
  base : s.smbase.extractLsb' 0 15 = 0

/-! ### Steps -/

/-- No input, request, clock state or exception left over comes before the processor; `halt` allows the Auto HALT Power Down state. -/
structure State.Running (s : State) (halt : Bool) : Prop where
  inputs : s.inputs = []
  alone : s.latch.upgradePresent = false
  queue : s.bus.queue = []
  clock : s.clock = .normal ∨ (halt = true ∧ s.clock = .autoHaltPowerDown)
  serial : s.serial = none

/-- At an instruction boundary no trap, FLUSH# or SMI# comes first (60_exceptions.md R645). -/
structure State.BelowSmi (s : State) : Prop where
  boundary : s.dec.active = false
  trap : (s.trapPending = false ∧ s.taskTrap = false ∧ s.dbgHits = 0) ∨ s.ssShadow = true
  flush : s.pend.flush = false ∧ s.pins.flush = false
  smi : s.pend.smi = false ∨ s.part.hasSL = false ∨ s.inSMM = true ∨ s.shutdown = true

/-- No event is recognised before the next instruction (60_exceptions.md R645), or its prefixes have been read already. -/
def State.NoEvent (s : State) : Prop := s.dec.active = true ∨ (boundaryEvent s = none ∧ s.pins.flush = false)

/-- The code bytes read ahead are what the processor sees. -/
def State.FetchFresh (s : State) : Prop := ∀ q ∈ s.bus.fetchq.bytes, q.byte = s.view q.addr

/-- The physical address of byte `k` of the instruction stream with paging off. -/
def State.codeAddr (s : State) (k : Nat) : Addr := maskA20 s.memCtx (s.segs.cs.base + s.codeOffset k)

/-- Only reads of code happened: what is read ahead is fresh, everything else the bus unit controls and every byte the processor
sees is as before. -/
structure Bus.Fetched (c : MemCtx) (b b' : Bus) : Prop where
  wf : b'.memWf = true
  view : ∀ x, b'.view c x = b.view c x
  fresh : ∀ q ∈ b'.fetchq.bytes, q.byte = b'.view c q.addr
  tlb : b'.tlb = b.tlb
  phase : b'.phase = b.phase
  cur : b'.cur = b.cur
  queue : b'.queue = b.queue
  vector : b'.vector = b.vector
  ioIn : b'.ioIn = b.ioIn
  script : b'.script = b.script
  draws : b'.draws = b.draws

/-! ### Invariants -/

/-- The memories are in canonical form (log 6). -/
def MemInv (s : State) : Prop := s.bus.memWf = true

/-- There are four write buffers (10_state.md R76), the prefetch queue has 32 bytes (10_state.md R77, 00_scope.md R9), and the running
instruction and the two in the decode stages have at most fifteen each (30_encoding.md R227). -/
def BufferInv (s : State) : Prop :=
  s.bus.wb.length ≤ 4 ∧ s.bus.fetchq.queue.length ≤ 32 ∧ s.bus.fetchq.stages.length ≤ 3 * 15

/-- Reserved bits read as the spec says and CR0 holds no illegal combination (10_state.md R44, R48, R54, R56, R57). -/
def RegsLegal (p : Part) (eflags cr0 cr3 cr4 : DWord) : Prop :=
  eflags = normFlags p eflags ∧ cr0 = normCr0 cr0 ∧ cr0Illegal cr0 = false ∧ cr3 = normCr3 cr3 ∧ cr4 &&& cr4Reserved = 0

/-- The registers are legal, and so are those that the part gives them at a reset (00_scope.md R21). -/
def RegInv (s : State) : Prop :=
  RegsLegal s.part s.eflags s.cr0 s.cr3 s.cr4
    ∧ RegsLegal s.part s.part.resetState.eflags s.part.resetState.cr0 s.part.resetState.cr3 s.part.resetState.cr4

end Sys2Proof.Machine
end

