-- ==== Sys2Proof/Certificates/Slice0/Obligations.lean ====
section
/-! DEFINITION. The statements for the provers. -/

set_option Elab.async false

open Sys2Proof Sys2Proof.Machine

/-! ### Encoding -/

/-- DECODE AND ENCODE AGREE (30_encoding.md R220 to R229): every instruction that fits a decoding context is read back from
its bytes, whatever follows them. -/
def Obligations.DecodeEncode : Prop :=
  ∀ (c : DecodeCtx) (i : Instr) (rest : List Byte), i.wf c = true → decode c (encode i ++ rest) = .ok i rest

/-- The decoder is exact (30_encoding.md R220, R223, R226): what it gives fits the context it was given, and is no bus cycle; and it
needs every byte of an instruction: a shorter part of an encoding asks for more. -/
def Obligations.DecodeExact : Prop :=
  (∀ (c : DecodeCtx) (bs rest : List Byte) (i : Instr), decode c bs = .ok i rest → i.wf c = true)
  ∧ ∀ (c : DecodeCtx) (i : Instr) (k : Nat), i.wf c = true → k < (encode i).length → decode c ((encode i).take k) = .more

/-- A few words of the opcode table (30_encoding.md R228), read in a 16-bit code segment. -/
def Obligations.DecodeWords : Prop :=
  let c := DecodeCtx.reset
  decode c [0x0F, 0xC9] = .ok (.bswap .w16 .ecx) []
    ∧ decode c [0x0F, 0xC1, 0xD8] = .ok (.xaddRmR .w16 (.reg .eax) .ebx) []
    ∧ decode c [0x0F, 0xB0, 0x0E, 0x34, 0x12] = .ok (.cmpxchgRm8R8 (.mem ⟨.ds, .abs16 0x1234⟩) .cl) []
    ∧ decode c [0x0F, 0x01, 0x7E, 0xFE] = .ok (.invlpg ⟨.ss, .base16 .bp (.short 0xFE)⟩) []
    ∧ decode c [0xA0, 0x25, 0x40] = .ok (.movAlMoffs ⟨.ds, .o16 0x4025⟩) []
    ∧ decode c [0xB4, 0x7F] = .ok (.movR8Imm8 .ah 0x7F) []
    ∧ decode c [0x87, 0x0F] = .ok (.xchgRmR .w16 (.mem ⟨.ds, .base16 .bx .none⟩) .ecx) []
    ∧ decode c [0xE4, 0x61] = .ok (.inAlImm8 0x61) []
    ∧ decode c [0xEB, 0xFE] = .ok (.jmpRel8 .w16 0xFE) []
    ∧ decode c [0x0F, 0x22, 0xC3] = .ok (.movCrR 0 .ebx) []
    ∧ decode c [0xDB, 0xE3] = .ok (.esc .w16 3 4 (.reg 3)) []
    ∧ decode c [0xF3] = .ok .repPrefix []

/-! ### The instructions the 80486 adds -/

/-- BSWAP r32 (43_instructions_new.md R497): the four bytes of the register in reverse order; nothing else changes. -/
def Obligations.Bswap32 : Prop :=
  ∀ (r : Reg) (s : State), s.noLock →
    exec (.bswap .w32 r) s = .next ({ s with
      regs := s.regs.set r ((s.regs.get r).extractLsb' 0 8 ++ (s.regs.get r).extractLsb' 8 8
        ++ (s.regs.get r).extractLsb' 16 8 ++ (s.regs.get r).extractLsb' 24 8) }.complete none)

/-- BSWAP with a 16-bit operand size (43_instructions_new.md R498): the upper 16 bits of the register stay, the low ones take
some value, no exception. -/
def Obligations.Bswap16 : Prop :=
  ∀ (r : Reg) (s : State), s.noLock →
    ∃ v : Word, exec (.bswap .w16 r) s = .next ({ s with
      regs := s.regs.set r ((s.regs.get r).extractLsb' 16 16 ++ v)
      bus := { s.bus with draws := s.bus.draws + 1 } }.complete none)

/-- XADD with a register destination (43_instructions_new.md R481): the source takes the old destination, then the destination
takes the sum, also where both are one register; the flags are those of the addition. -/
def Obligations.XaddRegister : Prop :=
  (∀ (d r : Reg8) (s : State), s.noLock →
    exec (.xaddRm8R8 (.reg d) r) s = .next ({ s with
      regs := (s.regs.set8 r (s.regs.get8 d)).set8 d (s.regs.get8 d + s.regs.get8 r)
      eflags := putFlags s.eflags (addFlags (s.regs.get8 d) (s.regs.get8 r)) }.complete none))
  ∧ ∀ (os : OpSize) (d r : Reg) (s : State), s.noLock →
    exec (.xaddRmR os (.reg d) r) s = .next ({ s with
      regs := (s.regs.setSz os r (s.regs.getSz os d)).setSz os d (s.regs.getSz os d + s.regs.getSz os r)
      eflags := putFlags s.eflags (addFlags (s.regs.getSz os d) (s.regs.getSz os r)) }.complete none)

/-- XADD with a memory destination, with or without LOCK (43_instructions_new.md R481, R482): the operand's bytes become those
of the sum and no other byte changes; the source takes the old value. -/
def Obligations.XaddMemory : Prop :=
  (∀ (m : MemOp) (r : Reg8) (s : State), s.Flat → s.Admits m.seg (eaOffset s.regs m.ea) 1 true →
    s.RmwReady m.seg (eaOffset s.regs m.ea) 1 s.dec.lock →
    let old : BitVec 8 := ofBytes 8 (s.seenBytes m.seg (eaOffset s.regs m.ea) 1)
    ∃ b, Bus.Stored s.memCtx s.bus (s.dataAddr m.seg (eaOffset s.regs m.ea)) (toBytes 1 (old + s.regs.get8 r)) b
      ∧ exec (.xaddRm8R8 (.mem m) r) s = .next ({ s with
        regs := s.regs.set8 r old, eflags := putFlags s.eflags (addFlags old (s.regs.get8 r)), bus := b }.complete none))
  ∧ ∀ (os : OpSize) (m : MemOp) (r : Reg) (s : State), s.Flat → s.Admits m.seg (eaOffset s.regs m.ea) (OpSize.bytes os) true →
    s.RmwReady m.seg (eaOffset s.regs m.ea) (OpSize.bytes os) s.dec.lock →
    let old : BitVec os.bits := ofBytes os.bits (s.seenBytes m.seg (eaOffset s.regs m.ea) (OpSize.bytes os))
    ∃ b, Bus.Stored s.memCtx s.bus (s.dataAddr m.seg (eaOffset s.regs m.ea))
        (toBytes (OpSize.bytes os) (old + s.regs.getSz os r)) b
      ∧ exec (.xaddRmR os (.mem m) r) s = .next ({ s with
        regs := s.regs.setSz os r old, eflags := putFlags s.eflags (addFlags old (s.regs.getSz os r)), bus := b }.complete none)

/-- CMPXCHG with a register destination (43_instructions_new.md R483): equal to the accumulator, the destination takes the
source; else the accumulator takes the destination and the destination stays; the flags are those of the comparison. -/
def Obligations.CmpxchgRegister : Prop :=
  (∀ (d r : Reg8) (s : State), s.noLock →
    exec (.cmpxchgRm8R8 (.reg d) r) s = .next ({ s with
      regs := if s.regs.get8 .al = s.regs.get8 d then s.regs.set8 d (s.regs.get8 r) else s.regs.set8 .al (s.regs.get8 d)
      eflags := putFlags s.eflags (subFlags (s.regs.get8 .al) (s.regs.get8 d)) }.complete none))
  ∧ ∀ (os : OpSize) (d r : Reg) (s : State), s.noLock →
    exec (.cmpxchgRmR os (.reg d) r) s = .next ({ s with
      regs := if s.regs.getSz os .eax = s.regs.getSz os d then s.regs.setSz os d (s.regs.getSz os r)
        else s.regs.setSz os .eax (s.regs.getSz os d)
      eflags := putFlags s.eflags (subFlags (s.regs.getSz os .eax) (s.regs.getSz os d)) }.complete none)

/-- CMPXCHG with a memory destination, with or without LOCK (43_instructions_new.md R483, R484): the operand's bytes become the
source's where the accumulator equals them and are written back unchanged where it does not; no other byte changes. -/
def Obligations.CmpxchgMemory : Prop :=
  (∀ (m : MemOp) (r : Reg8) (s : State), s.Flat → s.Admits m.seg (eaOffset s.regs m.ea) 1 true →
    s.RmwReady m.seg (eaOffset s.regs m.ea) 1 s.dec.lock →
    let old : BitVec 8 := ofBytes 8 (s.seenBytes m.seg (eaOffset s.regs m.ea) 1)
    ∃ b, Bus.Stored s.memCtx s.bus (s.dataAddr m.seg (eaOffset s.regs m.ea))
        (toBytes 1 (if s.regs.get8 .al = old then s.regs.get8 r else old)) b
      ∧ exec (.cmpxchgRm8R8 (.mem m) r) s = .next ({ s with
        regs := if s.regs.get8 .al = old then s.regs else s.regs.set8 .al old
        eflags := putFlags s.eflags (subFlags (s.regs.get8 .al) old), bus := b }.complete none))
  ∧ ∀ (os : OpSize) (m : MemOp) (r : Reg) (s : State), s.Flat → s.Admits m.seg (eaOffset s.regs m.ea) (OpSize.bytes os) true →
    s.RmwReady m.seg (eaOffset s.regs m.ea) (OpSize.bytes os) s.dec.lock →
    let old : BitVec os.bits := ofBytes os.bits (s.seenBytes m.seg (eaOffset s.regs m.ea) (OpSize.bytes os))
    ∃ b, Bus.Stored s.memCtx s.bus (s.dataAddr m.seg (eaOffset s.regs m.ea))
        (toBytes (OpSize.bytes os) (if s.regs.getSz os .eax = old then s.regs.getSz os r else old)) b
      ∧ exec (.cmpxchgRmR os (.mem m) r) s = .next ({ s with
        regs := if s.regs.getSz os .eax = old then s.regs else s.regs.setSz os .eax old
        eflags := putFlags s.eflags (subFlags (s.regs.getSz os .eax) old), bus := b }.complete none)

/-- The flags of an addition (43_instructions_new.md R481) and of a comparison (43_instructions_new.md R483) at 8, 16 and 32 bits: CF
is the carry or borrow out, AF that out of bit 3, PF the even parity of the low byte, ZF, SF, and OF signed overflow. -/
def Obligations.ArithFlagsMeaning : Prop :=
  ∀ (n : Nat) (a b : BitVec n), n = 8 ∨ n = 16 ∨ n = 32 →
    (((addFlags a b).cf = true ↔ (a + b).toNat ≠ a.toNat + b.toNat)
      ∧ ((addFlags a b).af = true ↔ (a + b).toNat % 16 ≠ a.toNat % 16 + b.toNat % 16)
      ∧ ((addFlags a b).pf = true ↔ (List.range 8).countP (fun i => (a + b).getLsbD i) % 2 = 0)
      ∧ ((addFlags a b).zf = true ↔ a + b = 0)
      ∧ ((addFlags a b).sf = true ↔ (a + b).toInt < 0)
      ∧ ((addFlags a b).of = true ↔ (a + b).toInt ≠ a.toInt + b.toInt))
    ∧ (((subFlags a b).cf = true ↔ a.toNat < b.toNat)
      ∧ ((subFlags a b).af = true ↔ a.toNat % 16 < b.toNat % 16)
      ∧ ((subFlags a b).pf = true ↔ (List.range 8).countP (fun i => (a - b).getLsbD i) % 2 = 0)
      ∧ ((subFlags a b).zf = true ↔ a = b)
      ∧ ((subFlags a b).sf = true ↔ (a - b).toInt < 0)
      ∧ ((subFlags a b).of = true ↔ (a - b).toInt ≠ a.toInt - b.toInt))

/-- Where parts of registers stand (10_state.md R41, R43). CF, PF, AF, ZF, SF and OF are bits 0, 2, 4, 6, 7 and 11 of EFLAGS, and
replacing them changes no other bit. AL, CL, DL and BL are bits 7:0 of EAX, ECX, EDX and EBX, and AH, CH, DH and BH bits 15:8. A byte register written reads back and leaves the other byte registers and the upper halves
alone, and ESP, EBP, ESI and EDI wholly; a 16-bit write keeps the upper half; another register never changes. -/
def Obligations.RegisterPlaces : Prop :=
  (∀ (fl : DWord) (f : ArithFlags) (i : Nat), i < 32 →
    (putFlags fl f).getLsbD i =
      if i = 0 then f.cf else if i = 2 then f.pf else if i = 4 then f.af else if i = 6 then f.zf
      else if i = 7 then f.sf else if i = 11 then f.of else fl.getLsbD i)
  ∧ ∀ g : Regs,
    (∀ x ∈ [(Reg8.al, Reg.eax), (.cl, .ecx), (.dl, .edx), (.bl, .ebx)], g.get8 x.1 = (g.get x.2).extractLsb' 0 8)
    ∧ (∀ x ∈ [(Reg8.ah, Reg.eax), (.ch, .ecx), (.dh, .edx), (.bh, .ebx)], g.get8 x.1 = (g.get x.2).extractLsb' 8 8)
    ∧ (∀ (r : Reg8) (v : BitVec 8), (g.set8 r v).get8 r = v ∧ (∀ q, q ≠ r → (g.set8 r v).get8 q = g.get8 q)
      ∧ (∀ q : Reg, ((g.set8 r v).get q).extractLsb' 16 16 = (g.get q).extractLsb' 16 16)
      ∧ ∀ q : Reg, q ∈ [Reg.esp, .ebp, .esi, .edi] → (g.set8 r v).get q = g.get q)
    ∧ (∀ (r : Reg) (v : BitVec 16), (g.setSz .w16 r v).get r = (g.get r).extractLsb' 16 16 ++ v
      ∧ ∀ q, q ≠ r → (g.setSz .w16 r v).get q = g.get q)
    ∧ ∀ (r : Reg) (v : BitVec 32), (g.setSz .w32 r v).get r = v ∧ ∀ q, q ≠ r → (g.setSz .w32 r v).get q = g.get q

/-- INVD, and WBINVD where the cache writes through, at level 0 (43_instructions_new.md R487, R489; 30_encoding.md R231): every line of
the cache becomes invalid, the buffered writes reach memory and nothing else does, the flush special cycle is the last bus cycle,
with WBINVD after the write-back special cycle; no register, flag or other state changes. -/
def Obligations.CacheFlushed : Prop :=
  ∀ s : State, s.noLock → s.level = 0 → s.BusReady →
    let flushed := fun (b : Bus) => (∀ a, b.cache.lookup s.part.bigCache a = none) ∧ b.wb = []
      ∧ (∀ a, b.physByte s.memCtx a = s.bus.memView s.memCtx a) ∧ Bus.SameControl s.bus b ∧ b.memWf = true
    (∃ b, exec .invd s = .next ({ s with bus := b }.complete none) ∧ flushed b ∧ b.lastSpecial 0xD#4 0)
    ∧ (s.wbMode = false → ∃ b, exec .wbinvd s = .next ({ s with bus := b }.complete none) ∧ flushed b
        ∧ ∃ c d rest, b.trace = c :: d :: rest ∧ c.kind = .special ∧ c.be = 0xD#4 ∧ c.addr = 0
          ∧ d.kind = .special ∧ d.be = 0x7#4 ∧ d.addr = 0)

/-- WBINVD in write-back mode (43_instructions_new.md R489, 45_family_variants.md R584, 30_encoding.md R231): memory takes the sixteen
bytes of every modified line, and outside those lines what the buffered writes leave; then no line is valid; the two newest bus
cycles are the write-back special cycle and, after it, the flush special cycle. No register, flag or other state changes. -/
def Obligations.WbinvdWritesBack : Prop :=
  ∀ s : State, s.noLock → s.level = 0 → s.BusReady → s.wbMode = true →
    ((s.bus.cache.modified s.part.bigCache).map Prod.fst).Nodup →
    ∃ b, exec .wbinvd s = .next ({ s with bus := b }.complete none)
      ∧ (∀ a, b.cache.lookup s.part.bigCache a = none) ∧ b.wb = [] ∧ Bus.SameControl s.bus b ∧ b.memWf = true
      ∧ (∀ l ∈ s.bus.cache.modified s.part.bigCache, ∀ (i : Nat) (h : i < 16),
          b.physByte s.memCtx (l.1 + BitVec.ofNat 32 i) = l.2[i])
      ∧ (∀ a, (∀ l ∈ s.bus.cache.modified s.part.bigCache, lineBase a ≠ l.1) →
          b.physByte s.memCtx a = s.bus.memView s.memCtx a)
      ∧ ∃ c d rest, b.trace = c :: d :: rest ∧ c.kind = .special ∧ c.be = 0xD#4 ∧ c.addr = 0
        ∧ d.kind = .special ∧ d.be = 0x7#4 ∧ d.addr = 0

/-- INVLPG at level 0 (43_instructions_new.md R491): afterwards the TLB holds no translation of the operand's page, and no valid entry
of a 4MB page that holds it; an entry
either stays as it was or is marked invalid, and it is marked only if it belongs to that page or to the 4MB page around it;
nothing else changes and the operand is not accessed. -/
def Obligations.InvlpgInvalidates : Prop :=
  ∀ (m : MemOp) (s : State), s.noLock → s.level = 0 →
    let lin := (s.segs.get m.seg).base + eaOffset s.regs m.ea
    ∃ t : Tlb, exec (.invlpg m) s = .next ({ s with bus := { s.bus with tlb := t } }.complete none)
      ∧ tlbFind t lin = none
      ∧ (∀ i, (tlbAt t i).valid = true → (tlbAt t i).big = true → (tlbAt t i).page.extractLsb' 10 10 ≠ lin.extractLsb' 22 10)
      ∧ ∀ i, tlbAt t i = tlbAt s.bus.tlb i
          ∨ (tlbAt t i = { tlbAt s.bus.tlb i with valid := false }
              ∧ ((tlbAt s.bus.tlb i).page = lin.extractLsb' 12 20
                ∨ ((tlbAt s.bus.tlb i).big = true ∧ (tlbAt s.bus.tlb i).page.extractLsb' 10 10 = lin.extractLsb' 22 10)))

/-- CPUID (43_instructions_new.md R495): EAX, EBX, ECX and EDX take what the part's `CpuidValue` gives for the input in EAX; the buffered
writes reach memory, the prefetch queue empties, and no flag, no other register and nothing else the bus unit controls changes. The
default part answers with the rule's default values: the vendor string to input 0, the family, model and stepping and the feature
flags to every other input (model 1, stepping 0 and the same answer above input 1 are the model's choice, log 26). Without a
floating-point unit the feature bit 0 reads 0 to input 1 on every part (45_family_variants.md R565), and the default part of each
variant has it equal to `HasFPU`. -/
def Obligations.CpuidIdentifies : Prop :=
  (∀ s : State, s.noLock → s.part.hasExt = true → s.BusReady →
    let v := s.part.cpuidValue s.regs.eax
    ∃ b, exec .cpuid s = .next ({ s with
        regs := { s.regs with eax := v.eax, ebx := v.ebx, ecx := v.ecx, edx := v.edx }
        bus := b }.complete none)
      ∧ Bus.SameControl { s.bus with fetchq := .empty } b ∧ b.wb = [] ∧ b.memWf = true ∧ b.cache = s.bus.cache
      ∧ (∀ a, b.physByte s.memCtx a = s.bus.memView s.memCtx a) ∧ ∀ a, b.view s.memCtx a = s.bus.view s.memCtx a)
  ∧ (∀ v : Variant,
      let p := { defaultPart with variant := v }
      p.cpuidValue 0 = ⟨1, 0x756E6547#32, 0x6C65746E#32, 0x49656E69#32⟩
      ∧ ∀ n : DWord, n ≠ 0 → p.cpuidValue n = ⟨0x410#32, 0, 0, if p.hasFPU then 3#32 else 2#32⟩)
  ∧ ∀ p : Part, p.hasFPU = false → (p.cpuidValue 1).edx = p.cpuidOne.edx &&& 0xFFFFFFFE#32

/-! ### MOV and XCHG -/

/-- MOV and XCHG between registers (44_instructions_referenced.md R521, R522, R534): MOV copies the source at its size, XCHG gives
each register the other's value; no flag, no other register and no other state changes. -/
def Obligations.RegisterMoves : Prop :=
  ∀ s : State, s.noLock →
    (∀ d r : Reg8,
      exec (.movR8Rm8 d (.reg r)) s = .next ({ s with regs := s.regs.set8 d (s.regs.get8 r) }.complete none)
      ∧ exec (.movRm8R8 (.reg d) r) s = .next ({ s with regs := s.regs.set8 d (s.regs.get8 r) }.complete none)
      ∧ exec (.xchgRm8R8 (.reg d) r) s = .next ({ s with
          regs := (s.regs.set8 r (s.regs.get8 d)).set8 d (s.regs.get8 r) }.complete none))
    ∧ (∀ (os : OpSize) (d r : Reg),
      exec (.movRRm os d (.reg r)) s = .next ({ s with regs := s.regs.setSz os d (s.regs.getSz os r) }.complete none)
      ∧ exec (.movRmR os (.reg d) r) s = .next ({ s with regs := s.regs.setSz os d (s.regs.getSz os r) }.complete none)
      ∧ exec (.xchgRmR os (.reg d) r) s = .next ({ s with
          regs := (s.regs.setSz os r (s.regs.getSz os d)).setSz os d (s.regs.getSz os r) }.complete none))
    ∧ ∀ (os : OpSize) (r : Reg),
      exec (.xchgEaxR os r) s = .next ({ s with
        regs := (s.regs.setSz os r (s.regs.getSz os .eax)).setSz os .eax (s.regs.getSz os r) }.complete none)

/-- MOV register from immediate (44_instructions_referenced.md R523): `x[r] <- imm` of the operand size, no memory access. -/
def Obligations.MovImmediate : Prop :=
  ∀ (s : State), s.noLock →
    (∀ (r : Reg8) (v : BitVec 8), exec (.movR8Imm8 r v) s = .next ({ s with regs := s.regs.set8 r v }.complete none))
    ∧ (∀ (r : Reg) (v : BitVec 16),
      exec (.movRImm r (.i16 v)) s = .next ({ s with regs := s.regs.setSz .w16 r v }.complete none))
    ∧ ∀ (r : Reg) (v : BitVec 32),
      exec (.movRImm r (.i32 v)) s = .next ({ s with regs := s.regs.setSz .w32 r v }.complete none)

/-- MOV register from memory (44_instructions_referenced.md R521), where the read faults on nothing and fills no line: the
destination takes the operand's bytes, little-endian; the processor sees every byte of memory as before. -/
def Obligations.MovLoad : Prop :=
  (∀ (r : Reg8) (m : MemOp) (s : State), s.noLock → s.Flat → s.Admits m.seg (eaOffset s.regs m.ea) 1 false →
    s.NoFill m.seg (eaOffset s.regs m.ea) 1 →
    ∃ b, Bus.Quiet s.memCtx s.bus b ∧ exec (.movR8Rm8 r (.mem m)) s = .next ({ s with
      regs := s.regs.set8 r (ofBytes 8 (s.seenBytes m.seg (eaOffset s.regs m.ea) 1)), bus := b }.complete none))
  ∧ (∀ (os : OpSize) (r : Reg) (m : MemOp) (s : State), s.noLock → s.Flat →
    s.Admits m.seg (eaOffset s.regs m.ea) (OpSize.bytes os) false → s.NoFill m.seg (eaOffset s.regs m.ea) (OpSize.bytes os) →
    ∃ b, Bus.Quiet s.memCtx s.bus b ∧ exec (.movRRm os r (.mem m)) s = .next ({ s with
      regs := s.regs.setSz os r (ofBytes os.bits (s.seenBytes m.seg (eaOffset s.regs m.ea) (OpSize.bytes os)))
      bus := b }.complete none))
  ∧ (∀ (m : Moffs) (s : State), s.noLock → s.Flat → s.Admits m.seg (moffsOffset m.off) 1 false →
    s.NoFill m.seg (moffsOffset m.off) 1 →
    ∃ b, Bus.Quiet s.memCtx s.bus b ∧ exec (.movAlMoffs m) s = .next ({ s with
      regs := s.regs.set8 .al (ofBytes 8 (s.seenBytes m.seg (moffsOffset m.off) 1)), bus := b }.complete none))
  ∧ ∀ (os : OpSize) (m : Moffs) (s : State), s.noLock → s.Flat → s.Admits m.seg (moffsOffset m.off) (OpSize.bytes os) false →
    s.NoFill m.seg (moffsOffset m.off) (OpSize.bytes os) →
    ∃ b, Bus.Quiet s.memCtx s.bus b ∧ exec (.movEaxMoffs os m) s = .next ({ s with
      regs := s.regs.setSz os .eax (ofBytes os.bits (s.seenBytes m.seg (moffsOffset m.off) (OpSize.bytes os)))
      bus := b }.complete none)

/-- MOV memory from register (44_instructions_referenced.md R522), where the write faults on nothing: the operand's bytes become
the register's, little-endian, as the processor sees them; it sees every other byte as before, and no register changes. -/
def Obligations.MovStore : Prop :=
  (∀ (m : MemOp) (r : Reg8) (s : State), s.noLock → s.Flat → s.Admits m.seg (eaOffset s.regs m.ea) 1 true →
    ∃ b, Bus.Stored s.memCtx s.bus (s.dataAddr m.seg (eaOffset s.regs m.ea)) (toBytes 1 (s.regs.get8 r)) b
      ∧ exec (.movRm8R8 (.mem m) r) s = .next ({ s with bus := b }.complete none))
  ∧ (∀ (os : OpSize) (m : MemOp) (r : Reg) (s : State), s.noLock → s.Flat →
    s.Admits m.seg (eaOffset s.regs m.ea) (OpSize.bytes os) true →
    ∃ b, Bus.Stored s.memCtx s.bus (s.dataAddr m.seg (eaOffset s.regs m.ea)) (toBytes (OpSize.bytes os) (s.regs.getSz os r)) b
      ∧ exec (.movRmR os (.mem m) r) s = .next ({ s with bus := b }.complete none))
  ∧ (∀ (m : Moffs) (s : State), s.noLock → s.Flat → s.Admits m.seg (moffsOffset m.off) 1 true →
    ∃ b, Bus.Stored s.memCtx s.bus (s.dataAddr m.seg (moffsOffset m.off)) (toBytes 1 (s.regs.get8 .al)) b
      ∧ exec (.movMoffsAl m) s = .next ({ s with bus := b }.complete none))
  ∧ ∀ (os : OpSize) (m : Moffs) (s : State), s.noLock → s.Flat → s.Admits m.seg (moffsOffset m.off) (OpSize.bytes os) true →
    ∃ b, Bus.Stored s.memCtx s.bus (s.dataAddr m.seg (moffsOffset m.off)) (toBytes (OpSize.bytes os) (s.regs.getSz os .eax)) b
      ∧ exec (.movMoffsEax os m) s = .next ({ s with bus := b }.complete none)

/-- XCHG with memory, prefix or not (44_instructions_referenced.md R534; 42_bus_transactions.md R440): the operand's bytes and the
register change places; no other byte and no flag changes. For one aligned doubleword with the buffers empty, on a 32-bit bus, the
two newest bus cycles are the read and the write of that doubleword, LOCK# asserted in both. -/
def Obligations.XchgMemory : Prop :=
  ((∀ (m : MemOp) (r : Reg8) (s : State), s.Flat → s.Admits m.seg (eaOffset s.regs m.ea) 1 true →
    s.Clean m.seg (eaOffset s.regs m.ea) 1 →
    ∃ b, Bus.Stored s.memCtx s.bus (s.dataAddr m.seg (eaOffset s.regs m.ea)) (toBytes 1 (s.regs.get8 r)) b
      ∧ exec (.xchgRm8R8 (.mem m) r) s = .next ({ s with
        regs := s.regs.set8 r (ofBytes 8 (s.seenBytes m.seg (eaOffset s.regs m.ea) 1)), bus := b }.complete none))
  ∧ ∀ (os : OpSize) (m : MemOp) (r : Reg) (s : State), s.Flat → s.Admits m.seg (eaOffset s.regs m.ea) (OpSize.bytes os) true →
    s.Clean m.seg (eaOffset s.regs m.ea) (OpSize.bytes os) →
    ∃ b, Bus.Stored s.memCtx s.bus (s.dataAddr m.seg (eaOffset s.regs m.ea)) (toBytes (OpSize.bytes os) (s.regs.getSz os r)) b
      ∧ exec (.xchgRmR os (.mem m) r) s = .next ({ s with
        regs := s.regs.setSz os r (ofBytes os.bits (s.seenBytes m.seg (eaOffset s.regs m.ea) (OpSize.bytes os)))
        bus := b }.complete none))
  ∧ ∀ (m : MemOp) (r : Reg) (s : State), s.Flat → s.Admits m.seg (eaOffset s.regs m.ea) 4 true →
    s.Clean m.seg (eaOffset s.regs m.ea) 4 → s.bus.wb = [] → s.platform.bus8 = [] → s.platform.bus16 = [] →
    (s.dataAddr m.seg (eaOffset s.regs m.ea) 0).extractLsb' 0 2 = 0 →
    ∃ t w d, exec (.xchgRmR .w32 (.mem m) r) s = .next t ∧ t.bus.trace = w :: d :: s.bus.trace
      ∧ w.kind = .memWrite ∧ w.lock = true ∧ w.be = 0 ∧ w.data = s.regs.get r
      ∧ w.addr = (s.dataAddr m.seg (eaOffset s.regs m.ea) 0).extractLsb' 2 30
      ∧ d.kind = .memRead ∧ d.lock = true ∧ d.be = 0 ∧ d.addr = w.addr

/-! ### Input and output -/

/-- IN (44_instructions_referenced.md R525), where no permission is asked of the TSS: every buffered write reaches memory first;
the accumulator takes a value, and where the device's data is queued and the operand lies in one doubleword it is the data on the
operand's lanes; where moreover the device is 32 bits wide, the newest bus cycle is the I/O read at the port's doubleword with the
enables of those lanes. No flag, no other register and no byte of memory changes. -/
def Obligations.InReads : Prop :=
  (∀ (i : Instr) (port : Word) (s : State), s.noLock → s.ioPermitted → s.BusReady →
    ((∃ p : BitVec 8, i = .inAlImm8 p ∧ port = p.setWidth 16) ∨ (i = .inAlDx ∧ port = s.regs.edx.setWidth 16)) →
    ∃ v b, exec i s = .next ({ s with regs := s.regs.set8 .al v, bus := b }.complete (some ⟨s.eip - s.dec.start, none⟩))
      ∧ Bus.Drained s.memCtx s.bus b ∧ Bus.SameControl { s.bus with ioIn := b.ioIn, draws := b.draws } b
      ∧ (∀ d rest, s.bus.ioIn = d :: rest → v = d.extractLsb' (8 * portLane port) 8 ∧ b.ioIn = rest)
      ∧ (s.platform.ioBus8 = [] → s.platform.ioBus16 = [] →
          ∃ c rest, b.trace = c :: rest ∧ c.kind = .ioRead ∧ c.addr = (port.extractLsb' 2 14).setWidth 30
            ∧ c.be = ~~~(1#4 <<< portLane port)))
  ∧ ∀ (i : Instr) (os : OpSize) (port : Word) (s : State), s.noLock → s.ioPermitted → s.BusReady →
    ((∃ p : BitVec 8, i = .inEaxImm8 os p ∧ port = p.setWidth 16) ∨ (i = .inEaxDx os ∧ port = s.regs.edx.setWidth 16)) →
    ∃ v b, exec i s = .next ({ s with regs := s.regs.setSz os .eax v, bus := b }.complete (some ⟨s.eip - s.dec.start, none⟩))
      ∧ Bus.Drained s.memCtx s.bus b ∧ Bus.SameControl { s.bus with ioIn := b.ioIn, draws := b.draws } b
      ∧ (∀ d rest, s.bus.ioIn = d :: rest → portLane port + OpSize.bytes os ≤ 4 →
          v = d.extractLsb' (8 * portLane port) os.bits ∧ b.ioIn = rest)
      ∧ (s.platform.ioBus8 = [] → s.platform.ioBus16 = [] → portLane port + OpSize.bytes os ≤ 4 →
          ∃ c rest, b.trace = c :: rest ∧ c.kind = .ioRead ∧ c.addr = (port.extractLsb' 2 14).setWidth 30
            ∧ c.be = ~~~(BitVec.ofNat 4 (2 ^ OpSize.bytes os - 1) <<< portLane port))

/-- OUT (44_instructions_referenced.md R527), where no permission is asked of the TSS: every buffered write reaches memory
first; where the operand lies in one doubleword of a 32-bit device, the newest bus cycle is the I/O write of the accumulator at
the port, on its lanes; no register, no flag and no byte of memory changes. -/
def Obligations.OutWrites : Prop :=
  (∀ (i : Instr) (port : Word) (s : State), s.noLock → s.ioPermitted → s.BusReady →
    ((∃ p : BitVec 8, i = .outImm8Al p ∧ port = p.setWidth 16) ∨ (i = .outDxAl ∧ port = s.regs.edx.setWidth 16)) →
    ∃ b, exec i s = .next ({ s with bus := b }.complete (some ⟨s.eip - s.dec.start, none⟩))
      ∧ Bus.DrainedOnly s.memCtx s.bus b
      ∧ (s.platform.ioBus8 = [] → s.platform.ioBus16 = [] →
          ∃ c rest, b.trace = c :: rest ∧ c.kind = .ioWrite ∧ c.addr = (port.extractLsb' 2 14).setWidth 30
            ∧ c.data.extractLsb' (8 * portLane port) 8 = s.regs.get8 .al ∧ c.be = ~~~(1#4 <<< portLane port)))
  ∧ ∀ (i : Instr) (os : OpSize) (port : Word) (s : State), s.noLock → s.ioPermitted → s.BusReady →
    ((∃ p : BitVec 8, i = .outImm8Eax os p ∧ port = p.setWidth 16) ∨ (i = .outDxEax os ∧ port = s.regs.edx.setWidth 16)) →
    ∃ b, exec i s = .next ({ s with bus := b }.complete (some ⟨s.eip - s.dec.start, none⟩))
      ∧ Bus.DrainedOnly s.memCtx s.bus b
      ∧ (s.platform.ioBus8 = [] → s.platform.ioBus16 = [] → portLane port + OpSize.bytes os ≤ 4 →
          ∃ c rest, b.trace = c :: rest ∧ c.kind = .ioWrite ∧ c.addr = (port.extractLsb' 2 14).setWidth 30
            ∧ c.data.extractLsb' (8 * portLane port) os.bits = s.regs.getSz os .eax
            ∧ c.be = ~~~(BitVec.ofNat 4 (2 ^ OpSize.bytes os - 1) <<< portLane port))

/-- OUTSB, and OUTSW or OUTSD (44_instructions_referenced.md R530, R531; 20_memory.md R176), where the read faults on nothing and
fills no line. Alone: (E)SI moves by the operand's bytes, up or with DF down, at the address size; no buffered write is left, and on
a 32-bit device that the operand does not straddle the newest bus cycle is the I/O write of the operand's bytes at the port in DX,
on its lanes. With a repeat prefix and (E)CX not 0: one iteration, which also counts (E)CX down and goes back to the instruction's
first byte unless it was the last; the I/O write is the newest cycle or the newest buffered write. With (E)CX = 0: nothing. That REPNE
acts as REP is the model's choice (log 40). No other
register, no flag but RF (given back between iterations, log 32) and no byte of memory changes. What is kept for an I/O restart is
the model's choice (log 23), and so is that with TF = 1 a single-step trap is due after each iteration (log 29). -/
def Obligations.OutsWrites : Prop :=
  ∀ (i : Instr) (n : Nat) (seg : SegReg) (as : AddrSize) (s : State), OutsForm i n seg as → s.noLock →
    let port : Word := s.regs.edx.setWidth 16
    let item := s.seenBytes seg (atSize as s.regs.esi) n
    let oneItem := s.platform.ioBus8 = [] ∧ s.platform.ioBus16 = [] ∧ portLane port + n ≤ 4
    let last := atSize as s.regs.ecx = 1
    (s.ioPermitted → s.Flat → s.Admits seg (atSize as s.regs.esi) n false → s.NoFill seg (atSize as s.regs.esi) n →
      (s.dec.rep = false → s.dec.repne = false →
        ∃ b, exec i s = .next ({ s with
            regs := { s.regs with esi := outsNext as s.df s.regs.esi n }
            bus := b }.complete (some ⟨s.eip - s.dec.start, none⟩))
          ∧ Bus.Quiet s.memCtx s.bus b ∧ b.wb = [] ∧ (oneItem → b.lastIoWrite port item))
      ∧ (s.dec.rep = true ∨ s.dec.repne = true → atSize as s.regs.ecx ≠ 0 →
        ∃ b, exec i s = .next ({ s with
            regs := { s.regs with esi := outsNext as s.df s.regs.esi n, ecx := countDown as s.regs.ecx }
            eip := if last then s.eip else s.dec.start
            eflags := if last then s.eflags else setBit s.eflags 16 s.dec.rf
            bus := b }.complete (some ⟨if last then s.eip - s.dec.start else 0,
              some ⟨as, false, if s.df then 0 - BitVec.ofNat 32 n else BitVec.ofNat 32 n⟩⟩))
          ∧ Bus.Quiet s.memCtx s.bus b
          ∧ (oneItem → (b.wb = [] ∧ b.lastIoWrite port item) ∨ b.lastBufferedOut port item)))
    ∧ (s.dec.rep = true ∨ s.dec.repne = true → atSize as s.regs.ecx = 0 → exec i s = .next (s.complete none))

/-! ### Prefixes and control -/

/-- The prefix rows (30_encoding.md R221, R226): each marks the instruction it belongs to and changes nothing else; REP takes the
place of a REPNE before it (log 40). That a prefix byte is a step of its own is the model's choice (log 1). -/
def Obligations.PrefixesMark : Prop :=
  ∀ s : State,
    exec .lockPrefix s = .next { s with dec := { s.dec with active := true, lock := true } }
    ∧ exec .repPrefix s = .next { s with dec := { s.dec with active := true, rep := true, repne := false } }
    ∧ exec .opSizePrefix s = .next { s with dec := { s.dec with active := true, osz := true } }
    ∧ exec .addrSizePrefix s = .next { s with dec := { s.dec with active := true, asz := true } }

/-- HLT at level 0 (44_instructions_referenced.md R538): the buffers drain, the halt special cycle is the newest bus cycle, the
processor is halted, with SL technology in the Auto HALT Power Down state; no register or flag changes. -/
def Obligations.HltHalts : Prop :=
  ∀ s : State, s.noLock → s.level = 0 → s.BusReady →
    ∃ b, exec .hlt s = .next ({ s with
        bus := b, halted := true, clock := if s.part.hasSL then .autoHaltPowerDown else s.clock }.complete none)
      ∧ Bus.DrainedOnly s.memCtx s.bus b ∧ b.lastSpecial 0xB#4 0

/-- A relative JMP (44_instructions_referenced.md R543): where the target lies in the code segment, EIP becomes the offset after the
instruction plus the sign-extended displacement, to 16 bits with a 16-bit operand size, the prefetch queue empties, nothing else changes. That
with a 32-bit operand size the offset after the instruction is not cut to 16 bits in a 16-bit code segment either, where 10_state.md R42 cuts
EIP, is read from the two rules (log 49, DEDUCED). A target outside the segment is a general protection fault (10_state.md R42; its code is the
family's, log 30). -/
def Obligations.JmpRelative : Prop :=
  (∀ (d : BitVec 8) (s : State), s.noLock →
    (s.segs.cs.inLimit false ((s.nextPc + d.signExtend 32) &&& 0xFFFF#32) 1 = true →
      exec (.jmpRel8 .w16 d) s = .next ({ s with
        eip := (s.nextPc + d.signExtend 32) &&& 0xFFFF#32, bus := { s.bus with fetchq := .empty } }.complete none))
    ∧ (s.segs.cs.inLimit false (s.nextPc + d.signExtend 32) 1 = true →
      exec (.jmpRel8 .w32 d) s = .next ({ s with
        eip := s.nextPc + d.signExtend 32, bus := { s.bus with fetchq := .empty } }.complete none))
    ∧ (s.segs.cs.inLimit false ((s.nextPc + d.signExtend 32) &&& 0xFFFF#32) 1 = false →
      exec (.jmpRel8 .w16 d) s = except s (generalProtection 0) s)
    ∧ (s.segs.cs.inLimit false (s.nextPc + d.signExtend 32) 1 = false →
      exec (.jmpRel8 .w32 d) s = except s (generalProtection 0) s))
  ∧ ∀ s : State, s.noLock →
    (∀ d : BitVec 16,
      (s.segs.cs.inLimit false ((s.nextPc + d.signExtend 32) &&& 0xFFFF#32) 1 = true →
        exec (.jmpRel (.i16 d)) s = .next ({ s with
          eip := (s.nextPc + d.signExtend 32) &&& 0xFFFF#32, bus := { s.bus with fetchq := .empty } }.complete none))
      ∧ (s.segs.cs.inLimit false ((s.nextPc + d.signExtend 32) &&& 0xFFFF#32) 1 = false →
        exec (.jmpRel (.i16 d)) s = except s (generalProtection 0) s))
    ∧ ∀ d : BitVec 32,
      (s.segs.cs.inLimit false (s.nextPc + d) 1 = true →
        exec (.jmpRel (.i32 d)) s = .next ({ s with eip := s.nextPc + d, bus := { s.bus with fetchq := .empty } }.complete none))
      ∧ (s.segs.cs.inLimit false (s.nextPc + d) 1 = false → exec (.jmpRel (.i32 d)) s = except s (generalProtection 0) s)

/-- PUSHF and POPF, where the mode admits them and the access faults on nothing and fills no line (44_instructions_referenced.md R550,
10_state.md R43, R44). PUSHF: the stack takes the flags with VM and RF as 0, (E)SP moves down by the operand size, no other
byte and no flag changes. POPF: (E)SP moves up; each flag takes its bit of the popped value where the operand size reaches it and the
level admits it (IOPL at level 0, IF up to IOPL, AC always, ID, VIF and VIP on parts that have them), and keeps its own else. R550 gives only
that POPF can change AC, and ID, VIF and VIP on those parts. Not the spec's but the family's (PRESUMED, log 31): that VM and RF are stored as
0, which of the other flags POPF moves, and the levels at which it moves IOPL and IF. -/
def Obligations.FlagsOnStack : Prop :=
  (∀ (os : OpSize) (s : State), s.noLock → s.flagsMove → s.Flat →
    let n := OpSize.bytes os
    let down : DWord := if s.stack32 then s.regs.esp - BitVec.ofNat 32 n
      else (s.regs.esp.setWidth 16 - BitVec.ofNat 16 n).setWidth 32
    s.Admits .ss down n true →
    ∃ b, Bus.Stored s.memCtx s.bus (s.dataAddr .ss down) (toBytes n (s.eflags &&& 0xFFFCFFFF#32)) b
      ∧ exec (.pushf os) s = .next ({ s with
        regs := { s.regs with esp := if s.stack32 then s.regs.esp - BitVec.ofNat 32 n
          else s.regs.esp.extractLsb' 16 16 ++ (s.regs.esp.setWidth 16 - BitVec.ofNat 16 n) }
        bus := b }.complete none))
  ∧ ∀ (os : OpSize) (s : State), s.noLock → s.flagsMove → s.Flat → s.eflags = normFlags s.part s.eflags →
    let n := OpSize.bytes os
    let top : DWord := if s.stack32 then s.regs.esp else (s.regs.esp.setWidth 16).setWidth 32
    s.Admits .ss top n false → s.NoFill .ss top n →
    let v : DWord := ofBytes 32 (s.seenBytes .ss top n)
    ∃ b fl, Bus.Quiet s.memCtx s.bus b
      ∧ exec (.popf os) s = .next ({ s with
        regs := { s.regs with esp := if s.stack32 then s.regs.esp + BitVec.ofNat 32 n
          else s.regs.esp.extractLsb' 16 16 ++ (s.regs.esp.setWidth 16 + BitVec.ofNat 16 n) }
        eflags := fl, bus := b }.complete none)
      ∧ ∀ i, i < 32 → fl.getLsbD i =
          if i < 8 * n ∧ (i ∈ [0, 2, 4, 6, 7, 8, 10, 11, 14, 18] ∨ (i ∈ [12, 13] ∧ s.level = 0)
              ∨ (i = 9 ∧ s.level ≤ s.iopl) ∨ (i ∈ [19, 20, 21] ∧ s.part.hasExt = true)) then v.getLsbD i
          else s.eflags.getLsbD i

/-! ### Floating point -/

/-- The control instructions of the floating-point unit (44_instructions_referenced.md R540, 10_state.md R65, R66, 60_exceptions.md R635):
FNINIT, FNCLEX, FNSTSW AX, FNSTCW and FNSTSW to memory, which a pending error does not stop, and FLDCW, which it does. FNINIT
gives the registers their initial values and FNCLEX clears the exception flags, after which no error is pending; each records this
instruction's pointers (as selector and offset, log 8), and an error is pending afterwards exactly when an exception flag is set that
the control word does not mask; the stores write two bytes and no others; FLDCW reads two and fills no line. R540 and R65 leave what these
instructions do to `Fpu387`. The family's (PRESUMED, log 8): the values FNINIT sets, the bits FNCLEX clears, the places of the exception flags
and of their masks, what FNSTSW and FNSTCW store. The model's choice (DESIGN CHOICE, log 8): what FLDCW does. -/
def Obligations.EscControl : Prop :=
  ∀ (os : OpSize) (s : State), s.noLock → s.FpuReady true →
    let initial : Fpu :=
      { s.fpu with control := 0x037F#16, status := 0, tag := 0xFFFF#16, ipSel := 0, ip := 0, opcode := 0, dpSel := 0, dp := 0 }
    exec (.esc os 3 4 (.reg 3)) s = .next ((s.escReg 3 4 3 initial).complete none)
    ∧ (s.escReg 3 4 3 initial).fpErrorPending = false
    ∧ exec (.esc os 3 4 (.reg 2)) s =
        .next ((s.escReg 3 4 2 { s.fpu with status := s.fpu.status &&& 0x7F00#16 }).complete none)
    ∧ (s.escReg 3 4 2 { s.fpu with status := s.fpu.status &&& 0x7F00#16 }).fpErrorPending = false
    ∧ exec (.esc os 7 4 (.reg 0)) s = .next ({ s.escReg 7 4 0 s.fpu with
      regs := s.regs.set .eax ((s.regs.eax).extractLsb' 16 16 ++ s.fpu.status) }.complete none)
    ∧ ∀ m : MemOp, s.Flat →
      let off := eaOffset s.regs m.ea
      (s.Admits m.seg off 2 true →
        (∃ b, Bus.Stored s.memCtx s.bus (s.dataAddr m.seg off) (toBytes 2 s.fpu.control) b
          ∧ exec (.esc os 1 7 (.mem m)) s = .next ({ s.escMem 1 7 m s.fpu with bus := b }.complete none))
        ∧ ∃ b, Bus.Stored s.memCtx s.bus (s.dataAddr m.seg off) (toBytes 2 s.fpu.status) b
          ∧ exec (.esc os 5 7 (.mem m)) s = .next ({ s.escMem 5 7 m s.fpu with bus := b }.complete none))
      ∧ (s.FpuReady false → s.Admits m.seg off 2 false → s.NoFill m.seg off 2 →
        ∃ b, Bus.Quiet s.memCtx s.bus b ∧ exec (.esc os 1 5 (.mem m)) s = .next ({ s.escMem 1 5 m
          { s.fpu with control := ofBytes 16 (s.seenBytes m.seg off 2) } with bus := b }.complete none))

/-- The other escapes (44_instructions_referenced.md R540, 10_state.md R65, R66, 20_memory.md R151; the memory operand's direction and
the sizes of its pieces are the 80387's, log 8). With a register operand: the registers are what `Fpu387` gives, with the pointers of
this instruction, and an unmasked exception is pending. With a memory operand, where the access faults on nothing and fills no line:
one that reads gives `Fpu387` the operand's bytes and leaves every byte as the processor sees it; one that writes stores what `Fpu387`
gives, and no other byte, or nothing where it gives nothing to store (log 8); registers, pointers and the pending error follow, and after FNSTENV and FNSAVE no error is pending
(40_signal_interface.md R300). Nothing else changes. -/
def Obligations.EscExecutes : Prop :=
  (∀ (os : OpSize) (op reg r : BitVec 3) (s : State), s.noLock → s.FpuReady false → fpuOp op reg (.reg r) = .other →
    exec (.esc os op reg (.reg r)) s =
      .next ((s.escReg op reg r (s.fpuResult os op reg (some r) []).fpu).complete none))
  ∧ ∀ (os : OpSize) (op reg : BitVec 3) (m : MemOp) (s : State), s.noLock → s.Flat →
    (fpuOp op reg (.mem m) = .other ∨ fpuOp op reg (.mem m) = .storeState ∨ fpuOp op reg (.mem m) = .loadState) →
    s.FpuReady (fpuOp op reg (.mem m)).noWait →
    let off := eaOffset s.regs m.ea
    (fpuOperand os op reg = .none →
      exec (.esc os op reg (.mem m)) s = .next ((s.escDone op reg m (s.fpuResult os op reg none [])).complete none))
    ∧ (∀ ns, fpuOperand os op reg = .read ns → s.AdmitsPieces m.seg off ns false → s.NoFill m.seg off ns.sum →
      ∃ b, Bus.Quiet s.memCtx s.bus b
        ∧ exec (.esc os op reg (.mem m)) s = .next ({ s.escDone op reg m
            (s.fpuResult os op reg none (s.seenBytes m.seg off ns.sum)) with bus := b }.complete none))
    ∧ ∀ ns, fpuOperand os op reg = .write ns → s.AdmitsPieces m.seg off ns true →
      let res := s.fpuResult os op reg none []
      ∃ b, (∀ bs, res.store = some bs → Bus.Stored s.memCtx s.bus (s.dataAddr m.seg off) (fitBytes ns.sum bs) b)
        ∧ (res.store = none → b = s.bus)
        ∧ exec (.esc os op reg (.mem m)) s = .next ({ s.escDone op reg m res with bus := b }.complete none)

/-- What stands before a floating-point instruction (60_exceptions.md R634, R635; 44_instructions_referenced.md R540, R541;
45_family_variants.md R561). Device not available: every escape on a part without the unit or with EM or TS, WAIT with MP and TS. A
pending error, before WAIT, whatever EM, and before the escapes that wait: exception 16 with NE, a freeze before the instruction without
NE and IGNNE#. WAIT with nothing to report does nothing. How a freeze looks in a machine of steps is the model's choice (log 36). -/
def Obligations.FpuGate : Prop :=
  ∀ s : State, s.noLock →
    ((s.part.hasFPU = false ∨ s.em = true ∨ s.ts = true) →
      ∀ (os : OpSize) (op reg : BitVec 3) (rm : Rm (BitVec 3)), exec (.esc os op reg rm) s = except s deviceNotAvailable s)
    ∧ (s.mp = true → s.ts = true → exec .wait s = except s deviceNotAvailable s)
    ∧ (s.part.hasFPU = true → s.fpErrorPending = true →
      (s.mp = false ∨ s.ts = false →
        (s.ne = true → exec .wait s = except s floatingPointError s)
        ∧ (s.ne = false → s.pins.ignne = false → exec .wait s = .next s.freezing))
      ∧ (s.em = false → s.ts = false → ∀ (os : OpSize) (op reg : BitVec 3) (rm : Rm (BitVec 3)), (fpuOp op reg rm).noWait = false →
        (s.ne = true → exec (.esc os op reg rm) s = except s floatingPointError s)
        ∧ (s.ne = false → s.pins.ignne = false → exec (.esc os op reg rm) s = .next s.freezing)))
    ∧ ((s.mp = false ∨ s.ts = false) →
      (s.part.hasFPU = false ∨ s.fpErrorPending = false ∨ (s.ne = false ∧ s.pins.ignne = true)) →
      exec .wait s = .next (s.complete none))

/-! ### Exceptions and interrupts -/

/-- Taking an exception in real mode (60_exceptions.md R625, R627; 44_instructions_referenced.md R544): flags, CS and the return offset
(the instruction's own for a fault, that after it for INT n, the next one's else; of a double fault, whose pc R627 calls unreliable, the
instruction's own by the model's choice, log 28) go to the three words below SP, no other byte changes as the processor sees
it, and control goes through the interrupt table with IF, TF and AC clear, CS having the limit of real mode (20_memory.md R156) and the
prefetch queue being emptied (20_memory.md R184); a page fault writes CR2. A debug exception also adds its bits to DR6, clearing none, and
opens DR7.GD, which is the model's choice (log 32), as it is that every exception, also a single-step trap, ends the halt state (log 42).
INT n is the delivery of vector n with the next instruction's offset; that no single-step trap is due after it, also where it began with
TF = 1, is the model's choice (60_exceptions.md R625, R637; log 29). -/
def Obligations.ExceptionInRealMode : Prop :=
  (∀ (e : Exc) (s : State), s.RealReady e.vector →
    ∃ b, takeExc e s = .ok () (s.entered e b)
      ∧ Bus.Stored s.memCtx s.bus s.frameAddr (s.frameBytes (if e.fault then s.dec.start else if e.soft then s.nextPc else s.eip)) b)
  ∧ ∀ (v : Byte) (s : State), s.noLock → s.RealReady v →
    ∃ b, exec (.intN v) s = .next (s.entered (softwareInterrupt v) b)
      ∧ Bus.Stored s.memCtx s.bus s.frameAddr (s.frameBytes s.nextPc) b

/-- What a fault in the delivery of an exception leads to (60_exceptions.md R636). The rule: a contributory exception (0, 10 to 13) after a
contributory one, and a page fault or a contributory one after a page fault, are a double fault, vector 8 with code 0; a fault in delivering
that one is a shutdown; every other is delivered in place of the first. In real mode, where an entry past the end of the interrupt table is a
general protection fault (60_exceptions.md R625): where the table reaches vector 13 and not the first exception's, that general protection fault
is delivered; after a contributory exception or a page fault it is the double fault, where the table reaches vector 8. Where it ends before the double fault's (60_exceptions.md R641): the buffers drain, the
shutdown special cycle is the newest bus cycle, and the processor is shut down. In either case the registers are as they were, but for those
in which the first fault reports itself: CR2 for a page fault (10_state.md R55), and for a debug exception DR6, its bits added and none
cleared, and bit 13 of DR7, opened, which is the model's choice (log 32). The model's choices: a long row of exceptions goes on in the next
step, with nothing recognised between (log 28); an interrupt through one of these vectors is no such exception (log 28); the double fault saves
the first byte of the instruction (log 28); a shutdown drops the traps and matched data breakpoints still due (log 51). -/
def Obligations.TripleFaultShutsDown : Prop :=
  (∀ e f : Exc,
    let contributory := fun (x : Exc) => x.fault = true ∧ x.vector ∈ [0#8, 10#8, 11#8, 12#8, 13#8]
    let page := fun (x : Exc) => x.fault = true ∧ x.vector = 14#8
    let double := fun (x : Exc) => x.fault = true ∧ x.vector = 8#8
    let second := (contributory e ∧ contributory f) ∨ (page e ∧ (page f ∨ contributory f))
    (double e → escalate e f = none)
    ∧ (second → ∃ d, escalate e f = some d ∧ double d ∧ d.code = some 0)
    ∧ (¬ double e → ¬ second → escalate e f = some f))
  ∧ (∀ (e : Exc) (s : State),
    s.idtr.limit.toNat < 4 * e.vector.toNat + 3 →
    let missing := generalProtection (BitVec.ofNat 32 (8 * e.vector.toNat + 2))
    let g := if e.fault = true ∧ e.vector ∈ [10#8, 11#8, 12#8, 13#8, 14#8] then doubleFault else missing
    (s.reported e).RealReady g.vector →
    ∃ b, takeExc e s = .ok () ((s.reported e).entered g b)
      ∧ Bus.Stored s.memCtx s.bus s.frameAddr (s.frameBytes s.dec.start) b)
  ∧ (∀ (e : Exc) (s : State), s.pe = false → s.BusReady →
    s.idtr.limit.toNat < 35 → s.idtr.limit.toNat < 4 * e.vector.toNat + 3 →
    ∃ b, takeExc e s = .ok () ({ s.reported e with bus := b }.shutDown)
      ∧ Bus.DrainedOnly s.memCtx s.bus b ∧ b.lastSpecial 0xE#4 0)
  ∧ ∀ (e : Exc) (s : State), s.serial = some e → { s with serial := none }.Running false → s.RealReady e.vector →
    ∃ b, step s = .next ({ s with serial := none }.entered e b).settle
      ∧ Bus.Stored s.memCtx s.bus s.frameAddr (s.frameBytes (if e.fault then s.dec.start else if e.soft then s.nextPc else s.eip)) b

/-- LOCK before an instruction that does not take it, or without a memory destination (44_instructions_referenced.md R536,
60_exceptions.md R632): invalid opcode. A privileged instruction outside level 0 (60_exceptions.md R649): a general protection fault
with code 0. PUSHF, POPF and INT n in virtual-8086 mode with IOPL below 3 and without the
extension: the same (log 21). In every case nothing of the instruction is done. Which exception comes first where an instruction
would take several is the model's choice (log 53): LOCK before the privilege check, and that one before DR7.GD and the check of the register named. So is
the level of an SMM handler that has set CR0.PE, which R649 has run as CPL 0 (log 10). -/
def Obligations.InstructionsChecked : Prop :=
  ∀ (i : Instr) (s : State),
    (i.refusesLock = true → s.dec.lock = true → exec i s = except s invalidOpcode s)
    ∧ (i.isPrivileged = true → s.noLock → s.level ≠ 0 → exec i s = except s (generalProtection 0) s)
    ∧ (i.needsIopl = true → s.noLock → s.v86 = true → s.vme = false → s.iopl ≠ 3 → exec i s = except s (generalProtection 0) s)

/-- Instructions and values that this part, mode or register does not have. Invalid opcode (60_exceptions.md R632;
44_instructions_referenced.md R545, R547; 43_instructions_new.md R493, R495): RSM outside SMM or without SL technology, CPUID without
the extensions, a control or test register that does not exist. General protection (44_instructions_referenced.md R545, 10_state.md
R54, R57): PG without PE, NW without CD, a reserved bit of CR4. The registers are as before. -/
def Obligations.OperandsChecked : Prop :=
  (∀ s : State, s.noLock →
    (s.part.hasSL = false ∨ s.inSMM = false → exec .rsm s = except s invalidOpcode s)
    ∧ (s.part.hasExt = false → exec .cpuid s = except s invalidOpcode s)
    ∧ (s.level = 0 → ∀ (r : Reg) (n : BitVec 3),
        (n ∈ [1#3, 5#3, 6#3, 7#3] ∨ (n = 4#3 ∧ s.part.hasExt = false) →
          exec (.movRCr r n) s = except s invalidOpcode s ∧ exec (.movCrR n r) s = except s invalidOpcode s)
        ∧ (n ∈ [0#3, 1#3, 2#3] →
          exec (.movRTr r n) s = except s invalidOpcode s ∧ exec (.movTrR n r) s = except s invalidOpcode s)))
  ∧ ∀ (r : Reg) (s : State), s.noLock → s.level = 0 →
    let v := s.regs.get r
    ((v.getLsbD 31 = true ∧ v.getLsbD 0 = false) ∨ (v.getLsbD 29 = true ∧ v.getLsbD 30 = false) →
      exec (.movCrR 0 r) s = except s (generalProtection 0) s)
    ∧ (s.part.hasExt = true → (∃ i, i < 32 ∧ i ∉ [0, 1, 4] ∧ v.getLsbD i = true) →
      exec (.movCrR 4 r) s = except s (generalProtection 0) s)

/-- Accesses that the segment or the alignment check refuses (20_memory.md R148, R157; 60_exceptions.md R630, R633), of the 16- and 32-bit
MOV load and store: outside the limit, or without the right, #SS through SS and #GP through another segment; after these checks
(20_memory.md R155), misaligned at level 3 with AM and AC set, an alignment check. The registers and memory are as before. R157 and R630
name the limit and rights checks and leave them to `Base386`: what they refuse, and that they end in #SS or #GP with code 0, in real mode too,
is the family's (PRESUMED, log 30). -/
def Obligations.AccessTraps : Prop :=
  ∀ (os : OpSize) (r : Reg) (m : MemOp) (s : State), s.noLock →
    let off := eaOffset s.regs m.ea
    let e := if m.seg = .ss then stackFault 0 else generalProtection 0
    (¬ s.segAdmits m.seg off (OpSize.bytes os) false → exec (.movRRm os r (.mem m)) s = except s e s)
    ∧ (¬ s.segAdmits m.seg off (OpSize.bytes os) true → exec (.movRmR os (.mem m) r) s = except s e s)
    ∧ (s.segAdmits m.seg off (OpSize.bytes os) false → ¬ s.aligned ((s.segs.get m.seg).base + off) (OpSize.bytes os) →
        exec (.movRRm os r (.mem m)) s = except s alignmentCheck s)
    ∧ (s.segAdmits m.seg off (OpSize.bytes os) true → ¬ s.aligned ((s.segs.get m.seg).base + off) (OpSize.bytes os) →
        exec (.movRmR os (.mem m) r) s = except s alignmentCheck s)

/-- NMI and INTR at an instruction boundary in real mode, also from halt (60_exceptions.md R621, R622, R640, R641, R645;
42_bus_transactions.md R410). NMI comes before INTR: vector 2, and further NMIs wait; it ends a shutdown whatever blocks it else. INTR
with IF: the buffered writes reach the bus, on a 32-bit bus in their order and one cycle each, then two locked interrupt acknowledge
cycles run, the first to address 4, the second to address 0 with the vector, which is then delivered, the prefetch queue being emptied
(20_memory.md R184). That buffered writes settle at the
end of the step is the model's choice (log 11). -/
def Obligations.ExternalInterrupts : Prop :=
  ∀ s : State, s.Running true → s.BelowSmi →
    (s.pend.nmi = true → (s.shutdown = true ∨ (s.nmiBlocked = false ∧ s.inNmi = false ∧ s.ssShadow = false)) → s.RealReady 2 →
      ∃ b, step s = .next ({ s with shutdown := false, inNmi := true, pend := { s.pend with nmi := false } }.entered
          (externalInterrupt 2) b).settle
        ∧ Bus.Stored s.memCtx s.bus s.frameAddr (s.frameBytes s.eip) b)
    ∧ ((s.pend.nmi = false ∨ s.nmiBlocked = true ∨ s.inNmi = true ∨ s.ssShadow = true) → s.shutdown = false →
      s.pins.intr = true → s.if_ = true → s.shadow = false → s.RealReady s.pins.intVector →
      ∃ b, step s = .next (s.entered (externalInterrupt s.pins.intVector) b).settle
        ∧ Bus.Stored s.memCtx { s.bus with vector := s.pins.intVector } s.frameAddr (s.frameBytes s.eip) b
        ∧ ∃ (later drained : List BusCycle) (a2 a1 : BusCycle), b.trace = later ++ a2 :: a1 :: (drained.reverse ++ s.bus.trace)
          ∧ (∀ x ∈ drained, x.kind = .memWrite ∨ x.kind = .ioWrite)
          ∧ (∀ e ∈ s.bus.wb, ∃ x ∈ drained, x.addr = e.addr ∧ x.data = e.data)
          ∧ (s.platform.bus8 = [] → s.platform.bus16 = [] → s.platform.ioBus8 = [] → s.platform.ioBus16 = [] →
            drained.map (fun x => (x.kind, x.addr, x.be, x.data))
              = s.bus.wb.map (fun e => ((if e.io then CycleKind.ioWrite else .memWrite), e.addr, ~~~e.lanes, e.data)))
          ∧ a1.kind = .intAck ∧ a1.lock = true ∧ a1.addr = 1 ∧ a1.be = 0xE#4
          ∧ a2.kind = .intAck ∧ a2.lock = true ∧ a2.addr = 0 ∧ a2.be = 0xE#4
          ∧ a2.data.extractLsb' 0 8 = s.pins.intVector)

/-! ### Special registers -/

/-- MOV from control, debug and test registers at level 0 (44_instructions_referenced.md R545 to R547): the register takes the
special register's value, and nothing else changes but the six status flags (10_state.md R43's places). The model's choice: these flags take
free values (DESIGN CHOICE, log 19, the strict reading of 93_implementation_defined.md U23), where R545 has a model leave them unchanged. Where
DR7 protects the debug registers, their MOV is a debug fault (60_exceptions.md R637; bit 13 of DR7 and of DR6 are the family's, PRESUMED,
log 32). -/
def Obligations.MovFromSpecial : Prop :=
  ∀ (r : Reg) (n : BitVec 3) (s : State), s.noLock → s.level = 0 →
    (∀ v : DWord, (n = 0 ∧ v = s.cr0) ∨ (n = 2 ∧ v = s.cr2) ∨ (n = 3 ∧ v = s.cr3) ∨ (n = 4 ∧ v = s.cr4 ∧ s.part.hasExt = true) →
      ∃ fl, sameOtherFlags fl s.eflags
        ∧ exec (.movRCr r n) s = .next ({ s with regs := s.regs.set r v, eflags := fl, bus := s.bus.drawn }.complete none))
    ∧ (s.dr7.getLsbD 13 = true → exec (.movRDr r n) s = except s (debugFault 0x2000#32) s)
    ∧ (s.dr7.getLsbD 13 = false → ∀ v : DWord, (n = 0 ∧ v = s.dr0) ∨ (n = 1 ∧ v = s.dr1) ∨ (n = 2 ∧ v = s.dr2) ∨ (n = 3 ∧ v = s.dr3)
        ∨ ((n = 4 ∨ n = 6) ∧ v = s.dr6) ∨ ((n = 5 ∨ n = 7) ∧ v = s.dr7) →
      ∃ fl, sameOtherFlags fl s.eflags
        ∧ exec (.movRDr r n) s = .next ({ s with regs := s.regs.set r v, eflags := fl, bus := s.bus.drawn }.complete none))
    ∧ ∀ v : DWord, (n = 3 ∧ v = s.tr3) ∨ (n = 4 ∧ v = s.tr4) ∨ (n = 5 ∧ v = s.tr5) ∨ (n = 6 ∧ v = s.tr6) ∨ (n = 7 ∧ v = s.tr7) →
      ∃ fl, sameOtherFlags fl s.eflags
        ∧ exec (.movRTr r n) s = .next ({ s with regs := s.regs.set r v, eflags := fl, bus := s.bus.drawn }.complete none)

/-- MOV to a control register at level 0, of a value it accepts (44_instructions_referenced.md R545; 10_state.md R48, R54, R56, R57;
20_memory.md R185): the register takes the value in the bits that exist, ET reads 1; a write of CR3, or one of CR0 that changes PG,
PE or WP, leaves no translation in the TLB, another write leaves the TLB as it was; clearing PE gives the six segments the limit of real
mode (20_memory.md R156), and nothing else of them changes (log 7). The model's choices: the prefetch queue stays as it is, also where PE
or PG changes (log 27); the six status flags take free values (log 19); VME and PVI of CR4 can be written (log 21). -/
def Obligations.MovToControl : Prop :=
  ∀ (r : Reg) (s : State), s.noLock → s.level = 0 →
    let v := s.regs.get r
    let new := (v &&& 0xE005003F#32) ||| 0x10#32
    ((v.getLsbD 31 = true → v.getLsbD 0 = true) → (v.getLsbD 29 = true → v.getLsbD 30 = true) →
      ∃ fl tlb, sameOtherFlags fl s.eflags
        ∧ exec (.movCrR 0 r) s = .next ({ s with
          cr0 := new
          segs := if s.pe = true ∧ new.getLsbD 0 = false then s.segs.withLimit (if s.inSMM then 0xFFFFFFFF#32 else 0xFFFF#32)
            else s.segs
          eflags := fl, bus := { s.bus.drawn with tlb := tlb } }.complete none)
        ∧ (if new.getLsbD 31 = s.pg ∧ new.getLsbD 0 = s.pe ∧ new.getLsbD 16 = s.wp then tlb = s.bus.tlb
           else ∀ lin, tlbFind tlb lin = none))
    ∧ (∃ fl, sameOtherFlags fl s.eflags
        ∧ exec (.movCrR 2 r) s = .next ({ s with cr2 := v, eflags := fl, bus := s.bus.drawn }.complete none))
    ∧ (∃ fl tlb, sameOtherFlags fl s.eflags ∧ (∀ lin, tlbFind tlb lin = none)
        ∧ exec (.movCrR 3 r) s = .next ({ s with
          cr3 := v &&& 0xFFFFF018#32, eflags := fl, bus := { s.bus.drawn with tlb := tlb } }.complete none))
    ∧ (s.part.hasExt = true → v &&& 0xFFFFFFEC#32 = 0 →
        ∃ fl, sameOtherFlags fl s.eflags
          ∧ exec (.movCrR 4 r) s = .next ({ s with cr4 := v, eflags := fl, bus := s.bus.drawn }.complete none))

/-- MOV to a debug or a test register at level 0 (44_instructions_referenced.md R546, R547; 10_state.md R69; 70_reset_and_hazards.md
R774): the register takes the value, DR6 and DR7 in the bits that exist, and nothing else changes but the six status flags and, for the test
registers, the cache or the TLB. The family's (PRESUMED): which bits of DR6 and DR7 exist, and that DR4 and DR5 are DR6 and DR7 under other
numbers (log 38); the debug fault where DR7 protects the debug registers (log 32). The model's choices (DESIGN CHOICE): the six status flags
take free values, where R545 has a model leave them unchanged (log 19); a write to TR3 to TR7 runs at all, where R547 and
93_implementation_defined.md U15 have a model refuse it, and may change the cache (TR3 to TR5) or the TLB (TR6 and TR7) in a free way
(log 20). -/
def Obligations.MovToDebugAndTest : Prop :=
  ∀ (r : Reg) (s : State), s.noLock → s.level = 0 →
    let v := s.regs.get r
    let d6 := v &&& 0x0000E00F#32
    let d7 := v &&& 0xFFFF23FF#32
    let debug := fun (n : BitVec 3) (t : State) => ∃ fl, sameOtherFlags fl s.eflags
      ∧ exec (.movDrR n r) s = .next ({ t with eflags := fl, bus := s.bus.drawn }.complete none)
    let cacheTest := fun (n : BitVec 3) (t : State) => ∃ fl cache, sameOtherFlags fl s.eflags
      ∧ exec (.movTrR n r) s = .next ({ t with eflags := fl, bus := { s.bus.drawn with cache := cache } }.complete none)
    let tlbTest := fun (n : BitVec 3) (t : State) => ∃ fl tlb, sameOtherFlags fl s.eflags
      ∧ exec (.movTrR n r) s = .next ({ t with eflags := fl, bus := { s.bus.drawn with tlb := tlb } }.complete none)
    (s.dr7.getLsbD 13 = true → ∀ n, exec (.movDrR n r) s = except s (debugFault 0x2000#32) s)
    ∧ (s.dr7.getLsbD 13 = false →
      debug 0 { s with dr0 := v } ∧ debug 1 { s with dr1 := v } ∧ debug 2 { s with dr2 := v } ∧ debug 3 { s with dr3 := v }
      ∧ debug 4 { s with dr6 := d6 } ∧ debug 5 { s with dr7 := d7 } ∧ debug 6 { s with dr6 := d6 } ∧ debug 7 { s with dr7 := d7 })
    ∧ cacheTest 3 { s with tr3 := v } ∧ cacheTest 4 { s with tr4 := v } ∧ cacheTest 5 { s with tr5 := v }
    ∧ tlbTest 6 { s with tr6 := v } ∧ tlbTest 7 { s with tr7 := v }

/-! ### Bus cycles -/

/-- The rows that carry a message (30_encoding.md R230, R231; 42_bus_transactions.md R410 to R417), run with the bus free: the
buffers drain, then the cycle runs with the byte enables and address of the table. Interrupt acknowledge runs twice, locked, with the
enables and addresses of 30_encoding.md R232, and latches the vector; shutdown also stops the processor (60_exceptions.md R641). The model's
choices: a row of the table is a request of the bus unit (log 2); a shutdown drops the traps and matched data breakpoints still due
(log 51). -/
def Obligations.MessageRows : Prop :=
  ∀ s : State, s.BusReady →
    (∀ op, ∃ b, exec (.intAckCycle op) s = .next { s with bus := b } ∧ Bus.Drained s.memCtx s.bus b
      ∧ Bus.SameControl { s.bus with vector := s.pins.intVector } b
      ∧ ∃ a2 a1 rest, b.trace = a2 :: a1 :: rest ∧ a1.kind = .intAck ∧ a1.lock = true ∧ a1.addr = 1 ∧ a1.be = 0xE#4
        ∧ a2.kind = .intAck ∧ a2.lock = true ∧ a2.addr = 0 ∧ a2.be = 0xE#4)
    ∧ (∀ op, ∃ b, exec (.specialCycle op) s = .next { s with bus := b } ∧ Bus.DrainedOnly s.memCtx s.bus b ∧ b.lastSpecial op.be op.addr)
    ∧ (∃ b, exec .shutdownCycle s = .next { s with bus := b }.shutDown
        ∧ Bus.DrainedOnly s.memCtx s.bus b ∧ b.lastSpecial 0xE#4 0)
    ∧ (∃ b, exec .flushCycle s = .next { s with bus := b } ∧ Bus.DrainedOnly s.memCtx s.bus b ∧ b.lastSpecial 0xD#4 0)
    ∧ (∃ b, exec .haltCycle s = .next { s with bus := b } ∧ Bus.DrainedOnly s.memCtx s.bus b ∧ b.lastSpecial 0xB#4 0)
    ∧ (∃ b, exec .writeBackCycle s = .next { s with bus := b } ∧ Bus.DrainedOnly s.memCtx s.bus b ∧ b.lastSpecial 0x7#4 0)
    ∧ (s.part.hasSL = true →
        ∃ b, exec .stopGrantCycle s = .next { s with bus := b } ∧ Bus.DrainedOnly s.memCtx s.bus b ∧ b.lastSpecial 0xB#4 4)
    ∧ (s.wbMode = true →
        (∃ b, exec .firstFlushAckCycle s = .next { s with bus := b } ∧ Bus.DrainedOnly s.memCtx s.bus b
          ∧ b.lastSpecial 0x7#4 (s.part.flushAckAddress.extractLsb' 2 30))
        ∧ ∃ b, exec .secondFlushAckCycle s = .next { s with bus := b } ∧ Bus.DrainedOnly s.memCtx s.bus b
          ∧ b.lastSpecial 0xD#4 (s.part.flushAckAddress.extractLsb' 2 30))

/-- The rows that move data (30_encoding.md R230; 40_signal_interface.md R265; 42_bus_transactions.md R400, R420, R422), run with the
bus free: the buffers drain first; a memory or code read latches memory's bytes on the enabled lanes, an I/O read those of the
device's queued data, and the other lanes of the latch stay; a memory write changes exactly the enabled bytes; an I/O write changes no
memory and is the newest bus cycle. That a row of the table is a request of the bus unit, and its operands, are the model's choice
(log 2). -/
def Obligations.TransferRows : Prop :=
  ∀ (op : BusOp) (s : State), s.BusReady →
    let latched := fun (b : Bus) (byte : BitVec 2 → Byte) => ∀ k : BitVec 2, b.dataIn.extractLsb' (8 * k.toNat) 8 =
      if op.be.getLsbD k.toNat = false then byte k else s.bus.dataIn.extractLsb' (8 * k.toNat) 8
    (∀ i, i = .memReadCycle op ∨ i = .codeReadCycle op →
      ∃ b, exec i s = .next { s with bus := b } ∧ Bus.DrainedOnly s.memCtx s.bus b
        ∧ latched b fun k => s.bus.memView s.memCtx (op.addr ++ k))
    ∧ (∃ b, exec (.ioReadCycle op) s = .next { s with bus := b } ∧ Bus.Drained s.memCtx s.bus b
        ∧ Bus.SameControl { s.bus with ioIn := b.ioIn, draws := b.draws } b
        ∧ ∀ d rest, s.bus.ioIn = d :: rest → latched b (fun k => d.extractLsb' (8 * k.toNat) 8) ∧ b.ioIn = rest)
    ∧ (∃ b, exec (.ioWriteCycle op) s = .next { s with bus := b } ∧ Bus.DrainedOnly s.memCtx s.bus b
        ∧ ∃ c rest, b.trace = c :: rest ∧ c.kind = .ioWrite ∧ c.addr = op.addr ∧ c.data = op.data
          ∧ (s.platform.ioBus8 = [] → s.platform.ioBus16 = [] → c.be = op.be))
    ∧ ∃ b, exec (.memWriteCycle op) s = .next { s with bus := b } ∧ b.memWf = true ∧ b.wb = [] ∧ Bus.SameControl s.bus b
        ∧ b.cache = s.bus.cache
        ∧ (∀ (k : BitVec 2), op.be.getLsbD k.toNat = false →
            b.physByte s.memCtx (op.addr ++ k) = op.data.extractLsb' (8 * k.toNat) 8)
        ∧ ∀ a, (a.extractLsb' 2 30 = op.addr → op.be.getLsbD (a.extractLsb' 0 2).toNat = true) →
            b.physByte s.memCtx a = s.bus.memView s.memCtx a

/-- The bus-cycle rows that do not run (as requests of the bus unit, the model's choice, log 2). The definition 101b is reserved
(30_encoding.md R230): the row Reserved is refused in every state. The cycles that only some members run (30_encoding.md R231) are
refused on the others. Every other row waits while the bus is not free (42_bus_transactions.md R455, R460): the request leaves the
state as it was, which is how the model writes a wait (log 36). -/
def Obligations.RowsRefusedOrWaiting : Prop :=
  ∀ s : State, exec .reservedCycle s = .refused .reservedCycle
    ∧ (s.part.hasSL = false → exec .stopGrantCycle s = .refused .cycleNotOnMember)
    ∧ (s.wbMode = false → exec .firstFlushAckCycle s = .refused .cycleNotOnMember
        ∧ exec .secondFlushAckCycle s = .refused .cycleNotOnMember)
    ∧ ∀ i : Instr, i.isBusCycle = true → i ≠ .reservedCycle → s.busFree = false →
        (s.part.hasSL = true ∨ i ≠ .stopGrantCycle) →
        (s.wbMode = true ∨ (i ≠ .firstFlushAckCycle ∧ i ≠ .secondFlushAckCycle)) → exec i s = .next s

/-- The bus-unit state machine (42_bus_transactions.md R440, R450, R455, R460, R461): one clock takes it only along the transitions of
Table 5-3. BOFF# takes it to Tb from every state but Ti, with nothing transferred; a cycle starts only with HOLD, AHOLD and BOFF#
deasserted, HOLD being ignored under LOCK#; without a ready a cycle goes on. When BOFF# is released the transfers in progress are still
there, behind the write-back of a line snooped meanwhile (92_eei_decisions.md D18), which goes first only with HOLD and AHOLD
deasserted, too: with either asserted the stopped cycle starts again at once, the model's choice (log 50). -/
def Obligations.BusStates : Prop :=
  ∀ (b : Bus) (c : MemCtx) (own keep : Bool) (k : ClockIn),
    let t := b.clock c own keep k
    let starts := k.ahold = false ∧ k.boff = false ∧ (k.hold = false ∨ ∃ x xs, t.cur = x :: xs ∧ x.cont = true)
    let idle := t.trace = b.trace ∧ t.cur.map (·.parts) = b.cur.map (·.parts)
    (b.phase = .ti → t.phase = .ti ∨ (t.phase = .t1 ∧ starts))
    ∧ (b.phase = .tb → t.phase = (if k.boff then .tb else .t1b) ∧ t.trace = b.trace
        ∧ (idle ∨ (k.boff = false ∧ k.ahold = false ∧ k.hold = false ∧ ∃ line d xs, t.cur = writeBackXfer line d true :: xs ∧ xs.map (·.parts) = b.cur.map (·.parts))))
    ∧ (b.cur ≠ [] →
        (b.phase = .t1 ∨ b.phase = .t1b → t.phase = (if k.boff then .tb else .t2) ∧ idle)
        ∧ (b.phase = .t2 → k.boff = true → t.phase = .tb ∧ idle)
        ∧ (b.phase = .t2 → k.boff = false → k.rdy = false → k.brdy = false → t.phase = .t2 ∧ idle)
        ∧ (b.phase = .t2 → k.boff = false → t.phase ≠ .t1b ∧ t.phase ≠ .tb ∧ (t.phase = .t1 → starts)))

/-! ### System management mode -/

/-- SMM entry (60_exceptions.md R660 to R664): the state-save map at SMBASE + FE00h holds the registers where the map of R661 (Figure
6-4) puts them, and the processor stands at offset 8000h of SMBASE with the values of R662 (Table 6-1): flags 2, paging and protection
off, flat data segments, CS at SMBASE with the limit FFFFFFFFh; NMI is blocked. CR2, CR3, CR4, the table registers, LDTR, TR, DR0 to DR3,
the FPU, the test registers, the TLB and which lines the cache holds stay (R664), and no byte outside the map changes, in SMRAM or as the
interrupted program sees it. What the general registers hold is open. That the prefetch queue empties is the model's choice
(log 27). -/
def Obligations.SmmEntry : Prop :=
  ∀ (io : Option IoInfo) (s : State), s.SmiReady →
    ∃ t, enterSmm io s = .ok () t
      ∧ (let img := t.mapImage
         at32 img 0x1FC = s.cr0 ∧ at32 img 0x1F8 = s.cr3 ∧ at32 img 0x1F4 = s.eflags ∧ at32 img 0x1F0 = s.eip
         ∧ at32 img 0x1EC = s.regs.edi ∧ at32 img 0x1E8 = s.regs.esi ∧ at32 img 0x1E4 = s.regs.ebp ∧ at32 img 0x1E0 = s.regs.esp
         ∧ at32 img 0x1DC = s.regs.ebx ∧ at32 img 0x1D8 = s.regs.edx ∧ at32 img 0x1D4 = s.regs.ecx ∧ at32 img 0x1D0 = s.regs.eax
         ∧ at32 img 0x1CC = s.dr6 ∧ at32 img 0x1C8 = s.dr7 ∧ at16 img 0x1C4 = s.tr.sel ∧ at16 img 0x1C0 = s.ldtr.sel
         ∧ at16 img 0x1BC = s.segs.gs.sel ∧ at16 img 0x1B8 = s.segs.fs.sel ∧ at16 img 0x1B4 = s.segs.ds.sel
         ∧ at16 img 0x1B0 = s.segs.ss.sel ∧ at16 img 0x1AC = s.segs.cs.sel ∧ at16 img 0x1A8 = s.segs.es.sel
         ∧ at16 img 0x102 = (if s.halted then 1#16 else 0#16) ∧ at16 img 0x100 = 0 ∧ at32 img 0xFC = s.part.smmRevision
         ∧ at32 img 0xF8 = s.smbase)
      ∧ t.inSMM = true ∧ t.eip = 0x8000#32 ∧ t.eflags = 2#32 ∧ t.segs.cs.base = s.smbase
      ∧ t.segs.cs.sel = s.smbase.extractLsb' 4 16 ∧ t.segs.cs.limit = 0xFFFFFFFF#32
      ∧ (∀ g ∈ [t.segs.ds, t.segs.es, t.segs.fs, t.segs.gs, t.segs.ss], g.sel = 0 ∧ g.base = 0 ∧ g.limit = 0xFFFFFFFF#32)
      ∧ t.cr0 = s.cr0 &&& 0x7FFFFFF2#32 ∧ t.dr7 = s.dr7 &&& 0x3000#32 ∧ t.smbase = s.smbase ∧ t.nmiBlocked = true
      ∧ t.pend.smi = false ∧ t.bus.fetchq = .empty ∧ t.fpu = s.fpu ∧ t.cr2 = s.cr2 ∧ t.cr3 = s.cr3 ∧ t.cr4 = s.cr4
      ∧ t.gdtr = s.gdtr ∧ t.idtr = s.idtr ∧ t.ldtr = s.ldtr ∧ t.tr = s.tr
      ∧ t.dr0 = s.dr0 ∧ t.dr1 = s.dr1 ∧ t.dr2 = s.dr2 ∧ t.dr3 = s.dr3
      ∧ t.tr3 = s.tr3 ∧ t.tr4 = s.tr4 ∧ t.tr5 = s.tr5 ∧ t.tr6 = s.tr6 ∧ t.tr7 = s.tr7 ∧ t.bus.tlb = s.bus.tlb
      ∧ (∀ a, t.bus.cache.lookup s.part.bigCache a = s.bus.cache.lookup s.part.bigCache a)
      ∧ ∀ a : Addr, (∀ k, k < 512 → a ≠ maskA20 s.memCtx (smmAddr s.smbase k)) →
          t.bus.view s.memCtx a = s.view a ∧ t.bus.smram.get a.toNat = s.bus.smram.get a.toNat

/-- RSM in SMM, where reading the map fills no line (60_exceptions.md R661, R680; 43_instructions_new.md R493). An invalid map (R683: an SMBASE
not on a 32KB boundary, a reserved bit of CR4, NW without CD or PG without PE in CR0): the shutdown special cycle and the shutdown state, still
in SMM. Else every register takes its value of the map (Figure 6-4), SMM is left and the prefetch queue is emptied (R684); with FFh in the
I/O restart slot the I/O instruction before the SMI# is to run again (R675); with bit 0 of the auto-HALT slot set and the processor halted at
the SMI#, it is halted again, after a halt special cycle (R672); with an SMI# latched it enters SMM at once (R654). What has no effect
in the spec is refused: bit 0 of the auto-HALT slot set by the handler (R672), an I/O restart slot neither 0 nor FFh (R675), another part of
the map changed (R661; log 23). The model's choices: what the map has no place for comes back from where SMM entry kept it inside the
processor, CR4 from the reserved part of the map, where R683's check of it looks too (log 22); no single-step trap of RSM's own is due, whatever TF was in the handler
(log 47); an I/O restart with no I/O instruction before moves EIP back by a free length (log 23); the SMM that a latched SMI# enters comes before
a FLUSH# (log 54), has the I/O instruction of the first for its own restart (log 23), and saves as halted what the auto-HALT slot halts (log 42);
a shutdown drops the traps and matched data breakpoints still due (log 51). -/
def Obligations.RsmReturns : Prop :=
  ∀ s : State, s.noLock → s.part.hasSL = true → s.inSMM = true → s.BusReady → s.cd = true →
    s.smbase.extractLsb' 0 15 = 0 →
    let img := s.mapImage
    let cr0 := at32 img 0x1FC
    let invalid := (at32 img 0xF8).extractLsb' 0 15 ≠ 0 ∨ imageCr4 img &&& 0xFFFFFFEC#32 ≠ 0
      ∨ (cr0.getLsbD 31 = true ∧ cr0.getLsbD 0 = false) ∨ (cr0.getLsbD 29 = true ∧ cr0.getLsbD 30 = false)
    let rehalt := (at16 img 0x102).getLsbD 0
    let slot := at16 img 0x100
    (invalid → ∃ b, exec .rsm s = .next { s with bus := b }.shutDown
      ∧ Bus.Quiet s.memCtx s.bus b ∧ b.wb = [] ∧ b.lastSpecial 0xE#4 0)
    ∧ (¬ invalid → rehalt = true → s.haltedAtSmi = false → exec .rsm s = .refused .rsmHaltSlot)
    ∧ (¬ invalid → (rehalt = true → s.haltedAtSmi = true) →
      (slot ≠ 0 → slot ≠ 0xFF → exec .rsm s = .refused .ioRestartSlot)
      ∧ (slot = 0 ∨ slot = 0xFF →
        (smmUnaltered 0 img s.smmImage = false → exec .rsm s = .refused .saveMapAltered)
        ∧ (smmUnaltered 0 img s.smmImage = true →
          ∃ b, Bus.Quiet s.memCtx s.bus b ∧ b.wb = []
            ∧ (let u := if slot = 0xFF then (s.returned img b).ioRestarted s.ioAtSmi else s.returned img b
               (s.smiLatched = false → rehalt = false → exec .rsm s = .next u)
               ∧ (s.smiLatched = false → rehalt = true →
                 ∃ b', exec .rsm s = .next { u with halted := true, clock := .autoHaltPowerDown, bus := b' }
                   ∧ Bus.DrainedOnly u.memCtx u.bus b' ∧ b'.lastSpecial 0xB#4 0)
               ∧ (s.smiLatched = true →
                 ∃ t, enterSmm s.ioAtSmi { u with halted := rehalt } = .ok () t ∧ exec .rsm s = .next t)))))

/-- SMM entry and RSM are inverse (60_exceptions.md R660, R680; where what the map of R661 has no place for is kept is the model's choice,
log 22): an SMI# followed at once by RSM, with no restart asked for and the cache disabled, gives back every register, the test
registers among them (10_state.md R69), the halt state and the floating-point unit. -/
def Obligations.SmmRoundTrip : Prop :=
  ∀ (io : Option IoInfo) (s t : State), s.SmiReady → RegInv s → s.cd = true → s.smiLatched = false →
    enterSmm io s = .ok () t →
    ∃ u, exec .rsm t = .next u
      ∧ u.regs = s.regs ∧ u.eip = s.eip ∧ u.eflags = s.eflags ∧ u.segs = s.segs ∧ u.ldtr = s.ldtr ∧ u.tr = s.tr
      ∧ u.gdtr = s.gdtr ∧ u.idtr = s.idtr ∧ u.cr0 = s.cr0 ∧ u.cr2 = s.cr2 ∧ u.cr3 = s.cr3 ∧ u.cr4 = s.cr4
      ∧ u.dr0 = s.dr0 ∧ u.dr1 = s.dr1 ∧ u.dr2 = s.dr2 ∧ u.dr3 = s.dr3 ∧ u.dr6 = s.dr6 ∧ u.dr7 = s.dr7
      ∧ u.tr3 = s.tr3 ∧ u.tr4 = s.tr4 ∧ u.tr5 = s.tr5 ∧ u.tr6 = s.tr6 ∧ u.tr7 = s.tr7
      ∧ u.cpl = s.cpl ∧ u.shadow = s.shadow ∧ u.ssShadow = s.ssShadow ∧ u.trapPending = s.trapPending ∧ u.taskTrap = s.taskTrap
      ∧ u.dbgHits = s.dbgHits
      ∧ u.smbase = s.smbase ∧ u.inSMM = false ∧ u.halted = s.halted ∧ u.fpu = s.fpu
      ∧ u.fpErrorPending = s.fpErrorPending

/-! ### Steps -/

/-- A STEP RUNS THE DECODED INSTRUCTION: with no input, no request and no event before it, when the bytes at CS:EIP are fetched and
decode to `i`, the step is `i` run with EIP past its bytes, after which buffered writes settle; fetching changes the bus unit
only. That buffered writes settle at the end of a step (log 11), and that a prefix is a step of its own (log 1), are the model's
choices. -/
def Obligations.StepRunsDecoded : Prop :=
  ∀ (s t : State) (i : Instr) (rest : List Byte) (n : Nat), s.Running false → s.NoEvent →
    fetchDecode 15 [] s.begin = .ok (.ok i rest, n) t →
    step s = settleOutcome (exec i (t.advance n)) ∧ ∃ b, t = { s.begin with bus := b }

/-- The same from the bytes that the processor sees at CS:EIP (10_state.md R42, 30_encoding.md R227), with paging off, the cache
disabled, the prefetch queue fresh and the bytes within the limit and the length: where they decode to `i` and no shorter part of
them is enough. The model's choices as before: buffered writes settle at the end of a step (log 11), a prefix is a step of its own
(log 1). So are these: the bytes wrap at offset FFFFh of a 16-bit segment in real mode too, with no limit fault there, which
92_eei_decisions.md D4 leaves to Base386 (log 49), and RF is cleared once the bytes are taken (log 32). -/
def Obligations.StepRunsBytes : Prop :=
  ∀ (s : State) (i : Instr) (bs : List Byte), s.Running false → s.NoEvent → s.Flat → s.cd = true → s.FetchFresh →
    decode s.begin.decodeCtx bs = .ok i [] → (∀ k, k < bs.length → decode s.begin.decodeCtx (bs.take k) = .more) →
    s.begin.dec.count + bs.length ≤ 15 →
    (∀ k, k < bs.length → s.segs.cs.inLimit false (s.codeOffset k) 1 = true
      ∧ s.view (s.codeAddr k) = bs.getD k 0) →
    ∃ b, Bus.Fetched s.memCtx s.bus b
      ∧ step s = settleOutcome (exec i (State.advance { s.begin with bus := b } bs.length))

/-! ### Cache, write buffers, paging -/

/-- A write that misses the cache (41_cache_operations.md R371): the cache stays as it is, and memory takes the bytes, at once or
when the buffered writes reach it. -/
def Obligations.WriteMiss : Prop :=
  ∀ (c : MemCtx) (follows more : Bool) (ch : PChunk) (bs : List Byte) (b : Bus), b.memWf = true → c.busFree = true → b.script = [] →
    bs.length = ch.len → (byteOf (maskA20 c ch.pa)).toNat + ch.len ≤ 16 → b.cache.lookup c.big (maskA20 c ch.pa) = none →
    ∃ b', writeChunk c follows more ch bs b = .ok () b' ∧ b'.cache = b.cache ∧ b'.memWf = true
      ∧ (∀ i, i < ch.len → b'.memView c (maskA20 c ch.pa + BitVec.ofNat 32 i) = bs.getD i 0)
      ∧ ∀ a, (∀ i, i < ch.len → a ≠ maskA20 c ch.pa + BitVec.ofNat 32 i) → b'.memView c a = b.memView c a

/-- A write that hits the cache (41_cache_operations.md R370, R385; 45_family_variants.md R582, R591; 70_reset_and_hazards.md R768): the
line takes the bytes; in write-back mode an exclusive line becomes modified, and neither it nor a modified one is written to memory;
with CD = NW = 1 no line is (a shared line then stays shared though memory does not take the bytes, log 14); else the line keeps its
state and memory takes the bytes too. -/
def Obligations.WriteHit : Prop :=
  ∀ (c : MemCtx) (follows more : Bool) (ch : PChunk) (bs : List Byte) (b : Bus) (st : Mesi), b.memWf = true → c.busFree = true →
    b.script = [] → bs.length = ch.len → (byteOf (maskA20 c ch.pa)).toNat + ch.len ≤ 16 → 0 < ch.len →
    Cache.stateAt b.cache c.big (maskA20 c ch.pa) = some st →
    ∃ b', writeChunk c follows more ch bs b = .ok () b' ∧ b'.memWf = true
      ∧ Cache.stateAt b'.cache c.big (maskA20 c ch.pa) = some (if c.wb = true ∧ st = .exclusive then .modified else st)
      ∧ (∀ i, i < ch.len → b'.view c (maskA20 c ch.pa + BitVec.ofNat 32 i) = bs.getD i 0)
      ∧ (∀ a, (∀ i, i < ch.len → a ≠ maskA20 c ch.pa + BitVec.ofNat 32 i) →
          b'.view c a = b.view c a ∧ b'.memView c a = b.memView c a)
      ∧ ∀ i, i < ch.len → b'.memView c (maskA20 c ch.pa + BitVec.ofNat 32 i) =
          if (c.wb = true ∧ (st = .modified ∨ st = .exclusive)) ∨ (c.cd = true ∧ c.nw = true) then
            b.memView c (maskA20 c ch.pa + BitVec.ofNat 32 i)
          else bs.getD i 0

/-- A read that misses and may be cached (41_cache_operations.md R343, R346, R350, R356, R366; 45_family_variants.md R583, R584, R585): the
bytes are memory's; the line is valid afterwards, exclusive in write-back mode with WB/WT# high and else shared, and holds memory's
sixteen bytes; on a 32-bit bus the four doubleword reads of the line run in the order of that rule, and, where the line replaced was
modified, right after them the four doubleword writes of that line, rising, which bring its bytes to memory; the processor sees every
byte as before. In the set of the line no two valid ways hold the same tag, and the line replaced, where it is valid, stands where its
tag says and, unless modified, equals memory. -/
def Obligations.ReadMissFills : Prop :=
  ∀ (c : MemCtx) (more : Bool) (ch : PChunk) (b : Bus),
    let a := maskA20 c ch.pa
    let set := b.cache.entry (setOf c.big a)
    let old := set.way set.victim
    let base := lineAddr c.big old.tag (setOf c.big a)
    b.memWf = true → c.busFree = true → b.script = [] → b.wb = [] → 0 < ch.len →
    (byteOf a).toNat + ch.len ≤ 16 → b.cache.lookup c.big a = none →
    c.cd = false → ch.pcd = false → inRanges c.plat.nonCacheable (lineBase a).toNat = false → c.plat.kenAbort = false →
    c.plat.bus8 = [] → c.plat.bus16 = [] →
    (∀ v w, v ≠ w → (set.way v).valid = true → (set.way w).valid = true → (set.way v).tag ≠ (set.way w).tag) →
    (old.valid = true → setOf c.big base = setOf c.big a ∧ tagOf c.big base = old.tag
      ∧ (old.st ≠ .modified → ∀ x, lineBase x = base → b.view c x = b.physByte c x)) →
    ∃ b', readChunk c .memRead more ch b = .ok ((List.range ch.len).map fun i => b.physByte c (a + BitVec.ofNat 32 i)) b'
      ∧ Cache.stateAt b'.cache c.big a =
          some (if c.wb = true ∧ inRanges c.plat.writeThrough (lineBase a).toNat = false then .exclusive else .shared)
      ∧ b'.memWf = true ∧ b'.wb = [] ∧ (∀ x, b'.view c x = b.view c x)
      ∧ (∀ (i : Nat) (h : i < 16), old.st = .modified → b'.physByte c (base + BitVec.ofNat 32 i) = old.data[i])
      ∧ (∀ x, old.st ≠ .modified ∨ lineBase x ≠ base → b'.physByte c x = b.physByte c x)
      ∧ ∃ c4 c3 c2 c1 back, b'.trace = back ++ c4 :: c3 :: c2 :: c1 :: b.trace
        ∧ [c1, c2, c3, c4].map (·.addr) = [0, 1, 2, 3].map (fun k => a.extractLsb' 2 30 ^^^ k)
        ∧ (∀ x ∈ [c1, c2, c3, c4], x.kind = .memRead)
        ∧ back.reverse.map (fun x => (x.kind, x.be, x.addr)) =
            if old.st = .modified then [0, 1, 2, 3].map fun k => (.memWrite, 0#4, base.extractLsb' 2 30 ||| k) else []

/-- The choice of the way to replace (41_cache_operations.md R365): an invalid way if there is one, the lowest; with all four valid the
LRU bits B2 B1 B0 choose, B0 the pair and B1 or B2 the way in it, as the table of vectors V-LRU has it, and never the way accessed last.
An access to a way, whether or not all four are valid, sets the bits that the rule names and keeps the other. -/
def Obligations.VictimChosen : Prop :=
  (∀ e : CacheSet, (∃ w, (e.way w).valid = false) →
    (e.way e.victim).valid = false ∧ ∀ w, w < e.victim → (e.way w).valid = true)
  ∧ (∀ e : CacheSet, (∀ w, (e.way w).valid = true) →
    (∀ w, (e.touch w).victim ≠ w)
    ∧ (e.lru, e.victim) ∈ [(0#3, 0#2), (1#3, 2#2), (2#3, 1#2), (3#3, 2#2), (4#3, 0#2), (5#3, 3#2), (6#3, 1#2), (7#3, 3#2)])
  ∧ ∀ (e : CacheSet) (w : BitVec 2) (i : Nat), i < 3 → (e.touch w).lru.getLsbD i =
      if i = 0 then decide (w = 0 ∨ w = 1)
      else if i = 1 ∧ (w = 0 ∨ w = 1) then decide (w = 0)
      else if i = 2 ∧ (w = 2 ∨ w = 3) then decide (w = 2)
      else e.lru.getLsbD i

/-- A snoop (41_cache_operations.md R366, R376, R385; 45_family_variants.md R581, R586, R587, R591): on a miss the cache stays. On a hit the
line keeps its tag and bytes: on a write-through cache it becomes invalid, with no bus cycle, but with CD = NW = 1 it stays; in
write-back mode a modified line is queued for write-back, with the bytes it has now, ahead of everything but the write-backs that snoops
have queued before (the model's choice, log 50), unless a write-back of it that no snoop asked for is on the bus already, and becomes
exclusive or, with INV, invalid, and another line becomes invalid only with INV. No other line changes, nor memory. Of the transfers in progress, one about another line stays as
it is, and none loses or gains anything to move; a fill of the line, where a line would become invalid, will not make it valid. In
write-back mode CD = NW = 1 changes nothing of this (R591). -/
def Obligations.SnoopTransitions : Prop :=
  ∀ (b : Bus) (c : MemCtx) (line : BitVec 28) (inv : Bool),
    let a : Addr := line ++ 0#4
    let set := setOf c.big a
    let t := b.snoop c line inv
    (b.cache.lookup c.big a = none → t = { b with cur := t.cur })
    ∧ t.trace = b.trace ∧ t.mem = b.mem ∧ t.smram = b.smram ∧ t.cur.map (·.parts) = b.cur.map (·.parts)
    ∧ (∀ (i : Nat) (x y : Xfer), b.cur[i]? = some x → t.cur[i]? = some y →
        (x.line ≠ line → y = x) ∧ (x.line = line → x.fill = true → c.wb = false ∨ inv = true → y.stale = true))
    ∧ ∀ w, b.cache.lookup c.big a = some w →
      let old := (b.cache.entry set).way w
      let new := (t.cache.entry set).way w
      new.tag = old.tag ∧ new.data = old.data
      ∧ (∀ x v, x ≠ set ∨ v ≠ w → (t.cache.entry x).way v = (b.cache.entry x).way v)
      ∧ (c.wb = false → c.cd = false ∨ c.nw = false → new.st = .invalid ∧ t.queue = b.queue)
      ∧ (c.wb = false → c.cd = true → c.nw = true → new.st = old.st ∧ t.queue = b.queue)
      ∧ (c.wb = true → old.st = .modified →
          new.st = (if inv then .invalid else .exclusive)
          ∧ ((∀ x ∈ b.cur, x.writesBack line = true → x.hitm = true) →
              ∃ pre post, b.queue = pre ++ post ∧ (∀ q ∈ pre, q.isWriteBack = true) ∧ (∀ q ∈ post.head?, q.isWriteBack = false)
                ∧ t.queue = pre ++ .writeBack line old.data :: post)
          ∧ ((∃ x ∈ b.cur, x.writesBack line = true ∧ x.hitm = false) → t.queue = b.queue))
      ∧ (c.wb = true → old.st ≠ .modified → new.st = (if inv then .invalid else old.st) ∧ t.queue = b.queue)

/-- The write buffers are a queue (20_memory.md R170, R171): drained on a 32-bit bus, the buffered writes become bus cycles in their
order, one each, and memory then holds the newest byte of each address. At the end of a step they drain if the bus is free and nothing holds
them back (`lazyBus`): the model's choice (log 11); the processor sees every byte as before. -/
def Obligations.BuffersInOrder : Prop :=
  (∀ (c : MemCtx) (b : Bus), b.memWf = true → c.busFree = true → b.script = [] →
    ∃ b', drainBuffers c b = .ok () b' ∧ b'.wb = [] ∧ (∀ a, b'.physByte c a = b.memView c a)
      ∧ (c.plat.bus8 = [] → c.plat.bus16 = [] → c.plat.ioBus8 = [] → c.plat.ioBus16 = [] →
        ∃ cycles : List BusCycle, b'.trace = cycles.reverse ++ b.trace
          ∧ cycles.map (fun x => (x.kind, x.addr, x.be, x.data))
              = b.wb.map (fun e => ((if e.io then CycleKind.ioWrite else .memWrite), e.addr, ~~~e.lanes, e.data))))
  ∧ ∀ s : State, s.bus.memWf = true → s.bus.script = [] →
    ∃ b, s.settle = { s with bus := b } ∧ b.memWf = true ∧ (∀ a, b.view s.memCtx a = s.bus.view s.memCtx a)
      ∧ (∀ a, b.memView s.memCtx a = s.bus.memView s.memCtx a)
      ∧ (s.busFree = true → s.platform.lazyBus = false → b.wb = [])

/-- The permission check of a page (20_memory.md R163), the error code of a page fault (20_memory.md R164, 60_exceptions.md R631), and
translation through the TLB with paging on (20_memory.md R161, R166): an entry that allows the access gives frame and offset with
no bus cycle; one that does not is a page fault at that address. A write through an entry that allows it and whose dirty mark is clear walks
the tables: `PageWalk`. How the TLB finds an entry is the model's choice (log 18). -/
def Obligations.TlbHitTranslates : Prop :=
  (∀ (p : PageCtx) (write writable user : Bool),
    (pageAllows p write writable user = false ↔
      (p.user = true ∧ user = false) ∨ (p.user = true ∧ write = true ∧ writable = false)
        ∨ (p.user = false ∧ write = true ∧ writable = false ∧ p.wp = true))
    ∧ ∀ present, (pageFaultCode p present write).getLsbD 0 = present ∧ (pageFaultCode p present write).getLsbD 1 = write
        ∧ (pageFaultCode p present write).getLsbD 2 = p.user ∧ pageFaultCode p present write &&& 0xFFFFFFF8#32 = 0)
  ∧ ∀ (c : MemCtx) (p : PageCtx) (lin : Addr) (write : Bool) (b : Bus) (w : BitVec 2), p.pg = true → tlbFind b.tlb lin = some w →
    let e := tlbAt b.tlb (tlbIndex (tlbSet lin) w)
    e.page = lin.extractLsb' 12 20
    ∧ (pageAllows p write e.writable e.user = true → (write = true → e.dirty = true) →
        translate c p lin write b = .ok ⟨e.frame ++ lin.extractLsb' 0 12, e.pcd, e.pwt⟩ b)
    ∧ (pageAllows p write e.writable e.user = false →
        translate c p lin write b = .error (.pageFault lin (pageFaultCode p true write)) b)

/-- A walk of the page tables, with the cache disabled and the bus free (20_memory.md R161 to R165): the directory entry, then, unless it
maps a 4MB page, the table entry, as the processor sees them; one that is not present is a page fault at the linear address with the
not-present code, and one that does not allow the access with the other; else the frame of the table entry, or of the 4MB page, with that
entry's PCD and PWT (R160, R167), which the TLB then holds, with the rights of both entries together, dirty after a write or where D was set
already (R166; its organisation is the model's choice, log 18). Where the entries are accessed (and dirty, for a write) already nothing in
memory changes; else A in each that has it clear, and for a write D in the last entry, are set by a locked read-modify-write of each entry that
needs it, the directory's first, and no other byte changes: for that no line may hide an entry from the bus, and no snooped line may wait. The
walk runs where the TLB holds no entry for the page, and for a write through one that allows it and whose dirty mark is clear (R162): that it then
takes the frame and the rights of the tables as they are now is the model's choice (log 44). -/
def Obligations.PageWalk : Prop :=
  ∀ (c : MemCtx) (p : PageCtx) (lin : Addr) (write : Bool) (b : Bus), p.pg = true →
    (tlbFind b.tlb lin = none ∨ ∃ w, tlbFind b.tlb lin = some w ∧ write = true ∧
      let old := tlbAt b.tlb (tlbIndex (tlbSet lin) w)
      pageAllows p true old.writable old.user = true ∧ old.dirty = false) →
    c.cd = true → c.busFree = true → b.memWf = true → b.script = [] → c.a20m = false →
    let pdeAt : Addr := p.cr3.extractLsb' 12 20 ++ lin.extractLsb' 22 10 ++ 0#2
    let pde := b.word c pdeAt
    let pteAt : Addr := pde.extractLsb' 12 20 ++ lin.extractLsb' 12 10 ++ 0#2
    let pte := b.word c pteAt
    let big := p.pse && pde.getLsbD 7
    let entryAt := if big then pdeAt else pteAt
    let entry := b.word c entryAt
    let present := pde.getLsbD 0 = true ∧ (big = true ∨ pte.getLsbD 0 = true)
    let writable := pde.getLsbD 1 && (big || pte.getLsbD 1)
    let user := pde.getLsbD 2 && (big || pte.getLsbD 2)
    let bits : DWord := if write then 0x60 else 0x20
    let pa : Addr := if big then pde.extractLsb' 22 10 ++ lin.extractLsb' 0 22 else pte.extractLsb' 12 20 ++ lin.extractLsb' 0 12
    let pcd := entry.getLsbD (if p.asPrinted then 3 else 4)
    let pwt := entry.getLsbD (if p.asPrinted then 4 else 3)
    let held : TlbEntry :=
      { valid := true, page := lin.extractLsb' 12 20, frame := pa.extractLsb' 12 20, writable := writable, user := user
        dirty := entry.getLsbD 6 || write, pcd := pcd, pwt := pwt, big := big }
    let entered := fun (t : Tlb) => ∃ w, tlbFind t lin = some w ∧ tlbAt t (tlbIndex (tlbSet lin) w) = held
    (¬ present →
      ∃ b', Bus.Quiet c b b' ∧ translate c p lin write b = .error (.pageFault lin (pageFaultCode p false write)) b')
    ∧ (present → pageAllows p write writable user = false →
      ∃ b', Bus.Quiet c b b' ∧ translate c p lin write b = .error (.pageFault lin (pageFaultCode p true write)) b')
    ∧ (present → pageAllows p write writable user = true → pde.getLsbD 5 = true → entry &&& bits = bits →
      ∃ b', translate c p lin write b = .ok ⟨pa, pcd, pwt⟩ b' ∧ (∀ x, b'.view c x = b.view c x) ∧ entered b'.tlb)
    ∧ (present → pageAllows p write writable user = true → b.urgent = none →
      (∀ k : BitVec 2, b.CleanByte c (pdeAt + k.setWidth 32) ∧ b.CleanByte c (entryAt + k.setWidth 32)) →
      ∃ b', translate c p lin write b = .ok ⟨pa, pcd, pwt⟩ b' ∧ entered b'.tlb
        ∧ b'.word c entryAt = entry ||| bits
        ∧ (pdeAt ≠ entryAt → b'.word c pdeAt = pde ||| 0x20#32)
        ∧ (∀ x, (∀ k : BitVec 2, x ≠ pdeAt + k.setWidth 32 ∧ x ≠ entryAt + k.setWidth 32) → b'.view c x = b.view c x)
        ∧ (c.plat.bus8 = [] → c.plat.bus16 = [] →
            b'.lastUpdates ((if entry &&& bits = bits then [] else [entryAt.extractLsb' 2 30])
              ++ (if big = false ∧ pde.getLsbD 5 = false then [pdeAt.extractLsb' 2 30] else []))))

/-! ### Reset and invariants -/

/-- RESET and SRESET, as input events in any state (70_reset_and_hazards.md R741 to R744; 10_state.md R92 to R98;
00_scope.md R21; 45_family_variants.md R593). Every register takes its value of the part's `ResetState`, and every event, wait and
request in progress is gone; the cache, the TLB, the write buffers and the prefetch queue are empty (requests still waiting for the
bus are dropped: the model's choice, log 48); memory, the pins and what the environment will do stay, and so do the floating-point
registers where `ResetState` gives none.
RESET sets SMBASE to 30000h and samples the latches: UP#, WB/WT# on the DX2WB, CLKMUL on the DX4. SRESET, on a part that has it,
leaves SMBASE and the latches, and in write-back mode the cache, CD and NW. The values of `ResetState` on the default part are the
family's (log 4). That an invalid line has tag, bytes and LRU bits 0 after it, where R97 leaves them open, is the model's choice (log 5),
and so are the 0 of the data and vector latches and the latches that the part does not have (log 4, 5). -/
def Obligations.Resets : Prop :=
  (∀ (rest : List Input) (s : State),
    let r := s.part.resetState
    let bus := fun (cache : Cache) =>
      { s.bus with
        cache := cache, wb := [], readPassed := false, fetchq := .empty, tlb := emptyTlb, phase := .ti, cur := [], fillBuf := []
        queue := [], dataIn := 0, vector := 0, pchk := false, heldHold := false, heldAddr := false }
    let cleared := fun (latch : Latch) (smbase cr0 : DWord) (cache : Cache) =>
      { s with
        latch := latch, regs := r.regs, eip := r.eip, eflags := r.eflags, segs := r.segs, ldtr := r.ldtr, tr := r.tr
        gdtr := r.gdtr, idtr := r.idtr, cr0 := cr0, cr2 := r.cr2, cr3 := r.cr3, cr4 := r.cr4, dr0 := r.dr0, dr1 := r.dr1
        dr2 := r.dr2, dr3 := r.dr3, dr6 := r.dr6, dr7 := r.dr7, tr3 := r.tr3, tr4 := r.tr4, tr5 := r.tr5, tr6 := r.tr6, tr7 := r.tr7
        cpl := 0, fpu := r.fpu.getD s.fpu, fpErrorPending := false, smbase := smbase, inSMM := false, smiLatched := false, nmiBlocked := false
        haltedAtSmi := false, ioAtSmi := none, smmImage := [], smmHidden := none, halted := false, shutdown := false
        clock := .normal, snoopReturn := .normal, pend := ⟨false, false, false⟩, inNmi := false, trapPending := false
        taskTrap := false, shadow := false, ssShadow := false, frozen := false, busWanted := false, dbgHits := 0, dec := Decoding.idle
        lastIo := none, serial := none, inputs := rest, bus := bus cache }
    (∀ (up wbwt : Bool) (m : ClkMul), s.inputs = .reset up wbwt m :: rest →
      ∃ latch, step s = .next (cleared latch 0x30000#32 r.cr0 emptyCache)
        ∧ latch.upgradePresent = up ∧ (latch.writeBackMode = true ↔ s.part.variant = .dx2wb ∧ wbwt = true)
        ∧ (s.part.variant = .dx4 →
            (m = .vss → latch.clockMul2 = 4) ∧ (m = .breq → latch.clockMul2 = 5) ∧ (m = .vcc ∨ m = .unconnected → latch.clockMul2 = 6))
        ∧ (s.part.variant ∈ [.dx2, .sx2, .dx2wb] → latch.clockMul2 = 4)
        ∧ (s.part.variant ∈ [.dx, .sx] → latch.clockMul2 = 2))
    ∧ (s.inputs = .sreset :: rest → s.part.hasSL = true →
      (s.wbMode = false → step s = .next (cleared s.latch s.smbase r.cr0 emptyCache))
      ∧ (s.wbMode = true → step s = .next
          (cleared s.latch s.smbase ((r.cr0 &&& 0x9FFFFFFF#32) ||| (s.cr0 &&& 0x60000000#32)) s.bus.cache)))
    ∧ (s.inputs = .sreset :: rest → s.part.hasSL = false → step s = .next { s with inputs := rest }))
  ∧ (∀ (big : Bool) (a : Addr), emptyCache.lookup big a = none) ∧ (∀ a, tlbFind emptyTlb a = none)
  ∧ (let d := defaultPart.resetState
     d.regs = ⟨0, 0, 0x410#32, 0, 0, 0, 0, 0⟩ ∧ d.eip = 0xFFF0#32 ∧ d.eflags = 2#32 ∧ d.cr0 = 0x60000010#32
     ∧ d.cr2 = 0 ∧ d.cr3 = 0 ∧ d.cr4 = 0 ∧ d.dr0 = 0 ∧ d.dr1 = 0 ∧ d.dr2 = 0 ∧ d.dr3 = 0 ∧ d.dr6 = 0xFFFF0FF0#32 ∧ d.dr7 = 0
     ∧ d.segs.cs.sel = 0xF000#16 ∧ d.segs.cs.base = 0xFFFF0000#32 ∧ d.segs.cs.limit = 0xFFFF#32
     ∧ (∀ g ∈ [d.segs.ds, d.segs.es, d.segs.fs, d.segs.gs, d.segs.ss], g.sel = 0 ∧ g.base = 0 ∧ g.limit = 0xFFFF#32)
     ∧ d.fpu = none ∧ d.gdtr = ⟨0, 0xFFFF#16⟩ ∧ d.idtr = ⟨0, 0xFFFF#16⟩ ∧ d.ldtr.sel = 0 ∧ d.tr.sel = 0)

/-- Every step keeps the memories in canonical form (log 6), and within their sizes the four write buffers (10_state.md R76), the 32
bytes of the prefetch queue (10_state.md R77, 20_memory.md R184) and, at fifteen bytes each (30_encoding.md R227), the running instruction
and the two in the decode stages, which the model keeps beside the queue (log 27). -/
def Obligations.StorageInvKept : Prop :=
  (∀ s t : State, MemInv s → step s = .next t → MemInv t) ∧ ∀ s t : State, BufferInv s → step s = .next t → BufferInv t

/-- Every step keeps the reserved bits of EFLAGS, CR0, CR3 and CR4 as they read, and CR0 out of the combinations it must not hold
(10_state.md R44, R48, R54, R56, R57). -/
def Obligations.RegInvKept : Prop := ∀ s t : State, RegInv s → step s = .next t → RegInv t

/-- The invariants hold after RESET (10_state.md R91 to R98; that memory is empty then is the model's choice, log 6). -/
def Obligations.InvariantsAtReset : Prop := MemInv State.reset ∧ BufferInv State.reset ∧ RegInv State.reset
end

