-- ==== Sys2Proof/Laws/Memory.lean ====
section
/-! SUPPORT. The laws of the memory list: read after write, and the canonical form. -/

set_option Elab.async false

namespace Sys2Proof.Machine

theorem Memory.wfFrom_mono {m : Memory} {a b : Nat} (h : b ≤ a) (hm : Memory.wfFrom a m = true) :
    Memory.wfFrom b m = true := by
  cases m with
  | nil => rfl
  | cons x m =>
    obtain ⟨k, v⟩ := x
    simp only [Memory.wfFrom, Bool.and_eq_true, decide_eq_true_eq] at hm ⊢
    exact ⟨⟨by omega, hm.1.2⟩, hm.2⟩

/-- Below its first admissible address a canonical memory lists nothing. -/
theorem Memory.get_below {m : Memory} {lo a : Nat} (hm : Memory.wfFrom lo m = true) (h : a < lo) :
    m.get a = Memory.unlisted := by
  induction m generalizing lo with
  | nil => rfl
  | cons x m ih =>
    obtain ⟨k, v⟩ := x
    simp only [Memory.wfFrom, Bool.and_eq_true, decide_eq_true_eq] at hm
    have hk : k ≠ a := by omega
    simp only [Memory.get, if_neg hk]
    exact ih hm.2 (by omega)

theorem Memory.wfFrom_set {m : Memory} {lo a : Nat} (b : Byte) (hm : Memory.wfFrom lo m = true) (h : lo ≤ a) :
    Memory.wfFrom lo (m.set a b) = true := by
  induction m generalizing lo with
  | nil =>
    by_cases hb : b = Memory.unlisted <;> simp [Memory.set, Memory.wfFrom, hb, h]
  | cons x m ih =>
    obtain ⟨k, v⟩ := x
    simp only [Memory.wfFrom, Bool.and_eq_true, decide_eq_true_eq] at hm
    obtain ⟨⟨hlo, hv⟩, hrest⟩ := hm
    unfold Memory.set
    split_ifs with h1 h2 h3 h4
    · simp [Memory.wfFrom, hlo, hv, hrest]
    · have : Memory.wfFrom (a + 1) ((k, v) :: m) = true := by
        simp only [Memory.wfFrom, Bool.and_eq_true, decide_eq_true_eq]
        exact ⟨⟨by omega, hv⟩, hrest⟩
      simp only [Memory.wfFrom, Bool.and_eq_true, decide_eq_true_eq] at this ⊢
      exact ⟨⟨h, by simp [bne_iff_ne, h2]⟩, this⟩
    · exact Memory.wfFrom_mono (by omega) hrest
    · simp only [Memory.wfFrom, Bool.and_eq_true, decide_eq_true_eq]
      subst h3
      exact ⟨⟨h, by simp [bne_iff_ne, h4]⟩, hrest⟩
    · simp only [Memory.wfFrom, Bool.and_eq_true, decide_eq_true_eq]
      exact ⟨⟨hlo, hv⟩, ih hrest (by omega)⟩

/-- A write keeps the canonical form. -/
theorem Memory.wf_set {m : Memory} (a : Nat) (b : Byte) (hm : m.wf = true) : (m.set a b).wf = true :=
  Memory.wfFrom_set b hm (Nat.zero_le a)

/-- A write leaves every other byte alone. -/
theorem Memory.get_set_ne {m : Memory} {a c : Nat} (b : Byte) (h : c ≠ a) : (m.set a b).get c = m.get c := by
  induction m with
  | nil =>
    by_cases hb : b = Memory.unlisted <;> simp [Memory.set, Memory.get, hb, Ne.symm h]
  | cons x m ih =>
    obtain ⟨k, v⟩ := x
    unfold Memory.set
    split_ifs with h1 h2 h3 h4
    · rfl
    · simp [Memory.get, Ne.symm h]
    · subst h3; simp [Memory.get, Ne.symm h]
    · subst h3; simp [Memory.get, Ne.symm h]
    · simp [Memory.get, ih]

theorem Memory.get_set_from {m : Memory} {lo a : Nat} (b : Byte) (hm : Memory.wfFrom lo m = true) (h : lo ≤ a) :
    (m.set a b).get a = b := by
  induction m generalizing lo with
  | nil =>
    by_cases hb : b = Memory.unlisted <;> simp [Memory.set, Memory.get, hb]
  | cons x m ih =>
    obtain ⟨k, v⟩ := x
    simp only [Memory.wfFrom, Bool.and_eq_true, decide_eq_true_eq] at hm
    obtain ⟨⟨hlo, hv⟩, hrest⟩ := hm
    unfold Memory.set
    split_ifs with h1 h2 h3 h4
    · rw [h2]
      simp only [Memory.get, if_neg (show k ≠ a by omega)]
      exact Memory.get_below hrest (by omega)
    · simp [Memory.get]
    · subst h3; rw [h4]; exact Memory.get_below hrest (by omega)
    · simp [Memory.get]
    · simp only [Memory.get, if_neg (show k ≠ a by omega)]
      exact ih hrest (by omega)

/-- A read after a write to the same address gives the byte written. -/
theorem Memory.get_set_eq {m : Memory} (a : Nat) (b : Byte) (hm : m.wf = true) : (m.set a b).get a = b :=
  Memory.get_set_from b hm (Nat.zero_le a)

theorem Memory.wf_setBytes {m : Memory} (a : Addr) (bs : List Byte) (hm : m.wf = true) :
    (m.setBytes a bs).wf = true := by
  induction bs generalizing m a with
  | nil => exact hm
  | cons b bs ih => exact ih _ (Memory.wf_set _ _ hm)

end Sys2Proof.Machine
end

