-- ==== Sys2Proof/Laws/Bus.lean ====
section
/-! SUPPORT. What the bus unit's operations do to memory and to the processor's view of it. -/

set_option Elab.async false

namespace Sys2Proof.Machine

/-! ### One byte -/

theorem Bus.physByte_setPhysByte_ne (b : Bus) (c : MemCtx) {a x : Addr} (v : Byte) (h : x ≠ a) :
    (b.setPhysByte c a v).physByte c x = b.physByte c x := by
  have hn : x.toNat ≠ a.toNat := fun e => h (BitVec.eq_of_toNat_eq e)
  unfold Bus.setPhysByte Bus.physByte
  split_ifs <;> simp [Memory.get_set_ne _ hn]

theorem Bus.physByte_setPhysByte_eq (b : Bus) (c : MemCtx) (a : Addr) (v : Byte) (hb : b.memWf = true) :
    (b.setPhysByte c a v).physByte c a = v := by
  simp only [Bus.memWf, Bool.and_eq_true] at hb
  unfold Bus.setPhysByte Bus.physByte
  split_ifs
  · exact Memory.get_set_eq _ _ hb.2
  · exact Memory.get_set_eq _ _ hb.1

theorem Bus.memWf_setPhysByte (b : Bus) (c : MemCtx) (a : Addr) (v : Byte) (hb : b.memWf = true) :
    (b.setPhysByte c a v).memWf = true := by
  simp only [Bus.memWf, Bool.and_eq_true] at hb ⊢
  unfold Bus.setPhysByte
  split_ifs
  · exact ⟨hb.1, Memory.wf_set _ _ hb.2⟩
  · exact ⟨Memory.wf_set _ _ hb.1, hb.2⟩

/-- Everything of the bus unit but the memories and the record of cycles is the same. -/
structure Bus.SameUnit (b b' : Bus) : Prop where
  cache : b'.cache = b.cache
  wb : b'.wb = b.wb
  readPassed : b'.readPassed = b.readPassed
  fetchq : b'.fetchq = b.fetchq
  tlb : b'.tlb = b.tlb
  phase : b'.phase = b.phase
  cur : b'.cur = b.cur
  fillBuf : b'.fillBuf = b.fillBuf
  queue : b'.queue = b.queue
  dataIn : b'.dataIn = b.dataIn
  vector : b'.vector = b.vector
  pchk : b'.pchk = b.pchk
  ioIn : b'.ioIn = b.ioIn
  script : b'.script = b.script
  heldHold : b'.heldHold = b.heldHold
  heldAddr : b'.heldAddr = b.heldAddr
  draws : b'.draws = b.draws

theorem Bus.SameUnit.refl (b : Bus) : Bus.SameUnit b b := by constructor <;> rfl

theorem Bus.SameUnit.trans {a b c : Bus} (h : Bus.SameUnit a b) (k : Bus.SameUnit b c) : Bus.SameUnit a c := by
  constructor
  · exact k.cache.trans h.cache
  · exact k.wb.trans h.wb
  · exact k.readPassed.trans h.readPassed
  · exact k.fetchq.trans h.fetchq
  · exact k.tlb.trans h.tlb
  · exact k.phase.trans h.phase
  · exact k.cur.trans h.cur
  · exact k.fillBuf.trans h.fillBuf
  · exact k.queue.trans h.queue
  · exact k.dataIn.trans h.dataIn
  · exact k.vector.trans h.vector
  · exact k.pchk.trans h.pchk
  · exact k.ioIn.trans h.ioIn
  · exact k.script.trans h.script
  · exact k.heldHold.trans h.heldHold
  · exact k.heldAddr.trans h.heldAddr
  · exact k.draws.trans h.draws

theorem Bus.sameUnit_setPhysByte (b : Bus) (c : MemCtx) (a : Addr) (v : Byte) :
    Bus.SameUnit b (b.setPhysByte c a v) := by
  unfold Bus.setPhysByte
  split_ifs <;> constructor <;> rfl

theorem Bus.sameUnit_record (b : Bus) (cs : List BusCycle) : Bus.SameUnit b (b.record cs) := by constructor <;> rfl

@[simp] theorem Bus.physByte_record (b : Bus) (c : MemCtx) (cs : List BusCycle) (a : Addr) :
    (b.record cs).physByte c a = b.physByte c a := rfl

@[simp] theorem Bus.memWf_record (b : Bus) (cs : List BusCycle) : (b.record cs).memWf = b.memWf := rfl

/-! ### Doublewords -/

/-- Every address is a lane of its doubleword. -/
theorem laneAddr_self (a : Addr) : laneAddr (a.extractLsb' 2 30) (a.extractLsb' 0 2) = a := by
  unfold laneAddr
  ext i hi
  simp only [BitVec.getElem_append, BitVec.getElem_extractLsb']
  split_ifs with h
  · simp only [Nat.zero_add]; exact BitVec.getLsbD_eq_getElem hi
  · rw [show 2 + (i - 2) = i by omega]; exact BitVec.getLsbD_eq_getElem hi

theorem extract_laneAddr (d : BitVec 30) (i : BitVec 2) :
    (laneAddr d i).extractLsb' 2 30 = d ∧ (laneAddr d i).extractLsb' 0 2 = i := by
  unfold laneAddr
  constructor
  · ext k hk
    simp only [BitVec.getElem_extractLsb', BitVec.getLsbD_append]
    rw [if_neg (by omega), show 2 + k - 2 = k by omega]
    exact BitVec.getLsbD_eq_getElem hk
  · ext k hk
    simp only [BitVec.getElem_extractLsb', BitVec.getLsbD_append, Nat.zero_add]
    rw [if_pos hk]
    exact BitVec.getLsbD_eq_getElem hk

theorem laneAddr_inj {d e : BitVec 30} {i j : BitVec 2} (h : laneAddr d i = laneAddr e j) : d = e ∧ i = j := by
  have h1 := congrArg (fun x : Addr => x.extractLsb' 2 30) h
  have h2 := congrArg (fun x : Addr => x.extractLsb' 0 2) h
  simp only [(extract_laneAddr d i).1, (extract_laneAddr e j).1, (extract_laneAddr d i).2, (extract_laneAddr e j).2] at h1 h2
  exact ⟨h1, h2⟩

/-- The byte that a lane of a doubleword carries. -/
def laneByte (d : DWord) (i : BitVec 2) : Byte := d.extractLsb' (8 * i.toNat) 8

/-- One of the four steps of a doubleword write. -/
theorem storeLane_step (b : Bus) (c : MemCtx) (d : BitVec 30) (lanes : BitVec 4) (v : DWord) (k : BitVec 2) (x : Addr)
    (hb : b.memWf = true) :
    let b' := if lanes.getLsbD k.toNat then b.setPhysByte c (laneAddr d k) (v.extractLsb' (8 * k.toNat) 8) else b
    b'.memWf = true ∧ Bus.SameUnit b b' ∧
      b'.physByte c x = if lanes.getLsbD k.toNat ∧ x = laneAddr d k then laneByte v k else b.physByte c x := by
  intro b'
  by_cases hl : lanes.getLsbD k.toNat
  · have : b' = b.setPhysByte c (laneAddr d k) (v.extractLsb' (8 * k.toNat) 8) := if_pos hl
    rw [this]
    refine ⟨Bus.memWf_setPhysByte _ _ _ _ hb, Bus.sameUnit_setPhysByte _ _ _ _, ?_⟩
    by_cases hx : x = laneAddr d k
    · subst hx; simp [hl, Bus.physByte_setPhysByte_eq _ _ _ _ hb, laneByte]
    · simp [hx, Bus.physByte_setPhysByte_ne _ _ _ hx]
  · have : b' = b := if_neg hl
    rw [this]
    exact ⟨hb, Bus.SameUnit.refl b, by simp [hl]⟩

/-- What a doubleword write does to memory: the enabled lanes of its doubleword, nothing else. -/
theorem Bus.storeLanes_spec (b : Bus) (c : MemCtx) (d : BitVec 30) (lanes : BitVec 4) (v : DWord) (hb : b.memWf = true) :
    (b.storeLanes c d lanes v).memWf = true ∧ Bus.SameUnit b (b.storeLanes c d lanes v) ∧
      ∀ x : Addr, (b.storeLanes c d lanes v).physByte c x =
        if x.extractLsb' 2 30 = d ∧ lanes.getLsbD (x.extractLsb' 0 2).toNat then laneByte v (x.extractLsb' 0 2)
        else b.physByte c x := by
  have s0 := fun x => storeLane_step b c d lanes v 0 x hb
  have s1 := fun x => storeLane_step _ c d lanes v 1 x (s0 x).1
  have s2 := fun x => storeLane_step _ c d lanes v 2 x (s1 x).1
  have s3 := fun x => storeLane_step _ c d lanes v 3 x (s2 x).1
  refine ⟨(s3 0).1, ((s0 0).2.1.trans (s1 0).2.1).trans ((s2 0).2.1.trans (s3 0).2.1), fun x => ?_⟩
  have key : ∀ k : BitVec 2, (x = laneAddr d k) ↔ (x.extractLsb' 2 30 = d ∧ x.extractLsb' 0 2 = k) := by
    intro k
    constructor
    · intro h; rw [h]; exact extract_laneAddr d k
    · rintro ⟨h1, h2⟩; rw [← h1, ← h2]; exact (laneAddr_self x).symm
  refine ((s3 x).2.2).trans ?_
  rw [(s2 x).2.2, (s1 x).2.2, (s0 x).2.2]
  simp only [key]
  generalize hi : x.extractLsb' 0 2 = i
  by_cases hd : x.extractLsb' 2 30 = d
  · have : i = 0 ∨ i = 1 ∨ i = 2 ∨ i = 3 := by
      have := i.isLt
      rcases (show i.toNat = 0 ∨ i.toNat = 1 ∨ i.toNat = 2 ∨ i.toNat = 3 by omega) with h | h | h | h
      · exact Or.inl (BitVec.eq_of_toNat_eq h)
      · exact Or.inr (Or.inl (BitVec.eq_of_toNat_eq h))
      · exact Or.inr (Or.inr (Or.inl (BitVec.eq_of_toNat_eq h)))
      · exact Or.inr (Or.inr (Or.inr (BitVec.eq_of_toNat_eq h)))
    rcases this with h | h | h | h <;> subst h <;> simp [hd]
  · simp [hd]

/-! ### Write buffers -/

/-- The byte a buffered write carries for an address. -/
def WbEntry.byteAt (e : WbEntry) (a : Addr) : Option Byte :=
  if !e.io && e.addr == a.extractLsb' 2 30 && e.lanes.getLsbD (a.extractLsb' 0 2).toNat then
    some (laneByte e.data (a.extractLsb' 0 2))
  else none

theorem wbByte_cons (a : Addr) (e : WbEntry) (rest : List WbEntry) :
    wbByte a (e :: rest) = (wbByte a rest).or (e.byteAt a) := by
  simp only [wbByte, WbEntry.byteAt, laneByte]
  cases wbByte a rest <;> simp

theorem wbByte_append_one (a : Addr) (l : List WbEntry) (e : WbEntry) :
    wbByte a (l ++ [e]) = (e.byteAt a).or (wbByte a l) := by
  induction l with
  | nil => simp [wbByte_cons, wbByte]
  | cons x l ih =>
    rw [List.cons_append, wbByte_cons, ih, wbByte_cons]
    cases e.byteAt a <;> simp

/-! ### Transfers run whole -/

/-- A doubleword written. -/
theorem Bus.movePart_write (b : Bus) (c : MemCtx) {x : Xfer} (p : BusPart) (driven : BitVec 4) (first ads more : Bool)
    (hk : x.kind = .memWrite) (hb : b.memWf = true) :
    (b.movePart c x p driven first ads more).memWf = true ∧ Bus.SameUnit b (b.movePart c x p driven first ads more) ∧
      ∀ y : Addr, (b.movePart c x p driven first ads more).physByte c y =
        if y.extractLsb' 2 30 = p.addr ∧ p.lanes.getLsbD (y.extractLsb' 0 2).toNat then laneByte p.data (y.extractLsb' 0 2)
        else b.physByte c y := by
  have e : b.movePart c x p driven first ads more
      = (b.record (itemCycles c x p driven p.data first ads more)).storeLanes c p.addr p.lanes p.data := by
    unfold Bus.movePart Bus.answer Bus.moveLanes Bus.keepPart
    simp only [hk]; rfl
  rw [e]
  obtain ⟨h1, h2, h3⟩ := Bus.storeLanes_spec (b.record (itemCycles c x p driven p.data first ads more)) c p.addr p.lanes p.data hb
  exact ⟨h1, (Bus.sameUnit_record _ _).trans h2, h3⟩

/-- A doubleword that changes nothing behind the bus: an I/O write or a special cycle. -/
theorem Bus.movePart_message (b : Bus) (c : MemCtx) {x : Xfer} (p : BusPart) (driven : BitVec 4) (first ads more : Bool)
    (hk : x.kind = .ioWrite ∨ x.kind = .special) :
    b.movePart c x p driven first ads more = b.record (itemCycles c x p driven p.data first ads more) := by
  unfold Bus.movePart Bus.answer Bus.moveLanes Bus.keepPart
  rcases hk with h | h <;> simp only [h] <;> rfl

/-- A transfer that has sampled no bus size has sampled no KEN# either: the platform's counts. -/
theorem Xfer.kenSampled_none (c : MemCtx) {x : Xfer} (h : x.size = none) : x.kenSampled c = none := by
  simp [Xfer.kenSampled, h]

/-- The KEN# of the script's last clock counts only where no wait state comes. -/
theorem Xfer.kenSampled_waits {c : MemCtx} (x : Xfer) (h : c.plat.waits ≠ 0) : x.kenSampled c = none := by
  simp [Xfer.kenSampled, h]

/-- AN IDLE CLOCK GONE BY moves from the clocks to come to those gone by, and the first transfer's own is the only one counted. -/
theorem Bus.idled_spec (b : Bus) :
    ∃ xs, b.idled = { b with cur := xs } ∧ xs.map (fun x => x.idle + x.spent) = b.cur.map (fun x => x.idle + x.spent)
      ∧ xs.map (fun x => { x with idle := 0, spent := 0 }) = b.cur.map (fun x => { x with idle := 0, spent := 0 }) := by
  obtain ⟨cur, hc⟩ : ∃ cur, b.cur = cur := ⟨_, rfl⟩
  unfold Bus.idled
  rw [hc]
  cases cur with
  | nil => exact ⟨b.cur, rfl, by rw [hc], by rw [hc]⟩
  | cons x xs =>
    by_cases h : x.idle = 0
    · exact ⟨b.cur, by simp [h], by rw [hc], by rw [hc]⟩
    · exact ⟨{ x with idle := x.idle - 1, spent := x.spent + 1 } :: xs, if_neg h,
        congrArg (· :: _) (show x.idle - 1 + (x.spent + 1) = x.idle + x.spent by omega), rfl⟩

/-- WHAT THE SCRIPT'S END LEAVES: every transfer but the first in T2 starts a bus cycle, with ADS# and no bus size sampled. -/
theorem restarted_anew (phase : BusPhase) (xs : List Xfer) :
    ∀ x ∈ (if phase = .t2 then (restarted phase xs).drop 1 else restarted phase xs), x.ads = true ∧ x.size = none := by
  have key : ∀ ys : List Xfer, ∀ y ∈ ys.map Xfer.anew, y.ads = true ∧ y.size = none := by
    intro ys y hy
    obtain ⟨z, -, rfl⟩ := List.mem_map.1 hy
    exact ⟨rfl, rfl⟩
  cases xs with
  | nil => cases phase <;> simp [restarted]
  | cons x xs =>
    by_cases h : phase = .t2
    · simpa [restarted, h] using key xs
    · simpa [restarted, h] using key (x :: xs)

/-- A transfer that fills no line is its doublewords. -/
theorem Bus.finish_plain (b : Bus) (c : MemCtx) {x : Xfer} (hw : x.want = false) (hf : x.fill = false) :
    b.finish c x = b.moveAll c { x with decided := true } (x.parts.headD ⟨0, 0, 0, 0⟩).lanes (!x.decided) := by
  have e : x.answered c = { x with decided := true } := by
    unfold Xfer.answered Xfer.decide
    split
    · rename_i hd
      obtain ⟨kind, attr, follows, parts, want, decided, fill, wbwt, ken, stale, hitm, size, ads, spent, idle, cont⟩ := x
      simp only at hd; subst hd; rfl
    · split
      · rename_i hp
        rw [if_neg (by simp [hw])]
      · rfl
  unfold Bus.finish
  rw [e]
  simp [hf]

/-- A write of one doubleword run whole. -/
theorem Bus.finish_write (b : Bus) (c : MemCtx) {x : Xfer} {p : BusPart} (hk : x.kind = .memWrite) (hp : x.parts = [p])
    (hw : x.want = false) (hf : x.fill = false) (hb : b.memWf = true) :
    (b.finish c x).memWf = true ∧ Bus.SameUnit b (b.finish c x) ∧
      ∀ y : Addr, (b.finish c x).physByte c y =
        if y.extractLsb' 2 30 = p.addr ∧ p.lanes.getLsbD (y.extractLsb' 0 2).toNat then laneByte p.data (y.extractLsb' 0 2)
        else b.physByte c y := by
  rw [Bus.finish_plain b c hw hf]
  unfold Bus.moveAll
  simp only [hp]
  exact Bus.movePart_write b c (x := { x with decided := true }) p _ _ _ _ hk hb

/-- A buffered write that reaches the bus. -/
theorem Bus.finish_entry (b : Bus) (c : MemCtx) (e : WbEntry) (hb : b.memWf = true) :
    (b.finish c e.xfer).memWf = true ∧ Bus.SameUnit b (b.finish c e.xfer) ∧
      ∀ x : Addr, (b.finish c e.xfer).physByte c x = (e.byteAt x).getD (b.physByte c x) := by
  by_cases hio : e.io = true
  · have hk : e.xfer.kind = .ioWrite := by unfold WbEntry.xfer Xfer.new; simp [hio]
    rw [Bus.finish_plain b c (x := e.xfer) rfl rfl]
    have : b.moveAll c { e.xfer with decided := true } ((e.xfer.parts.headD ⟨0, 0, 0, 0⟩).lanes) (!e.xfer.decided)
        = b.record (itemCycles c { e.xfer with decided := true } ⟨e.addr, e.lanes, e.data, 0⟩ e.lanes e.data true true false) :=
      Bus.movePart_message b c (x := { e.xfer with decided := true }) ⟨e.addr, e.lanes, e.data, 0⟩ e.lanes true true false (.inl hk)
    rw [this]
    refine ⟨hb, Bus.sameUnit_record _ _, fun x => ?_⟩
    simp [WbEntry.byteAt, hio]
  · have hk : e.xfer.kind = .memWrite := by unfold WbEntry.xfer Xfer.new; simp [hio]
    obtain ⟨h1, h2, h3⟩ := Bus.finish_write b c (x := e.xfer) (p := ⟨e.addr, e.lanes, e.data, 0⟩) hk rfl rfl rfl hb
    refine ⟨h1, h2, fun x => ?_⟩
    rw [h3 x]
    by_cases hc : x.extractLsb' 2 30 = e.addr ∧ e.lanes.getLsbD (x.extractLsb' 0 2).toNat = true
    · rw [if_pos hc]
      have : e.byteAt x = some (laneByte e.data (x.extractLsb' 0 2)) := by
        unfold WbEntry.byteAt
        rw [if_pos]
        rw [Bool.and_eq_true, Bool.and_eq_true]
        exact ⟨⟨by rw [Bool.not_eq_true] at hio; rw [hio]; rfl, by rw [hc.1]; exact beq_self_eq_true _⟩, hc.2⟩
      rw [this]; rfl
    · rw [if_neg hc]
      have : e.byteAt x = none := by
        unfold WbEntry.byteAt
        rw [if_neg]
        simp only [Bool.and_eq_true, beq_iff_eq, not_and]
        intro h h'
        exact hc ⟨h.2.symm, h'⟩
      simp [this]

theorem Bus.finishAll_entries (c : MemCtx) (l : List WbEntry) (b : Bus) (hb : b.memWf = true) :
    (b.finishAll c (l.map WbEntry.xfer)).memWf = true ∧ Bus.SameUnit b (b.finishAll c (l.map WbEntry.xfer)) ∧
      ∀ x : Addr, (b.finishAll c (l.map WbEntry.xfer)).physByte c x = (wbByte x l).getD (b.physByte c x) := by
  induction l generalizing b with
  | nil => exact ⟨hb, Bus.SameUnit.refl b, fun x => rfl⟩
  | cons e l ih =>
    obtain ⟨h1, h2, h3⟩ := Bus.finish_entry b c e hb
    obtain ⟨g1, g2, g3⟩ := ih _ h1
    refine ⟨g1, h2.trans g2, fun x => ?_⟩
    show ((b.finish c e.xfer).finishAll c (l.map WbEntry.xfer)).physByte c x = _
    rw [g3 x, h3 x, wbByte_cons]
    cases wbByte x l <;> simp

/-- TRANSFERS with the environment answering as the platform says never wait. -/
theorem transact_ok {c : MemCtx} {b : Bus} (keep : Bool) (xs : List Xfer) (hs : b.script = []) :
    transact c keep xs b
      = .ok () ((if xs.any (·.kind.isRead) then { b with fillBuf := [], pchk := false } else b).finishAll c xs) := by
  unfold transact
  dsimp only
  rw [if_pos]
  split_ifs <;> simp [hs]

/-- Where no snooped line waits, a locked sequence is followed by no write-back. -/
theorem writeBackSnooped_ok {c : MemCtx} {b : Bus} (h : b.urgent = none) : writeBackSnooped c b = .ok () b := by
  have key : b.runUrgent c b.queue = b := by
    unfold Bus.urgent at h
    unfold Bus.runUrgent
    split
    · next line d rest hq => rw [hq] at h; cases h
    · rfl
  unfold writeBackSnooped
  rw [key]
  simp

theorem entries_noRead (l : List WbEntry) : (l.map WbEntry.xfer).any (·.kind.isRead) = false := by
  rw [List.any_eq_false]
  intro x hx
  obtain ⟨e, -, rfl⟩ := List.mem_map.1 hx
  unfold WbEntry.xfer Xfer.new
  cases e.io <;> simp [CycleKind.isRead]

/-! ### The buffers -/

/-- The bus unit apart from the write buffers and `readPassed`. -/
structure Bus.SameButWb (b b' : Bus) : Prop where
  cache : b'.cache = b.cache
  fetchq : b'.fetchq = b.fetchq
  tlb : b'.tlb = b.tlb
  phase : b'.phase = b.phase
  cur : b'.cur = b.cur
  fillBuf : b'.fillBuf = b.fillBuf
  queue : b'.queue = b.queue
  dataIn : b'.dataIn = b.dataIn
  vector : b'.vector = b.vector
  pchk : b'.pchk = b.pchk
  ioIn : b'.ioIn = b.ioIn
  script : b'.script = b.script
  heldHold : b'.heldHold = b.heldHold
  heldAddr : b'.heldAddr = b.heldAddr
  draws : b'.draws = b.draws

theorem Bus.SameButWb.refl (b : Bus) : Bus.SameButWb b b := by constructor <;> rfl

theorem Bus.SameButWb.trans {a b c : Bus} (h : Bus.SameButWb a b) (k : Bus.SameButWb b c) : Bus.SameButWb a c := by
  constructor
  · exact k.cache.trans h.cache
  · exact k.fetchq.trans h.fetchq
  · exact k.tlb.trans h.tlb
  · exact k.phase.trans h.phase
  · exact k.cur.trans h.cur
  · exact k.fillBuf.trans h.fillBuf
  · exact k.queue.trans h.queue
  · exact k.dataIn.trans h.dataIn
  · exact k.vector.trans h.vector
  · exact k.pchk.trans h.pchk
  · exact k.ioIn.trans h.ioIn
  · exact k.script.trans h.script
  · exact k.heldHold.trans h.heldHold
  · exact k.heldAddr.trans h.heldAddr
  · exact k.draws.trans h.draws

theorem Bus.SameUnit.butWb {b b' : Bus} (h : Bus.SameUnit b b') : Bus.SameButWb b b' :=
  ⟨h.cache, h.fetchq, h.tlb, h.phase, h.cur, h.fillBuf, h.queue, h.dataIn, h.vector,
    h.pchk, h.ioIn, h.script, h.heldHold, h.heldAddr, h.draws⟩

/-- The view with the same cache, by the bytes below it. -/
theorem Bus.view_congr {b b' : Bus} {c : MemCtx} (hc : b'.cache = b.cache) (a : Addr)
    (h : (wbByte a b'.wb).getD (b'.physByte c a) = (wbByte a b.wb).getD (b.physByte c a)) :
    b'.view c a = b.view c a := by
  unfold Bus.view
  rw [hc]
  split
  · rfl
  · exact h

/-- DRAIN: every buffered write reaches memory in order; the buffers are empty; the processor's view of every byte stays. -/
theorem Bus.drain_spec (b : Bus) (c : MemCtx) (hb : b.memWf = true) :
    (b.drain c).memWf = true ∧ Bus.SameButWb b (b.drain c) ∧ (b.drain c).wb = [] ∧ (b.drain c).readPassed = false ∧
      (∀ x, (b.drain c).physByte c x = (wbByte x b.wb).getD (b.physByte c x)) ∧ ∀ x, (b.drain c).view c x = b.view c x := by
  obtain ⟨h1, h2, h3⟩ := Bus.finishAll_entries c b.wb { b with wb := [], readPassed := false } hb
  have hs : Bus.SameButWb b { b with wb := [], readPassed := false } := by constructor <;> rfl
  refine ⟨h1, hs.trans h2.butWb, h2.wb, h2.readPassed, h3, fun x => Bus.view_congr (b := b) h2.cache x ?_⟩
  show (wbByte x (Bus.finishAll { b with wb := [], readPassed := false } c (b.wb.map WbEntry.xfer)).wb).getD _ = _
  rw [h2.wb]
  exact h3 x

theorem drainBuffers_spec {c : MemCtx} {b : Bus} (hb : b.memWf = true) (hfree : c.busFree = true) (hs : b.script = []) :
    ∃ b', drainBuffers c b = .ok () b' ∧ b'.memWf = true ∧ Bus.SameButWb b b' ∧ b'.wb = []
      ∧ (∀ x, b'.physByte c x = (wbByte x b.wb).getD (b.physByte c x)) ∧ ∀ x, b'.view c x = b.view c x := by
  unfold drainBuffers
  by_cases h : b.wb.isEmpty = true
  · rw [if_pos h]
    refine ⟨b, rfl, hb, .refl b, List.isEmpty_iff.1 h, fun x => ?_, fun _ => rfl⟩
    rw [List.isEmpty_iff.1 h]; rfl
  · rw [if_neg h, if_pos hfree]
    have e := transact_ok (c := c) (b := { b with wb := [], readPassed := false }) false (b.wb.map WbEntry.xfer) hs
    rw [entries_noRead, if_neg Bool.false_ne_true] at e
    obtain ⟨g1, g2, g3, -, g5, g6⟩ := Bus.drain_spec b c hb
    exact ⟨_, e, g1, g2, g3, g5, g6⟩

/-- POSTING A WRITE with the bus free never waits: afterwards the processor sees the bytes written where no line holds them,
and every other byte as before. -/
theorem postWrite_spec (c : MemCtx) (e : WbEntry) (b : Bus) (hb : b.memWf = true) (hf : c.busFree = true) (hs : b.script = []) :
    ∃ b', postWrite c e b = .ok () b' ∧ b'.memWf = true ∧ Bus.SameButWb b b' ∧
      ∀ x, (wbByte x b'.wb).getD (b'.physByte c x) = (e.byteAt x).getD ((wbByte x b.wb).getD (b.physByte c x)) := by
  have one : ∀ (f : WbEntry) (b1 : Bus), b1.script = [] → transact c false [f.xfer] b1 = .ok () (b1.finish c f.xfer) := by
    intro f b1 h1
    rw [transact_ok false _ h1, show ([f.xfer].any (·.kind.isRead)) = false from entries_noRead [f], if_neg Bool.false_ne_true]
    rfl
  unfold postWrite
  split_ifs with h1 h2
  · obtain ⟨g1, g2, g3⟩ := Bus.finish_entry b c e hb
    refine ⟨_, one e b hs, g1, g2.butWb, fun x => ?_⟩
    have hwb : b.wb = [] := by
      simp only [Bool.and_eq_true, List.isEmpty_iff] at h1; exact h1.1.1.1.1
    rw [g2.wb, g3 x, hwb]; simp [wbByte]
  · refine ⟨_, rfl, hb, by constructor <;> rfl, fun x => ?_⟩
    show (wbByte x (b.wb ++ [e])).getD (b.physByte c x) = _
    rw [wbByte_append_one]
    cases e.byteAt x <;> simp
  · cases hw : b.wb with
    | nil => simp [hw] at h2
    | cons f rest =>
      obtain ⟨g1, g2, g3⟩ := Bus.finish_entry { b with wb := rest, readPassed := b.readPassed && !rest.isEmpty } c f hb
      have hd : drainOne c b
          = .ok () (Bus.finish { b with wb := rest, readPassed := b.readPassed && !rest.isEmpty } c f.xfer) := by
        unfold drainOne
        rw [hw]
        exact one f _ hs
      have hsame : Bus.SameButWb b { b with wb := rest, readPassed := b.readPassed && !rest.isEmpty } := by constructor <;> rfl
      rw [hd]
      refine ⟨_, rfl, g1, ?_, fun x => ?_⟩
      · exact (hsame.trans g2.butWb).trans (by constructor <;> rfl)
      · show (wbByte x ((Bus.finish _ c f.xfer).wb ++ [e])).getD ((Bus.finish _ c f.xfer).physByte c x) = _
        rw [g2.wb, wbByte_append_one, g3 x, wbByte_cons]
        show ((e.byteAt x).or (wbByte x rest)).getD ((f.byteAt x).getD (b.physByte c x)) = _
        cases e.byteAt x <;> cases wbByte x rest <;> simp

/-! ### Reads -/

/-- The bus unit apart from what a read brings: data latch, line-fill buffer, PCHK#, and the record of cycles. -/
structure Bus.SameButRead (b b' : Bus) : Prop where
  mem : b'.mem = b.mem
  smram : b'.smram = b.smram
  cache : b'.cache = b.cache
  wb : b'.wb = b.wb
  readPassed : b'.readPassed = b.readPassed
  fetchq : b'.fetchq = b.fetchq
  tlb : b'.tlb = b.tlb
  phase : b'.phase = b.phase
  cur : b'.cur = b.cur
  queue : b'.queue = b.queue
  vector : b'.vector = b.vector
  ioIn : b'.ioIn = b.ioIn
  script : b'.script = b.script
  heldHold : b'.heldHold = b.heldHold
  heldAddr : b'.heldAddr = b.heldAddr
  draws : b'.draws = b.draws

theorem Bus.SameButRead.refl (b : Bus) : Bus.SameButRead b b := by constructor <;> rfl

theorem Bus.SameButRead.trans {a b c : Bus} (h : Bus.SameButRead a b) (k : Bus.SameButRead b c) : Bus.SameButRead a c := by
  constructor
  · exact k.mem.trans h.mem
  · exact k.smram.trans h.smram
  · exact k.cache.trans h.cache
  · exact k.wb.trans h.wb
  · exact k.readPassed.trans h.readPassed
  · exact k.fetchq.trans h.fetchq
  · exact k.tlb.trans h.tlb
  · exact k.phase.trans h.phase
  · exact k.cur.trans h.cur
  · exact k.queue.trans h.queue
  · exact k.vector.trans h.vector
  · exact k.ioIn.trans h.ioIn
  · exact k.script.trans h.script
  · exact k.heldHold.trans h.heldHold
  · exact k.heldAddr.trans h.heldAddr
  · exact k.draws.trans h.draws

theorem Bus.SameButRead.memWf {b b' : Bus} (h : Bus.SameButRead b b') : b'.memWf = b.memWf := by
  unfold Bus.memWf; rw [h.mem, h.smram]

theorem Bus.SameButRead.physByte {b b' : Bus} (h : Bus.SameButRead b b') (c : MemCtx) (a : Addr) :
    b'.physByte c a = b.physByte c a := by
  unfold Bus.physByte; rw [h.mem, h.smram]

theorem Bus.SameButRead.view {b b' : Bus} (h : Bus.SameButRead b b') (c : MemCtx) (a : Addr) : b'.view c a = b.view c a :=
  Bus.view_congr h.cache a (by rw [h.wb, h.physByte])

/-- What the line-fill buffer keeps of a doubleword read. -/
def Bus.kept (b : Bus) (c : MemCtx) (p : BusPart) : BusPart :=
  { p with lanes := 0, got := mergeLanes p.lanes p.got (b.physDword c p.addr) }

theorem Bus.kept_congr {b b' : Bus} (h : Bus.SameButRead b b') (c : MemCtx) (p : BusPart) : b'.kept c p = b.kept c p := by
  unfold Bus.kept Bus.physDword
  simp only [h.physByte]

/-- A doubleword read. -/
theorem Bus.movePart_read (b : Bus) (c : MemCtx) {x : Xfer} (p : BusPart) (driven : BitVec 4) (first ads more : Bool)
    (hk : x.kind = .memRead ∨ x.kind = .codeRead) :
    Bus.SameButRead b (b.movePart c x p driven first ads more)
      ∧ (b.movePart c x p driven first ads more).fillBuf = b.kept c p :: b.fillBuf := by
  unfold Bus.movePart Bus.answer Bus.moveLanes Bus.keepPart
  rcases hk with h | h <;> simp only [h] <;> exact ⟨by constructor <;> rfl, rfl⟩

theorem Bus.moveRest_read (c : MemCtx) {x : Xfer} (hk : x.kind = .memRead ∨ x.kind = .codeRead) (ps : List BusPart) :
    ∀ b : Bus, Bus.SameButRead b (Bus.moveRest c x ps b)
      ∧ (Bus.moveRest c x ps b).fillBuf = (ps.map (b.kept c)).reverse ++ b.fillBuf := by
  induction ps with
  | nil => exact fun b => ⟨.refl b, rfl⟩
  | cons p ps ih =>
    intro b
    obtain ⟨h1, h2⟩ := Bus.movePart_read b c (x := x) p p.lanes false (!c.plat.burst) (!ps.isEmpty) hk
    obtain ⟨g1, g2⟩ := ih (b.movePart c x p p.lanes false (!c.plat.burst) (!ps.isEmpty))
    refine ⟨h1.trans g1, ?_⟩
    show (Bus.moveRest c x ps _).fillBuf = _
    rw [g2, h2, List.map_cons, List.reverse_cons, List.append_assoc]
    congr 2
    exact List.map_congr_left fun q _ => Bus.kept_congr h1 c q

/-- A READ run whole that fills no line: its doublewords enter the line-fill buffer, nothing else changes but data latch, PCHK# and
the record of cycles. -/
theorem Bus.finish_read (b : Bus) (c : MemCtx) {x : Xfer} (hk : x.kind = .memRead ∨ x.kind = .codeRead) (hw : x.want = false)
    (hf : x.fill = false) :
    Bus.SameButRead b (b.finish c x) ∧ (b.finish c x).fillBuf = (x.parts.map (b.kept c)).reverse ++ b.fillBuf := by
  rw [Bus.finish_plain b c hw hf]
  unfold Bus.moveAll
  obtain ⟨kind, attr, follows, parts, want, decided, fill, wbwt, ken, stale, hitm, size, ads, spent, idle, cont⟩ := x
  cases parts with
  | nil => exact ⟨.refl b, rfl⟩
  | cons p ps =>
    set x : Xfer := ⟨kind, attr, follows, p :: ps, want, decided, fill, wbwt, ken, stale, hitm, size, ads, spent, idle, cont⟩
    obtain ⟨h1, h2⟩ := Bus.movePart_read b c (x := { x with decided := true }) p p.lanes (!x.decided) x.ads (!ps.isEmpty) hk
    obtain ⟨g1, g2⟩ := Bus.moveRest_read c (x := Xfer.onward c { x with decided := true }) hk ps
      (b.movePart c { x with decided := true } p p.lanes (!x.decided) x.ads (!ps.isEmpty))
    refine ⟨h1.trans g1, ?_⟩
    show _ = ((p :: ps).map (b.kept c)).reverse ++ _
    rw [List.map_cons, List.reverse_cons, List.append_assoc]
    refine g2.trans ?_
    rw [h2]
    congr 2
    exact List.map_congr_left fun q _ => Bus.kept_congr h1 c q

/-- Reads one after the other. -/
theorem Bus.finishAll_reads (c : MemCtx) (xs : List Xfer)
    (h : ∀ x ∈ xs, (x.kind = .memRead ∨ x.kind = .codeRead) ∧ x.want = false ∧ x.fill = false) :
    ∀ b : Bus, Bus.SameButRead b (b.finishAll c xs)
      ∧ (b.finishAll c xs).fillBuf = ((xs.flatMap (·.parts)).map (b.kept c)).reverse ++ b.fillBuf := by
  induction xs with
  | nil => exact fun b => ⟨.refl b, rfl⟩
  | cons x xs ih =>
    intro b
    obtain ⟨k1, k2, k3⟩ := h x (List.mem_cons_self ..)
    obtain ⟨h1, h2⟩ := Bus.finish_read b c k1 k2 k3
    obtain ⟨g1, g2⟩ := ih (fun y hy => h y (List.mem_cons_of_mem _ hy)) (b.finish c x)
    refine ⟨h1.trans g1, ?_⟩
    show ((b.finish c x).finishAll c xs).fillBuf = _
    rw [g2, h2, List.flatMap_cons, List.map_append, List.reverse_append, List.append_assoc]
    congr 2
    exact List.map_congr_left fun q _ => Bus.kept_congr h1 c q

/-- A byte of the line-fill buffer, from the doublewords that have its address. -/
theorem partByte_eq {ps : List BusPart} {a : Addr} {v : Byte} (he : ∃ p ∈ ps, p.addr = a.extractLsb' 2 30)
    (hv : ∀ p ∈ ps, p.addr = a.extractLsb' 2 30 → laneByte p.got (a.extractLsb' 0 2) = v) : partByte ps a = v := by
  induction ps with
  | nil => obtain ⟨p, hp, -⟩ := he; cases hp
  | cons q ps ih =>
    unfold partByte
    by_cases hq : q.addr = a.extractLsb' 2 30
    · rw [if_pos hq]; exact hv q (List.mem_cons_self ..) hq
    · rw [if_neg hq]
      refine ih ?_ (fun p hp => hv p (List.mem_cons_of_mem _ hp))
      obtain ⟨p, hp, h⟩ := he
      rcases List.mem_cons.1 hp with rfl | hp
      · exact absurd h hq
      · exact ⟨p, hp, h⟩

/-- The four lanes. -/
theorem lane_cases (i : BitVec 2) : i = 0 ∨ i = 1 ∨ i = 2 ∨ i = 3 := by
  have := i.isLt
  rcases (show i.toNat = 0 ∨ i.toNat = 1 ∨ i.toNat = 2 ∨ i.toNat = 3 by omega) with h | h | h | h
  · exact Or.inl (BitVec.eq_of_toNat_eq h)
  · exact Or.inr (Or.inl (BitVec.eq_of_toNat_eq h))
  · exact Or.inr (Or.inr (Or.inl (BitVec.eq_of_toNat_eq h)))
  · exact Or.inr (Or.inr (Or.inr (BitVec.eq_of_toNat_eq h)))

/-- The lanes of four bytes joined. -/
theorem laneByte_append (a b c d : Byte) : laneByte (d ++ c ++ b ++ a) 0 = a ∧ laneByte (d ++ c ++ b ++ a) 1 = b
    ∧ laneByte (d ++ c ++ b ++ a) 2 = c ∧ laneByte (d ++ c ++ b ++ a) 3 = d := by
  refine ⟨?_, ?_, ?_, ?_⟩ <;> unfold laneByte <;> ext k hk <;>
    simp only [BitVec.getElem_extractLsb', BitVec.getLsbD_append] <;>
    simp [hk, BitVec.getLsbD_eq_getElem, show ¬(16 + k < 8) by omega, show ¬(24 + k < 8) by omega,
      show 16 + k - 8 - 8 = k by omega, show 24 + k - 8 - 8 - 8 = k by omega, show ¬(16 + k - 8 < 8) by omega,
      show ¬(24 + k - 8 < 8) by omega, show ¬(24 + k - 8 - 8 < 8) by omega]

/-- A lane of two doublewords merged. -/
theorem laneByte_mergeLanes (lanes : BitVec 4) (old new : DWord) (i : BitVec 2) :
    laneByte (mergeLanes lanes old new) i = if lanes.getLsbD i.toNat then laneByte new i else laneByte old i := by
  unfold mergeLanes
  rcases lane_cases i with h | h | h | h <;> subst h
  · exact (laneByte_append _ _ _ _).1
  · exact (laneByte_append _ _ _ _).2.1
  · exact (laneByte_append _ _ _ _).2.2.1
  · exact (laneByte_append _ _ _ _).2.2.2

/-- A lane of the doubleword that memory holds. -/
theorem laneByte_physDword (b : Bus) (c : MemCtx) (d : BitVec 30) (i : BitVec 2) :
    laneByte (b.physDword c d) i = b.physByte c (laneAddr d i) := by
  unfold Bus.physDword
  rcases lane_cases i with h | h | h | h <;> subst h
  · exact (laneByte_append _ _ _ _).1
  · exact (laneByte_append _ _ _ _).2.1
  · exact (laneByte_append _ _ _ _).2.2.1
  · exact (laneByte_append _ _ _ _).2.2.2

end Sys2Proof.Machine
end

