-- ==== Sys2Proof/Laws/Cache.lean ====
section
/-! SUPPORT. What the cache's operations do to what it holds: lookups and bytes. -/

set_option Elab.async false

namespace Sys2Proof
open Machine

/-! ### Sets and ways -/

theorem Cache.entry_putSet (c : Cache) (s t : BitVec 8) (e : CacheSet) :
    (c.putSet s e).entry t = if t = s then e else c.entry t := by
  unfold Cache.putSet Cache.entry
  rw [Vector.getElem_set]
  by_cases h : t = s
  · subst h; simp
  · have : s.toNat ≠ t.toNat := fun e => h (BitVec.eq_of_toNat_eq e.symm)
    simp [h, this]

theorem CacheSet.way_putWay (e : CacheSet) (w v : BitVec 2) (l : Line) :
    (e.putWay w l).way v = if v = w then l else e.way v := by
  unfold CacheSet.putWay CacheSet.way
  simp only
  rw [Vector.getElem_set]
  by_cases h : v = w
  · subst h; simp
  · have : w.toNat ≠ v.toNat := fun e => h (BitVec.eq_of_toNat_eq e.symm)
    simp [h, this]

@[simp] theorem CacheSet.way_touch (e : CacheSet) (w v : BitVec 2) : (e.touch w).way v = e.way v := rfl
@[simp] theorem CacheSet.find_touch (e : CacheSet) (w : BitVec 2) (t : BitVec 21) : (e.touch w).find t = e.find t := rfl

/-- The way found holds a valid line with the tag. -/
theorem CacheSet.find_some {e : CacheSet} {t : BitVec 21} {w : BitVec 2} (h : e.find t = some w) :
    (e.way w).valid = true ∧ (e.way w).tag = t := by
  have key : e.matches t w = true := by
    unfold CacheSet.find at h
    split_ifs at h with h0 h1 h2 h3 <;> (cases h; assumption)
  unfold CacheSet.matches at key
  simpa using key

/-- A way's line replaced by a valid line with the same tag: the same ways are found. -/
theorem CacheSet.find_putWay {e : CacheSet} {w : BitVec 2} {l : Line} (ht : l.tag = (e.way w).tag)
    (hv : l.valid = (e.way w).valid) (t : BitVec 21) : (e.putWay w l).find t = e.find t := by
  have key : ∀ v, (e.putWay w l).matches t v = e.matches t v := by
    intro v
    unfold CacheSet.matches
    rw [CacheSet.way_putWay]
    by_cases h : v = w
    · subst h; simp [ht, hv]
    · simp [h]
  unfold CacheSet.find
  simp only [key]

/-! ### Write-backs -/

@[simp] theorem Line.clean_tag (l : Line) : l.clean.tag = l.tag := by unfold Line.clean; split <;> rfl
@[simp] theorem Line.clean_data (l : Line) : l.clean.data = l.data := by unfold Line.clean; split <;> rfl
@[simp] theorem Line.clean_valid (l : Line) : l.clean.valid = l.valid := by
  unfold Line.clean Line.valid
  split
  · next h => rw [h]; rfl
  · rfl
theorem Line.clean_st (l : Line) : l.clean.st = if l.st = .modified then .exclusive else l.st := by
  unfold Line.clean
  split <;> rfl

/-- After the write-back of a way every way holds its line with its bytes, that one no longer modified. -/
theorem Cache.way_cleanWay (c : Cache) (s t : BitVec 8) (w v : BitVec 2) :
    ((c.cleanWay s w).entry t).way v = if t = s ∧ v = w then ((c.entry t).way v).clean else (c.entry t).way v := by
  unfold Cache.cleanWay
  rw [Cache.entry_putSet]
  by_cases ht : t = s
  · subst ht
    rw [if_pos rfl, CacheSet.way_putWay]
    by_cases hv : v = w
    · subst hv; simp
    · simp [hv]
  · simp [ht]

/-- Every lookup finds what it found. -/
@[simp] theorem Cache.lookup_cleanWay (c : Cache) (s : BitVec 8) (w : BitVec 2) (big : Bool) (a : Addr) :
    (c.cleanWay s w).lookup big a = c.lookup big a := by
  have key : ∀ t x v, ((c.cleanWay s w).entry t).matches x v = (c.entry t).matches x v := fun t x v => by
    unfold CacheSet.matches
    rw [Cache.way_cleanWay]
    split <;> simp
  unfold Cache.lookup CacheSet.find
  simp only [key]

/-- A slot is one of `modifiedSlots` exactly when its line is modified. -/
theorem Cache.mem_modifiedSlots (c : Cache) (s : BitVec 8) (w : BitVec 2) :
    (s, w) ∈ c.modifiedSlots ↔ ((c.entry s).way w).st = .modified := by
  have hw : w ∈ [0#2, 1#2, 2#2, 3#2] := by revert w; decide
  simp only [Cache.modifiedSlots, CacheSet.modifiedWays, List.mem_flatMap, List.mem_map, List.mem_filter, List.mem_range,
    Prod.mk.injEq, beq_iff_eq]
  constructor
  · rintro ⟨n, -, v, ⟨-, h⟩, rfl, rfl⟩; exact h
  · intro h
    exact ⟨s.toNat, s.isLt, w, ⟨hw, by simpa using h⟩, by simp, rfl⟩

/-- The write-back of a slot while the platform answers: nothing where the line is not modified, else its one transfer. -/
theorem writeBackSlot_ok {b : Bus} (hs : b.script = []) (c : MemCtx) (s : BitVec 8) (w : BitVec 2) :
    writeBackSlot c s w b = .ok ()
      (if ((b.cache.entry s).way w).st = .modified then
        let b' := b.finish c (writeBackXfer ((b.cache.slotAddr c.big s w).extractLsb' 4 28) ((b.cache.entry s).way w).data false)
        { b' with cache := b'.cache.cleanWay s w }
      else b) := by
  have ht : ∀ xs, (xs.any (·.kind.isRead)) = false → transact c false xs b = .ok () (b.finishAll c xs) := fun xs hx => by
    simp [transact, hs, hx]
  have hw : ∀ l d, [writeBackXfer l d false].any (·.kind.isRead) = false := fun _ _ => rfl
  unfold writeBackSlot
  by_cases h : ((b.cache.entry s).way w).st = .modified
  · simp only [bind, EStateM.bind, get, getThe, MonadStateOf.get, EStateM.get, h, if_true, ht _ (hw _ _), modify, modifyGet,
      MonadStateOf.modifyGet, EStateM.modifyGet, Bus.finishAll, List.foldl]
  · simp only [bind, EStateM.bind, get, getThe, MonadStateOf.get, EStateM.get, h, if_false, pure, EStateM.pure]

/-! ### Lines -/

/-- The set and the tag of an address name its line. -/
theorem line_of_set_tag {big : Bool} {a x : Addr} (hs : setOf big x = setOf big a) (ht : tagOf big x = tagOf big a) :
    x.extractLsb' 4 28 = a.extractLsb' 4 28 := by
  have hx := x.isLt
  have ha := a.isLt
  cases big
  · have h1 := congrArg BitVec.toNat hs
    have h2 := congrArg BitVec.toNat ht
    simp only [setOf, tagOf, Bool.false_eq_true, if_false, BitVec.toNat_setWidth, BitVec.extractLsb'_toNat,
      Nat.shiftRight_eq_div_pow] at h1 h2
    apply BitVec.eq_of_toNat_eq
    simp only [BitVec.extractLsb'_toNat, Nat.shiftRight_eq_div_pow]
    omega
  · have h1 := congrArg BitVec.toNat hs
    have h2 := congrArg BitVec.toNat ht
    simp only [setOf, tagOf, if_true, BitVec.toNat_setWidth, BitVec.extractLsb'_toNat,
      Nat.shiftRight_eq_div_pow] at h1 h2
    apply BitVec.eq_of_toNat_eq
    simp only [BitVec.extractLsb'_toNat, Nat.shiftRight_eq_div_pow]
    omega

/-- Addresses of one line have the same set and tag. -/
theorem set_tag_of_line {a x : Addr} (h : x.extractLsb' 4 28 = a.extractLsb' 4 28) (big : Bool) :
    setOf big x = setOf big a ∧ tagOf big x = tagOf big a := by
  have h' := congrArg BitVec.toNat h
  simp only [BitVec.extractLsb'_toNat, Nat.shiftRight_eq_div_pow] at h'
  have hx := x.isLt
  have ha := a.isLt
  constructor
  · apply BitVec.eq_of_toNat_eq
    cases big <;>
      simp only [setOf, Bool.false_eq_true, if_false, if_true, BitVec.toNat_setWidth, BitVec.extractLsb'_toNat,
        Nat.shiftRight_eq_div_pow] <;> omega
  · apply BitVec.eq_of_toNat_eq
    cases big <;>
      simp only [tagOf, Bool.false_eq_true, if_false, if_true, BitVec.toNat_setWidth, BitVec.extractLsb'_toNat,
        Nat.shiftRight_eq_div_pow] <;> omega

/-- Bytes written into a line. -/
theorem lineWrite_get (bs : List Byte) : ∀ (d : Vector Byte 16) (off i : Nat) (hi : i < 16),
    (lineWrite d off bs)[i] = if off ≤ i ∧ i < off + bs.length then bs.getD (i - off) 0 else d[i] := by
  induction bs with
  | nil => intro d off i hi; simp [lineWrite]
  | cons b bs ih =>
    intro d off i hi
    rw [lineWrite, ih _ (off + 1) i hi, List.length_cons]
    by_cases hio : i = off
    · subst hio
      have : ¬(i + 1 ≤ i ∧ i < i + 1 + bs.length) := by omega
      rw [if_neg this, if_pos (by omega), dif_pos hi]
      simp
    · by_cases hlt : off ≤ i
      · have h2 : i - off = (i - (off + 1)) + 1 := by omega
        by_cases hr : i < off + 1 + bs.length
        · rw [if_pos ⟨by omega, hr⟩, if_pos ⟨hlt, by omega⟩, h2]; simp
        · rw [if_neg (by omega), if_neg (by omega)]
          split
          · rw [Vector.getElem_set]; simp [Ne.symm hio]
          · rfl
      · rw [if_neg (by omega), if_neg (by omega)]
        split
        · rw [Vector.getElem_set]; simp [Ne.symm hio]
        · rfl

/-! ### Lookups -/

/-- The byte the cache holds of an address. -/
def Cache.byteAt (c : Cache) (big : Bool) (x : Addr) : Option Byte :=
  (c.lookup big x).map fun w =>
    ((c.entry (setOf big x)).way w).data[(byteOf x).toNat]'(by have := (byteOf x).isLt; omega)

theorem Bus.view_eq (b : Bus) (c : MemCtx) (x : Addr) :
    b.view c x = (b.cache.byteAt c.big x).getD ((wbByte x b.wb).getD (b.physByte c x)) := by
  unfold Bus.view Cache.byteAt
  split <;> rename_i h <;> simp [h]

theorem Cache.lookup_touchAt (c : Cache) (big : Bool) (a x : Addr) (w : BitVec 2) :
    (c.touchAt big a w).lookup big x = c.lookup big x := by
  unfold Cache.touchAt Cache.lookup
  rw [Cache.entry_putSet]
  split
  · rename_i h; rw [CacheSet.find_touch, h]
  · rfl

@[simp] theorem Cache.byteAt_touchAt (c : Cache) (big : Bool) (a x : Addr) (w : BitVec 2) :
    (c.touchAt big a w).byteAt big x = c.byteAt big x := by
  unfold Cache.byteAt
  rw [Cache.lookup_touchAt]
  cases c.lookup big x with
  | none => rfl
  | some v =>
    simp only [Option.map_some, Option.some.injEq]
    unfold Cache.touchAt
    rw! [Cache.entry_putSet]
    split
    · rename_i h; simp [h]
    · rfl

/-- A WRITE HIT changes, of everything the cache holds, the bytes written. -/
theorem Cache.byteAt_writeHit {c : Cache} {big : Bool} {a : Addr} {w : BitVec 2} (st : Mesi) (bs : List Byte)
    (hw : c.lookup big a = some w) (hst : st ≠ .invalid) (x : Addr) :
    ((c.writeHit big a w st bs).lookup big x = c.lookup big x) ∧
    (c.writeHit big a w st bs).byteAt big x =
      if x.extractLsb' 4 28 = a.extractLsb' 4 28 ∧ (byteOf a).toNat ≤ (byteOf x).toNat
          ∧ (byteOf x).toNat < (byteOf a).toNat + bs.length then
        some (bs.getD ((byteOf x).toNat - (byteOf a).toNat) 0)
      else c.byteAt big x := by
  have hf := CacheSet.find_some (e := c.entry (setOf big a)) hw
  have hl : ∀ t, ((((c.entry (setOf big a)).putWay w
      { (c.entry (setOf big a)).way w with
        st := st, data := lineWrite ((c.entry (setOf big a)).way w).data (byteOf a).toNat bs }).touch w).find t)
      = (c.entry (setOf big a)).find t := by
    intro t
    rw [CacheSet.find_touch]
    apply CacheSet.find_putWay
    · rfl
    · rw [hf.1]
      simp [Line.valid, hst]
  have hlook : ∀ y, (c.writeHit big a w st bs).lookup big y = c.lookup big y := by
    intro y
    unfold Cache.writeHit Cache.lookup
    simp only [Cache.entry_putSet]
    split
    · rename_i h; rw [hl, h]
    · rfl
  refine ⟨hlook x, ?_⟩
  by_cases hline : x.extractLsb' 4 28 = a.extractLsb' 4 28
  · obtain ⟨h1, h2⟩ := set_tag_of_line hline big
    have hx : c.lookup big x = some w := by unfold Cache.lookup at hw ⊢; rw [h1, h2]; exact hw
    unfold Cache.byteAt
    rw [hlook x, hx]
    simp only [Option.map_some, Cache.writeHit, Cache.entry_putSet, h1, if_true, CacheSet.way_touch, CacheSet.way_putWay, hline,
      true_and]
    rw [lineWrite_get]
    split <;> rfl
  · rw [if_neg (by tauto)]
    unfold Cache.byteAt
    rw [hlook x]
    cases hx : c.lookup big x with
    | none => rfl
    | some v =>
      simp only [Option.map_some, Option.some.injEq, Cache.writeHit, Cache.entry_putSet]
      by_cases hs : setOf big x = setOf big a
      · have hv : v ≠ w := by
          rintro rfl
          have := (CacheSet.find_some (e := c.entry (setOf big x)) hx).2
          rw [hs, hf.2] at this
          exact hline (line_of_set_tag hs this.symm)
        simp only [hs, if_true, CacheSet.way_touch, CacheSet.way_putWay, if_neg hv]
      · simp only [hs, if_false]

end Sys2Proof
end

