-- ==== Sys2Proof/Laws/State.lean ====
section
/-! SUPPORT. The fields of the states that the shared operations make, one lemma per field per update. -/

set_option Elab.async false

namespace Sys2Proof.Machine

/-! ### A completed instruction -/

@[simp] theorem State.complete_part (s : State) (io : Option IoInfo) : (s.complete io).part = s.part := rfl
@[simp] theorem State.complete_latch (s : State) (io : Option IoInfo) : (s.complete io).latch = s.latch := rfl
@[simp] theorem State.complete_regs (s : State) (io : Option IoInfo) : (s.complete io).regs = s.regs := rfl
@[simp] theorem State.complete_eip (s : State) (io : Option IoInfo) : (s.complete io).eip = s.eip := rfl
@[simp] theorem State.complete_eflags (s : State) (io : Option IoInfo) : (s.complete io).eflags = s.eflags := rfl
@[simp] theorem State.complete_segs (s : State) (io : Option IoInfo) : (s.complete io).segs = s.segs := rfl
@[simp] theorem State.complete_ldtr (s : State) (io : Option IoInfo) : (s.complete io).ldtr = s.ldtr := rfl
@[simp] theorem State.complete_tr (s : State) (io : Option IoInfo) : (s.complete io).tr = s.tr := rfl
@[simp] theorem State.complete_gdtr (s : State) (io : Option IoInfo) : (s.complete io).gdtr = s.gdtr := rfl
@[simp] theorem State.complete_idtr (s : State) (io : Option IoInfo) : (s.complete io).idtr = s.idtr := rfl
@[simp] theorem State.complete_cr0 (s : State) (io : Option IoInfo) : (s.complete io).cr0 = s.cr0 := rfl
@[simp] theorem State.complete_cr2 (s : State) (io : Option IoInfo) : (s.complete io).cr2 = s.cr2 := rfl
@[simp] theorem State.complete_cr3 (s : State) (io : Option IoInfo) : (s.complete io).cr3 = s.cr3 := rfl
@[simp] theorem State.complete_cr4 (s : State) (io : Option IoInfo) : (s.complete io).cr4 = s.cr4 := rfl
@[simp] theorem State.complete_dr0 (s : State) (io : Option IoInfo) : (s.complete io).dr0 = s.dr0 := rfl
@[simp] theorem State.complete_dr1 (s : State) (io : Option IoInfo) : (s.complete io).dr1 = s.dr1 := rfl
@[simp] theorem State.complete_dr2 (s : State) (io : Option IoInfo) : (s.complete io).dr2 = s.dr2 := rfl
@[simp] theorem State.complete_dr3 (s : State) (io : Option IoInfo) : (s.complete io).dr3 = s.dr3 := rfl
@[simp] theorem State.complete_dr6 (s : State) (io : Option IoInfo) : (s.complete io).dr6 = s.dr6 := rfl
@[simp] theorem State.complete_dr7 (s : State) (io : Option IoInfo) : (s.complete io).dr7 = s.dr7 := rfl
@[simp] theorem State.complete_tr3 (s : State) (io : Option IoInfo) : (s.complete io).tr3 = s.tr3 := rfl
@[simp] theorem State.complete_tr4 (s : State) (io : Option IoInfo) : (s.complete io).tr4 = s.tr4 := rfl
@[simp] theorem State.complete_tr5 (s : State) (io : Option IoInfo) : (s.complete io).tr5 = s.tr5 := rfl
@[simp] theorem State.complete_tr6 (s : State) (io : Option IoInfo) : (s.complete io).tr6 = s.tr6 := rfl
@[simp] theorem State.complete_tr7 (s : State) (io : Option IoInfo) : (s.complete io).tr7 = s.tr7 := rfl
@[simp] theorem State.complete_cpl (s : State) (io : Option IoInfo) : (s.complete io).cpl = s.cpl := rfl
@[simp] theorem State.complete_fpu (s : State) (io : Option IoInfo) : (s.complete io).fpu = s.fpu := rfl
@[simp] theorem State.complete_fpErrorPending (s : State) (io : Option IoInfo) : (s.complete io).fpErrorPending = s.fpErrorPending := rfl
@[simp] theorem State.complete_smbase (s : State) (io : Option IoInfo) : (s.complete io).smbase = s.smbase := rfl
@[simp] theorem State.complete_inSMM (s : State) (io : Option IoInfo) : (s.complete io).inSMM = s.inSMM := rfl
@[simp] theorem State.complete_smiLatched (s : State) (io : Option IoInfo) : (s.complete io).smiLatched = s.smiLatched := rfl
@[simp] theorem State.complete_nmiBlocked (s : State) (io : Option IoInfo) : (s.complete io).nmiBlocked = s.nmiBlocked := rfl
@[simp] theorem State.complete_haltedAtSmi (s : State) (io : Option IoInfo) : (s.complete io).haltedAtSmi = s.haltedAtSmi := rfl
@[simp] theorem State.complete_ioAtSmi (s : State) (io : Option IoInfo) : (s.complete io).ioAtSmi = s.ioAtSmi := rfl
@[simp] theorem State.complete_smmImage (s : State) (io : Option IoInfo) : (s.complete io).smmImage = s.smmImage := rfl
@[simp] theorem State.complete_smmHidden (s : State) (io : Option IoInfo) : (s.complete io).smmHidden = s.smmHidden := rfl
@[simp] theorem State.complete_halted (s : State) (io : Option IoInfo) : (s.complete io).halted = s.halted := rfl
@[simp] theorem State.complete_shutdown (s : State) (io : Option IoInfo) : (s.complete io).shutdown = s.shutdown := rfl
@[simp] theorem State.complete_clock (s : State) (io : Option IoInfo) : (s.complete io).clock = s.clock := rfl
@[simp] theorem State.complete_snoopReturn (s : State) (io : Option IoInfo) : (s.complete io).snoopReturn = s.snoopReturn := rfl
@[simp] theorem State.complete_pend (s : State) (io : Option IoInfo) : (s.complete io).pend = s.pend := rfl
@[simp] theorem State.complete_inNmi (s : State) (io : Option IoInfo) : (s.complete io).inNmi = s.inNmi := rfl
@[simp] theorem State.complete_trapPending (s : State) (io : Option IoInfo) : (s.complete io).trapPending = (s.trapPending || s.dec.tf) := rfl
@[simp] theorem State.complete_shadow (s : State) (io : Option IoInfo) : (s.complete io).shadow = false := rfl
@[simp] theorem State.complete_ssShadow (s : State) (io : Option IoInfo) : (s.complete io).ssShadow = false := rfl
@[simp] theorem State.complete_frozen (s : State) (io : Option IoInfo) : (s.complete io).frozen = s.frozen := rfl
@[simp] theorem State.complete_busWanted (s : State) (io : Option IoInfo) : (s.complete io).busWanted = s.busWanted := rfl
@[simp] theorem State.complete_dbgHits (s : State) (io : Option IoInfo) : (s.complete io).dbgHits = s.dbgHits := rfl
@[simp] theorem State.complete_taskTrap (s : State) (io : Option IoInfo) : (s.complete io).taskTrap = s.taskTrap := rfl
@[simp] theorem State.complete_pins (s : State) (io : Option IoInfo) : (s.complete io).pins = s.pins := rfl
@[simp] theorem State.complete_dec (s : State) (io : Option IoInfo) : (s.complete io).dec = Decoding.idle := rfl
@[simp] theorem State.complete_lastIo (s : State) (io : Option IoInfo) : (s.complete io).lastIo = io := rfl
@[simp] theorem State.complete_inputs (s : State) (io : Option IoInfo) : (s.complete io).inputs = s.inputs := rfl
@[simp] theorem State.complete_platform (s : State) (io : Option IoInfo) : (s.complete io).platform = s.platform := rfl
@[simp] theorem State.complete_serial (s : State) (io : Option IoInfo) : (s.complete io).serial = s.serial := rfl
@[simp] theorem State.complete_bus (s : State) (io : Option IoInfo) : (s.complete io).bus = s.bus := rfl

/-! ### A waiting processor -/

@[simp] theorem State.waiting_part (s : State) : (s.waiting).part = s.part := rfl
@[simp] theorem State.waiting_latch (s : State) : (s.waiting).latch = s.latch := rfl
@[simp] theorem State.waiting_regs (s : State) : (s.waiting).regs = s.regs := rfl
@[simp] theorem State.waiting_eip (s : State) : (s.waiting).eip = s.dec.start := rfl
@[simp] theorem State.waiting_eflags (s : State) : (s.waiting).eflags = setBit s.eflags 16 s.dec.rf := rfl
@[simp] theorem State.waiting_segs (s : State) : (s.waiting).segs = s.segs := rfl
@[simp] theorem State.waiting_ldtr (s : State) : (s.waiting).ldtr = s.ldtr := rfl
@[simp] theorem State.waiting_tr (s : State) : (s.waiting).tr = s.tr := rfl
@[simp] theorem State.waiting_gdtr (s : State) : (s.waiting).gdtr = s.gdtr := rfl
@[simp] theorem State.waiting_idtr (s : State) : (s.waiting).idtr = s.idtr := rfl
@[simp] theorem State.waiting_cr0 (s : State) : (s.waiting).cr0 = s.cr0 := rfl
@[simp] theorem State.waiting_cr2 (s : State) : (s.waiting).cr2 = s.cr2 := rfl
@[simp] theorem State.waiting_cr3 (s : State) : (s.waiting).cr3 = s.cr3 := rfl
@[simp] theorem State.waiting_cr4 (s : State) : (s.waiting).cr4 = s.cr4 := rfl
@[simp] theorem State.waiting_dr0 (s : State) : (s.waiting).dr0 = s.dr0 := rfl
@[simp] theorem State.waiting_dr1 (s : State) : (s.waiting).dr1 = s.dr1 := rfl
@[simp] theorem State.waiting_dr2 (s : State) : (s.waiting).dr2 = s.dr2 := rfl
@[simp] theorem State.waiting_dr3 (s : State) : (s.waiting).dr3 = s.dr3 := rfl
@[simp] theorem State.waiting_dr6 (s : State) : (s.waiting).dr6 = s.dr6 := rfl
@[simp] theorem State.waiting_dr7 (s : State) : (s.waiting).dr7 = s.dr7 := rfl
@[simp] theorem State.waiting_tr3 (s : State) : (s.waiting).tr3 = s.tr3 := rfl
@[simp] theorem State.waiting_tr4 (s : State) : (s.waiting).tr4 = s.tr4 := rfl
@[simp] theorem State.waiting_tr5 (s : State) : (s.waiting).tr5 = s.tr5 := rfl
@[simp] theorem State.waiting_tr6 (s : State) : (s.waiting).tr6 = s.tr6 := rfl
@[simp] theorem State.waiting_tr7 (s : State) : (s.waiting).tr7 = s.tr7 := rfl
@[simp] theorem State.waiting_cpl (s : State) : (s.waiting).cpl = s.cpl := rfl
@[simp] theorem State.waiting_fpu (s : State) : (s.waiting).fpu = s.fpu := rfl
@[simp] theorem State.waiting_fpErrorPending (s : State) : (s.waiting).fpErrorPending = s.fpErrorPending := rfl
@[simp] theorem State.waiting_smbase (s : State) : (s.waiting).smbase = s.smbase := rfl
@[simp] theorem State.waiting_inSMM (s : State) : (s.waiting).inSMM = s.inSMM := rfl
@[simp] theorem State.waiting_smiLatched (s : State) : (s.waiting).smiLatched = s.smiLatched := rfl
@[simp] theorem State.waiting_nmiBlocked (s : State) : (s.waiting).nmiBlocked = s.nmiBlocked := rfl
@[simp] theorem State.waiting_haltedAtSmi (s : State) : (s.waiting).haltedAtSmi = s.haltedAtSmi := rfl
@[simp] theorem State.waiting_ioAtSmi (s : State) : (s.waiting).ioAtSmi = s.ioAtSmi := rfl
@[simp] theorem State.waiting_smmImage (s : State) : (s.waiting).smmImage = s.smmImage := rfl
@[simp] theorem State.waiting_smmHidden (s : State) : (s.waiting).smmHidden = s.smmHidden := rfl
@[simp] theorem State.waiting_halted (s : State) : (s.waiting).halted = s.halted := rfl
@[simp] theorem State.waiting_shutdown (s : State) : (s.waiting).shutdown = s.shutdown := rfl
@[simp] theorem State.waiting_clock (s : State) : (s.waiting).clock = s.clock := rfl
@[simp] theorem State.waiting_snoopReturn (s : State) : (s.waiting).snoopReturn = s.snoopReturn := rfl
@[simp] theorem State.waiting_pend (s : State) : (s.waiting).pend = s.pend := rfl
@[simp] theorem State.waiting_inNmi (s : State) : (s.waiting).inNmi = s.inNmi := rfl
@[simp] theorem State.waiting_trapPending (s : State) : (s.waiting).trapPending = s.trapPending := rfl
@[simp] theorem State.waiting_shadow (s : State) : (s.waiting).shadow = s.shadow := rfl
@[simp] theorem State.waiting_ssShadow (s : State) : (s.waiting).ssShadow = s.ssShadow := rfl
@[simp] theorem State.waiting_frozen (s : State) : (s.waiting).frozen = s.frozen := rfl
@[simp] theorem State.waiting_busWanted (s : State) : (s.waiting).busWanted = true := rfl
@[simp] theorem State.waiting_dbgHits (s : State) : (s.waiting).dbgHits = s.dbgHits := rfl
@[simp] theorem State.waiting_taskTrap (s : State) : (s.waiting).taskTrap = s.taskTrap := rfl
@[simp] theorem State.waiting_pins (s : State) : (s.waiting).pins = s.pins := rfl
@[simp] theorem State.waiting_dec (s : State) : (s.waiting).dec = Decoding.idle := rfl
@[simp] theorem State.waiting_lastIo (s : State) : (s.waiting).lastIo = s.lastIo := rfl
@[simp] theorem State.waiting_inputs (s : State) : (s.waiting).inputs = s.inputs := rfl
@[simp] theorem State.waiting_platform (s : State) : (s.waiting).platform = s.platform := rfl
@[simp] theorem State.waiting_serial (s : State) : (s.waiting).serial = s.serial := rfl
@[simp] theorem State.waiting_bus (s : State) : (s.waiting).bus = s.bus := rfl

/-! ### A frozen processor -/

@[simp] theorem State.freezing_part (s : State) : (s.freezing).part = s.part := rfl
@[simp] theorem State.freezing_latch (s : State) : (s.freezing).latch = s.latch := rfl
@[simp] theorem State.freezing_regs (s : State) : (s.freezing).regs = s.regs := rfl
@[simp] theorem State.freezing_eip (s : State) : (s.freezing).eip = s.dec.start := rfl
@[simp] theorem State.freezing_eflags (s : State) : (s.freezing).eflags = setBit s.eflags 16 s.dec.rf := rfl
@[simp] theorem State.freezing_segs (s : State) : (s.freezing).segs = s.segs := rfl
@[simp] theorem State.freezing_ldtr (s : State) : (s.freezing).ldtr = s.ldtr := rfl
@[simp] theorem State.freezing_tr (s : State) : (s.freezing).tr = s.tr := rfl
@[simp] theorem State.freezing_gdtr (s : State) : (s.freezing).gdtr = s.gdtr := rfl
@[simp] theorem State.freezing_idtr (s : State) : (s.freezing).idtr = s.idtr := rfl
@[simp] theorem State.freezing_cr0 (s : State) : (s.freezing).cr0 = s.cr0 := rfl
@[simp] theorem State.freezing_cr2 (s : State) : (s.freezing).cr2 = s.cr2 := rfl
@[simp] theorem State.freezing_cr3 (s : State) : (s.freezing).cr3 = s.cr3 := rfl
@[simp] theorem State.freezing_cr4 (s : State) : (s.freezing).cr4 = s.cr4 := rfl
@[simp] theorem State.freezing_dr0 (s : State) : (s.freezing).dr0 = s.dr0 := rfl
@[simp] theorem State.freezing_dr1 (s : State) : (s.freezing).dr1 = s.dr1 := rfl
@[simp] theorem State.freezing_dr2 (s : State) : (s.freezing).dr2 = s.dr2 := rfl
@[simp] theorem State.freezing_dr3 (s : State) : (s.freezing).dr3 = s.dr3 := rfl
@[simp] theorem State.freezing_dr6 (s : State) : (s.freezing).dr6 = s.dr6 := rfl
@[simp] theorem State.freezing_dr7 (s : State) : (s.freezing).dr7 = s.dr7 := rfl
@[simp] theorem State.freezing_tr3 (s : State) : (s.freezing).tr3 = s.tr3 := rfl
@[simp] theorem State.freezing_tr4 (s : State) : (s.freezing).tr4 = s.tr4 := rfl
@[simp] theorem State.freezing_tr5 (s : State) : (s.freezing).tr5 = s.tr5 := rfl
@[simp] theorem State.freezing_tr6 (s : State) : (s.freezing).tr6 = s.tr6 := rfl
@[simp] theorem State.freezing_tr7 (s : State) : (s.freezing).tr7 = s.tr7 := rfl
@[simp] theorem State.freezing_cpl (s : State) : (s.freezing).cpl = s.cpl := rfl
@[simp] theorem State.freezing_fpu (s : State) : (s.freezing).fpu = s.fpu := rfl
@[simp] theorem State.freezing_fpErrorPending (s : State) : (s.freezing).fpErrorPending = s.fpErrorPending := rfl
@[simp] theorem State.freezing_smbase (s : State) : (s.freezing).smbase = s.smbase := rfl
@[simp] theorem State.freezing_inSMM (s : State) : (s.freezing).inSMM = s.inSMM := rfl
@[simp] theorem State.freezing_smiLatched (s : State) : (s.freezing).smiLatched = s.smiLatched := rfl
@[simp] theorem State.freezing_nmiBlocked (s : State) : (s.freezing).nmiBlocked = s.nmiBlocked := rfl
@[simp] theorem State.freezing_haltedAtSmi (s : State) : (s.freezing).haltedAtSmi = s.haltedAtSmi := rfl
@[simp] theorem State.freezing_ioAtSmi (s : State) : (s.freezing).ioAtSmi = s.ioAtSmi := rfl
@[simp] theorem State.freezing_smmImage (s : State) : (s.freezing).smmImage = s.smmImage := rfl
@[simp] theorem State.freezing_smmHidden (s : State) : (s.freezing).smmHidden = s.smmHidden := rfl
@[simp] theorem State.freezing_halted (s : State) : (s.freezing).halted = s.halted := rfl
@[simp] theorem State.freezing_shutdown (s : State) : (s.freezing).shutdown = s.shutdown := rfl
@[simp] theorem State.freezing_clock (s : State) : (s.freezing).clock = s.clock := rfl
@[simp] theorem State.freezing_snoopReturn (s : State) : (s.freezing).snoopReturn = s.snoopReturn := rfl
@[simp] theorem State.freezing_pend (s : State) : (s.freezing).pend = s.pend := rfl
@[simp] theorem State.freezing_inNmi (s : State) : (s.freezing).inNmi = s.inNmi := rfl
@[simp] theorem State.freezing_trapPending (s : State) : (s.freezing).trapPending = s.trapPending := rfl
@[simp] theorem State.freezing_shadow (s : State) : (s.freezing).shadow = false := rfl
@[simp] theorem State.freezing_ssShadow (s : State) : (s.freezing).ssShadow = false := rfl
@[simp] theorem State.freezing_frozen (s : State) : (s.freezing).frozen = true := rfl
@[simp] theorem State.freezing_busWanted (s : State) : (s.freezing).busWanted = s.busWanted := rfl
@[simp] theorem State.freezing_dbgHits (s : State) : (s.freezing).dbgHits = s.dbgHits := rfl
@[simp] theorem State.freezing_taskTrap (s : State) : (s.freezing).taskTrap = s.taskTrap := rfl
@[simp] theorem State.freezing_pins (s : State) : (s.freezing).pins = s.pins := rfl
@[simp] theorem State.freezing_dec (s : State) : (s.freezing).dec = Decoding.idle := rfl
@[simp] theorem State.freezing_lastIo (s : State) : (s.freezing).lastIo = s.lastIo := rfl
@[simp] theorem State.freezing_inputs (s : State) : (s.freezing).inputs = s.inputs := rfl
@[simp] theorem State.freezing_platform (s : State) : (s.freezing).platform = s.platform := rfl
@[simp] theorem State.freezing_serial (s : State) : (s.freezing).serial = s.serial := rfl
@[simp] theorem State.freezing_bus (s : State) : (s.freezing).bus = s.bus := rfl

/-! ### An exception reported -/

@[simp] theorem State.reported_part (s : State) (e : Exc) : (s.reported e).part = s.part := rfl
@[simp] theorem State.reported_latch (s : State) (e : Exc) : (s.reported e).latch = s.latch := rfl
@[simp] theorem State.reported_regs (s : State) (e : Exc) : (s.reported e).regs = s.regs := rfl
@[simp] theorem State.reported_eip (s : State) (e : Exc) : (s.reported e).eip = s.eip := rfl
@[simp] theorem State.reported_eflags (s : State) (e : Exc) : (s.reported e).eflags = s.eflags := rfl
@[simp] theorem State.reported_segs (s : State) (e : Exc) : (s.reported e).segs = s.segs := rfl
@[simp] theorem State.reported_ldtr (s : State) (e : Exc) : (s.reported e).ldtr = s.ldtr := rfl
@[simp] theorem State.reported_tr (s : State) (e : Exc) : (s.reported e).tr = s.tr := rfl
@[simp] theorem State.reported_gdtr (s : State) (e : Exc) : (s.reported e).gdtr = s.gdtr := rfl
@[simp] theorem State.reported_idtr (s : State) (e : Exc) : (s.reported e).idtr = s.idtr := rfl
@[simp] theorem State.reported_cr0 (s : State) (e : Exc) : (s.reported e).cr0 = s.cr0 := rfl
@[simp] theorem State.reported_cr2 (s : State) (e : Exc) : (s.reported e).cr2 = e.lin.getD s.cr2 := rfl
@[simp] theorem State.reported_cr3 (s : State) (e : Exc) : (s.reported e).cr3 = s.cr3 := rfl
@[simp] theorem State.reported_cr4 (s : State) (e : Exc) : (s.reported e).cr4 = s.cr4 := rfl
@[simp] theorem State.reported_dr0 (s : State) (e : Exc) : (s.reported e).dr0 = s.dr0 := rfl
@[simp] theorem State.reported_dr1 (s : State) (e : Exc) : (s.reported e).dr1 = s.dr1 := rfl
@[simp] theorem State.reported_dr2 (s : State) (e : Exc) : (s.reported e).dr2 = s.dr2 := rfl
@[simp] theorem State.reported_dr3 (s : State) (e : Exc) : (s.reported e).dr3 = s.dr3 := rfl
@[simp] theorem State.reported_dr6 (s : State) (e : Exc) : (s.reported e).dr6 = s.dr6 ||| e.dr6 := rfl
@[simp] theorem State.reported_dr7 (s : State) (e : Exc) : (s.reported e).dr7 = if e.dr6 = 0 then s.dr7 else setBit s.dr7 13 false := rfl
@[simp] theorem State.reported_tr3 (s : State) (e : Exc) : (s.reported e).tr3 = s.tr3 := rfl
@[simp] theorem State.reported_tr4 (s : State) (e : Exc) : (s.reported e).tr4 = s.tr4 := rfl
@[simp] theorem State.reported_tr5 (s : State) (e : Exc) : (s.reported e).tr5 = s.tr5 := rfl
@[simp] theorem State.reported_tr6 (s : State) (e : Exc) : (s.reported e).tr6 = s.tr6 := rfl
@[simp] theorem State.reported_tr7 (s : State) (e : Exc) : (s.reported e).tr7 = s.tr7 := rfl
@[simp] theorem State.reported_cpl (s : State) (e : Exc) : (s.reported e).cpl = s.cpl := rfl
@[simp] theorem State.reported_fpu (s : State) (e : Exc) : (s.reported e).fpu = s.fpu := rfl
@[simp] theorem State.reported_fpErrorPending (s : State) (e : Exc) : (s.reported e).fpErrorPending = s.fpErrorPending := rfl
@[simp] theorem State.reported_smbase (s : State) (e : Exc) : (s.reported e).smbase = s.smbase := rfl
@[simp] theorem State.reported_inSMM (s : State) (e : Exc) : (s.reported e).inSMM = s.inSMM := rfl
@[simp] theorem State.reported_smiLatched (s : State) (e : Exc) : (s.reported e).smiLatched = s.smiLatched := rfl
@[simp] theorem State.reported_nmiBlocked (s : State) (e : Exc) : (s.reported e).nmiBlocked = s.nmiBlocked := rfl
@[simp] theorem State.reported_haltedAtSmi (s : State) (e : Exc) : (s.reported e).haltedAtSmi = s.haltedAtSmi := rfl
@[simp] theorem State.reported_ioAtSmi (s : State) (e : Exc) : (s.reported e).ioAtSmi = s.ioAtSmi := rfl
@[simp] theorem State.reported_smmImage (s : State) (e : Exc) : (s.reported e).smmImage = s.smmImage := rfl
@[simp] theorem State.reported_smmHidden (s : State) (e : Exc) : (s.reported e).smmHidden = s.smmHidden := rfl
@[simp] theorem State.reported_halted (s : State) (e : Exc) : (s.reported e).halted = s.halted := rfl
@[simp] theorem State.reported_shutdown (s : State) (e : Exc) : (s.reported e).shutdown = s.shutdown := rfl
@[simp] theorem State.reported_clock (s : State) (e : Exc) : (s.reported e).clock = s.clock := rfl
@[simp] theorem State.reported_snoopReturn (s : State) (e : Exc) : (s.reported e).snoopReturn = s.snoopReturn := rfl
@[simp] theorem State.reported_pend (s : State) (e : Exc) : (s.reported e).pend = s.pend := rfl
@[simp] theorem State.reported_inNmi (s : State) (e : Exc) : (s.reported e).inNmi = s.inNmi := rfl
@[simp] theorem State.reported_trapPending (s : State) (e : Exc) : (s.reported e).trapPending = s.trapPending := rfl
@[simp] theorem State.reported_shadow (s : State) (e : Exc) : (s.reported e).shadow = s.shadow := rfl
@[simp] theorem State.reported_ssShadow (s : State) (e : Exc) : (s.reported e).ssShadow = s.ssShadow := rfl
@[simp] theorem State.reported_frozen (s : State) (e : Exc) : (s.reported e).frozen = s.frozen := rfl
@[simp] theorem State.reported_busWanted (s : State) (e : Exc) : (s.reported e).busWanted = s.busWanted := rfl
@[simp] theorem State.reported_dbgHits (s : State) (e : Exc) : (s.reported e).dbgHits = s.dbgHits := rfl
@[simp] theorem State.reported_taskTrap (s : State) (e : Exc) : (s.reported e).taskTrap = s.taskTrap := rfl
@[simp] theorem State.reported_pins (s : State) (e : Exc) : (s.reported e).pins = s.pins := rfl
@[simp] theorem State.reported_dec (s : State) (e : Exc) : (s.reported e).dec = s.dec := rfl
@[simp] theorem State.reported_lastIo (s : State) (e : Exc) : (s.reported e).lastIo = s.lastIo := rfl
@[simp] theorem State.reported_inputs (s : State) (e : Exc) : (s.reported e).inputs = s.inputs := rfl
@[simp] theorem State.reported_platform (s : State) (e : Exc) : (s.reported e).platform = s.platform := rfl
@[simp] theorem State.reported_serial (s : State) (e : Exc) : (s.reported e).serial = s.serial := rfl
@[simp] theorem State.reported_bus (s : State) (e : Exc) : (s.reported e).bus = s.bus := rfl

/-! ### The offset after the bytes taken -/

@[simp] theorem State.advance_nextPc (s : State) (n : Nat) : (s.advance n).nextPc = s.nextPc + BitVec.ofNat 32 n := by
  simp only [State.nextPc, State.advance, BitVec.ofNat_add, BitVec.add_assoc]

@[simp] theorem State.begin_nextPc_of_idle {s : State} (h : s.dec.active = false) : s.begin.nextPc = s.eip := by
  simp [State.begin, State.nextPc, h, Decoding.idle]

@[simp] theorem State.parked_nextPc (s : State) (e : Exc) : (s.parked e).nextPc = s.nextPc := rfl

/-! ### An exception left for the next step -/

@[simp] theorem State.parked_part (s : State) (e : Exc) : (s.parked e).part = s.part := rfl
@[simp] theorem State.parked_latch (s : State) (e : Exc) : (s.parked e).latch = s.latch := rfl
@[simp] theorem State.parked_regs (s : State) (e : Exc) : (s.parked e).regs = s.regs := rfl
@[simp] theorem State.parked_eip (s : State) (e : Exc) : (s.parked e).eip = s.eip := rfl
@[simp] theorem State.parked_eflags (s : State) (e : Exc) : (s.parked e).eflags = s.eflags := rfl
@[simp] theorem State.parked_segs (s : State) (e : Exc) : (s.parked e).segs = s.segs := rfl
@[simp] theorem State.parked_ldtr (s : State) (e : Exc) : (s.parked e).ldtr = s.ldtr := rfl
@[simp] theorem State.parked_tr (s : State) (e : Exc) : (s.parked e).tr = s.tr := rfl
@[simp] theorem State.parked_gdtr (s : State) (e : Exc) : (s.parked e).gdtr = s.gdtr := rfl
@[simp] theorem State.parked_idtr (s : State) (e : Exc) : (s.parked e).idtr = s.idtr := rfl
@[simp] theorem State.parked_cr0 (s : State) (e : Exc) : (s.parked e).cr0 = s.cr0 := rfl
@[simp] theorem State.parked_cr2 (s : State) (e : Exc) : (s.parked e).cr2 = s.cr2 := rfl
@[simp] theorem State.parked_cr3 (s : State) (e : Exc) : (s.parked e).cr3 = s.cr3 := rfl
@[simp] theorem State.parked_cr4 (s : State) (e : Exc) : (s.parked e).cr4 = s.cr4 := rfl
@[simp] theorem State.parked_dr0 (s : State) (e : Exc) : (s.parked e).dr0 = s.dr0 := rfl
@[simp] theorem State.parked_dr1 (s : State) (e : Exc) : (s.parked e).dr1 = s.dr1 := rfl
@[simp] theorem State.parked_dr2 (s : State) (e : Exc) : (s.parked e).dr2 = s.dr2 := rfl
@[simp] theorem State.parked_dr3 (s : State) (e : Exc) : (s.parked e).dr3 = s.dr3 := rfl
@[simp] theorem State.parked_dr6 (s : State) (e : Exc) : (s.parked e).dr6 = s.dr6 := rfl
@[simp] theorem State.parked_dr7 (s : State) (e : Exc) : (s.parked e).dr7 = s.dr7 := rfl
@[simp] theorem State.parked_tr3 (s : State) (e : Exc) : (s.parked e).tr3 = s.tr3 := rfl
@[simp] theorem State.parked_tr4 (s : State) (e : Exc) : (s.parked e).tr4 = s.tr4 := rfl
@[simp] theorem State.parked_tr5 (s : State) (e : Exc) : (s.parked e).tr5 = s.tr5 := rfl
@[simp] theorem State.parked_tr6 (s : State) (e : Exc) : (s.parked e).tr6 = s.tr6 := rfl
@[simp] theorem State.parked_tr7 (s : State) (e : Exc) : (s.parked e).tr7 = s.tr7 := rfl
@[simp] theorem State.parked_cpl (s : State) (e : Exc) : (s.parked e).cpl = s.cpl := rfl
@[simp] theorem State.parked_fpu (s : State) (e : Exc) : (s.parked e).fpu = s.fpu := rfl
@[simp] theorem State.parked_fpErrorPending (s : State) (e : Exc) : (s.parked e).fpErrorPending = s.fpErrorPending := rfl
@[simp] theorem State.parked_smbase (s : State) (e : Exc) : (s.parked e).smbase = s.smbase := rfl
@[simp] theorem State.parked_inSMM (s : State) (e : Exc) : (s.parked e).inSMM = s.inSMM := rfl
@[simp] theorem State.parked_smiLatched (s : State) (e : Exc) : (s.parked e).smiLatched = s.smiLatched := rfl
@[simp] theorem State.parked_nmiBlocked (s : State) (e : Exc) : (s.parked e).nmiBlocked = s.nmiBlocked := rfl
@[simp] theorem State.parked_haltedAtSmi (s : State) (e : Exc) : (s.parked e).haltedAtSmi = s.haltedAtSmi := rfl
@[simp] theorem State.parked_ioAtSmi (s : State) (e : Exc) : (s.parked e).ioAtSmi = s.ioAtSmi := rfl
@[simp] theorem State.parked_smmImage (s : State) (e : Exc) : (s.parked e).smmImage = s.smmImage := rfl
@[simp] theorem State.parked_smmHidden (s : State) (e : Exc) : (s.parked e).smmHidden = s.smmHidden := rfl
@[simp] theorem State.parked_halted (s : State) (e : Exc) : (s.parked e).halted = false := rfl
@[simp] theorem State.parked_shutdown (s : State) (e : Exc) : (s.parked e).shutdown = s.shutdown := rfl
@[simp] theorem State.parked_clock (s : State) (e : Exc) : (s.parked e).clock = if s.clock = .autoHaltPowerDown then .normal else s.clock := rfl
@[simp] theorem State.parked_snoopReturn (s : State) (e : Exc) : (s.parked e).snoopReturn = s.snoopReturn := rfl
@[simp] theorem State.parked_pend (s : State) (e : Exc) : (s.parked e).pend = s.pend := rfl
@[simp] theorem State.parked_inNmi (s : State) (e : Exc) : (s.parked e).inNmi = s.inNmi := rfl
@[simp] theorem State.parked_trapPending (s : State) (e : Exc) : (s.parked e).trapPending = s.trapPending := rfl
@[simp] theorem State.parked_shadow (s : State) (e : Exc) : (s.parked e).shadow = s.shadow := rfl
@[simp] theorem State.parked_ssShadow (s : State) (e : Exc) : (s.parked e).ssShadow = s.ssShadow := rfl
@[simp] theorem State.parked_frozen (s : State) (e : Exc) : (s.parked e).frozen = s.frozen := rfl
@[simp] theorem State.parked_busWanted (s : State) (e : Exc) : (s.parked e).busWanted = s.busWanted := rfl
@[simp] theorem State.parked_dbgHits (s : State) (e : Exc) : (s.parked e).dbgHits = s.dbgHits := rfl
@[simp] theorem State.parked_taskTrap (s : State) (e : Exc) : (s.parked e).taskTrap = s.taskTrap := rfl
@[simp] theorem State.parked_pins (s : State) (e : Exc) : (s.parked e).pins = s.pins := rfl
@[simp] theorem State.parked_dec (s : State) (e : Exc) : (s.parked e).dec = s.dec := rfl
@[simp] theorem State.parked_lastIo (s : State) (e : Exc) : (s.parked e).lastIo = s.lastIo := rfl
@[simp] theorem State.parked_inputs (s : State) (e : Exc) : (s.parked e).inputs = s.inputs := rfl
@[simp] theorem State.parked_platform (s : State) (e : Exc) : (s.parked e).platform = s.platform := rfl
@[simp] theorem State.parked_serial (s : State) (e : Exc) : (s.parked e).serial = some e := rfl
@[simp] theorem State.parked_bus (s : State) (e : Exc) : (s.parked e).bus = s.bus := rfl

/-! ### A failed delivery -/

@[simp] theorem State.afterFailed_part (s t : State) : (s.afterFailed t).part = s.part := rfl
@[simp] theorem State.afterFailed_latch (s t : State) : (s.afterFailed t).latch = s.latch := rfl
@[simp] theorem State.afterFailed_regs (s t : State) : (s.afterFailed t).regs = s.regs := rfl
@[simp] theorem State.afterFailed_eip (s t : State) : (s.afterFailed t).eip = s.eip := rfl
@[simp] theorem State.afterFailed_eflags (s t : State) : (s.afterFailed t).eflags = s.eflags := rfl
@[simp] theorem State.afterFailed_segs (s t : State) : (s.afterFailed t).segs = s.segs := rfl
@[simp] theorem State.afterFailed_ldtr (s t : State) : (s.afterFailed t).ldtr = s.ldtr := rfl
@[simp] theorem State.afterFailed_tr (s t : State) : (s.afterFailed t).tr = s.tr := rfl
@[simp] theorem State.afterFailed_gdtr (s t : State) : (s.afterFailed t).gdtr = s.gdtr := rfl
@[simp] theorem State.afterFailed_idtr (s t : State) : (s.afterFailed t).idtr = s.idtr := rfl
@[simp] theorem State.afterFailed_cr0 (s t : State) : (s.afterFailed t).cr0 = s.cr0 := rfl
@[simp] theorem State.afterFailed_cr2 (s t : State) : (s.afterFailed t).cr2 = t.cr2 := rfl
@[simp] theorem State.afterFailed_cr3 (s t : State) : (s.afterFailed t).cr3 = s.cr3 := rfl
@[simp] theorem State.afterFailed_cr4 (s t : State) : (s.afterFailed t).cr4 = s.cr4 := rfl
@[simp] theorem State.afterFailed_dr0 (s t : State) : (s.afterFailed t).dr0 = s.dr0 := rfl
@[simp] theorem State.afterFailed_dr1 (s t : State) : (s.afterFailed t).dr1 = s.dr1 := rfl
@[simp] theorem State.afterFailed_dr2 (s t : State) : (s.afterFailed t).dr2 = s.dr2 := rfl
@[simp] theorem State.afterFailed_dr3 (s t : State) : (s.afterFailed t).dr3 = s.dr3 := rfl
@[simp] theorem State.afterFailed_dr6 (s t : State) : (s.afterFailed t).dr6 = t.dr6 := rfl
@[simp] theorem State.afterFailed_dr7 (s t : State) : (s.afterFailed t).dr7 = t.dr7 := rfl
@[simp] theorem State.afterFailed_tr3 (s t : State) : (s.afterFailed t).tr3 = s.tr3 := rfl
@[simp] theorem State.afterFailed_tr4 (s t : State) : (s.afterFailed t).tr4 = s.tr4 := rfl
@[simp] theorem State.afterFailed_tr5 (s t : State) : (s.afterFailed t).tr5 = s.tr5 := rfl
@[simp] theorem State.afterFailed_tr6 (s t : State) : (s.afterFailed t).tr6 = s.tr6 := rfl
@[simp] theorem State.afterFailed_tr7 (s t : State) : (s.afterFailed t).tr7 = s.tr7 := rfl
@[simp] theorem State.afterFailed_cpl (s t : State) : (s.afterFailed t).cpl = s.cpl := rfl
@[simp] theorem State.afterFailed_fpu (s t : State) : (s.afterFailed t).fpu = s.fpu := rfl
@[simp] theorem State.afterFailed_fpErrorPending (s t : State) : (s.afterFailed t).fpErrorPending = s.fpErrorPending := rfl
@[simp] theorem State.afterFailed_smbase (s t : State) : (s.afterFailed t).smbase = s.smbase := rfl
@[simp] theorem State.afterFailed_inSMM (s t : State) : (s.afterFailed t).inSMM = s.inSMM := rfl
@[simp] theorem State.afterFailed_smiLatched (s t : State) : (s.afterFailed t).smiLatched = s.smiLatched := rfl
@[simp] theorem State.afterFailed_nmiBlocked (s t : State) : (s.afterFailed t).nmiBlocked = s.nmiBlocked := rfl
@[simp] theorem State.afterFailed_haltedAtSmi (s t : State) : (s.afterFailed t).haltedAtSmi = s.haltedAtSmi := rfl
@[simp] theorem State.afterFailed_ioAtSmi (s t : State) : (s.afterFailed t).ioAtSmi = s.ioAtSmi := rfl
@[simp] theorem State.afterFailed_smmImage (s t : State) : (s.afterFailed t).smmImage = s.smmImage := rfl
@[simp] theorem State.afterFailed_smmHidden (s t : State) : (s.afterFailed t).smmHidden = s.smmHidden := rfl
@[simp] theorem State.afterFailed_halted (s t : State) : (s.afterFailed t).halted = s.halted := rfl
@[simp] theorem State.afterFailed_shutdown (s t : State) : (s.afterFailed t).shutdown = s.shutdown := rfl
@[simp] theorem State.afterFailed_clock (s t : State) : (s.afterFailed t).clock = s.clock := rfl
@[simp] theorem State.afterFailed_snoopReturn (s t : State) : (s.afterFailed t).snoopReturn = s.snoopReturn := rfl
@[simp] theorem State.afterFailed_pend (s t : State) : (s.afterFailed t).pend = s.pend := rfl
@[simp] theorem State.afterFailed_inNmi (s t : State) : (s.afterFailed t).inNmi = s.inNmi := rfl
@[simp] theorem State.afterFailed_trapPending (s t : State) : (s.afterFailed t).trapPending = s.trapPending := rfl
@[simp] theorem State.afterFailed_shadow (s t : State) : (s.afterFailed t).shadow = s.shadow := rfl
@[simp] theorem State.afterFailed_ssShadow (s t : State) : (s.afterFailed t).ssShadow = s.ssShadow := rfl
@[simp] theorem State.afterFailed_frozen (s t : State) : (s.afterFailed t).frozen = s.frozen := rfl
@[simp] theorem State.afterFailed_busWanted (s t : State) : (s.afterFailed t).busWanted = s.busWanted := rfl
@[simp] theorem State.afterFailed_dbgHits (s t : State) : (s.afterFailed t).dbgHits = s.dbgHits := rfl
@[simp] theorem State.afterFailed_taskTrap (s t : State) : (s.afterFailed t).taskTrap = s.taskTrap := rfl
@[simp] theorem State.afterFailed_pins (s t : State) : (s.afterFailed t).pins = s.pins := rfl
@[simp] theorem State.afterFailed_dec (s t : State) : (s.afterFailed t).dec = s.dec := rfl
@[simp] theorem State.afterFailed_lastIo (s t : State) : (s.afterFailed t).lastIo = s.lastIo := rfl
@[simp] theorem State.afterFailed_inputs (s t : State) : (s.afterFailed t).inputs = s.inputs := rfl
@[simp] theorem State.afterFailed_platform (s t : State) : (s.afterFailed t).platform = s.platform := rfl
@[simp] theorem State.afterFailed_serial (s t : State) : (s.afterFailed t).serial = s.serial := rfl
@[simp] theorem State.afterFailed_bus (s t : State) : (s.afterFailed t).bus = t.bus := rfl

/-! ### Bytes taken -/

@[simp] theorem State.advance_part (s : State) (n : Nat) : (s.advance n).part = s.part := rfl
@[simp] theorem State.advance_latch (s : State) (n : Nat) : (s.advance n).latch = s.latch := rfl
@[simp] theorem State.advance_regs (s : State) (n : Nat) : (s.advance n).regs = s.regs := rfl
@[simp] theorem State.advance_eip (s : State) (n : Nat) : (s.advance n).eip = s.wrapPc (s.eip + BitVec.ofNat 32 n) := rfl
@[simp] theorem State.advance_eflags (s : State) (n : Nat) : (s.advance n).eflags = setBit s.eflags 16 false := rfl
@[simp] theorem State.advance_segs (s : State) (n : Nat) : (s.advance n).segs = s.segs := rfl
@[simp] theorem State.advance_ldtr (s : State) (n : Nat) : (s.advance n).ldtr = s.ldtr := rfl
@[simp] theorem State.advance_tr (s : State) (n : Nat) : (s.advance n).tr = s.tr := rfl
@[simp] theorem State.advance_gdtr (s : State) (n : Nat) : (s.advance n).gdtr = s.gdtr := rfl
@[simp] theorem State.advance_idtr (s : State) (n : Nat) : (s.advance n).idtr = s.idtr := rfl
@[simp] theorem State.advance_cr0 (s : State) (n : Nat) : (s.advance n).cr0 = s.cr0 := rfl
@[simp] theorem State.advance_cr2 (s : State) (n : Nat) : (s.advance n).cr2 = s.cr2 := rfl
@[simp] theorem State.advance_cr3 (s : State) (n : Nat) : (s.advance n).cr3 = s.cr3 := rfl
@[simp] theorem State.advance_cr4 (s : State) (n : Nat) : (s.advance n).cr4 = s.cr4 := rfl
@[simp] theorem State.advance_dr0 (s : State) (n : Nat) : (s.advance n).dr0 = s.dr0 := rfl
@[simp] theorem State.advance_dr1 (s : State) (n : Nat) : (s.advance n).dr1 = s.dr1 := rfl
@[simp] theorem State.advance_dr2 (s : State) (n : Nat) : (s.advance n).dr2 = s.dr2 := rfl
@[simp] theorem State.advance_dr3 (s : State) (n : Nat) : (s.advance n).dr3 = s.dr3 := rfl
@[simp] theorem State.advance_dr6 (s : State) (n : Nat) : (s.advance n).dr6 = s.dr6 := rfl
@[simp] theorem State.advance_dr7 (s : State) (n : Nat) : (s.advance n).dr7 = s.dr7 := rfl
@[simp] theorem State.advance_tr3 (s : State) (n : Nat) : (s.advance n).tr3 = s.tr3 := rfl
@[simp] theorem State.advance_tr4 (s : State) (n : Nat) : (s.advance n).tr4 = s.tr4 := rfl
@[simp] theorem State.advance_tr5 (s : State) (n : Nat) : (s.advance n).tr5 = s.tr5 := rfl
@[simp] theorem State.advance_tr6 (s : State) (n : Nat) : (s.advance n).tr6 = s.tr6 := rfl
@[simp] theorem State.advance_tr7 (s : State) (n : Nat) : (s.advance n).tr7 = s.tr7 := rfl
@[simp] theorem State.advance_cpl (s : State) (n : Nat) : (s.advance n).cpl = s.cpl := rfl
@[simp] theorem State.advance_fpu (s : State) (n : Nat) : (s.advance n).fpu = s.fpu := rfl
@[simp] theorem State.advance_fpErrorPending (s : State) (n : Nat) : (s.advance n).fpErrorPending = s.fpErrorPending := rfl
@[simp] theorem State.advance_smbase (s : State) (n : Nat) : (s.advance n).smbase = s.smbase := rfl
@[simp] theorem State.advance_inSMM (s : State) (n : Nat) : (s.advance n).inSMM = s.inSMM := rfl
@[simp] theorem State.advance_smiLatched (s : State) (n : Nat) : (s.advance n).smiLatched = s.smiLatched := rfl
@[simp] theorem State.advance_nmiBlocked (s : State) (n : Nat) : (s.advance n).nmiBlocked = s.nmiBlocked := rfl
@[simp] theorem State.advance_haltedAtSmi (s : State) (n : Nat) : (s.advance n).haltedAtSmi = s.haltedAtSmi := rfl
@[simp] theorem State.advance_ioAtSmi (s : State) (n : Nat) : (s.advance n).ioAtSmi = s.ioAtSmi := rfl
@[simp] theorem State.advance_smmImage (s : State) (n : Nat) : (s.advance n).smmImage = s.smmImage := rfl
@[simp] theorem State.advance_smmHidden (s : State) (n : Nat) : (s.advance n).smmHidden = s.smmHidden := rfl
@[simp] theorem State.advance_halted (s : State) (n : Nat) : (s.advance n).halted = s.halted := rfl
@[simp] theorem State.advance_shutdown (s : State) (n : Nat) : (s.advance n).shutdown = s.shutdown := rfl
@[simp] theorem State.advance_clock (s : State) (n : Nat) : (s.advance n).clock = s.clock := rfl
@[simp] theorem State.advance_snoopReturn (s : State) (n : Nat) : (s.advance n).snoopReturn = s.snoopReturn := rfl
@[simp] theorem State.advance_pend (s : State) (n : Nat) : (s.advance n).pend = s.pend := rfl
@[simp] theorem State.advance_inNmi (s : State) (n : Nat) : (s.advance n).inNmi = s.inNmi := rfl
@[simp] theorem State.advance_trapPending (s : State) (n : Nat) : (s.advance n).trapPending = s.trapPending := rfl
@[simp] theorem State.advance_shadow (s : State) (n : Nat) : (s.advance n).shadow = s.shadow := rfl
@[simp] theorem State.advance_ssShadow (s : State) (n : Nat) : (s.advance n).ssShadow = s.ssShadow := rfl
@[simp] theorem State.advance_frozen (s : State) (n : Nat) : (s.advance n).frozen = s.frozen := rfl
@[simp] theorem State.advance_busWanted (s : State) (n : Nat) : (s.advance n).busWanted = s.busWanted := rfl
@[simp] theorem State.advance_dbgHits (s : State) (n : Nat) : (s.advance n).dbgHits = s.dbgHits := rfl
@[simp] theorem State.advance_taskTrap (s : State) (n : Nat) : (s.advance n).taskTrap = s.taskTrap := rfl
@[simp] theorem State.advance_pins (s : State) (n : Nat) : (s.advance n).pins = s.pins := rfl
@[simp] theorem State.advance_dec (s : State) (n : Nat) : (s.advance n).dec = { s.dec with count := s.dec.count + n } := rfl
@[simp] theorem State.advance_lastIo (s : State) (n : Nat) : (s.advance n).lastIo = s.lastIo := rfl
@[simp] theorem State.advance_inputs (s : State) (n : Nat) : (s.advance n).inputs = s.inputs := rfl
@[simp] theorem State.advance_platform (s : State) (n : Nat) : (s.advance n).platform = s.platform := rfl
@[simp] theorem State.advance_serial (s : State) (n : Nat) : (s.advance n).serial = s.serial := rfl
@[simp] theorem State.advance_bus (s : State) (n : Nat) : (s.advance n).bus = s.bus := rfl

/-! ### Floating-point registers replaced -/

@[simp] theorem State.withFpu_part (s : State) (op : FpuOp) (f : Fpu) : (s.withFpu op f).part = s.part := rfl
@[simp] theorem State.withFpu_latch (s : State) (op : FpuOp) (f : Fpu) : (s.withFpu op f).latch = s.latch := rfl
@[simp] theorem State.withFpu_regs (s : State) (op : FpuOp) (f : Fpu) : (s.withFpu op f).regs = s.regs := rfl
@[simp] theorem State.withFpu_eip (s : State) (op : FpuOp) (f : Fpu) : (s.withFpu op f).eip = s.eip := rfl
@[simp] theorem State.withFpu_eflags (s : State) (op : FpuOp) (f : Fpu) : (s.withFpu op f).eflags = s.eflags := rfl
@[simp] theorem State.withFpu_segs (s : State) (op : FpuOp) (f : Fpu) : (s.withFpu op f).segs = s.segs := rfl
@[simp] theorem State.withFpu_ldtr (s : State) (op : FpuOp) (f : Fpu) : (s.withFpu op f).ldtr = s.ldtr := rfl
@[simp] theorem State.withFpu_tr (s : State) (op : FpuOp) (f : Fpu) : (s.withFpu op f).tr = s.tr := rfl
@[simp] theorem State.withFpu_gdtr (s : State) (op : FpuOp) (f : Fpu) : (s.withFpu op f).gdtr = s.gdtr := rfl
@[simp] theorem State.withFpu_idtr (s : State) (op : FpuOp) (f : Fpu) : (s.withFpu op f).idtr = s.idtr := rfl
@[simp] theorem State.withFpu_cr0 (s : State) (op : FpuOp) (f : Fpu) : (s.withFpu op f).cr0 = s.cr0 := rfl
@[simp] theorem State.withFpu_cr2 (s : State) (op : FpuOp) (f : Fpu) : (s.withFpu op f).cr2 = s.cr2 := rfl
@[simp] theorem State.withFpu_cr3 (s : State) (op : FpuOp) (f : Fpu) : (s.withFpu op f).cr3 = s.cr3 := rfl
@[simp] theorem State.withFpu_cr4 (s : State) (op : FpuOp) (f : Fpu) : (s.withFpu op f).cr4 = s.cr4 := rfl
@[simp] theorem State.withFpu_dr0 (s : State) (op : FpuOp) (f : Fpu) : (s.withFpu op f).dr0 = s.dr0 := rfl
@[simp] theorem State.withFpu_dr1 (s : State) (op : FpuOp) (f : Fpu) : (s.withFpu op f).dr1 = s.dr1 := rfl
@[simp] theorem State.withFpu_dr2 (s : State) (op : FpuOp) (f : Fpu) : (s.withFpu op f).dr2 = s.dr2 := rfl
@[simp] theorem State.withFpu_dr3 (s : State) (op : FpuOp) (f : Fpu) : (s.withFpu op f).dr3 = s.dr3 := rfl
@[simp] theorem State.withFpu_dr6 (s : State) (op : FpuOp) (f : Fpu) : (s.withFpu op f).dr6 = s.dr6 := rfl
@[simp] theorem State.withFpu_dr7 (s : State) (op : FpuOp) (f : Fpu) : (s.withFpu op f).dr7 = s.dr7 := rfl
@[simp] theorem State.withFpu_tr3 (s : State) (op : FpuOp) (f : Fpu) : (s.withFpu op f).tr3 = s.tr3 := rfl
@[simp] theorem State.withFpu_tr4 (s : State) (op : FpuOp) (f : Fpu) : (s.withFpu op f).tr4 = s.tr4 := rfl
@[simp] theorem State.withFpu_tr5 (s : State) (op : FpuOp) (f : Fpu) : (s.withFpu op f).tr5 = s.tr5 := rfl
@[simp] theorem State.withFpu_tr6 (s : State) (op : FpuOp) (f : Fpu) : (s.withFpu op f).tr6 = s.tr6 := rfl
@[simp] theorem State.withFpu_tr7 (s : State) (op : FpuOp) (f : Fpu) : (s.withFpu op f).tr7 = s.tr7 := rfl
@[simp] theorem State.withFpu_cpl (s : State) (op : FpuOp) (f : Fpu) : (s.withFpu op f).cpl = s.cpl := rfl
@[simp] theorem State.withFpu_fpu (s : State) (op : FpuOp) (f : Fpu) : (s.withFpu op f).fpu = f := rfl
@[simp] theorem State.withFpu_fpErrorPending (s : State) (op : FpuOp) (f : Fpu) : (s.withFpu op f).fpErrorPending = escPending op f := rfl
@[simp] theorem State.withFpu_smbase (s : State) (op : FpuOp) (f : Fpu) : (s.withFpu op f).smbase = s.smbase := rfl
@[simp] theorem State.withFpu_inSMM (s : State) (op : FpuOp) (f : Fpu) : (s.withFpu op f).inSMM = s.inSMM := rfl
@[simp] theorem State.withFpu_smiLatched (s : State) (op : FpuOp) (f : Fpu) : (s.withFpu op f).smiLatched = s.smiLatched := rfl
@[simp] theorem State.withFpu_nmiBlocked (s : State) (op : FpuOp) (f : Fpu) : (s.withFpu op f).nmiBlocked = s.nmiBlocked := rfl
@[simp] theorem State.withFpu_haltedAtSmi (s : State) (op : FpuOp) (f : Fpu) : (s.withFpu op f).haltedAtSmi = s.haltedAtSmi := rfl
@[simp] theorem State.withFpu_ioAtSmi (s : State) (op : FpuOp) (f : Fpu) : (s.withFpu op f).ioAtSmi = s.ioAtSmi := rfl
@[simp] theorem State.withFpu_smmImage (s : State) (op : FpuOp) (f : Fpu) : (s.withFpu op f).smmImage = s.smmImage := rfl
@[simp] theorem State.withFpu_smmHidden (s : State) (op : FpuOp) (f : Fpu) : (s.withFpu op f).smmHidden = s.smmHidden := rfl
@[simp] theorem State.withFpu_halted (s : State) (op : FpuOp) (f : Fpu) : (s.withFpu op f).halted = s.halted := rfl
@[simp] theorem State.withFpu_shutdown (s : State) (op : FpuOp) (f : Fpu) : (s.withFpu op f).shutdown = s.shutdown := rfl
@[simp] theorem State.withFpu_clock (s : State) (op : FpuOp) (f : Fpu) : (s.withFpu op f).clock = s.clock := rfl
@[simp] theorem State.withFpu_snoopReturn (s : State) (op : FpuOp) (f : Fpu) : (s.withFpu op f).snoopReturn = s.snoopReturn := rfl
@[simp] theorem State.withFpu_pend (s : State) (op : FpuOp) (f : Fpu) : (s.withFpu op f).pend = s.pend := rfl
@[simp] theorem State.withFpu_inNmi (s : State) (op : FpuOp) (f : Fpu) : (s.withFpu op f).inNmi = s.inNmi := rfl
@[simp] theorem State.withFpu_trapPending (s : State) (op : FpuOp) (f : Fpu) : (s.withFpu op f).trapPending = s.trapPending := rfl
@[simp] theorem State.withFpu_shadow (s : State) (op : FpuOp) (f : Fpu) : (s.withFpu op f).shadow = s.shadow := rfl
@[simp] theorem State.withFpu_ssShadow (s : State) (op : FpuOp) (f : Fpu) : (s.withFpu op f).ssShadow = s.ssShadow := rfl
@[simp] theorem State.withFpu_frozen (s : State) (op : FpuOp) (f : Fpu) : (s.withFpu op f).frozen = s.frozen := rfl
@[simp] theorem State.withFpu_busWanted (s : State) (op : FpuOp) (f : Fpu) : (s.withFpu op f).busWanted = s.busWanted := rfl
@[simp] theorem State.withFpu_dbgHits (s : State) (op : FpuOp) (f : Fpu) : (s.withFpu op f).dbgHits = s.dbgHits := rfl
@[simp] theorem State.withFpu_taskTrap (s : State) (op : FpuOp) (f : Fpu) : (s.withFpu op f).taskTrap = s.taskTrap := rfl
@[simp] theorem State.withFpu_pins (s : State) (op : FpuOp) (f : Fpu) : (s.withFpu op f).pins = s.pins := rfl
@[simp] theorem State.withFpu_dec (s : State) (op : FpuOp) (f : Fpu) : (s.withFpu op f).dec = s.dec := rfl
@[simp] theorem State.withFpu_lastIo (s : State) (op : FpuOp) (f : Fpu) : (s.withFpu op f).lastIo = s.lastIo := rfl
@[simp] theorem State.withFpu_inputs (s : State) (op : FpuOp) (f : Fpu) : (s.withFpu op f).inputs = s.inputs := rfl
@[simp] theorem State.withFpu_platform (s : State) (op : FpuOp) (f : Fpu) : (s.withFpu op f).platform = s.platform := rfl
@[simp] theorem State.withFpu_serial (s : State) (op : FpuOp) (f : Fpu) : (s.withFpu op f).serial = s.serial := rfl
@[simp] theorem State.withFpu_bus (s : State) (op : FpuOp) (f : Fpu) : (s.withFpu op f).bus = s.bus := rfl

/-! ### The beginning of an instruction -/

@[simp] theorem State.begin_part (s : State) : (s.begin).part = s.part := by unfold State.begin; split <;> rfl
@[simp] theorem State.begin_latch (s : State) : (s.begin).latch = s.latch := by unfold State.begin; split <;> rfl
@[simp] theorem State.begin_regs (s : State) : (s.begin).regs = s.regs := by unfold State.begin; split <;> rfl
@[simp] theorem State.begin_eip (s : State) : (s.begin).eip = s.eip := by unfold State.begin; split <;> rfl
@[simp] theorem State.begin_eflags (s : State) : (s.begin).eflags = s.eflags := by unfold State.begin; split <;> rfl
@[simp] theorem State.begin_segs (s : State) : (s.begin).segs = s.segs := by unfold State.begin; split <;> rfl
@[simp] theorem State.begin_ldtr (s : State) : (s.begin).ldtr = s.ldtr := by unfold State.begin; split <;> rfl
@[simp] theorem State.begin_tr (s : State) : (s.begin).tr = s.tr := by unfold State.begin; split <;> rfl
@[simp] theorem State.begin_gdtr (s : State) : (s.begin).gdtr = s.gdtr := by unfold State.begin; split <;> rfl
@[simp] theorem State.begin_idtr (s : State) : (s.begin).idtr = s.idtr := by unfold State.begin; split <;> rfl
@[simp] theorem State.begin_cr0 (s : State) : (s.begin).cr0 = s.cr0 := by unfold State.begin; split <;> rfl
@[simp] theorem State.begin_cr2 (s : State) : (s.begin).cr2 = s.cr2 := by unfold State.begin; split <;> rfl
@[simp] theorem State.begin_cr3 (s : State) : (s.begin).cr3 = s.cr3 := by unfold State.begin; split <;> rfl
@[simp] theorem State.begin_cr4 (s : State) : (s.begin).cr4 = s.cr4 := by unfold State.begin; split <;> rfl
@[simp] theorem State.begin_dr0 (s : State) : (s.begin).dr0 = s.dr0 := by unfold State.begin; split <;> rfl
@[simp] theorem State.begin_dr1 (s : State) : (s.begin).dr1 = s.dr1 := by unfold State.begin; split <;> rfl
@[simp] theorem State.begin_dr2 (s : State) : (s.begin).dr2 = s.dr2 := by unfold State.begin; split <;> rfl
@[simp] theorem State.begin_dr3 (s : State) : (s.begin).dr3 = s.dr3 := by unfold State.begin; split <;> rfl
@[simp] theorem State.begin_dr6 (s : State) : (s.begin).dr6 = s.dr6 := by unfold State.begin; split <;> rfl
@[simp] theorem State.begin_dr7 (s : State) : (s.begin).dr7 = s.dr7 := by unfold State.begin; split <;> rfl
@[simp] theorem State.begin_tr3 (s : State) : (s.begin).tr3 = s.tr3 := by unfold State.begin; split <;> rfl
@[simp] theorem State.begin_tr4 (s : State) : (s.begin).tr4 = s.tr4 := by unfold State.begin; split <;> rfl
@[simp] theorem State.begin_tr5 (s : State) : (s.begin).tr5 = s.tr5 := by unfold State.begin; split <;> rfl
@[simp] theorem State.begin_tr6 (s : State) : (s.begin).tr6 = s.tr6 := by unfold State.begin; split <;> rfl
@[simp] theorem State.begin_tr7 (s : State) : (s.begin).tr7 = s.tr7 := by unfold State.begin; split <;> rfl
@[simp] theorem State.begin_cpl (s : State) : (s.begin).cpl = s.cpl := by unfold State.begin; split <;> rfl
@[simp] theorem State.begin_fpu (s : State) : (s.begin).fpu = s.fpu := by unfold State.begin; split <;> rfl
@[simp] theorem State.begin_fpErrorPending (s : State) : (s.begin).fpErrorPending = s.fpErrorPending := by unfold State.begin; split <;> rfl
@[simp] theorem State.begin_smbase (s : State) : (s.begin).smbase = s.smbase := by unfold State.begin; split <;> rfl
@[simp] theorem State.begin_inSMM (s : State) : (s.begin).inSMM = s.inSMM := by unfold State.begin; split <;> rfl
@[simp] theorem State.begin_smiLatched (s : State) : (s.begin).smiLatched = s.smiLatched := by unfold State.begin; split <;> rfl
@[simp] theorem State.begin_nmiBlocked (s : State) : (s.begin).nmiBlocked = s.nmiBlocked := by unfold State.begin; split <;> rfl
@[simp] theorem State.begin_haltedAtSmi (s : State) : (s.begin).haltedAtSmi = s.haltedAtSmi := by unfold State.begin; split <;> rfl
@[simp] theorem State.begin_ioAtSmi (s : State) : (s.begin).ioAtSmi = s.ioAtSmi := by unfold State.begin; split <;> rfl
@[simp] theorem State.begin_smmImage (s : State) : (s.begin).smmImage = s.smmImage := by unfold State.begin; split <;> rfl
@[simp] theorem State.begin_smmHidden (s : State) : (s.begin).smmHidden = s.smmHidden := by unfold State.begin; split <;> rfl
@[simp] theorem State.begin_halted (s : State) : (s.begin).halted = s.halted := by unfold State.begin; split <;> rfl
@[simp] theorem State.begin_shutdown (s : State) : (s.begin).shutdown = s.shutdown := by unfold State.begin; split <;> rfl
@[simp] theorem State.begin_clock (s : State) : (s.begin).clock = s.clock := by unfold State.begin; split <;> rfl
@[simp] theorem State.begin_snoopReturn (s : State) : (s.begin).snoopReturn = s.snoopReturn := by unfold State.begin; split <;> rfl
@[simp] theorem State.begin_pend (s : State) : (s.begin).pend = s.pend := by unfold State.begin; split <;> rfl
@[simp] theorem State.begin_inNmi (s : State) : (s.begin).inNmi = s.inNmi := by unfold State.begin; split <;> rfl
@[simp] theorem State.begin_trapPending (s : State) : (s.begin).trapPending = s.trapPending := by unfold State.begin; split <;> rfl
@[simp] theorem State.begin_shadow (s : State) : (s.begin).shadow = s.shadow := by unfold State.begin; split <;> rfl
@[simp] theorem State.begin_ssShadow (s : State) : (s.begin).ssShadow = s.ssShadow := by unfold State.begin; split <;> rfl
@[simp] theorem State.begin_frozen (s : State) : (s.begin).frozen = s.frozen := by unfold State.begin; split <;> rfl
@[simp] theorem State.begin_busWanted (s : State) : (s.begin).busWanted = false := by unfold State.begin; split <;> rfl
@[simp] theorem State.begin_dbgHits (s : State) : (s.begin).dbgHits = s.dbgHits := by unfold State.begin; split <;> rfl
@[simp] theorem State.begin_taskTrap (s : State) : (s.begin).taskTrap = s.taskTrap := by unfold State.begin; split <;> rfl
@[simp] theorem State.begin_pins (s : State) : (s.begin).pins = s.pins := by unfold State.begin; split <;> rfl
@[simp] theorem State.begin_lastIo (s : State) : (s.begin).lastIo = s.lastIo := by unfold State.begin; split <;> rfl
@[simp] theorem State.begin_inputs (s : State) : (s.begin).inputs = s.inputs := by unfold State.begin; split <;> rfl
@[simp] theorem State.begin_platform (s : State) : (s.begin).platform = s.platform := by unfold State.begin; split <;> rfl
@[simp] theorem State.begin_serial (s : State) : (s.begin).serial = s.serial := by unfold State.begin; split <;> rfl
@[simp] theorem State.begin_bus (s : State) : (s.begin).bus = s.bus := by unfold State.begin; split <;> rfl

theorem State.begin_dec (s : State) :
    s.begin.dec = if s.dec.active then s.dec else { Decoding.idle with start := s.eip, tf := s.tf, rf := s.rf } := by
  unfold State.begin; split <;> rfl

/-! ### A new value in CR0 -/

@[simp] theorem State.setCr0_part (s : State) (v : DWord) : (s.setCr0 v).part = s.part := rfl
@[simp] theorem State.setCr0_latch (s : State) (v : DWord) : (s.setCr0 v).latch = s.latch := rfl
@[simp] theorem State.setCr0_regs (s : State) (v : DWord) : (s.setCr0 v).regs = s.regs := rfl
@[simp] theorem State.setCr0_eip (s : State) (v : DWord) : (s.setCr0 v).eip = s.eip := rfl
@[simp] theorem State.setCr0_eflags (s : State) (v : DWord) : (s.setCr0 v).eflags = s.eflags := rfl
@[simp] theorem State.setCr0_segs (s : State) (v : DWord) :
    (s.setCr0 v).segs = if s.pe && !v.getLsbD 0 then s.segs.withLimit { s with cr0 := v }.realLimit else s.segs := rfl
@[simp] theorem State.setCr0_ldtr (s : State) (v : DWord) : (s.setCr0 v).ldtr = s.ldtr := rfl
@[simp] theorem State.setCr0_tr (s : State) (v : DWord) : (s.setCr0 v).tr = s.tr := rfl
@[simp] theorem State.setCr0_gdtr (s : State) (v : DWord) : (s.setCr0 v).gdtr = s.gdtr := rfl
@[simp] theorem State.setCr0_idtr (s : State) (v : DWord) : (s.setCr0 v).idtr = s.idtr := rfl
@[simp] theorem State.setCr0_cr0 (s : State) (v : DWord) : (s.setCr0 v).cr0 = v := rfl
@[simp] theorem State.setCr0_cr2 (s : State) (v : DWord) : (s.setCr0 v).cr2 = s.cr2 := rfl
@[simp] theorem State.setCr0_cr3 (s : State) (v : DWord) : (s.setCr0 v).cr3 = s.cr3 := rfl
@[simp] theorem State.setCr0_cr4 (s : State) (v : DWord) : (s.setCr0 v).cr4 = s.cr4 := rfl
@[simp] theorem State.setCr0_dr0 (s : State) (v : DWord) : (s.setCr0 v).dr0 = s.dr0 := rfl
@[simp] theorem State.setCr0_dr1 (s : State) (v : DWord) : (s.setCr0 v).dr1 = s.dr1 := rfl
@[simp] theorem State.setCr0_dr2 (s : State) (v : DWord) : (s.setCr0 v).dr2 = s.dr2 := rfl
@[simp] theorem State.setCr0_dr3 (s : State) (v : DWord) : (s.setCr0 v).dr3 = s.dr3 := rfl
@[simp] theorem State.setCr0_dr6 (s : State) (v : DWord) : (s.setCr0 v).dr6 = s.dr6 := rfl
@[simp] theorem State.setCr0_dr7 (s : State) (v : DWord) : (s.setCr0 v).dr7 = s.dr7 := rfl
@[simp] theorem State.setCr0_tr3 (s : State) (v : DWord) : (s.setCr0 v).tr3 = s.tr3 := rfl
@[simp] theorem State.setCr0_tr4 (s : State) (v : DWord) : (s.setCr0 v).tr4 = s.tr4 := rfl
@[simp] theorem State.setCr0_tr5 (s : State) (v : DWord) : (s.setCr0 v).tr5 = s.tr5 := rfl
@[simp] theorem State.setCr0_tr6 (s : State) (v : DWord) : (s.setCr0 v).tr6 = s.tr6 := rfl
@[simp] theorem State.setCr0_tr7 (s : State) (v : DWord) : (s.setCr0 v).tr7 = s.tr7 := rfl
@[simp] theorem State.setCr0_cpl (s : State) (v : DWord) : (s.setCr0 v).cpl = s.cpl := rfl
@[simp] theorem State.setCr0_fpu (s : State) (v : DWord) : (s.setCr0 v).fpu = s.fpu := rfl
@[simp] theorem State.setCr0_fpErrorPending (s : State) (v : DWord) : (s.setCr0 v).fpErrorPending = s.fpErrorPending := rfl
@[simp] theorem State.setCr0_smbase (s : State) (v : DWord) : (s.setCr0 v).smbase = s.smbase := rfl
@[simp] theorem State.setCr0_inSMM (s : State) (v : DWord) : (s.setCr0 v).inSMM = s.inSMM := rfl
@[simp] theorem State.setCr0_smiLatched (s : State) (v : DWord) : (s.setCr0 v).smiLatched = s.smiLatched := rfl
@[simp] theorem State.setCr0_nmiBlocked (s : State) (v : DWord) : (s.setCr0 v).nmiBlocked = s.nmiBlocked := rfl
@[simp] theorem State.setCr0_haltedAtSmi (s : State) (v : DWord) : (s.setCr0 v).haltedAtSmi = s.haltedAtSmi := rfl
@[simp] theorem State.setCr0_ioAtSmi (s : State) (v : DWord) : (s.setCr0 v).ioAtSmi = s.ioAtSmi := rfl
@[simp] theorem State.setCr0_smmImage (s : State) (v : DWord) : (s.setCr0 v).smmImage = s.smmImage := rfl
@[simp] theorem State.setCr0_smmHidden (s : State) (v : DWord) : (s.setCr0 v).smmHidden = s.smmHidden := rfl
@[simp] theorem State.setCr0_halted (s : State) (v : DWord) : (s.setCr0 v).halted = s.halted := rfl
@[simp] theorem State.setCr0_shutdown (s : State) (v : DWord) : (s.setCr0 v).shutdown = s.shutdown := rfl
@[simp] theorem State.setCr0_clock (s : State) (v : DWord) : (s.setCr0 v).clock = s.clock := rfl
@[simp] theorem State.setCr0_snoopReturn (s : State) (v : DWord) : (s.setCr0 v).snoopReturn = s.snoopReturn := rfl
@[simp] theorem State.setCr0_pend (s : State) (v : DWord) : (s.setCr0 v).pend = s.pend := rfl
@[simp] theorem State.setCr0_inNmi (s : State) (v : DWord) : (s.setCr0 v).inNmi = s.inNmi := rfl
@[simp] theorem State.setCr0_trapPending (s : State) (v : DWord) : (s.setCr0 v).trapPending = s.trapPending := rfl
@[simp] theorem State.setCr0_taskTrap (s : State) (v : DWord) : (s.setCr0 v).taskTrap = s.taskTrap := rfl
@[simp] theorem State.setCr0_shadow (s : State) (v : DWord) : (s.setCr0 v).shadow = s.shadow := rfl
@[simp] theorem State.setCr0_ssShadow (s : State) (v : DWord) : (s.setCr0 v).ssShadow = s.ssShadow := rfl
@[simp] theorem State.setCr0_frozen (s : State) (v : DWord) : (s.setCr0 v).frozen = s.frozen := rfl
@[simp] theorem State.setCr0_busWanted (s : State) (v : DWord) : (s.setCr0 v).busWanted = s.busWanted := rfl
@[simp] theorem State.setCr0_dbgHits (s : State) (v : DWord) : (s.setCr0 v).dbgHits = s.dbgHits := rfl
@[simp] theorem State.setCr0_pins (s : State) (v : DWord) : (s.setCr0 v).pins = s.pins := rfl
@[simp] theorem State.setCr0_dec (s : State) (v : DWord) : (s.setCr0 v).dec = s.dec := rfl
@[simp] theorem State.setCr0_lastIo (s : State) (v : DWord) : (s.setCr0 v).lastIo = s.lastIo := rfl
@[simp] theorem State.setCr0_inputs (s : State) (v : DWord) : (s.setCr0 v).inputs = s.inputs := rfl
@[simp] theorem State.setCr0_platform (s : State) (v : DWord) : (s.setCr0 v).platform = s.platform := rfl
@[simp] theorem State.setCr0_serial (s : State) (v : DWord) : (s.setCr0 v).serial = s.serial := rfl
@[simp] theorem State.setCr0_bus (s : State) (v : DWord) : (s.setCr0 v).bus = s.bus := rfl

/-! ### Pin levels between clocks -/

/-- With HOLD, AHOLD and BOFF# deasserted a clock says all. -/
theorem State.heldBus_idle (s : State) (h : s.pins.hold = false ∧ s.pins.ahold = false ∧ s.pins.boff = false) : s.heldBus = s.bus := by
  simp [State.heldBus, h]

theorem State.levels_idle (s : State) (k : ClockIn) (h : s.pins.hold = false ∧ s.pins.ahold = false ∧ s.pins.boff = false) :
    s.levels k = k := by
  simp [State.levels, h]

/-! ### Register files -/

theorem Regs.get_set_eq (g : Regs) (r : Reg) (v : DWord) : (g.set r v).get r = v := by cases r <;> rfl

theorem Regs.get_set_ne (g : Regs) {r q : Reg} (v : DWord) (h : q ≠ r) : (g.set r v).get q = g.get q := by
  cases r <;> cases q <;> first | rfl | exact absurd rfl h

theorem Segs.get_set_eq (g : Segs) (r : SegReg) (v : Seg) : (g.set r v).get r = v := by cases r <;> rfl

@[simp] theorem Segs.withLimit_get (g : Segs) (l : DWord) (r : SegReg) : (g.withLimit l).get r = { g.get r with limit := l } := by
  cases r <;> rfl

theorem Segs.get_set_ne (g : Segs) {r q : SegReg} (v : Seg) (h : q ≠ r) : (g.set r v).get q = g.get q := by
  cases r <;> cases q <;> first | rfl | exact absurd rfl h

end Sys2Proof.Machine
end

