-- ==== Sys2Proof/Laws/Run.lean ====
section
/-! SUPPORT. How the meanings' computations run: one lemma per way a step of one of them can end. -/

set_option Elab.async false

namespace Sys2Proof.Machine

/-! ### Sequencing -/

theorem bind_ok {ε σ α β : Type} {x : EStateM ε σ α} {f : α → EStateM ε σ β} {s t : σ} {a : α} (h : x s = .ok a t) :
    (x >>= f) s = f a t := by
  simp only [bind, EStateM.bind, h]

theorem bind_error {ε σ α β : Type} {x : EStateM ε σ α} {f : α → EStateM ε σ β} {s t : σ} {e : ε} (h : x s = .error e t) :
    (x >>= f) s = .error e t := by
  simp only [bind, EStateM.bind, h]

/-- A sequence that ends well: its first part ended well. -/
theorem bind_eq_ok {ε σ α β : Type} {x : EStateM ε σ α} {f : α → EStateM ε σ β} {s u : σ} {b : β}
    (h : (x >>= f) s = .ok b u) : ∃ a t, x s = .ok a t ∧ f a t = .ok b u := by
  simp only [bind, EStateM.bind] at h
  split at h
  · exact ⟨_, _, ‹_›, h⟩
  · cases h

@[simp] theorem pure_run {ε σ α : Type} (a : α) (s : σ) : (pure a : EStateM ε σ α) s = .ok a s := rfl
@[simp] theorem get_run {ε σ : Type} (s : σ) : (get : EStateM ε σ σ) s = .ok s s := rfl
@[simp] theorem set_run {ε σ : Type} (t s : σ) : (set t : EStateM ε σ PUnit) s = .ok ⟨⟩ t := rfl
@[simp] theorem modify_run {ε σ : Type} (f : σ → σ) (s : σ) : (modify f : EStateM ε σ PUnit) s = .ok ⟨⟩ (f s) := rfl
@[simp] theorem throw_run {ε σ α : Type} (e : ε) (s : σ) : (throw e : EStateM ε σ α) s = .error e s := rfl
@[simp] theorem raise_run {α : Type} (e : Exc) (s : State) : (raise e : M α) s = .error (.exc e) s := rfl
@[simp] theorem refuse_run {α : Type} (r : Refusal) (s : State) : (refuse r : M α) s = .error (.refuse r) s := rfl

/-! ### Checks -/

theorem lockable_ok {s : State} {ok : Bool} (h : s.dec.lock = true → ok = true) : lockable ok s = .ok () s := by
  unfold lockable
  rw [bind_ok (get_run s)]
  cases hl : s.dec.lock <;> cases ok <;> simp_all

/-- LOCK where it is not accepted. -/
theorem lockable_error {s : State} (h : s.dec.lock = true) : lockable false s = .error (.exc invalidOpcode) s := by
  unfold lockable
  rw [bind_ok (get_run s)]
  simp [h]

theorem privileged_ok {s : State} (h : s.level = 0) : privileged s = .ok () s := by
  unfold privileged
  rw [bind_ok (get_run s)]
  simp [h]

theorem privileged_error {s : State} (h : s.level ≠ 0) : privileged s = .error (.exc (generalProtection 0)) s := by
  unfold privileged
  rw [bind_ok (get_run s), if_pos (by simpa using h)]
  rfl

/-! ### The ends of an instruction -/

theorem runWith_ok {m : M Unit} {fin : State → State} {s t : State} (h : m s = .ok () t) : runWith m fin s = .next (fin t) := by
  unfold runWith; rw [h]

theorem runWith_stopped {m : M Unit} {fin : State → State} {s t : State} {r : Stop} (h : m s = .error r t)
    (hr : ∀ e, r ≠ .exc e ∧ r ≠ .taskExc e) : runWith m fin s = stopped s r t := by
  unfold runWith; rw [h]
  cases r with
  | exc e => exact absurd rfl (hr e).1
  | taskExc e => exact absurd rfl (hr e).2
  | _ => rfl

theorem runWith_stall {m : M Unit} {fin : State → State} {s t : State} (h : m s = .error .stall t) :
    runWith m fin s = .next s.waiting := runWith_stopped h (fun _ => ⟨nofun, nofun⟩)

theorem runWith_freeze {m : M Unit} {fin : State → State} {s t : State} (h : m s = .error .freeze t) :
    runWith m fin s = .next s.freezing := runWith_stopped h (fun _ => ⟨nofun, nofun⟩)

theorem runWith_refuse {m : M Unit} {fin : State → State} {s t : State} {r : Refusal} (h : m s = .error (.refuse r) t) :
    runWith m fin s = .refused r := runWith_stopped h (fun _ => ⟨nofun, nofun⟩)

theorem runWith_exc {m : M Unit} {fin : State → State} {s t : State} {e : Exc} (h : m s = .error (.exc e) t) :
    runWith m fin s = except s e t := by
  unfold runWith; rw [h]

theorem runWith_taskExc {m : M Unit} {fin : State → State} {s t : State} {e : Exc} (h : m s = .error (.taskExc e) t) :
    runWith m fin s = exceptIn s e t := by
  unfold runWith; rw [h]

theorem run_ok {m : M Unit} {s t : State} (h : m s = .ok () t) : run m s = .next (t.complete none) := runWith_ok h

theorem run_exc {m : M Unit} {s t : State} {e : Exc} (h : m s = .error (.exc e) t) : run m s = except s e t := runWith_exc h

/-- What can come of an instruction: its effect, its exception taken, with the registers as they were or in a new task, or a wait, a
freeze, a reset or a refusal. -/
theorem runWith_cases {m : M Unit} {fin : State → State} {s u : State} (h : runWith m fin s = .next u) :
    (∃ t, m s = .ok () t ∧ u = fin t) ∨ (∃ e t, m s = .error (.exc e) t ∧ except s e t = .next u)
      ∨ (∃ e t, m s = .error (.taskExc e) t ∧ exceptIn s e t = .next u) ∨ (∃ r t, m s = .error r t ∧ stopped s r t = .next u) := by
  unfold runWith at h
  split at h
  · left; exact ⟨_, ‹_›, by cases h; rfl⟩
  · right; left; exact ⟨_, _, ‹_›, h⟩
  · right; right; left; exact ⟨_, _, ‹_›, h⟩
  · right; right; right; exact ⟨_, _, ‹_›, h⟩

/-! ### `Base386` -/

theorem chunkAddrs_length (c : MemCtx) (chs : List PChunk) : (chunkAddrs c chs).length = (chs.map (·.len)).sum := by
  unfold chunkAddrs
  induction chs with
  | nil => rfl
  | cons ch chs ih => simp_all [List.length_flatMap]

/-- With no write waiting, what is read is what memory gave. -/
theorem withHeld_nil (c : MemCtx) {chs : List PChunk} {bs : List Byte} (h : bs.length = (chs.map (·.len)).sum) :
    withHeld c [] chs bs = bs := by
  have hl := chunkAddrs_length c chs
  unfold withHeld
  simp only [heldByte, Option.getD_none]
  apply List.ext_getElem
  · simp [hl, h]
  · intro i _ _; simp

/-- An instruction of `Base386` that raises an exception leaves what its accesses have left: no write that waits is performed. -/
theorem runBase_raise (ws : List HeldWrite) (e : BaseExc) (s : State) : runBase ws (.raise e) s = .error (.exc (baseExc e)) s := rfl

/-- What an instruction of `Base386` ends with: its writes, then the registers. -/
theorem runBase_done {ws : List HeldWrite} {r : BaseResult} {s t : State} (h : performAll ws s = .ok () t) :
    runBase ws (.done r) s = .ok () (t.withBase r) := by
  unfold runBase
  simp only [bind, EStateM.bind, h]
  rfl

/-- A push of an instruction of `Base386` waits with its other writes. -/
theorem runBase_push {ws : List HeldWrite} {seg : Seg} {sp : DWord} {lvl : BitVec 2} {code : Word} {bs : List Byte} {k : DWord → BaseOp}
    {s u : State} {t : Stack} {w : HeldWrite}
    (h : holdPush ⟨seg, sp, s.prot, lvl == 3, stackFault (code.setWidth 32)⟩ bs s = .ok (t, w) u) :
    runBase ws (.push seg sp lvl code bs k) s = runBase (ws ++ [w]) (k t.sp) u := by
  show (get >>= fun s => holdPush _ bs >>= fun x => runBase (ws ++ [x.2]) (k x.1.sp)) s = _
  rw [bind_ok (get_run s), bind_ok h]

/-- The checks of a write of an instruction of `Base386` leave its writes waiting. -/
theorem runBase_check {ws : List HeldWrite} {seg : SegReg} {off : DWord} {n : Nat} {k : BaseOp} {s t : State}
    (h : checkPieces seg off [n] s = .ok () t) : runBase ws (.check seg off n k) s = runBase ws k t := by
  show (checkPieces seg off [n] >>= fun _ => runBase ws k) s = _
  rw [bind_ok h]

/-- A descriptor that is accessed already waits for no write. -/
theorem holdAccessed_set {a : Addr} {d : Nat} (s : State) (h : (descAr d).getLsbD 0 = true) : holdAccessed a d s = .ok [] s := by
  unfold holdAccessed
  rw [if_pos h]
  rfl

/-- After a task switch an exception is the new task's, with the registers that the switch has left. -/
theorem inNewTask_cases (m : M Unit) (s : State) :
    (∃ e t, m s = .error (.exc e) t ∧ inNewTask m s = .error (.taskExc e) (s.afterFailed t))
      ∨ ((∀ e t, m s ≠ .error (.exc e) t) ∧ inNewTask m s = m s) := by
  unfold inNewTask
  split
  · next h => exact .inl ⟨_, _, h, rfl⟩
  · next h => exact .inr ⟨h, rfl⟩

/-! ### The bus unit seen from the processor -/

theorem bus_ok {α : Type} {x : MemCtx → BM α} {s : State} {a : α} {b : Bus} (h : x s.memCtx s.bus = .ok a b) :
    bus x s = .ok a { s with bus := b } := by
  unfold bus; rw [h]

/-- Only the bus unit changes. -/
theorem bus_eq_ok {α : Type} {x : MemCtx → BM α} {s t : State} {a : α} (h : bus x s = .ok a t) :
    ∃ b, x s.memCtx s.bus = .ok a b ∧ t = { s with bus := b } := by
  unfold bus at h
  split at h
  · cases h; exact ⟨_, ‹_›, rfl⟩
  all_goals cases h

theorem bus_eq_error {α : Type} {x : MemCtx → BM α} {s t : State} {e : Stop} (h : bus x s = .error e t) :
    ∃ b, t = { s with bus := b } := by
  unfold bus at h
  split at h
  · cases h
  all_goals cases h; exact ⟨_, rfl⟩

end Sys2Proof.Machine
end

