-- ==== Sys2Proof/Laws/Access.lean ====
section
/-! SUPPORT. What the reads and writes of the processor do, with paging off: one lemma per shared operation of the bus unit. -/

set_option Elab.async false

namespace Sys2Proof.Machine

/-! ### Addresses and lanes -/

theorem setBit_false_getElem {n : Nat} (v : BitVec n) (k i : Nat) (h : i < n) :
    (setBit v k false)[i] = (v[i] && decide (i ≠ k)) := by
  unfold setBit
  rw [if_neg Bool.false_ne_true, BitVec.getElem_and, BitVec.getElem_not, ← BitVec.getLsbD_eq_getElem (x := BitVec.ofNat n (2 ^ k)),
    BitVec.getLsbD_ofNat, Nat.testBit_two_pow]
  by_cases hk : i = k
  · subst hk; simp [h]
  · simp [hk, Ne.symm hk]

/-- What A20M# does to an address, as a number. -/
theorem maskA20_toNat (c : MemCtx) (a : Addr) :
    (maskA20 c a).toNat = if c.a20m then a.toNat / 2 ^ 21 * 2 ^ 21 + a.toNat % 2 ^ 20 else a.toNat := by
  unfold maskA20
  split
  · have h : setBit a 20 false = a.extractLsb' 21 11 ++ 0#1 ++ a.extractLsb' 0 20 := by
      apply BitVec.eq_of_getLsbD_eq
      intro i hi
      rw [BitVec.getLsbD_eq_getElem hi, setBit_false_getElem, BitVec.getLsbD_append, BitVec.getLsbD_append]
      simp only [BitVec.getLsbD_extractLsb', Nat.zero_add]
      by_cases h1 : i < 20
      · simp [h1, show i ≠ 20 by omega, BitVec.getLsbD_eq_getElem hi]
      · by_cases h2 : i = 20
        · subst h2; simp
        · rw [if_neg h1, if_neg (by omega), show 21 + (i - 20 - 1) = i by omega, BitVec.getLsbD_eq_getElem hi]
          simp [h2]; omega
    have ha := a.isLt
    rw [h, BitVec.toNat_append, BitVec.toNat_append]
    simp only [BitVec.extractLsb'_toNat, BitVec.toNat_ofNat, Nat.shiftRight_eq_div_pow, Nat.shiftLeft_eq]
    rw [← Nat.shiftLeft_eq, ← Nat.shiftLeft_eq, Nat.zero_mod, Nat.or_zero, ← Nat.shiftLeft_add_eq_or_of_lt (by omega)]
    simp only [Nat.shiftLeft_eq]
    omega
  · rfl

/-- Addresses less than 1MB apart stay apart, whatever A20M# does. -/
theorem maskA20_ne (c : MemCtx) (lin : Addr) {i j : Nat} (hij : i < j) (hj : j < 2 ^ 20) :
    maskA20 c (lin + BitVec.ofNat 32 i) ≠ maskA20 c (lin + BitVec.ofNat 32 j) := by
  intro h
  have h' := congrArg BitVec.toNat h
  rw [maskA20_toNat, maskA20_toNat] at h'
  simp only [BitVec.toNat_add, BitVec.toNat_ofNat] at h'
  split at h' <;> omega

/-- A20M# keeps an address in its place in its line, and the next ones beside it. -/
theorem maskA20_add {c : MemCtx} {a : Addr} {i : Nat} (h : a.toNat % 16 + i < 16) :
    maskA20 c (a + BitVec.ofNat 32 i) = maskA20 c a + BitVec.ofNat 32 i := by
  apply BitVec.eq_of_toNat_eq
  rw [BitVec.toNat_add, maskA20_toNat, maskA20_toNat]
  have ha := a.isLt
  simp only [BitVec.toNat_add, BitVec.toNat_ofNat]
  split <;> omega

theorem maskA20_place (c : MemCtx) (a : Addr) : (maskA20 c a).toNat % 16 = a.toNat % 16 := by
  rw [maskA20_toNat]; split <;> omega

theorem natOfBytes_get (bs : List Byte) (j : Nat) : natOfBytes bs / 256 ^ j % 256 = (bs.getD j 0).toNat := by
  induction bs generalizing j with
  | nil => simp [natOfBytes]
  | cons b bs ih =>
    have hb := b.isLt
    cases j with
    | zero => simp only [natOfBytes, pow_zero, Nat.div_one, List.getD_cons_zero]; omega
    | succ j =>
      rw [natOfBytes, List.getD_cons_succ, ← ih j, pow_succ, Nat.mul_comm (256 ^ j) 256, ← Nat.div_div_eq_div_mul]
      congr 2; omega

theorem laneByte_laneData {off : BitVec 2} {bs : List Byte} {k : BitVec 2} (h : off.toNat ≤ k.toNat) :
    laneByte (laneData off bs) k = bs.getD (k.toNat - off.toNat) 0 := by
  unfold laneByte laneData
  apply BitVec.eq_of_toNat_eq
  rw [← natOfBytes_get]
  have hk := k.isLt
  simp only [BitVec.extractLsb'_toNat, BitVec.toNat_shiftLeft, BitVec.toNat_ofNat, Nat.shiftLeft_eq, Nat.shiftRight_eq_div_pow]
  obtain ⟨d, hd⟩ := Nat.exists_eq_add_of_le h
  rw [hd, show off.toNat + d - off.toNat = d by omega]
  have ho : off.toNat = 0 ∨ off.toNat = 1 ∨ off.toNat = 2 ∨ off.toNat = 3 := by omega
  have hdd : d = 0 ∨ d = 1 ∨ d = 2 ∨ d = 3 := by omega
  generalize natOfBytes bs = N
  rcases ho with h0 | h0 | h0 | h0 <;> rcases hdd with h1 | h1 | h1 | h1 <;> rw [h0] at hd ⊢ <;> subst h1 <;>
    first | (exfalso; omega) | (norm_num <;> omega)

/-! ### Parts of an access -/

/-- A part lies in one aligned block of 2^w bytes. -/
def Fits (w : Nat) (a : Addr) (n : Nat) : Prop := a.toNat % 2 ^ w + n ≤ 2 ^ w

/-- The `n` bytes from an address on. -/
abbrev Covers (a : Addr) (n : Nat) (x : Addr) : Prop := (x - a).toNat < n

/-- The byte of a part that an address in it holds. -/
def chunkByte (a : Addr) (bs : List Byte) (x : Addr) : Byte := bs.getD (x - a).toNat 0

theorem covers_add {a : Addr} {n i : Nat} (hi : i < n) (hn : n ≤ 2 ^ 20) : Covers a n (a + BitVec.ofNat 32 i) := by
  unfold Covers
  have ha := a.isLt
  simp only [BitVec.toNat_sub, BitVec.toNat_add, BitVec.toNat_ofNat]
  omega

theorem sub_add (a : Addr) {i : Nat} (hi : i < 2 ^ 20) : (a + BitVec.ofNat 32 i - a).toNat = i := by
  have ha := a.isLt
  simp only [BitVec.toNat_sub, BitVec.toNat_add, BitVec.toNat_ofNat]
  omega

theorem covers_eq {a x : Addr} : x = a + BitVec.ofNat 32 (x - a).toNat := by
  rw [BitVec.ofNat_toNat, BitVec.setWidth_eq, BitVec.add_comm, BitVec.sub_add_cancel]

/-- In a part, the address is the part's plus a distance that stays in the block. -/
theorem covers_toNat {w : Nat} (hw : w = 2 ∨ w = 4) {a x : Addr} {n : Nat} (hf : Fits w a n) (hx : Covers a n x) :
    x.toNat = a.toNat + (x - a).toNat ∧ x.toNat / 2 ^ w = a.toNat / 2 ^ w := by
  unfold Fits at hf
  unfold Covers at hx
  have ha := a.isLt
  have hxx := x.isLt
  rw [BitVec.toNat_sub] at hx ⊢
  rcases hw with rfl | rfl <;> norm_num at hf ⊢ <;> omega

theorem covers_split {a x : Addr} {k n : Nat} (hkn : k ≤ n) (hn : n ≤ 2 ^ 20) :
    Covers a n x ↔ Covers a k x ∨ Covers (a + BitVec.ofNat 32 k) (n - k) x := by
  unfold Covers
  have ha := a.isLt
  have hxx := x.isLt
  simp only [BitVec.toNat_sub, BitVec.toNat_add, BitVec.toNat_ofNat]
  omega

theorem covers_disjoint {a x : Addr} {k n : Nat} (hkn : k ≤ n) (hn : n ≤ 2 ^ 20)
    (h : Covers (a + BitVec.ofNat 32 k) (n - k) x) : ¬Covers a k x ∧ (x - a).toNat = k + (x - (a + BitVec.ofNat 32 k)).toNat := by
  unfold Covers at *
  have ha := a.isLt
  have hxx := x.isLt
  simp only [BitVec.toNat_sub, BitVec.toNat_add, BitVec.toNat_ofNat] at *
  omega

/-- The first part of an access and the rest. -/
theorem chunksOf_cons (w fuel : Nat) (lin : Addr) (n : Nat) (hn : 0 < n) :
    ∃ k, 0 < k ∧ k ≤ n ∧ Fits w lin k ∧ (k < n → lin.toNat % 2 ^ w + k = 2 ^ w) ∧
      chunksOf w (fuel + 1) lin n = ⟨lin, k⟩ :: chunksOf w fuel (lin + BitVec.ofNat 32 k) (n - k) := by
  have hl := Nat.mod_lt lin.toNat (Nat.two_pow_pos w)
  refine ⟨min n (2 ^ w - lin.toNat % 2 ^ w), by omega, by omega, ?_, by omega, ?_⟩
  · unfold Fits; omega
  · rw [chunksOf, if_neg (by omega)]

/-- THE PARTS OF AN ACCESS: each lies in one block and takes all of the access that lies there; together they are the access. -/
theorem chunksOf_spec {w : Nat} (hw : w = 2 ∨ w = 4) (fuel : Nat) :
    ∀ (a : Addr) (n : Nat), n ≤ fuel → n ≤ 2 ^ 20 →
      (∀ l ∈ chunksOf w fuel a n, (Fits w l.lin l.len ∧ 0 < l.len) ∧ (∀ x, Covers l.lin l.len x → Covers a n x)
        ∧ ∀ x, Covers a n x → x.toNat / 2 ^ w = l.lin.toNat / 2 ^ w → Covers l.lin l.len x)
      ∧ ∀ x, Covers a n x → ∃ l ∈ chunksOf w fuel a n, Covers l.lin l.len x := by
  induction fuel with
  | zero =>
    intro a n hn _
    obtain rfl : n = 0 := by omega
    exact ⟨fun l hl => (List.not_mem_nil hl).elim, fun x hx => (Nat.not_lt_zero _ hx).elim⟩
  | succ fuel ih =>
    intro a n hn h20
    rcases Nat.eq_zero_or_pos n with rfl | hpos
    · exact ⟨fun l hl => by rw [chunksOf, if_pos rfl] at hl; exact (List.not_mem_nil hl).elim,
        fun x hx => (Nat.not_lt_zero _ hx).elim⟩
    · obtain ⟨k, hk, hkn, hf, hfull, he⟩ := chunksOf_cons w fuel a n hpos
      obtain ⟨ih1, ih2⟩ := ih (a + BitVec.ofNat 32 k) (n - k) (by omega) (by omega)
      rw [he]
      constructor
      · intro l hl
        rcases List.mem_cons.1 hl with rfl | hl
        · refine ⟨⟨hf, hk⟩, fun x hx => (covers_split hkn h20).2 (.inl hx), fun x hx hb => ?_⟩
          rcases (covers_split hkn h20).1 hx with h | h
          · exact h
          · exfalso
            have hlt : k < n := by unfold Covers at h; omega
            have hfull := hfull hlt
            unfold Covers at h
            have ha := a.isLt
            have hxx := x.isLt
            simp only [BitVec.toNat_sub, BitVec.toNat_add, BitVec.toNat_ofNat] at h hb
            rcases hw with rfl | rfl <;> norm_num at hfull hb <;> omega
        · obtain ⟨h1, h2, h3⟩ := ih1 l hl
          refine ⟨h1, fun x hx => (covers_split hkn h20).2 (.inr (h2 x hx)), fun x hx hb => ?_⟩
          rcases (covers_split hkn h20).1 hx with h | h
          · exfalso
            have hl0 := h2 l.lin (by unfold Covers; simpa using h1.2)
            have hlt : k < n := by unfold Covers at hl0; omega
            have hfull := hfull hlt
            unfold Covers at h hl0
            have ha := a.isLt
            have hxx := x.isLt
            have hll := l.lin.isLt
            simp only [BitVec.toNat_sub, BitVec.toNat_add, BitVec.toNat_ofNat] at h hb hl0
            rcases hw with rfl | rfl <;> norm_num at hfull hb <;> omega
          · exact h3 x h hb
      · intro x hx
        rcases (covers_split hkn h20).1 hx with h | h
        · exact ⟨_, List.mem_cons_self .., h⟩
        · obtain ⟨l, hl, h'⟩ := ih2 x h
          exact ⟨l, List.mem_cons_of_mem _ hl, h'⟩

/-! ### Doublewords of a part -/

theorem dword_eq_iff {a x : Addr} : x.extractLsb' 2 30 = a.extractLsb' 2 30 ↔ x.toNat / 2 ^ 2 = a.toNat / 2 ^ 2 := by
  have ha := a.isLt
  have hx := x.isLt
  constructor
  · intro h
    have h' := congrArg BitVec.toNat h
    simp only [BitVec.extractLsb'_toNat, Nat.shiftRight_eq_div_pow] at h'
    omega
  · intro h
    apply BitVec.eq_of_toNat_eq
    simp only [BitVec.extractLsb'_toNat, Nat.shiftRight_eq_div_pow]
    omega

theorem line_eq_iff {a x : Addr} : x.extractLsb' 4 28 = a.extractLsb' 4 28 ↔ x.toNat / 2 ^ 4 = a.toNat / 2 ^ 4 := by
  have ha := a.isLt
  have hx := x.isLt
  constructor
  · intro h
    have h' := congrArg BitVec.toNat h
    simp only [BitVec.extractLsb'_toNat, Nat.shiftRight_eq_div_pow] at h'
    omega
  · intro h
    apply BitVec.eq_of_toNat_eq
    simp only [BitVec.extractLsb'_toNat, Nat.shiftRight_eq_div_pow]
    omega

theorem lane_toNat (a : Addr) : (a.extractLsb' 0 2).toNat = a.toNat % 4 := by
  simp only [BitVec.extractLsb'_toNat, Nat.shiftRight_zero]

theorem byteOf_toNat (a : Addr) : (byteOf a).toNat = a.toNat % 16 := by
  simp only [byteOf, BitVec.extractLsb'_toNat, Nat.shiftRight_zero]

theorem laneMask_get (off k : BitVec 2) {len : Nat} (h : off.toNat + len ≤ 4) :
    (laneMask off len).getLsbD k.toNat = (decide (off.toNat ≤ k.toNat) && decide (k.toNat < off.toNat + len)) := by
  unfold laneMask
  rw [BitVec.getLsbD_shiftLeft, BitVec.getLsbD_ofNat, Nat.testBit_two_pow_sub_one]
  have := k.isLt
  have := off.isLt
  by_cases h1 : off.toNat ≤ k.toNat
  · by_cases h2 : k.toNat < off.toNat + len
    · simp [h1, h2]; omega
    · simp [h1, h2]; omega
  · simp [h1]

/-- The bytes of a part in one doubleword: same doubleword, lane enabled. -/
theorem covers_lanes {a x : Addr} {n : Nat} (hf : Fits 2 a n) :
    Covers a n x ↔ x.extractLsb' 2 30 = a.extractLsb' 2 30
      ∧ (laneMask (a.extractLsb' 0 2) n).getLsbD (x.extractLsb' 0 2).toNat = true := by
  have hf' := hf
  unfold Fits at hf'
  rw [laneMask_get _ _ (by rw [lane_toNat]; exact hf'), Bool.and_eq_true, decide_eq_true_eq, decide_eq_true_eq, lane_toNat, lane_toNat,
    dword_eq_iff]
  constructor
  · intro h
    obtain ⟨h1, h2⟩ := covers_toNat (.inl rfl) hf h
    unfold Covers at h
    refine ⟨h2, ?_, ?_⟩ <;> omega
  · rintro ⟨h1, h2, h3⟩
    unfold Covers
    have ha := a.isLt
    have hx := x.isLt
    rw [BitVec.toNat_sub]
    omega

/-- The lane of a byte of a part in one doubleword. -/
theorem lane_sub {a x : Addr} {n : Nat} (hf : Fits 2 a n) (hx : Covers a n x) :
    (a.extractLsb' 0 2).toNat ≤ (x.extractLsb' 0 2).toNat
      ∧ (x.extractLsb' 0 2).toNat - (a.extractLsb' 0 2).toNat = (x - a).toNat := by
  obtain ⟨h1, h2⟩ := covers_toNat (.inl rfl) hf hx
  rw [lane_toNat, lane_toNat]
  unfold Fits at hf
  unfold Covers at hx
  omega

/-- The bytes of a part in one line: same line, place in the range. -/
theorem covers_line {a x : Addr} {n : Nat} (hf : Fits 4 a n) :
    Covers a n x ↔ x.extractLsb' 4 28 = a.extractLsb' 4 28 ∧ (byteOf a).toNat ≤ (byteOf x).toNat
      ∧ (byteOf x).toNat < (byteOf a).toNat + n := by
  rw [line_eq_iff, byteOf_toNat, byteOf_toNat]
  constructor
  · intro h
    obtain ⟨h1, h2⟩ := covers_toNat (.inr rfl) hf h
    unfold Covers at h
    unfold Fits at hf
    refine ⟨h2, ?_, ?_⟩ <;> omega
  · rintro ⟨h1, h2, h3⟩
    unfold Covers
    have ha := a.isLt
    have hx := x.isLt
    rw [BitVec.toNat_sub]
    omega

theorem place_sub {a x : Addr} {n : Nat} (hf : Fits 4 a n) (hx : Covers a n x) :
    (byteOf x).toNat - (byteOf a).toNat = (x - a).toNat := by
  obtain ⟨h1, h2⟩ := covers_toNat (.inr rfl) hf hx
  rw [byteOf_toNat, byteOf_toNat]
  unfold Fits at hf
  unfold Covers at hx
  omega

theorem lookup_line {c : Cache} {big : Bool} {a x : Addr} (h : x.extractLsb' 4 28 = a.extractLsb' 4 28) :
    c.lookup big x = c.lookup big a := by
  obtain ⟨h1, h2⟩ := set_tag_of_line h big
  unfold Cache.lookup; rw [h1, h2]

/-! ### Control state -/

theorem Bus.SameControl.refl (b : Bus) : Bus.SameControl b b := by constructor <;> rfl

theorem Bus.SameControl.trans {a b c : Bus} (h : Bus.SameControl a b) (k : Bus.SameControl b c) : Bus.SameControl a c :=
  ⟨k.fetchq.trans h.fetchq, k.tlb.trans h.tlb, k.phase.trans h.phase, k.cur.trans h.cur, k.queue.trans h.queue,
    k.vector.trans h.vector, k.ioIn.trans h.ioIn, k.script.trans h.script, k.heldHold.trans h.heldHold,
    k.heldAddr.trans h.heldAddr, k.draws.trans h.draws⟩

theorem Bus.SameButWb.control {b b' : Bus} (h : Bus.SameButWb b b') : Bus.SameControl b b' :=
  ⟨h.fetchq, h.tlb, h.phase, h.cur, h.queue, h.vector, h.ioIn, h.script, h.heldHold, h.heldAddr, h.draws⟩

theorem Bus.SameUnit.control {b b' : Bus} (h : Bus.SameUnit b b') : Bus.SameControl b b' := h.butWb.control

theorem Bus.SameButRead.control {b b' : Bus} (h : Bus.SameButRead b b') : Bus.SameControl b b' :=
  ⟨h.fetchq, h.tlb, h.phase, h.cur, h.queue, h.vector, h.ioIn, h.script, h.heldHold, h.heldAddr, h.draws⟩

theorem Bus.view_memView (b : Bus) (c : MemCtx) (x : Addr) : b.view c x = (b.cache.byteAt c.big x).getD (b.memView c x) :=
  Bus.view_eq b c x

/-! ### Writing one part -/

/-- The processor sees the bytes of a part, and every other byte as before. -/
def WritesChunk (c : MemCtx) (a : Addr) (n : Nat) (bs : List Byte) (b b' : Bus) : Prop :=
  (∀ x, Covers a n x → b'.view c x = chunkByte a bs x) ∧ ∀ x, ¬Covers a n x → b'.view c x = b.view c x

theorem view_of_hit {b b' : Bus} {c : MemCtx} {a : Addr} {n : Nat} {bs : List Byte}
    (hc : ∀ x, Covers a n x → b'.cache.byteAt c.big x = some (chunkByte a bs x))
    (hc' : ∀ x, ¬Covers a n x → b'.cache.byteAt c.big x = b.cache.byteAt c.big x)
    (hm : ∀ x, ¬Covers a n x → b'.memView c x = b.memView c x) : WritesChunk c a n bs b b' := by
  constructor
  · intro x hx; rw [Bus.view_memView, hc x hx]; rfl
  · intro x hx; rw [Bus.view_memView, Bus.view_memView, hc' x hx, hm x hx]

theorem view_of_miss {b b' : Bus} {c : MemCtx} {a : Addr} {n : Nat} {bs : List Byte} (hf : Fits 4 a n)
    (hl : b.cache.lookup c.big a = none) (hc : b'.cache = b.cache)
    (hm : ∀ x, Covers a n x → b'.memView c x = chunkByte a bs x)
    (hm' : ∀ x, ¬Covers a n x → b'.memView c x = b.memView c x) : WritesChunk c a n bs b b' := by
  constructor
  · intro x hx
    rw [Bus.view_memView, hm x hx, hc]
    have : b.cache.byteAt c.big x = none := by
      unfold Cache.byteAt
      rw [lookup_line ((covers_line hf).1 hx).1, hl]; rfl
    rw [this]; rfl
  · intro x hx; rw [Bus.view_memView, Bus.view_memView, hc, hm' x hx]

/-- What the cache holds after a write hit, in terms of the part. -/
theorem byteAt_writeHit_chunk {k : Cache} {big : Bool} {a : Addr} {w : BitVec 2} {st : Mesi} {bs : List Byte}
    (hw : k.lookup big a = some w) (hst : st ≠ .invalid) (hf : Fits 4 a bs.length) :
    (∀ x, Covers a bs.length x → (k.writeHit big a w st bs).byteAt big x = some (chunkByte a bs x)) ∧
      ∀ x, ¬Covers a bs.length x → (k.writeHit big a w st bs).byteAt big x = k.byteAt big x := by
  constructor
  · intro x hx
    rw [(Cache.byteAt_writeHit st bs hw hst x).2, if_pos ((covers_line hf).1 hx), place_sub hf hx]; rfl
  · intro x hx
    rw [(Cache.byteAt_writeHit st bs hw hst x).2, if_neg (fun h => hx ((covers_line hf).2 h))]

/-- A line found is valid. -/
theorem state_of_lookup {k : Cache} {big : Bool} {a : Addr} {w : BitVec 2} (hw : k.lookup big a = some w) :
    ((k.entry (setOf big a)).way w).st ≠ .invalid := by
  have := (CacheSet.find_some (e := k.entry (setOf big a)) hw).1
  unfold Line.valid at this
  intro h
  rw [h] at this
  simp at this

/-- A buffered data write carries the bytes of its part. -/
theorem byteAt_part {a x : Addr} {bs : List Byte} {n : Nat} {hit pcd pwt plock follows : Bool} (hf : Fits 2 a n) :
    (WbEntry.mk false (memDword a) (LChunk.lanes ⟨a, n⟩) (laneData (a.extractLsb' 0 2) bs) hit pcd pwt plock follows).byteAt x
      = if Covers a n x then some (chunkByte a bs x) else none := by
  unfold WbEntry.byteAt
  by_cases hx : Covers a n x
  · obtain ⟨h1, h2⟩ := (covers_lanes hf).1 hx
    obtain ⟨h3, h4⟩ := lane_sub hf hx
    rw [if_pos hx, if_pos, laneByte_laneData h3, h4]
    · rfl
    · rw [Bool.and_eq_true, Bool.and_eq_true]
      exact ⟨⟨rfl, by rw [h1]; exact beq_self_eq_true _⟩, h2⟩
  · rw [if_neg hx, if_neg]
    rw [Bool.and_eq_true, Bool.and_eq_true]
    rintro ⟨⟨-, h1⟩, h2⟩
    exact hx ((covers_lanes hf).2 ⟨(eq_of_beq h1).symm, h2⟩)

/-- The bytes of an access, of which the first `k` have been taken. -/
theorem chunkByte_split {a x : Addr} {bs : List Byte} {k : Nat} (hkn : k ≤ bs.length) (hn : bs.length ≤ 2 ^ 20) :
    (Covers a k x → chunkByte a (bs.take k) x = chunkByte a bs x)
      ∧ (Covers (a + BitVec.ofNat 32 k) (bs.length - k) x
        → chunkByte (a + BitVec.ofNat 32 k) (bs.drop k) x = chunkByte a bs x) := by
  constructor
  · intro h
    unfold Covers at h
    unfold chunkByte
    simp only [List.getD_eq_getElem?_getD, List.getElem?_take, h, if_true]
  · intro h
    have := (covers_disjoint hkn hn h).2
    unfold chunkByte
    simp only [List.getD_eq_getElem?_getD, List.getElem?_drop, this]

/-- POSTING THE BYTES of an access: memory will hold them, and of every other address what it would have held. -/
theorem postWrites_spec {c : MemCtx} {hit pcd pwt more : Bool} (hfree : c.busFree = true) (fuel : Nat) :
    ∀ (follows : Bool) (a : Addr) (bs : List Byte) (b : Bus), bs.length ≤ fuel → bs.length ≤ 2 ^ 20 → b.memWf = true → b.script = [] →
      ∃ b', postWrites c (writeEntries false hit pcd pwt follows more memDword (chunksOf 2 fuel a bs.length) bs) b = .ok () b'
        ∧ b'.memWf = true ∧ Bus.SameButWb b b' ∧ (∀ x, Covers a bs.length x → b'.memView c x = chunkByte a bs x)
        ∧ ∀ x, ¬Covers a bs.length x → b'.memView c x = b.memView c x := by
  induction fuel with
  | zero =>
    intro follows a bs b hn _ hb _
    obtain rfl : bs = [] := List.eq_nil_of_length_eq_zero (by omega)
    exact ⟨b, rfl, hb, .refl b, fun x hx => (Nat.not_lt_zero _ hx).elim, fun _ _ => rfl⟩
  | succ fuel ih =>
    intro follows a bs b hn h20 hb hs
    rcases Nat.eq_zero_or_pos bs.length with h0 | hpos
    · obtain rfl : bs = [] := List.eq_nil_of_length_eq_zero h0
      exact ⟨b, rfl, hb, .refl b, fun x hx => (Nat.not_lt_zero _ hx).elim, fun _ _ => rfl⟩
    · obtain ⟨k, hk, hkn, hf, -, he⟩ := chunksOf_cons 2 fuel a bs.length hpos
      have hdrop : (bs.drop k).length = bs.length - k := List.length_drop
      rw [he, ← hdrop]
      unfold writeEntries postWrites
      obtain ⟨b1, r1, w1, s1, m1⟩ := postWrite_spec c
        ⟨false, memDword a, LChunk.lanes ⟨a, k⟩, laneData (a.extractLsb' 0 2) (bs.take k), hit, pcd, pwt,
          more || !(chunksOf 2 fuel (a + BitVec.ofNat 32 k) (bs.drop k).length).isEmpty, follows⟩ b hb hfree hs
      obtain ⟨b2, r2, w2, s2, m2, m2'⟩ := ih true (a + BitVec.ofNat 32 k) (bs.drop k) b1 (by omega) (by omega) w1 (s1.script.trans hs)
      have hm : ∀ x, b1.memView c x = if Covers a k x then chunkByte a (bs.take k) x else b.memView c x := by
        intro x
        unfold Bus.memView
        rw [m1 x, byteAt_part hf]
        split <;> rfl
      rw [bind_ok r1]
      refine ⟨b2, r2, w2, s1.trans s2, fun x hx => ?_, fun x hx => ?_⟩
      · by_cases h2 : Covers (a + BitVec.ofNat 32 k) (bs.drop k).length x
        · rw [m2 x h2]; exact (chunkByte_split hkn h20).2 (hdrop ▸ h2)
        · rcases (covers_split hkn h20).1 hx with h | h
          · rw [m2' x h2, hm x, if_pos h]; exact (chunkByte_split hkn h20).1 h
          · exact absurd (hdrop.symm ▸ h) h2
      · have h1 : ¬Covers a k x := fun h => hx ((covers_split hkn h20).2 (.inl h))
        have h2 : ¬Covers (a + BitVec.ofNat 32 k) (bs.drop k).length x :=
          fun h => hx ((covers_split hkn h20).2 (.inr (hdrop ▸ h)))
        rw [m2' x h2, hm x, if_neg h1]

/-- WRITING ONE PART, unlocked: the processor then sees its bytes, and every other byte as before. -/
theorem writeChunk_spec {c : MemCtx} {follows more : Bool} {ch : PChunk} {bs : List Byte} {b : Bus} (hb : b.memWf = true)
    (hfree : c.busFree = true) (hs : b.script = []) (hlen : bs.length = ch.len) (hf : Fits 4 (maskA20 c ch.pa) ch.len) :
    ∃ b', writeChunk c follows more ch bs b = .ok () b' ∧ b'.memWf = true ∧ Bus.SameControl b b'
      ∧ (∀ x, b'.cache.lookup c.big x = b.cache.lookup c.big x) ∧ WritesChunk c (maskA20 c ch.pa) ch.len bs b b' := by
  unfold writeChunk
  rw [bind_ok (get_run b)]
  generalize maskA20 c ch.pa = a at hf
  have hfb : Fits 4 a bs.length := hlen ▸ hf
  have h20 : bs.length ≤ 2 ^ 20 := by unfold Fits at hfb; omega
  dsimp only
  cases hl : b.cache.lookup c.big a with
  | some w =>
    dsimp only
    have hv := state_of_lookup hl
    generalize ((b.cache.entry (setOf c.big a)).way w).st = st at hv ⊢
    have hne : (if (c.wb && st == .exclusive) = true then Mesi.modified else st) ≠ .invalid := by
      split
      · simp
      · exact hv
    generalize (if (c.wb && st == .exclusive) = true then Mesi.modified else st) = st' at hne ⊢
    have hlook : ∀ x, (b.cache.writeHit c.big a w st' bs).lookup c.big x = b.cache.lookup c.big x :=
      fun x => (Cache.byteAt_writeHit st' bs hl hne x).1
    obtain ⟨hc, hc'⟩ := byteAt_writeHit_chunk hl hne hfb
    rw [bind_ok (set_run _ b)]
    rw [hlen] at hc hc'
    generalize hk : b.cache.writeHit c.big a w st' bs = k at *
    split
    · exact ⟨_, rfl, hb, by constructor <;> rfl, hlook, view_of_hit hc hc' (fun _ _ => rfl)⟩
    · obtain ⟨b', h1, h2, h3, h4, h5⟩ := postWrites_spec (c := c) (hit := true) (pcd := ch.pcd) (pwt := ch.pwt) (more := more)
        hfree (ch.len + 1) follows a bs { b with cache := k } (by omega) h20 hb hs
      rw [hlen] at h1 h4 h5
      have hcc : b'.cache = k := h3.cache
      have h0 : Bus.SameControl b { b with cache := k } := by constructor <;> rfl
      exact ⟨b', h1, h2, h0.trans h3.control, fun x => by rw [hcc]; exact hlook x,
        view_of_hit (fun x hx => by rw [hcc]; exact hc x hx) (fun x hx => by rw [hcc]; exact hc' x hx) h5⟩
  | none =>
    dsimp only
    obtain ⟨b', h1, h2, h3, h4, h5⟩ := postWrites_spec (c := c) (hit := false) (pcd := ch.pcd) (pwt := ch.pwt) (more := more)
      hfree (ch.len + 1) follows a bs b (by omega) h20 hb hs
    rw [hlen] at h1 h4 h5
    exact ⟨b', h1, h2, h3.control, fun x => by rw [h3.cache], view_of_miss hf hl h3.cache h4 h5⟩

/-! ### Reading one part -/

theorem Bus.Quiet.refl (c : MemCtx) (b : Bus) : Bus.Quiet c b b := ⟨id, .refl b, fun _ => rfl⟩

theorem Bus.Quiet.trans {c : MemCtx} {b b' b'' : Bus} (h : Bus.Quiet c b b') (k : Bus.Quiet c b' b'') : Bus.Quiet c b b'' :=
  ⟨fun x => k.wf (h.wf x), h.control.trans k.control, fun x => (k.view x).trans (h.view x)⟩

/-- The bytes from an address on, as the processor sees them. -/
def Bus.span (b : Bus) (c : MemCtx) (a : Addr) (n : Nat) : List Byte :=
  (List.range n).map fun i => b.view c (a + BitVec.ofNat 32 i)

theorem wbByte_none_of_line {l : List WbEntry} {a x : Addr} (hx : x.extractLsb' 4 28 = a.extractLsb' 4 28)
    (h : (l.all fun e => e.addr.extractLsb' 2 28 != a.extractLsb' 4 28) = true) : wbByte x l = none := by
  induction l with
  | nil => rfl
  | cons e l ih =>
    rw [List.all_cons, Bool.and_eq_true] at h
    rw [wbByte_cons, ih h.2]
    have : e.byteAt x = none := by
      unfold WbEntry.byteAt
      rw [if_neg]
      rw [Bool.and_eq_true, Bool.and_eq_true]
      rintro ⟨⟨-, h1⟩, -⟩
      have h2 : e.addr.extractLsb' 2 28 = x.extractLsb' 4 28 := by
        rw [eq_of_beq h1]
        ext i hi
        simp only [BitVec.getElem_extractLsb', BitVec.getLsbD_extractLsb']
        rw [show 2 + (2 + i) = 4 + i by omega]
        simp; omega
      have h3 := h.1
      rw [h2, hx] at h3
      simp at h3
    rw [this]; rfl

/-- What a read miss does first: afterwards memory itself holds the line that is read. -/
theorem orderRead_spec {c : MemCtx} {a : Addr} {b : Bus} (hb : b.memWf = true) (hfree : c.busFree = true) (hs : b.script = []) :
    ∃ b', orderRead c a b = .ok () b' ∧ b'.memWf = true ∧ Bus.SameButWb b b' ∧ (∀ x, b'.memView c x = b.memView c x)
      ∧ ∀ x, x.extractLsb' 4 28 = a.extractLsb' 4 28 → b'.physByte c x = b.memView c x := by
  unfold orderRead
  rw [if_neg (by simp [hfree])]
  split
  · rename_i h2
    refine ⟨_, rfl, hb, by constructor <;> rfl, fun _ => rfl, fun x hx => ?_⟩
    unfold Bus.memView
    simp only [Bool.and_eq_true] at h2
    rw [wbByte_none_of_line hx h2.2]; rfl
  · obtain ⟨b', g0, g1, g2, g3, g4, -⟩ := drainBuffers_spec (c := c) hb hfree hs
    refine ⟨b', g0, g1, g2, fun x => ?_, fun x _ => g4 x⟩
    unfold Bus.memView
    rw [g3, g4 x]; rfl

theorem lineBytes_eq (d : Vector Byte 16) (off : BitVec 4) (n : Nat) (h : off.toNat + n ≤ 16) :
    lineBytes d off n = (List.range n).map fun i => d.toList.getD (off.toNat + i) 0 := by
  unfold lineBytes
  apply List.ext_getElem
  · simp; omega
  · intro i h1 h2
    simp only [List.length_map, List.length_range] at h2
    simp only [List.getElem_take, List.getElem_drop, List.getElem_map, List.getElem_range]
    rw [List.getD_eq_getElem]

theorem view_of_lookup {b : Bus} {c : MemCtx} {x : Addr} {w : BitVec 2} (h : b.cache.lookup c.big x = some w) :
    b.view c x = (((b.cache.entry (setOf c.big x)).way w).data).toList.getD (byteOf x).toNat 0 := by
  unfold Bus.view
  rw [h]
  have := (byteOf x).isLt
  rw [List.getD_eq_getElem (hn := by simp; omega)]
  simp

/-- What the line-fill buffer keeps of a doubleword of an access, in a lane of it. -/
theorem kept_lane {c : MemCtx} {b : Bus} {a x : Addr} {n : Nat} (hn : n ≤ 2 ^ 20) (hx : Covers a n x) {p : BusPart}
    (hp : p ∈ (readParts a n).map (b.kept c)) (he : p.addr = x.extractLsb' 2 30) :
    laneByte p.got (x.extractLsb' 0 2) = b.physByte c x := by
  obtain ⟨q, hq, rfl⟩ := List.mem_map.1 hp
  obtain ⟨l, hl, rfl⟩ := List.mem_map.1 hq
  obtain ⟨hl1, -, hl3⟩ := (chunksOf_spec (.inl rfl) (n + 1) a n (by omega) hn).1 l hl
  obtain ⟨h1, h2⟩ := (covers_lanes hl1.1).1 (hl3 x hx (dword_eq_iff.1 he.symm))
  refine (laneByte_mergeLanes ..).trans ((if_pos h2).trans ?_)
  rw [laneByte_physDword]
  show b.physByte c (laneAddr (l.lin.extractLsb' 2 30) _) = _
  rw [← h1, laneAddr_self]

/-- Every byte of an access is in one of its doublewords. -/
theorem kept_mem {c : MemCtx} {b : Bus} {a x : Addr} {n : Nat} (hn : n ≤ 2 ^ 20) (hx : Covers a n x) :
    ∃ p ∈ (readParts a n).map (b.kept c), p.addr = x.extractLsb' 2 30 := by
  obtain ⟨spec, cover⟩ := chunksOf_spec (.inl rfl) (n + 1) a n (by omega) hn
  obtain ⟨l, hl, hc⟩ := cover x hx
  exact ⟨b.kept c ⟨l.lin.extractLsb' 2 30, l.lanes, 0, 0⟩, List.mem_map.2 ⟨_, List.mem_map.2 ⟨l, hl, rfl⟩, rfl⟩,
    ((covers_lanes (spec l hl).1.1).1 hc).1.symm⟩

/-- The bytes of an access in the line-fill buffer, when its doublewords are there and all that have their addresses agree. -/
theorem readBytes_eq {c : MemCtx} {b0 b : Bus} {a : Addr} {n : Nat} (hn : n ≤ 2 ^ 20)
    (hps : ∀ p ∈ (readParts a n).map (b0.kept c), p ∈ b.fillBuf)
    (hv : ∀ p ∈ b.fillBuf, ∀ x, Covers a n x → p.addr = x.extractLsb' 2 30 → laneByte p.got (x.extractLsb' 0 2) = b0.physByte c x) :
    b.readBytes a n = (List.range n).map fun i => b0.physByte c (a + BitVec.ofNat 32 i) := by
  unfold Bus.readBytes
  apply List.map_congr_left
  intro i hi
  have hx := covers_add (a := a) (List.mem_range.1 hi) hn
  obtain ⟨p, hp, he⟩ := kept_mem (c := c) (b := b0) hn hx
  exact partByte_eq ⟨p, hps p hp, he⟩ fun q hq hqe => hv q hq _ hx hqe

/-- READING ONE PART where no line fill results: its bytes as the processor sees them; nothing else changes that the
processor could see. -/
theorem readChunk_spec {c : MemCtx} {kind : CycleKind} {more : Bool} {ch : PChunk} {b : Bus} (hb : b.memWf = true)
    (hfree : c.busFree = true) (hs : b.script = []) (hk : kind = .memRead ∨ kind = .codeRead)
    (hf : Fits 4 (maskA20 c ch.pa) ch.len)
    (hfill : c.cd = true ∨ (b.cache.lookup c.big (maskA20 c ch.pa)).isSome = true) :
    ∃ b', readChunk c kind more ch b = .ok (b.span c (maskA20 c ch.pa) ch.len) b' ∧ b'.memWf = true ∧ Bus.Quiet c b b'
      ∧ ∀ x, b'.cache.lookup c.big x = b.cache.lookup c.big x := by
  unfold readChunk
  rw [bind_ok (get_run b)]
  generalize maskA20 c ch.pa = a at hf hfill ⊢
  have h20 : ch.len ≤ 2 ^ 20 := by unfold Fits at hf; omega
  cases hl : b.cache.lookup c.big a with
  | some w =>
    dsimp only
    rw [bind_ok (set_run _ b)]
    refine ⟨{ b with cache := b.cache.touchAt c.big a w }, ?_, hb, ⟨fun h => h, by constructor <;> rfl, fun x => ?_⟩,
      fun x => Cache.lookup_touchAt _ _ _ _ _⟩
    · rw [pure_run]
      congr 1
      have hbo : (byteOf a).toNat + ch.len ≤ 16 := by rw [byteOf_toNat]; exact hf
      rw [lineBytes_eq _ _ _ hbo]
      apply List.map_congr_left
      intro i hi
      rw [List.mem_range] at hi
      have hcov := covers_add (a := a) hi h20
      have hline := ((covers_line hf).1 hcov).1
      rw [view_of_lookup (w := w) (by rw [lookup_line hline, hl]), (set_tag_of_line hline c.big).1]
      congr 1
      have := place_sub hf hcov
      rw [sub_add a (by omega)] at this
      have := ((covers_line hf).1 hcov).2.1
      omega
    · rw [Bus.view_memView, Bus.view_memView]
      show ((b.cache.touchAt c.big a w).byteAt c.big x).getD (b.memView c x) = _
      rw [Cache.byteAt_touchAt]
  | none =>
    dsimp only
    obtain ⟨b1, h1, h2, h3, h4, h5⟩ := orderRead_spec (c := c) (a := a) hb hfree hs
    have hcd : c.cd = true := by
      rcases hfill with h | h
      · exact h
      · rw [hl] at h; simp at h
    set x : Xfer := readXfer c kind ch (more || b1.operandBegun) (readParts a ch.len) with hx
    have hr : ([x].any (·.kind.isRead)) = true := by
      rw [List.any_cons, Bool.or_eq_true]
      left
      rcases hk with h | h <;> rw [hx, h] <;> rfl
    have ht := transact_ok (c := c) (b := b1) false [x] (h3.script.trans hs)
    rw [if_pos hr] at ht
    set b2 : Bus := { b1 with fillBuf := [], pchk := false } with hb2
    have e12 : Bus.SameButRead b1 b2 := by constructor <;> rfl
    obtain ⟨g1, g2⟩ := Bus.finish_read b2 c (x := x) hk (by rw [hx]; unfold readXfer; simp [hcd]) rfl
    have g12 := e12.trans g1
    have hfb : (b2.finish c x).fillBuf = ((readParts a ch.len).map (b2.kept c)).reverse := by
      rw [g2, show b2.fillBuf = [] from rfl, List.append_nil]; rfl
    have hlook : ∀ x : Addr, b1.cache.lookup c.big x = b.cache.lookup c.big x := fun x => by rw [h3.cache]
    rw [bind_ok h1, bind_ok (get_run _), bind_ok ht, bind_ok (get_run _), pure_run]
    refine ⟨_, ?_, g12.memWf.trans h2, ⟨fun _ => g12.memWf.trans h2, h3.control.trans g12.control, fun y => ?_⟩, fun y => ?_⟩
    · congr 1
      rw [show Bus.finishAll b2 c [x] = b2.finish c x from rfl,
        readBytes_eq (c := c) (b0 := b2) h20 (by rw [hfb]; exact fun p hp => List.mem_reverse.2 hp)
          (by rw [hfb]; exact fun p hp y hy he => kept_lane h20 hy (List.mem_reverse.1 hp) he)]
      apply List.map_congr_left
      intro i hi
      rw [List.mem_range] at hi
      have hline := ((covers_line hf).1 (covers_add (a := a) hi h20)).1
      rw [e12.physByte, h5 _ hline, Bus.view_memView]
      have : b.cache.byteAt c.big (a + BitVec.ofNat 32 i) = none := by
        unfold Cache.byteAt
        rw [lookup_line hline, hl]; rfl
      rw [this]; rfl
    · rw [g12.view, Bus.view_memView, Bus.view_memView, h4, h3.cache]
    · rw [g12.cache]
      exact hlook y

/-! ### Whole accesses -/

/-- The chunks of an access with paging off. -/
def flatChunks (p : PageCtx) (ls : List LChunk) : List PChunk :=
  ls.map fun l => ⟨(flatPhys p l.lin).pa, l.len, (flatPhys p l.lin).pcd, (flatPhys p l.lin).pwt⟩

theorem translateAll_flat {c : MemCtx} {p : PageCtx} {write : Bool} (hp : p.pg = false) (ls : List LChunk) (b : Bus) :
    translateAll c p write ls b = .ok (flatChunks p ls) b := by
  induction ls with
  | nil => rfl
  | cons l ls ih =>
    have ht : translate c p l.lin write b = .ok (flatPhys p l.lin) b := by
      unfold translate
      rw [if_pos (by simp [hp])]; rfl
    unfold translateAll
    rw [bind_ok ht, bind_ok ih]; rfl

theorem probeAll_flat {c : MemCtx} {p : PageCtx} {write : Bool} (hp : p.pg = false) (ls : List LChunk) (b : Bus) :
    probeAll c p write ls b = .ok () b := by
  induction ls with
  | nil => rfl
  | cons l ls ih =>
    have ht : probe c p l.lin write b = .ok () b := by
      unfold probe
      rw [if_pos (by simp [hp])]; rfl
    unfold probeAll
    rw [bind_ok ht, ih]

/-- With paging off a translation changes nothing (20_memory.md R155). -/
theorem translateRange_flat {c : MemCtx} {p : PageCtx} {write : Bool} (hp : p.pg = false) (lin : Addr) (n : Nat) (b : Bus) :
    translateRange c p lin n write b = .ok (flatChunks p (chunksOf 4 (n + 1) lin n)) b := by
  unfold translateRange
  dsimp only
  split
  · rw [bind_ok (probeAll_flat hp _ b), translateAll_flat hp]
  · exact translateAll_flat hp _ b

theorem add_ofNat (lin : Addr) (k i : Nat) : lin + BitVec.ofNat 32 k + BitVec.ofNat 32 i = lin + BitVec.ofNat 32 (k + i) := by
  rw [BitVec.add_assoc, ← BitVec.ofNat_add]

/-- The place of a part's byte. -/
theorem fits_mask {c : MemCtx} {a : Addr} {k : Nat} (hf : Fits 4 a k) : Fits 4 (maskA20 c a) k := by
  unfold Fits at *
  rw [show (2 : Nat) ^ 4 = 16 from rfl, maskA20_place]; exact hf

theorem mask_part {c : MemCtx} {a : Addr} {k i : Nat} (hf : Fits 4 a k) (hi : i < k) :
    maskA20 c (a + BitVec.ofNat 32 i) = maskA20 c a + BitVec.ofNat 32 i := by
  unfold Fits at hf
  exact maskA20_add (by omega)

theorem span_mask {c : MemCtx} {a : Addr} {k : Nat} (hf : Fits 4 a k) (b : Bus) :
    b.span c (maskA20 c a) k = (List.range k).map fun i => b.view c (maskA20 c (a + BitVec.ofNat 32 i)) := by
  unfold Bus.span
  apply List.map_congr_left
  intro i hi
  rw [mask_part hf (List.mem_range.1 hi)]

theorem range_split {k n : Nat} (h : k ≤ n) (f : Nat → Byte) :
    (List.range k).map f ++ (List.range (n - k)).map (fun i => f (k + i)) = (List.range n).map f := by
  conv => rhs; rw [show n = k + (n - k) by omega, List.range_add, List.map_append, List.map_map]
  rfl

/-- READING THE PARTS of an access of `n` bytes that fills no line. -/
theorem readChunks_spec {c : MemCtx} {kind : CycleKind} {p : PageCtx} (hfree : c.busFree = true)
    (hk : kind = .memRead ∨ kind = .codeRead) (fuel : Nat) :
    ∀ (lin : Addr) (n : Nat) (b : Bus), n ≤ fuel → b.memWf = true → b.script = [] →
      (c.cd = true ∨ ∀ i, i < n → (b.cache.lookup c.big (maskA20 c (lin + BitVec.ofNat 32 i))).isSome = true) →
      ∃ b', readChunks c kind (flatChunks p (chunksOf 4 fuel lin n)) b
          = .ok ((List.range n).map fun i => b.view c (maskA20 c (lin + BitVec.ofNat 32 i))) b'
        ∧ b'.memWf = true ∧ Bus.Quiet c b b' ∧ ∀ x, b'.cache.lookup c.big x = b.cache.lookup c.big x := by
  induction fuel with
  | zero =>
    intro lin n b hn hb _ _
    obtain rfl : n = 0 := by omega
    exact ⟨b, rfl, hb, .refl c b, fun _ => rfl⟩
  | succ fuel ih =>
    intro lin n b hn hb hs hfill
    rcases Nat.eq_zero_or_pos n with rfl | hpos
    · exact ⟨b, rfl, hb, .refl c b, fun _ => rfl⟩
    · obtain ⟨k, hk0, hkn, hf, -, he⟩ := chunksOf_cons 4 fuel lin n hpos
      have h0 : c.cd = true ∨ (b.cache.lookup c.big (maskA20 c lin)).isSome = true := by
        rcases hfill with h | h
        · exact Or.inl h
        · right; simpa using h 0 hpos
      obtain ⟨b1, r1, w1, q1, l1⟩ := readChunk_spec (kind := kind)
        (more := (flatChunks p (chunksOf 4 fuel (lin + BitVec.ofNat 32 k) (n - k))).any (b.readMisses c))
        (ch := ⟨(flatPhys p lin).pa, k, (flatPhys p lin).pcd, (flatPhys p lin).pwt⟩) hb hfree hs hk (fits_mask (c := c) hf) h0
      obtain ⟨b2, r2, w2, q2, l2⟩ := ih (lin + BitVec.ofNat 32 k) (n - k) b1 (by omega) w1 (q1.control.script.trans hs) (by
        rcases hfill with h | h
        · exact Or.inl h
        · right
          intro i hi
          rw [l1, add_ofNat]; exact h (k + i) (by omega))
      refine ⟨b2, ?_, w2, q1.trans q2, fun x => (l2 x).trans (l1 x)⟩
      rw [he]
      show readChunks c kind (_ :: flatChunks p _) b = _
      rw [readChunks, bind_ok (get_run b), bind_ok r1, bind_ok r2, pure_run]
      congr 1
      rw [show maskA20 c (flatPhys p lin).pa = maskA20 c lin from rfl, span_mask hf, ← range_split hkn]
      congr 1
      apply List.map_congr_left
      intro i _
      rw [q1.view, add_ofNat]

/-- A write after a write: what the processor sees of both. -/
theorem stored_split {c : MemCtx} {b b1 b2 : Bus} {lin : Addr} {bs : List Byte} {k : Nat} (hkn : k ≤ bs.length)
    (h20 : bs.length ≤ 2 ^ 20) (h1 : Bus.Stored c b (fun i => maskA20 c (lin + BitVec.ofNat 32 i)) (bs.take k) b1)
    (h2 : Bus.Stored c b1 (fun i => maskA20 c (lin + BitVec.ofNat 32 k + BitVec.ofNat 32 i)) (bs.drop k) b2) :
    Bus.Stored c b (fun i => maskA20 c (lin + BitVec.ofNat 32 i)) bs b2 := by
  have htake : (bs.take k).length = k := by rw [List.length_take]; omega
  have hdrop : (bs.drop k).length = bs.length - k := List.length_drop
  refine ⟨h2.wf, h1.control.trans h2.control, fun i hi => ?_, fun x hx => ?_⟩
  · by_cases hik : i < k
    · rw [h2.others, h1.written i (by omega)]
      · simp only [List.getD_eq_getElem?_getD, List.getElem?_take, hik, if_true]
      · intro j hj
        rw [add_ofNat]
        exact maskA20_ne c lin (by omega) (by omega)
    · have := h2.written (i - k) (by omega)
      rw [add_ofNat, show k + (i - k) = i by omega] at this
      rw [this]
      simp only [List.getD_eq_getElem?_getD, List.getElem?_drop]
      rw [show k + (i - k) = i by omega]
  · rw [h2.others, h1.others]
    · intro i hi; exact hx i (by omega)
    · intro j hj
      rw [add_ofNat]
      exact hx _ (by omega)

/-- A part written is its bytes stored. -/
theorem stored_of_writes {c : MemCtx} {b b' : Bus} {a : Addr} {bs : List Byte} (hf : Fits 4 a bs.length)
    (hb : b'.memWf = true) (hc : Bus.SameControl b b') (hw : WritesChunk c (maskA20 c a) bs.length bs b b') :
    Bus.Stored c b (fun i => maskA20 c (a + BitVec.ofNat 32 i)) bs b' := by
  have h20 : bs.length ≤ 2 ^ 20 := by unfold Fits at hf; omega
  refine ⟨hb, hc, fun i hi => ?_, fun x hx => hw.2 x fun h => ?_⟩
  · rw [mask_part hf hi, hw.1 _ (covers_add hi h20)]
    unfold chunkByte
    rw [sub_add _ (by omega)]
  · exact hx _ h (by rw [mask_part hf h]; exact covers_eq)

/-- WRITING THE PARTS of an access. -/
theorem writeChunks_spec {c : MemCtx} {p : PageCtx} (hfree : c.busFree = true) (fuel : Nat) :
    ∀ (follows : Bool) (lin : Addr) (bs : List Byte) (b : Bus), bs.length ≤ fuel → bs.length ≤ 2 ^ 20 → b.memWf = true →
      b.script = [] → ∃ b', writeChunks c follows (flatChunks p (chunksOf 4 fuel lin bs.length)) bs b = .ok () b'
        ∧ Bus.Stored c b (fun i => maskA20 c (lin + BitVec.ofNat 32 i)) bs b'
        ∧ ∀ x, b'.cache.lookup c.big x = b.cache.lookup c.big x := by
  induction fuel with
  | zero =>
    intro follows lin bs b hn _ hb _
    obtain rfl : bs = [] := List.eq_nil_of_length_eq_zero (by omega)
    exact ⟨b, rfl, ⟨hb, .refl b, fun i hi => absurd hi (by simp), fun _ _ => rfl⟩, fun _ => rfl⟩
  | succ fuel ih =>
    intro follows lin bs b hn h20 hb hs
    rcases Nat.eq_zero_or_pos bs.length with h0 | hpos
    · obtain rfl : bs = [] := List.eq_nil_of_length_eq_zero h0
      exact ⟨b, rfl, ⟨hb, .refl b, fun i hi => absurd hi (by simp), fun _ _ => rfl⟩, fun _ => rfl⟩
    · obtain ⟨k, hk, hkn, hf, -, he⟩ := chunksOf_cons 4 fuel lin bs.length hpos
      have htake : (bs.take k).length = k := by rw [List.length_take]; omega
      have hdrop : (bs.drop k).length = bs.length - k := List.length_drop
      rw [he, ← hdrop]
      set ch : PChunk := ⟨(flatPhys p lin).pa, k, (flatPhys p lin).pcd, (flatPhys p lin).pwt⟩ with hch
      obtain ⟨b1, r1, w1, c1, l1, v1⟩ := writeChunk_spec (bs := bs.take k) (follows := follows)
        (more := (flatChunks p (chunksOf 4 fuel (lin + BitVec.ofNat 32 k) (bs.drop k).length)).any (b.postsWrite c))
        (ch := ch) hb hfree hs htake (fits_mask (c := c) hf)
      obtain ⟨b2, r2, s2, l2⟩ := ih (follows || b.postsWrite c ch) (lin + BitVec.ofNat 32 k) (bs.drop k) b1 (by omega) (by omega) w1 (c1.script.trans hs)
      refine ⟨b2, ?_, stored_split hkn h20 (stored_of_writes (htake.symm ▸ hf) w1 c1 (by rw [htake]; exact v1)) s2,
        fun x => (l2 x).trans (l1 x)⟩
      show writeChunks c follows (ch :: flatChunks p _) bs b = _
      rw [writeChunks, bind_ok (get_run b), bind_ok r1]
      exact r2

/-! ### The processor's reads and writes -/

/-- An access that the rights, in protected mode, and the limit admit. -/
theorem segLinearIn_ok {pm : Bool} {g : Seg} {e : Exc} {off : DWord} {n : Nat} {write : Bool} {s : State}
    (hr : pm = true → g.rightsAllow write = true) (hl : g.inLimit pm off n = true) :
    segLinearIn pm g e off n write s = .ok (g.base + off) s := by
  unfold segLinearIn
  have h1 : ¬((pm && !g.rightsAllow write) = true) := by
    intro hc
    rw [Bool.and_eq_true] at hc
    simp [hr hc.1] at hc
  rw [if_neg h1, if_neg (by simp [hl])]
  rfl

theorem segLinear_ok {s : State} {seg : SegReg} {e : Exc} {off : DWord} {n : Nat} {write : Bool}
    (h : s.segAdmits seg off n write) : segLinear (s.segs.get seg) e off n write s = .ok ((s.segs.get seg).base + off) s := by
  unfold segLinear
  rw [bind_ok (get_run s)]
  exact segLinearIn_ok h.1 h.2

theorem checkAlign_ok {s : State} {lin : Addr} {n : Nat} (h : s.aligned lin n) : checkAlign lin n s = .ok () s := by
  unfold checkAlign
  rw [bind_ok (get_run s), if_neg]
  · rfl
  · intro hc
    simp only [Bool.and_eq_true, Bool.or_eq_true, beq_iff_eq, bne_iff_ne] at hc
    obtain ⟨⟨⟨⟨h1, h2⟩, h3⟩, h4⟩, h5⟩ := hc
    exact h5 (h h1 h2 h3 (by tauto))

/-- A data access that hits no breakpoint. -/
theorem watch_ok {s : State} {lin : Addr} {n : Nat} {write : Bool} (h : s.dataHits lin n write = 0) :
    watch lin n write s = .ok () s := by
  unfold watch
  rw [modify_run, if_pos h]

theorem linRead_flat {c : MemCtx} {p : PageCtx} {b : Bus} {lin : Addr} {n : Nat} (hp : p.pg = false) (hfree : c.busFree = true)
    (hb : b.memWf = true) (hs : b.script = [])
    (hfill : c.cd = true ∨ ∀ i, i < n → (b.cache.lookup c.big (maskA20 c (lin + BitVec.ofNat 32 i))).isSome = true) :
    ∃ b', linRead c p lin n b = .ok ((List.range n).map fun i => b.view c (maskA20 c (lin + BitVec.ofNat 32 i))) b'
      ∧ b'.memWf = true ∧ Bus.Quiet c b b' ∧ ∀ x, b'.cache.lookup c.big x = b.cache.lookup c.big x := by
  unfold linRead
  rw [bind_ok (translateRange_flat hp lin n b)]
  exact readChunks_spec hfree (.inl rfl) (n + 1) lin n b (by omega) hb hs hfill

theorem linWrite_flat {c : MemCtx} {p : PageCtx} {b : Bus} {lin : Addr} {bs : List Byte} (hp : p.pg = false)
    (hfree : c.busFree = true) (hb : b.memWf = true) (hs : b.script = []) (hn : bs.length ≤ 2 ^ 20) :
    ∃ b', linWrite c p lin bs b = .ok () b' ∧ Bus.Stored c b (fun i => maskA20 c (lin + BitVec.ofNat 32 i)) bs b'
      ∧ ∀ x, b'.cache.lookup c.big x = b.cache.lookup c.big x := by
  unfold linWrite
  rw [bind_ok (translateRange_flat hp lin bs.length b)]
  exact writeChunks_spec hfree (bs.length + 1) false lin bs b (by omega) hn hb hs

theorem linReads_flat {c : MemCtx} {p : PageCtx} (hp : p.pg = false) (hfree : c.busFree = true) :
    ∀ (ns : List Nat) (lin : Addr) (b : Bus), b.memWf = true → b.script = [] →
      (c.cd = true ∨ ∀ i, i < ns.sum → (b.cache.lookup c.big (maskA20 c (lin + BitVec.ofNat 32 i))).isSome = true) →
      ∃ b', linReads c p lin ns b = .ok ((List.range ns.sum).map fun i => b.view c (maskA20 c (lin + BitVec.ofNat 32 i))) b'
        ∧ b'.memWf = true ∧ Bus.Quiet c b b' ∧ ∀ x, b'.cache.lookup c.big x = b.cache.lookup c.big x := by
  intro ns
  induction ns with
  | nil => exact fun lin b hb _ _ => ⟨b, rfl, hb, .refl c b, fun _ => rfl⟩
  | cons n ns ih =>
    intro lin b hb hs hfill
    rw [List.sum_cons] at hfill ⊢
    obtain ⟨b1, r1, w1, q1, l1⟩ := linRead_flat (n := n) (lin := lin) hp hfree hb hs
      (hfill.imp id fun h i hi => h i (by omega))
    obtain ⟨b2, r2, w2, q2, l2⟩ := ih (lin + BitVec.ofNat 32 n) b1 w1 (q1.control.script.trans hs)
      (hfill.imp id fun h i hi => by rw [l1, add_ofNat]; exact h (n + i) (by omega))
    refine ⟨b2, ?_, w2, q1.trans q2, fun x => (l2 x).trans (l1 x)⟩
    unfold linReads
    rw [bind_ok r1, bind_ok r2, pure_run]
    congr 1
    rw [← range_split (k := n) (n := n + ns.sum) (by omega), Nat.add_sub_cancel_left]
    congr 1
    apply List.map_congr_left
    intro i _
    rw [q1.view, add_ofNat]

theorem linWrites_flat {c : MemCtx} {p : PageCtx} (hp : p.pg = false) (hfree : c.busFree = true) :
    ∀ (ns : List Nat) (lin : Addr) (bs : List Byte) (b : Bus), bs.length = ns.sum → bs.length ≤ 2 ^ 20 → b.memWf = true →
      b.script = [] →
      ∃ b', linWrites c p lin ns bs b = .ok () b' ∧ Bus.Stored c b (fun i => maskA20 c (lin + BitVec.ofNat 32 i)) bs b'
        ∧ ∀ x, b'.cache.lookup c.big x = b.cache.lookup c.big x := by
  intro ns
  induction ns with
  | nil =>
    intro lin bs b hl _ hb _
    obtain rfl : bs = [] := List.eq_nil_of_length_eq_zero hl
    exact ⟨b, rfl, ⟨hb, .refl b, fun i hi => absurd hi (by simp), fun _ _ => rfl⟩, fun _ => rfl⟩
  | cons n ns ih =>
    intro lin bs b hl h20 hb hs
    rw [List.sum_cons] at hl
    have hdrop : (bs.drop n).length = bs.length - n := List.length_drop
    obtain ⟨b1, r1, s1, l1⟩ := linWrite_flat (p := p) (lin := lin) (bs := bs.take n) hp hfree hb hs (by rw [List.length_take]; omega)
    obtain ⟨b2, r2, s2, l2⟩ := ih (lin + BitVec.ofNat 32 n) (bs.drop n) b1 (by omega) (by omega) s1.wf
      (s1.control.script.trans hs)
    refine ⟨b2, ?_, stored_split (by omega) h20 s1 s2, fun x => (l2 x).trans (l1 x)⟩
    unfold linWrites
    rw [bind_ok r1, r2]

/-- A DATA READ with paging off that faults on nothing and fills no line. -/
theorem readMem_spec {s : State} {seg : SegReg} {off : DWord} {n : Nat} (hs : s.Flat) (ha : s.Admits seg off n false)
    (hf : s.NoFill seg off n) :
    ∃ b, readMem seg off n s = .ok (s.seenBytes seg off n) { s with bus := b } ∧ b.memWf = true
      ∧ Bus.Quiet s.memCtx s.bus b ∧ ∀ x, b.cache.lookup s.part.bigCache x = s.bus.cache.lookup s.part.bigCache x := by
  obtain ⟨b, h1, h2, h3, h4⟩ := linRead_flat (c := s.memCtx) (p := s.pageCtx (s.level == 3)) (b := s.bus)
    (lin := (s.segs.get seg).base + off) (n := n) hs.pg hs.ready.bus hs.ready.wf hs.ready.script hf
  refine ⟨b, ?_, h2, h3, h4⟩
  unfold readMem
  rw [bind_ok (get_run s), bind_ok (segLinear_ok ha.segment), bind_ok (checkAlign_ok ha.align), bind_ok (watch_ok ha.unwatched),
    bus_ok h1]
  rfl

/-- A DATA WRITE with paging off that faults on nothing. -/
theorem writeMem_spec {s : State} {seg : SegReg} {off : DWord} {bs : List Byte} (hs : s.Flat)
    (ha : s.Admits seg off bs.length true) (hn : bs.length ≤ 2 ^ 20) :
    ∃ b, writeMem seg off bs s = .ok () { s with bus := b } ∧ Bus.Stored s.memCtx s.bus (s.dataAddr seg off) bs b
      ∧ ∀ x, b.cache.lookup s.part.bigCache x = s.bus.cache.lookup s.part.bigCache x := by
  obtain ⟨b, h1, h2, h3⟩ := linWrite_flat (c := s.memCtx) (p := s.pageCtx (s.level == 3)) (b := s.bus)
    (lin := (s.segs.get seg).base + off) (bs := bs) hs.pg hs.ready.bus hs.ready.wf hs.ready.script hn
  refine ⟨b, ?_, h2, h3⟩
  unfold writeMem
  rw [bind_ok (get_run s), bind_ok (segLinear_ok ha.segment), bind_ok (checkAlign_ok ha.align), bind_ok (watch_ok ha.unwatched),
    bus_ok h1]

theorem checkAligns_ok {s : State} : ∀ (ns : List Nat) (lin : Addr),
    (∀ k, k < ns.length → s.aligned (lin + BitVec.ofNat 32 (ns.take k).sum) (ns.getD k 0)) → checkAligns lin ns s = .ok () s := by
  intro ns
  induction ns with
  | nil => exact fun _ _ => rfl
  | cons n ns ih =>
    intro lin h
    unfold checkAligns
    have h0 := h 0 (by simp)
    rw [List.take_zero, List.sum_nil, List.getD_cons_zero, show lin + BitVec.ofNat 32 0 = lin from BitVec.add_zero lin] at h0
    rw [bind_ok (checkAlign_ok h0)]
    refine ih _ fun k hk => ?_
    have := h (k + 1) (by simpa using hk)
    rwa [List.take_succ_cons, List.sum_cons, List.getD_cons_succ, ← add_ofNat] at this

/-- AN OPERAND READ IN PIECES with paging off. -/
theorem readPieces_spec {s : State} {seg : SegReg} {off : DWord} {ns : List Nat} (hs : s.Flat) (ha : s.AdmitsPieces seg off ns false)
    (hf : s.NoFill seg off ns.sum) :
    ∃ b, readPieces seg off ns s = .ok (s.seenBytes seg off ns.sum) { s with bus := b } ∧ b.memWf = true
      ∧ Bus.Quiet s.memCtx s.bus b := by
  obtain ⟨b, h1, h2, h3, -⟩ := linReads_flat (c := s.memCtx) (p := s.pageCtx (s.level == 3)) hs.pg hs.ready.bus ns
    ((s.segs.get seg).base + off) s.bus hs.ready.wf hs.ready.script hf
  refine ⟨b, ?_, h2, h3⟩
  unfold readPieces
  rw [bind_ok (get_run s), bind_ok (segLinear_ok ha.segment), bind_ok (checkAligns_ok ns _ ha.align),
    bind_ok (watch_ok ha.unwatched), bus_ok h1]
  rfl

/-- THE CHECKS OF A WRITE with paging off change nothing. -/
theorem checkPieces_spec {s : State} {seg : SegReg} {off : DWord} {ns : List Nat} (hs : s.Flat) (ha : s.AdmitsPieces seg off ns true) :
    checkPieces seg off ns s = .ok () s := by
  unfold checkPieces
  rw [bind_ok (get_run s), bind_ok (segLinear_ok ha.segment), bind_ok (checkAligns_ok ns _ ha.align)]
  exact bus_ok (probeAll_flat hs.pg _ _)

/-- AN OPERAND WRITTEN IN PIECES with paging off. -/
theorem writePieces_spec {s : State} {seg : SegReg} {off : DWord} {ns : List Nat} {bs : List Byte} (hs : s.Flat)
    (ha : s.AdmitsPieces seg off ns true) (hl : bs.length = ns.sum) (hn : bs.length ≤ 2 ^ 20) :
    ∃ b, writePieces seg off ns bs s = .ok () { s with bus := b } ∧ Bus.Stored s.memCtx s.bus (s.dataAddr seg off) bs b := by
  obtain ⟨b, h1, h2, -⟩ := linWrites_flat (c := s.memCtx) (p := s.pageCtx (s.level == 3)) hs.pg hs.ready.bus ns
    ((s.segs.get seg).base + off) bs s.bus hl hn hs.ready.wf hs.ready.script
  refine ⟨b, ?_, h2⟩
  unfold writePieces
  rw [bind_ok (get_run s), bind_ok (segLinear_ok ha.segment), bind_ok (checkAligns_ok ns _ ha.align),
    bind_ok (watch_ok ha.unwatched)]
  refine bus_ok ?_
  split
  · unfold probeWrite
    rw [bind_ok (probeAll_flat hs.pg _ _)]
    exact h1
  · exact h1

end Sys2Proof.Machine
end

