-- ==== Sys2Proof/Laws/Locked.lean ====
section
/-! SUPPORT. What locked accesses and read-modify-writes do, with paging off. -/

set_option Elab.async false

namespace Sys2Proof.Machine

/-! ### Locked reads -/

/-- A line that is not modified needs no write-back. -/
theorem cleanLine_eq {b : Bus} {c : MemCtx} {a : Addr} (h : Cache.stateAt b.cache c.big a ≠ some .modified) :
    cleanLine c a b = .ok () b := by
  unfold Cache.stateAt at h
  simp only [cleanLine, bind, EStateM.bind, get, getThe, MonadStateOf.get, EStateM.get]
  cases hw : b.cache.lookup c.big a with
  | some w =>
    rw [hw] at h
    simp only [writeBackSlot, bind, EStateM.bind, get, getThe, MonadStateOf.get, EStateM.get]
    rw [if_neg (fun hm => h (by rw [Option.map_some, hm]))]
    rfl
  | none => rfl

theorem cleanLines_eq {b : Bus} {c : MemCtx} {chs : List PChunk}
    (h : ∀ ch ∈ chs, Cache.stateAt b.cache c.big (maskA20 c ch.pa) ≠ some .modified) : cleanLines c chs b = .ok () b := by
  induction chs with
  | nil => rfl
  | cons ch chs ih =>
    unfold cleanLines
    rw [bind_ok (cleanLine_eq (h ch (List.mem_cons_self ..)))]
    exact ih fun x hx => h x (List.mem_cons_of_mem _ hx)

theorem needBus_ok {c : MemCtx} (h : c.busFree = true) (b : Bus) : needBus c b = .ok () b := by
  unfold needBus; rw [if_pos h]; rfl

theorem lockedReads_plain (c : MemCtx) (cont : Bool) (chs : List PChunk) :
    (∀ x ∈ lockedReads c cont chs, (x.kind = .memRead ∨ x.kind = .codeRead) ∧ x.want = false ∧ x.fill = false)
      ∧ (lockedReads c cont chs).flatMap (·.parts) = chs.flatMap fun ch => readParts (maskA20 c ch.pa) ch.len := by
  induction chs generalizing cont with
  | nil => exact ⟨fun x hx => (List.not_mem_nil hx).elim, rfl⟩
  | cons ch chs ih =>
    unfold lockedReads
    constructor
    · intro x hx
      rcases List.mem_cons.1 hx with rfl | hx
      · exact ⟨.inl rfl, rfl, rfl⟩
      · exact (ih true).1 x hx
    · rw [List.flatMap_cons, List.flatMap_cons, (ih true).2]; rfl

/-- The bytes of the parts of an access, one after the other. -/
theorem flatMap_parts {c : MemCtx} (f : Addr → Byte) (fuel : Nat) :
    ∀ (lin : Addr) (n : Nat), n ≤ fuel →
      ((chunksOf 4 fuel lin n).flatMap fun l => (List.range l.len).map fun i => f (maskA20 c l.lin + BitVec.ofNat 32 i))
        = (List.range n).map fun i => f (maskA20 c (lin + BitVec.ofNat 32 i)) := by
  induction fuel with
  | zero =>
    intro lin n hn
    obtain rfl : n = 0 := by omega
    rfl
  | succ fuel ih =>
    intro lin n hn
    rcases Nat.eq_zero_or_pos n with rfl | hpos
    · rfl
    · obtain ⟨k, hk, hkn, hf, -, he⟩ := chunksOf_cons 4 fuel lin n hpos
      rw [he, List.flatMap_cons, ih _ _ (by omega), ← range_split hkn]
      congr 1
      · apply List.map_congr_left
        intro i hi
        rw [mask_part hf (List.mem_range.1 hi)]
      · apply List.map_congr_left
        intro i _
        rw [add_ofNat]

/-- Every byte of an access is in no modified line, and what the processor sees of it is what memory will hold. -/
def CleanAt (c : MemCtx) (b : Bus) (lin : Addr) (n : Nat) : Prop :=
  ∀ i, i < n → Cache.stateAt b.cache c.big (maskA20 c (lin + BitVec.ofNat 32 i)) ≠ some .modified
    ∧ b.view c (maskA20 c (lin + BitVec.ofNat 32 i)) = b.memView c (maskA20 c (lin + BitVec.ofNat 32 i))

/-- Lines of one access stay apart under A20M#. -/
theorem mask_line {c : MemCtx} {lin x y : Addr} {n : Nat} (hn : n ≤ 2 ^ 19) (hx : Covers lin n x) (hy : Covers lin n y)
    (h : (maskA20 c x).toNat / 2 ^ 4 = (maskA20 c y).toNat / 2 ^ 4) : x.toNat / 2 ^ 4 = y.toNat / 2 ^ 4 := by
  rw [maskA20_toNat, maskA20_toNat] at h
  unfold Covers at hx hy
  rw [BitVec.toNat_sub] at hx hy
  have hl := lin.isLt
  have hxx := x.isLt
  have hyy := y.isLt
  split at h <;> omega

/-- A LOCKED READ of `n` bytes of which no modified line holds one: the bytes as the processor sees them; every buffered write has
reached memory. -/
theorem readChunksLocked_spec {c : MemCtx} {p : PageCtx} {lin : Addr} {n : Nat} {b : Bus} (hfree : c.busFree = true)
    (hn : n ≤ 2 ^ 19) (hb : b.memWf = true) (hs : b.script = []) (hcl : CleanAt c b lin n) :
    ∃ b', readChunksLocked c (flatChunks p (chunksOf 4 (n + 1) lin n)) b
        = .ok ((List.range n).map fun i => b.view c (maskA20 c (lin + BitVec.ofNat 32 i))) b'
      ∧ b'.memWf = true ∧ Bus.Quiet c b b' ∧ b'.cache = b.cache ∧ b'.wb = [] := by
  obtain ⟨spec, cover⟩ := chunksOf_spec (.inr rfl) (n + 1) lin n (by omega) (by omega)
  obtain ⟨b1, r1, w1, s1, e1, p1, v1⟩ := drainBuffers_spec (c := c) hb hfree hs
  set chs := flatChunks p (chunksOf 4 (n + 1) lin n) with hchs
  have hclean : cleanLines c chs b1 = .ok () b1 := by
    apply cleanLines_eq
    intro ch hch
    obtain ⟨l, hl, rfl⟩ := List.mem_map.1 hch
    have hc := (spec l hl).2.1 l.lin (by unfold Covers; simpa using (spec l hl).1.2)
    have := (hcl _ hc).1
    rw [← covers_eq] at this
    rw [s1.cache]; exact this
  have ht := transact_ok (c := c) (b := b1) true (lockedReads c false chs) (s1.script.trans hs)
  obtain ⟨hplain, hparts⟩ := lockedReads_plain c false chs
  set xs := lockedReads c false chs with hxs
  obtain ⟨b2, hb2, e12, hfb2⟩ : ∃ b2, (if xs.any (·.kind.isRead) then { b1 with fillBuf := [], pchk := false } else b1) = b2
      ∧ Bus.SameButRead b1 b2 ∧ (xs ≠ [] → b2.fillBuf = []) := by
    refine ⟨_, rfl, ?_, fun hne => ?_⟩
    · split <;> constructor <;> rfl
    · rw [if_pos]
      rw [List.any_eq_true]
      obtain ⟨x, hx⟩ := List.exists_mem_of_ne_nil xs hne
      refine ⟨x, hx, ?_⟩
      rcases (hplain x hx).1 with h | h <;> rw [h] <;> rfl
  rw [hb2] at ht
  obtain ⟨g1, g2⟩ := Bus.finishAll_reads c xs hplain b2
  have g12 := e12.trans g1
  refine ⟨b2.finishAll c xs, ?_, g12.memWf.trans w1, ⟨fun _ => g12.memWf.trans w1, s1.control.trans g12.control, fun x => ?_⟩,
    g12.cache.trans s1.cache, g12.wb.trans e1⟩
  · unfold readChunksLocked
    rw [bind_ok (needBus_ok hfree b), bind_ok r1, bind_ok hclean, bind_ok ht, bind_ok (get_run _), pure_run]
    congr 1
    rw [← flatMap_parts (c := c) (fun x => b.view c x) (n + 1) lin n (by omega), hchs]
    unfold flatChunks
    rw [List.flatMap_map]
    apply List.flatMap_congr
    intro l hl
    obtain ⟨⟨hf, hpos⟩, hin, -⟩ := spec l hl
    have h16 : l.len ≤ 2 ^ 20 := by unfold Fits at hf; omega
    have hne : xs ≠ [] := by
      rw [hxs]
      intro h0
      have : chs ≠ [] := List.ne_nil_of_mem (List.mem_map.2 ⟨l, hl, rfl⟩)
      cases hc : chs with
      | nil => exact this hc
      | cons _ _ => rw [hc] at h0; cases h0
    show (b2.finishAll c xs).readBytes (maskA20 c l.lin) l.len = _
    rw [readBytes_eq (c := c) (b0 := b2) h16]
    · apply List.map_congr_left
      intro i hi
      have hi := List.mem_range.1 hi
      rw [e12.physByte, p1]
      have hc := hin _ (covers_add (a := l.lin) hi h16)
      rw [← mask_part hf hi]
      have := (hcl _ hc).2
      rw [← covers_eq] at this
      exact this.symm
    · intro q hq
      rw [g2, hfb2 hne, List.append_nil, List.mem_reverse, hparts]
      obtain ⟨q', hq', rfl⟩ := List.mem_map.1 hq
      exact List.mem_map.2 ⟨q', List.mem_flatMap.2 ⟨⟨(flatPhys p l.lin).pa, l.len, (flatPhys p l.lin).pcd, (flatPhys p l.lin).pwt⟩,
        List.mem_map.2 ⟨l, hl, rfl⟩, hq'⟩, rfl⟩
    · intro q hq x hx he
      rw [g2, hfb2 hne, List.append_nil, List.mem_reverse, hparts] at hq
      obtain ⟨q', hq', rfl⟩ := List.mem_map.1 hq
      obtain ⟨ch, hch, hqc⟩ := List.mem_flatMap.1 hq'
      obtain ⟨l', hl', rfl⟩ := List.mem_map.1 hch
      obtain ⟨⟨hf', hpos'⟩, hin', hmax'⟩ := spec l' hl'
      have h16' : l'.len ≤ 2 ^ 20 := by unfold Fits at hf'; omega
      obtain ⟨d, hd, rfl⟩ := List.mem_map.1 hqc
      -- the byte, before A20M#
      have hxi : x = maskA20 c (l.lin + BitVec.ofNat 32 (x - maskA20 c l.lin).toNat) := by
        rw [mask_part hf hx]; exact covers_eq
      set y := l.lin + BitVec.ofNat 32 (x - maskA20 c l.lin).toNat with hy
      have hyl : Covers l.lin l.len y := covers_add hx h16
      -- its doubleword lies in the line of the other part
      have hdin := ((chunksOf_spec (.inl rfl) (l'.len + 1) (maskA20 c l'.lin) l'.len (by omega) h16').1 d hd)
      have hdc := hdin.2.1 d.lin (by unfold Covers; simpa using hdin.1.2)
      have hline : (maskA20 c y).toNat / 2 ^ 4 = (maskA20 c l'.lin).toNat / 2 ^ 4 := by
        have h1 := (covers_toNat (.inr rfl) (fits_mask hf') hdc).2
        have h2 := dword_eq_iff.1 he
        rw [← hxi, ← h1]
        change d.lin.toNat / 2 ^ 2 = x.toNat / 2 ^ 2 at h2
        omega
      have hy' : Covers l'.lin l'.len y := hmax' y (hin y hyl)
        (mask_line hn (hin y hyl) (hin' l'.lin (by unfold Covers; simpa using hpos')) hline)
      have hx' : Covers (maskA20 c l'.lin) l'.len x := by
        have hi : y = l'.lin + BitVec.ofNat 32 (y - l'.lin).toNat := covers_eq
        rw [hxi, hi, mask_part hf' hy']
        exact covers_add hy' h16'
      exact kept_lane h16' hx' (List.mem_map.2 ⟨_, List.mem_map.2 ⟨d, hd, rfl⟩, rfl⟩) he
  · exact (g12.view c x).trans (v1 x)

/-! ### Locked writes -/

/-- What buffered writes of the bytes of an access carry. -/
theorem wbByte_entries {hit pcd pwt more : Bool} (fuel : Nat) :
    ∀ (follows : Bool) (a : Addr) (bs : List Byte) (x : Addr), bs.length ≤ fuel → bs.length ≤ 2 ^ 20 →
      wbByte x (writeEntries false hit pcd pwt follows more memDword (chunksOf 2 fuel a bs.length) bs)
        = if Covers a bs.length x then some (chunkByte a bs x) else none := by
  induction fuel with
  | zero =>
    intro _ a bs x hn _
    obtain rfl : bs = [] := List.eq_nil_of_length_eq_zero (by omega)
    rfl
  | succ fuel ih =>
    intro _ a bs x hn h20
    rcases Nat.eq_zero_or_pos bs.length with h0 | hpos
    · obtain rfl : bs = [] := List.eq_nil_of_length_eq_zero h0
      rfl
    · obtain ⟨k, hk, hkn, hf, -, he⟩ := chunksOf_cons 2 fuel a bs.length hpos
      have hdrop : (bs.drop k).length = bs.length - k := List.length_drop
      rw [he, ← hdrop]
      unfold writeEntries
      rw [wbByte_cons, ih true _ _ x (by omega) (by omega), byteAt_part hf]
      by_cases h2 : Covers (a + BitVec.ofNat 32 k) (bs.drop k).length x
      · have hx := (covers_split hkn h20).2 (.inr (hdrop ▸ h2))
        rw [if_pos h2, if_pos hx, (chunkByte_split hkn h20).2 (hdrop ▸ h2)]; rfl
      · rw [if_neg h2, Option.none_or]
        by_cases h1 : Covers a k x
        · rw [if_pos h1, if_pos ((covers_split hkn h20).2 (.inl h1)), (chunkByte_split hkn h20).1 h1]
        · rw [if_neg h1, if_neg]
          intro hx
          rcases (covers_split hkn h20).1 hx with h | h
          · exact h1 h
          · exact h2 (hdrop.symm ▸ h)

/-- Writes to memory with other pins than buffered writes have: memory takes them all the same. -/
theorem finishAll_writes (c : MemCtx) (g : WbEntry → Xfer)
    (hg : ∀ e, e.io = false → (g e).kind = .memWrite ∧ (g e).parts = [⟨e.addr, e.lanes, e.data, 0⟩] ∧ (g e).want = false
      ∧ (g e).fill = false) (l : List WbEntry) (hl : ∀ e ∈ l, e.io = false) :
    ∀ b : Bus, b.memWf = true →
      (b.finishAll c (l.map g)).memWf = true ∧ Bus.SameUnit b (b.finishAll c (l.map g)) ∧
        ∀ x : Addr, (b.finishAll c (l.map g)).physByte c x = (wbByte x l).getD (b.physByte c x) := by
  induction l with
  | nil => exact fun b hb => ⟨hb, .refl b, fun _ => rfl⟩
  | cons e l ih =>
    intro b hb
    have hio := hl e (List.mem_cons_self ..)
    obtain ⟨k1, k2, k3, k4⟩ := hg e hio
    obtain ⟨h1, h2, h3⟩ := Bus.finish_write b c k1 k2 k3 k4 hb
    obtain ⟨g1, g2, g3⟩ := ih (fun e he => hl e (List.mem_cons_of_mem _ he)) _ h1
    refine ⟨g1, h2.trans g2, fun x => ?_⟩
    show ((b.finish c (g e)).finishAll c (l.map g)).physByte c x = _
    rw [g3 x, h3 x, wbByte_cons]
    have : (if x.extractLsb' 2 30 = e.addr ∧ e.lanes.getLsbD (x.extractLsb' 0 2).toNat = true then laneByte e.data (x.extractLsb' 0 2)
        else b.physByte c x) = (e.byteAt x).getD (b.physByte c x) := by
      unfold WbEntry.byteAt
      by_cases hc : x.extractLsb' 2 30 = e.addr ∧ e.lanes.getLsbD (x.extractLsb' 0 2).toNat = true
      · rw [if_pos hc, if_pos]
        · rfl
        · rw [Bool.and_eq_true, Bool.and_eq_true]
          exact ⟨⟨by rw [hio]; rfl, by rw [hc.1]; exact beq_self_eq_true _⟩, hc.2⟩
      · rw [if_neg hc, if_neg]
        · rfl
        · simp only [Bool.and_eq_true, beq_iff_eq, not_and]
          intro h h'
          exact hc ⟨h.2.symm, h'⟩
    rw [this]
    cases wbByte x l <;> simp

theorem writeEntries_mem {io hit pcd pwt more : Bool} {addr : Addr → BitVec 30} (ls : List LChunk) :
    ∀ (follows : Bool) (bs : List Byte), ∀ e ∈ writeEntries io hit pcd pwt follows more addr ls bs, e.io = io := by
  induction ls with
  | nil => exact fun _ _ e he => (List.not_mem_nil he).elim
  | cons l ls ih =>
    intro _ bs e he
    unfold writeEntries at he
    rcases List.mem_cons.1 he with rfl | he
    · rfl
    · exact ih _ _ e he

/-- A byte of memory after some have been written. -/
def Bytes (c : MemCtx) (lin : Addr) (bs : List Byte) (old new : Addr → Byte) : Prop :=
  (∀ i, i < bs.length → new (maskA20 c (lin + BitVec.ofNat 32 i)) = bs.getD i 0)
    ∧ ∀ x, (∀ i, i < bs.length → x ≠ maskA20 c (lin + BitVec.ofNat 32 i)) → new x = old x

/-- LOCKED WRITES reach memory. -/
theorem lockedWrites_spec {c : MemCtx} {p : PageCtx} (fuel : Nat) :
    ∀ (follows : Bool) (lin : Addr) (bs : List Byte) (b : Bus), bs.length ≤ fuel → bs.length ≤ 2 ^ 20 → b.memWf = true →
      let xs := lockedWrites c follows (flatChunks p (chunksOf 4 fuel lin bs.length)) bs
      xs.any (·.kind.isRead) = false ∧ (b.finishAll c xs).memWf = true ∧ Bus.SameUnit b (b.finishAll c xs)
      ∧ Bytes c lin bs (b.physByte c) ((b.finishAll c xs).physByte c) := by
  induction fuel with
  | zero =>
    intro _ lin bs b hn _ hb
    obtain rfl : bs = [] := List.eq_nil_of_length_eq_zero (by omega)
    exact ⟨rfl, hb, .refl b, fun i hi => absurd hi (by simp), fun _ _ => rfl⟩
  | succ fuel ih =>
    intro follows lin bs b hn h20 hb
    rcases Nat.eq_zero_or_pos bs.length with h0 | hpos
    · obtain rfl : bs = [] := List.eq_nil_of_length_eq_zero h0
      exact ⟨rfl, hb, .refl b, fun i hi => absurd hi (by simp), fun _ _ => rfl⟩
    · obtain ⟨k, hk, hkn, hf, -, he⟩ := chunksOf_cons 4 fuel lin bs.length hpos
      have htake : (bs.take k).length = k := by rw [List.length_take]; omega
      have hdrop : (bs.drop k).length = bs.length - k := List.length_drop
      rw [he, ← hdrop]
      dsimp only
      set rest := flatChunks p (chunksOf 4 fuel (lin + BitVec.ofNat 32 k) (bs.drop k).length) with hrest
      set es := writeEntries false true (flatPhys p lin).pcd (flatPhys p lin).pwt follows (!rest.isEmpty) memDword
        (dwordsOf (maskA20 c lin) k) (bs.take k) with hes
      set g : WbEntry → Xfer := fun e => { e.xfer with attr := { e.xfer.attr with lock := true }, cont := true } with hgdef
      have hlw : lockedWrites c follows (flatChunks p (⟨lin, k⟩ :: chunksOf 4 fuel (lin + BitVec.ofNat 32 k) (bs.drop k).length)) bs
          = es.map g ++ lockedWrites c true rest (bs.drop k) := rfl
      rw [hlw]
      have hio : ∀ e ∈ es, e.io = false := fun e he => writeEntries_mem _ _ _ e he
      have hg : ∀ e, e.io = false → (g e).kind = .memWrite ∧ (g e).parts = [⟨e.addr, e.lanes, e.data, 0⟩] ∧ (g e).want = false
          ∧ (g e).fill = false := by
        intro e he
        refine ⟨?_, rfl, rfl, rfl⟩
        rw [hgdef]; unfold WbEntry.xfer Xfer.new; simp [he]
      obtain ⟨h1, h2, h3⟩ := finishAll_writes c g hg es hio b hb
      obtain ⟨i1, i2, i3, i4⟩ := ih true (lin + BitVec.ofNat 32 k) (bs.drop k) (b.finishAll c (es.map g)) (by omega) (by omega) h1
      have hsplit : b.finishAll c (es.map g ++ lockedWrites c true rest (bs.drop k))
          = (b.finishAll c (es.map g)).finishAll c (lockedWrites c true rest (bs.drop k)) := by
        unfold Bus.finishAll; rw [List.foldl_append]
      rw [hsplit]
      have hm := fits_mask (c := c) hf
      have hmt : (bs.take k).length ≤ 2 ^ 20 := by omega
      have hby : ∀ x, (b.finishAll c (es.map g)).physByte c x
          = if Covers (maskA20 c lin) k x then chunkByte (maskA20 c lin) (bs.take k) x else b.physByte c x := by
        intro x
        have hw := wbByte_entries (hit := true) (pcd := (flatPhys p lin).pcd) (pwt := (flatPhys p lin).pwt) (more := !rest.isEmpty)
          (k + 1) follows (maskA20 c lin) (bs.take k) x (by omega) hmt
        rw [htake] at hw
        rw [h3 x, hes]
        unfold dwordsOf
        rw [hw]
        split <;> rfl
      refine ⟨?_, i2, h2.trans i3, fun i hi => ?_, fun x hx => ?_⟩
      · rw [List.any_append, i1, Bool.or_false, List.any_eq_false]
        intro y hy
        obtain ⟨e, hee, rfl⟩ := List.mem_map.1 hy
        rw [(hg e (hio e hee)).1]; exact Bool.false_ne_true
      · by_cases hik : i < k
        · rw [i4.2, hby, mask_part hf hik, if_pos (covers_add hik (by omega))]
          · unfold chunkByte
            rw [sub_add _ (by omega)]
            simp only [List.getD_eq_getElem?_getD, List.getElem?_take, hik, if_true]
          · intro j hj
            rw [add_ofNat]
            exact maskA20_ne c lin (by omega) (by omega)
        · have := i4.1 (i - k) (by omega)
          rw [add_ofNat, show k + (i - k) = i by omega] at this
          rw [this]
          simp only [List.getD_eq_getElem?_getD, List.getElem?_drop]
          rw [show k + (i - k) = i by omega]
      · rw [i4.2, hby, if_neg]
        · intro hc
          exact hx (x - maskA20 c lin).toNat (by unfold Covers at hc; omega) (by rw [mask_part hf hc]; exact covers_eq)
        · intro j hj
          rw [add_ofNat]
          exact hx _ (by omega)

/-- The lines that hold bytes of an access, written. -/
theorem storeHits_spec {c : MemCtx} {p : PageCtx} (fuel : Nat) :
    ∀ (lin : Addr) (bs : List Byte) (b : Bus), bs.length ≤ fuel → bs.length ≤ 2 ^ 20 →
      ∃ k, b.storeHits c (flatChunks p (chunksOf 4 fuel lin bs.length)) bs = { b with cache := k }
      ∧ (∀ x, k.lookup c.big x = b.cache.lookup c.big x)
      ∧ (∀ i, i < bs.length → k.byteAt c.big (maskA20 c (lin + BitVec.ofNat 32 i))
          = (b.cache.byteAt c.big (maskA20 c (lin + BitVec.ofNat 32 i))).map fun _ => bs.getD i 0)
      ∧ ∀ x, (∀ i, i < bs.length → x ≠ maskA20 c (lin + BitVec.ofNat 32 i)) → k.byteAt c.big x = b.cache.byteAt c.big x := by
  induction fuel with
  | zero =>
    intro lin bs b hn _
    obtain rfl : bs = [] := List.eq_nil_of_length_eq_zero (by omega)
    exact ⟨b.cache, rfl, fun _ => rfl, fun i hi => absurd hi (by simp), fun _ _ => rfl⟩
  | succ fuel ih =>
    intro lin bs b hn h20
    rcases Nat.eq_zero_or_pos bs.length with h0 | hpos
    · obtain rfl : bs = [] := List.eq_nil_of_length_eq_zero h0
      exact ⟨b.cache, rfl, fun _ => rfl, fun i hi => absurd hi (by simp), fun _ _ => rfl⟩
    · obtain ⟨k, hk, hkn, hf, -, he⟩ := chunksOf_cons 4 fuel lin bs.length hpos
      have htake : (bs.take k).length = k := by rw [List.length_take]; omega
      have hdrop : (bs.drop k).length = bs.length - k := List.length_drop
      have hm := fits_mask (c := c) hf
      rw [he, ← hdrop]
      obtain ⟨k1, e1, l1, c1, c1'⟩ : ∃ k1, (match b.cache.lookup c.big (maskA20 c lin) with
            | some w => { b with cache := b.cache.writeHit c.big (maskA20 c lin) w ((b.cache.entry (setOf c.big (maskA20 c lin))).way w).st (bs.take k) }
            | none => b) = { b with cache := k1 }
          ∧ (∀ x, k1.lookup c.big x = b.cache.lookup c.big x)
          ∧ (∀ x, Covers (maskA20 c lin) k x →
              k1.byteAt c.big x = (b.cache.byteAt c.big x).map fun _ => chunkByte (maskA20 c lin) (bs.take k) x)
          ∧ ∀ x, ¬Covers (maskA20 c lin) k x → k1.byteAt c.big x = b.cache.byteAt c.big x := by
        cases hl : b.cache.lookup c.big (maskA20 c lin) with
        | none =>
          refine ⟨b.cache, rfl, fun _ => rfl, fun x hx => ?_, fun _ _ => rfl⟩
          have : b.cache.byteAt c.big x = none := by
            unfold Cache.byteAt
            rw [lookup_line ((covers_line hm).1 hx).1, hl]; rfl
          rw [this]; rfl
        | some w =>
          have hst := state_of_lookup hl
          obtain ⟨h1, h2⟩ := byteAt_writeHit_chunk (bs := bs.take k) hl hst (htake.symm ▸ hm)
          rw [htake] at h1 h2
          refine ⟨_, rfl, fun x => (Cache.byteAt_writeHit _ _ hl hst x).1, fun x hx => ?_, h2⟩
          rw [h1 x hx]
          have : b.cache.lookup c.big x = some w := by rw [lookup_line ((covers_line hm).1 hx).1, hl]
          unfold Cache.byteAt
          rw [this]; rfl
      obtain ⟨k2, e2, l2, c2, c2'⟩ := ih (lin + BitVec.ofNat 32 k) (bs.drop k) { b with cache := k1 } (by omega) (by omega)
      refine ⟨k2, ?_, fun x => (l2 x).trans (l1 x), fun i hi => ?_, fun x hx => ?_⟩
      · show Bus.storeHits c (⟨lin, k, _, _⟩ :: flatChunks p _) bs b = _
        unfold Bus.storeHits
        exact (congrArg (Bus.storeHits c _ (bs.drop k)) e1).trans e2
      · by_cases hik : i < k
        · rw [c2' _ (fun j hj => by rw [add_ofNat]; exact maskA20_ne c lin (by omega) (by omega))]
          show k1.byteAt c.big _ = _
          rw [mask_part hf hik, c1 _ (covers_add hik (by omega))]
          congr 1
          funext _
          unfold chunkByte
          rw [sub_add _ (by omega)]
          simp only [List.getD_eq_getElem?_getD, List.getElem?_take, hik, if_true]
        · have := c2 (i - k) (by omega)
          rw [add_ofNat, show k + (i - k) = i by omega] at this
          rw [this]
          show (k1.byteAt c.big _).map _ = _
          rw [c1']
          · congr 1
            funext _
            simp only [List.getD_eq_getElem?_getD, List.getElem?_drop]
            rw [show k + (i - k) = i by omega]
          · intro hc
            have hj : (maskA20 c (lin + BitVec.ofNat 32 i) - maskA20 c lin).toNat < k := hc
            have he : maskA20 c (lin + BitVec.ofNat 32 i)
                = maskA20 c (lin + BitVec.ofNat 32 (maskA20 c (lin + BitVec.ofNat 32 i) - maskA20 c lin).toNat) := by
              rw [mask_part hf hj]; exact covers_eq
            exact maskA20_ne c lin (i := (maskA20 c (lin + BitVec.ofNat 32 i) - maskA20 c lin).toNat) (j := i) (by omega) (by omega)
              he.symm
      · rw [c2' _ (fun j hj => by rw [add_ofNat]; exact hx _ (by omega))]
        show k1.byteAt c.big x = _
        rw [c1']
        intro hc
        exact hx (x - maskA20 c lin).toNat (by unfold Covers at hc; omega) (by rw [mask_part hf hc]; exact covers_eq)

/-- A LOCKED WRITE with the buffers empty: the processor sees its bytes, in the lines that hold them and in memory. -/
theorem writeChunksLocked_spec {c : MemCtx} {p : PageCtx} {lin : Addr} {bs : List Byte} {b : Bus} (hn : bs.length ≤ 2 ^ 20)
    (hb : b.memWf = true) (hs : b.script = []) (hw : b.wb = []) :
    ∃ b', writeChunksLocked c (flatChunks p (chunksOf 4 (bs.length + 1) lin bs.length)) bs b = .ok () b'
      ∧ Bus.Stored c b (fun i => maskA20 c (lin + BitVec.ofNat 32 i)) bs b' := by
  obtain ⟨k, e1, -, c1, c1'⟩ := storeHits_spec (c := c) (p := p) (bs.length + 1) lin bs b (by omega) hn
  obtain ⟨hr, h1, h2, h3⟩ := lockedWrites_spec (c := c) (p := p) (bs.length + 1) false lin bs { b with cache := k } (by omega) hn hb
  have ht := transact_ok (c := c) (b := { b with cache := k }) false
    (lockedWrites c false (flatChunks p (chunksOf 4 (bs.length + 1) lin bs.length)) bs) hs
  rw [hr, if_neg Bool.false_ne_true] at ht
  have h0 : Bus.SameControl b { b with cache := k } := by constructor <;> rfl
  refine ⟨_, ?_, h1, h0.trans h2.control, fun i hi => ?_, fun x hx => ?_⟩
  · unfold writeChunksLocked
    rw [bind_ok (modify_run _ b), e1]
    exact ht
  · rw [Bus.view_memView, h2.cache]
    show (k.byteAt c.big _).getD _ = _
    rw [c1 i hi]
    unfold Bus.memView
    rw [h2.wb, h3.1 i hi, show Bus.wb { b with cache := k } = [] from hw]
    cases b.cache.byteAt c.big (maskA20 c (lin + BitVec.ofNat 32 i)) <;> rfl
  · rw [Bus.view_memView, Bus.view_memView, h2.cache]
    show (k.byteAt c.big x).getD _ = _
    rw [c1' x hx]
    congr 1
    unfold Bus.memView
    rw [h2.wb, h3.2 x hx]; rfl

/-! ### Read-modify-writes -/

/-- An access leaves what later accesses see of the processor. -/
theorem memCtx_bus {s : State} {b : Bus} (h : Bus.SameControl s.bus b) : ({ s with bus := b } : State).memCtx = s.memCtx := by
  unfold State.memCtx
  have : ({ s with bus := b } : State).busFree = s.busFree := by
    unfold State.busFree Bus.held
    show (b.phase == .ti && b.cur.isEmpty && _ && _ && _ && !(b.script.isEmpty && (b.heldHold || b.heldAddr))) = _
    rw [h.phase, h.cur, h.script, h.heldHold, h.heldAddr]
  rw [this]; rfl

/-- Storing after something quiet. -/
theorem stored_after_quiet {c : MemCtx} {b b' b'' : Bus} {at_ : Nat → Addr} {bs : List Byte} (q : Bus.Quiet c b b')
    (h : Bus.Stored c b' at_ bs b'') : Bus.Stored c b at_ bs b'' :=
  ⟨h.wf, q.control.trans h.control, h.written, fun x hx => (h.others x hx).trans (q.view x)⟩

/-- A READ-MODIFY-WRITE with paging off, locked or not: the old bytes, and for any new bytes of the same number the state after
they are written. -/
theorem rmw_spec {s : State} {seg : SegReg} {off : DWord} {n : Nat} {lock : Bool} (hs : s.Flat) (ha : s.Admits seg off n true)
    (hr : s.RmwReady seg off n lock) (hn : n ≤ 2 ^ 19) :
    ∃ ps b1, rmwRead seg off n lock s = .ok (ps, s.seenBytes seg off n) { s with bus := b1 } ∧ Bus.Quiet s.memCtx s.bus b1
      ∧ ∀ bs : List Byte, bs.length = n → ∃ b2, rmwWrite ps bs lock { s with bus := b1 } = .ok () { s with bus := b2 }
        ∧ Bus.Stored s.memCtx s.bus (s.dataAddr seg off) bs b2 := by
  set lin := (s.segs.get seg).base + off with hlin
  set p := s.pageCtx (s.level == 3) with hp
  have hread : ∀ {bs : List Byte} {b1 : Bus},
      (if lock then readChunksLocked s.memCtx (flatChunks p (chunksOf 4 (n + 1) lin n))
        else readChunks s.memCtx .memRead (flatChunks p (chunksOf 4 (n + 1) lin n))) s.bus = .ok bs b1 →
      rmwRead seg off n lock s = .ok (flatChunks p (chunksOf 4 (n + 1) lin n), bs) { s with bus := b1 } := by
    intro bs b1 r1
    unfold rmwRead
    rw [bind_ok (get_run s), bind_ok (segLinear_ok ha.segment), bind_ok (checkAlign_ok ha.align), bind_ok (watch_ok ha.unwatched)]
    refine bus_ok ?_
    rw [bind_ok (translateRange_flat hs.pg lin n s.bus)]
    cases lock
    · exact (bind_ok (f := fun bs => pure (flatChunks p (chunksOf 4 (n + 1) lin n), bs)) r1).trans rfl
    · exact (bind_ok (f := fun bs => pure (flatChunks p (chunksOf 4 (n + 1) lin n), bs)) r1).trans rfl
  cases lock with
  | true =>
    have hcl : CleanAt s.memCtx s.bus lin n := hr
    obtain ⟨b1, r1, w1, q1, e1, e2⟩ := readChunksLocked_spec (c := s.memCtx) (p := p) hs.ready.bus hn hs.ready.wf hs.ready.script hcl
    refine ⟨_, b1, hread r1, q1, fun bs hlen => ?_⟩
    obtain ⟨b2, r2, s2⟩ := writeChunksLocked_spec (c := s.memCtx) (p := p) (lin := lin) (bs := bs) (b := b1) (by omega) w1
      (q1.control.script.trans hs.ready.script) e2
    refine ⟨b2, ?_, stored_after_quiet q1 s2⟩
    rw [hlen] at r2
    unfold rmwWrite
    refine (bus_ok (s := { s with bus := b1 }) (b := b2) ?_)
    rw [memCtx_bus q1.control, if_pos rfl]; exact r2
  | false =>
    obtain ⟨b1, r1, w1, q1, e1⟩ := readChunks_spec (c := s.memCtx) (kind := .memRead) (p := p) hs.ready.bus (.inl rfl) (n + 1)
      lin n s.bus (by omega) hs.ready.wf hs.ready.script hr
    refine ⟨_, b1, hread r1, q1, fun bs hlen => ?_⟩
    obtain ⟨b2, r2, s2, -⟩ := writeChunks_spec (c := s.memCtx) (p := p) hs.ready.bus (n + 1) false lin bs b1 (by omega) (by omega) w1
      (q1.control.script.trans hs.ready.script)
    refine ⟨b2, ?_, stored_after_quiet q1 s2⟩
    rw [hlen] at r2
    unfold rmwWrite
    refine (bus_ok (s := { s with bus := b1 }) (b := b2) ?_)
    rw [memCtx_bus q1.control, if_neg Bool.false_ne_true]; exact r2

end Sys2Proof.Machine
end

