-- ==== Sys2Proof/Laws/Operands.lean ====
section
/-! SUPPORT. What the operand operations do: with a register, and with a memory operand that faults on nothing (30_encoding.md
R223, R229). -/

set_option Elab.async false

namespace Sys2Proof.Machine

@[simp] theorem bytesOfNat_length (k v : Nat) : (bytesOfNat k v).length = k := by
  induction k generalizing v with
  | zero => rfl
  | succ k ih => simp [bytesOfNat, ih]

@[simp] theorem toBytes_length {n : Nat} (k : Nat) (v : BitVec n) : (toBytes k v).length = k := bytesOfNat_length k _

/-! ### Reads and writes -/

theorem readRm8_reg (r : Reg8) (s : State) : readRm8 (.reg r) s = .ok (s.regs.get8 r) s := rfl
theorem readRm_reg (os : OpSize) (r : Reg) (s : State) : readRm os (.reg r) s = .ok (s.regs.getSz os r) s := rfl

theorem readRm8_mem {s : State} {m : MemOp} (hs : s.Flat) (ha : s.Admits m.seg (eaOffset s.regs m.ea) 1 false)
    (hf : s.NoFill m.seg (eaOffset s.regs m.ea) 1) :
    ∃ b, readRm8 (.mem m) s = .ok (ofBytes 8 (s.seenBytes m.seg (eaOffset s.regs m.ea) 1)) { s with bus := b }
      ∧ Bus.Quiet s.memCtx s.bus b := by
  obtain ⟨b, h1, -, h2, -⟩ := readMem_spec hs ha hf
  refine ⟨b, ?_, h2⟩
  unfold readRm8
  rw [bind_ok (get_run s)]
  dsimp only
  rw [bind_ok h1]; rfl

theorem readRm_mem {os : OpSize} {s : State} {m : MemOp} (hs : s.Flat)
    (ha : s.Admits m.seg (eaOffset s.regs m.ea) (OpSize.bytes os) false)
    (hf : s.NoFill m.seg (eaOffset s.regs m.ea) (OpSize.bytes os)) :
    ∃ b, readRm os (.mem m) s
        = .ok (ofBytes os.bits (s.seenBytes m.seg (eaOffset s.regs m.ea) (OpSize.bytes os))) { s with bus := b }
      ∧ Bus.Quiet s.memCtx s.bus b := by
  obtain ⟨b, h1, -, h2, -⟩ := readMem_spec hs ha hf
  refine ⟨b, ?_, h2⟩
  unfold readRm
  rw [bind_ok (get_run s)]
  dsimp only
  rw [bind_ok h1]; rfl

theorem writeRm8_mem {s : State} {m : MemOp} (v : BitVec 8) (hs : s.Flat)
    (ha : s.Admits m.seg (eaOffset s.regs m.ea) 1 true) :
    ∃ b, writeRm8 (.mem m) v s = .ok () { s with bus := b }
      ∧ Bus.Stored s.memCtx s.bus (s.dataAddr m.seg (eaOffset s.regs m.ea)) (toBytes 1 v) b := by
  obtain ⟨b, h1, h2, -⟩ := writeMem_spec (bs := toBytes 1 v) hs (by simpa using ha) (by simp)
  refine ⟨b, ?_, h2⟩
  unfold writeRm8
  rw [bind_ok (get_run s)]
  exact h1

theorem OpSize.bytes_le (os : OpSize) : OpSize.bytes os ≤ 4 := by cases os <;> decide

theorem writeRm_mem {os : OpSize} {s : State} {m : MemOp} (v : BitVec os.bits) (hs : s.Flat)
    (ha : s.Admits m.seg (eaOffset s.regs m.ea) (OpSize.bytes os) true) :
    ∃ b, writeRm os (.mem m) v s = .ok () { s with bus := b }
      ∧ Bus.Stored s.memCtx s.bus (s.dataAddr m.seg (eaOffset s.regs m.ea)) (toBytes (OpSize.bytes os) v) b := by
  have := OpSize.bytes_le os
  obtain ⟨b, h1, h2, -⟩ := writeMem_spec (bs := toBytes (OpSize.bytes os) v) hs (by simpa using ha) (by simp; omega)
  refine ⟨b, ?_, h2⟩
  unfold writeRm
  rw [bind_ok (get_run s)]
  exact h1

/-! ### Read-modify-writes -/

/-- A byte read-modify-write of memory, locked or not: the new byte is stored and no other, then the rest is done with the old
byte. -/
theorem modifyRm8_mem {s : State} {m : MemOp} {lock : Bool} {f : BitVec 8 → BitVec 8} {other : BitVec 8 → M Unit} (hs : s.Flat)
    (ha : s.Admits m.seg (eaOffset s.regs m.ea) 1 true) (hr : s.RmwReady m.seg (eaOffset s.regs m.ea) 1 lock) :
    let old : BitVec 8 := ofBytes 8 (s.seenBytes m.seg (eaOffset s.regs m.ea) 1)
    ∃ b, Bus.Stored s.memCtx s.bus (s.dataAddr m.seg (eaOffset s.regs m.ea)) (toBytes 1 (f old)) b
      ∧ modifyRm8 (.mem m) lock f other s = other old { s with bus := b } := by
  intro old
  obtain ⟨ps, b1, h1, h2, h3⟩ := rmw_spec hs ha hr (by norm_num)
  obtain ⟨b2, h4, h5⟩ := h3 (toBytes 1 (f old)) rfl
  refine ⟨b2, h5, ?_⟩
  unfold modifyRm8
  rw [bind_ok (get_run s)]
  dsimp only
  rw [bind_ok h1]
  dsimp only
  rw [bind_ok h4]

/-- A word or doubleword read-modify-write of memory. -/
theorem modifyRm_mem {os : OpSize} {s : State} {m : MemOp} {lock : Bool} {f : BitVec os.bits → BitVec os.bits}
    {other : BitVec os.bits → M Unit} (hs : s.Flat) (ha : s.Admits m.seg (eaOffset s.regs m.ea) (OpSize.bytes os) true)
    (hr : s.RmwReady m.seg (eaOffset s.regs m.ea) (OpSize.bytes os) lock) :
    let old : BitVec os.bits := ofBytes os.bits (s.seenBytes m.seg (eaOffset s.regs m.ea) (OpSize.bytes os))
    ∃ b, Bus.Stored s.memCtx s.bus (s.dataAddr m.seg (eaOffset s.regs m.ea)) (toBytes (OpSize.bytes os) (f old)) b
      ∧ modifyRm os (.mem m) lock f other s = other old { s with bus := b } := by
  intro old
  have := OpSize.bytes_le os
  obtain ⟨ps, b1, h1, h2, h3⟩ := rmw_spec hs ha hr (by omega)
  obtain ⟨b2, h4, h5⟩ := h3 (toBytes (OpSize.bytes os) (f old)) (toBytes_length _ _)
  refine ⟨b2, h5, ?_⟩
  unfold modifyRm
  rw [bind_ok (get_run s)]
  dsimp only
  rw [bind_ok h1]
  dsimp only
  rw [bind_ok h4]

/-! ### The stack and the system tables -/

/-- A write held back with paging off: nothing changes yet, and performing it is `linWrite`. -/
theorem holdWrite_spec {s : State} {p : PageCtx} (hp : p.pg = false) (lin : Addr) (bs : List Byte) :
    ∃ w, holdWrite p lin bs s = .ok w s ∧ w.perform = bus fun c => linWrite c p lin bs := by
  have ht : ∀ c b, translateRange c p lin bs.length true b = .ok (flatChunks p (chunksOf 4 (bs.length + 1) lin bs.length)) b :=
    fun _ _ => translateRange_flat hp _ _ _
  refine ⟨_, by unfold holdWrite; rw [bind_ok (bus_ok (ht s.memCtx s.bus))]; rfl, ?_⟩
  dsimp only
  congr 1
  funext c b
  unfold linWrite
  rw [bind_ok (ht c b)]

/-- A push with paging off that faults on nothing and is held back: nothing changes yet, and performing it writes its bytes below
the stack pointer. -/
theorem holdPush_spec {s : State} {k : Stack} {bs : List Byte} (hs : s.Flat)
    (hr : k.prot = true → k.seg.rightsAllow true = true)
    (hl : k.seg.inLimit k.prot (stackDown (k.prot && k.seg.ar.getLsbD 14) k.sp bs.length).1 bs.length = true)
    (ha : k.user = true → s.aligned (k.seg.base + (stackDown (k.prot && k.seg.ar.getLsbD 14) k.sp bs.length).1) bs.length)
    (hu : s.dataHits (k.seg.base + (stackDown (k.prot && k.seg.ar.getLsbD 14) k.sp bs.length).1) bs.length true = 0) :
    ∃ w, holdPush k bs s = .ok ({ k with sp := (stackDown (k.prot && k.seg.ar.getLsbD 14) k.sp bs.length).2 }, w) s
      ∧ w.perform = bus fun c =>
          linWrite c (s.pageCtx k.user) (k.seg.base + (stackDown (k.prot && k.seg.ar.getLsbD 14) k.sp bs.length).1) bs := by
  set d := stackDown (k.prot && k.seg.ar.getLsbD 14) k.sp bs.length with hd
  obtain ⟨w, hw, hp⟩ := holdWrite_spec (s := s) (p := s.pageCtx k.user) hs.pg (k.seg.base + d.1) bs
  have hrest : ((watch (k.seg.base + d.1) bs.length true >>= fun _ => holdWrite (s.pageCtx k.user) (k.seg.base + d.1) bs >>= fun w =>
      pure ({ k with sp := d.2 }, w)) : M (Stack × HeldWrite)) s = .ok ({ k with sp := d.2 }, w) s := by
    rw [bind_ok (watch_ok hu), bind_ok hw]
    rfl
  refine ⟨w, ?_, hp⟩
  unfold holdPush
  rw [bind_ok (get_run s)]
  dsimp only
  rw [← hd, bind_ok (segLinearIn_ok hr hl)]
  split
  · rename_i h
    rw [bind_ok (checkAlign_ok (ha h))]
    exact hrest
  · exact hrest

/-- A push with paging off that faults on nothing: the bytes go below the stack pointer, and only the bus unit changes. -/
theorem pushOn_spec {s : State} {k : Stack} {bs : List Byte} (hs : s.Flat) (hn : bs.length ≤ 2 ^ 20)
    (hr : k.prot = true → k.seg.rightsAllow true = true)
    (hl : k.seg.inLimit k.prot (stackDown (k.prot && k.seg.ar.getLsbD 14) k.sp bs.length).1 bs.length = true)
    (ha : k.user = true → s.aligned (k.seg.base + (stackDown (k.prot && k.seg.ar.getLsbD 14) k.sp bs.length).1) bs.length)
    (hu : s.dataHits (k.seg.base + (stackDown (k.prot && k.seg.ar.getLsbD 14) k.sp bs.length).1) bs.length true = 0) :
    ∃ b, pushOn k bs s
        = .ok { k with sp := (stackDown (k.prot && k.seg.ar.getLsbD 14) k.sp bs.length).2 } { s with bus := b }
      ∧ Bus.Stored s.memCtx s.bus
        (fun i => maskA20 s.memCtx (k.seg.base + (stackDown (k.prot && k.seg.ar.getLsbD 14) k.sp bs.length).1 + BitVec.ofNat 32 i))
        bs b := by
  set d := stackDown (k.prot && k.seg.ar.getLsbD 14) k.sp bs.length with hd
  obtain ⟨b, h1, h2, -⟩ := linWrite_flat (c := s.memCtx) (p := s.pageCtx k.user) (b := s.bus) (lin := k.seg.base + d.1) (bs := bs)
    hs.pg hs.ready.bus hs.ready.wf hs.ready.script hn
  refine ⟨b, ?_, h2⟩
  obtain ⟨w, hw, hp⟩ := holdPush_spec hs hr hl ha hu
  unfold pushOn
  rw [bind_ok hw]
  dsimp only
  rw [hp, bind_ok (bus_ok (b := b) h1)]
  rfl

/-- A read of a system table with paging off that fills no line. -/
theorem sysRead_spec {s : State} {lin : Addr} {n : Nat} (hs : s.Flat)
    (hf : s.cd = true ∨ ∀ i, i < n → (s.bus.cache.lookup s.part.bigCache (maskA20 s.memCtx (lin + BitVec.ofNat 32 i))).isSome = true) :
    ∃ b, sysRead lin n s
        = .ok (natOfBytes ((List.range n).map fun i => s.view (maskA20 s.memCtx (lin + BitVec.ofNat 32 i)))) { s with bus := b }
      ∧ b.memWf = true ∧ Bus.Quiet s.memCtx s.bus b := by
  obtain ⟨b, h1, h2, h3, -⟩ := linRead_flat (c := s.memCtx) (p := s.pageCtx false) (b := s.bus) (lin := lin) (n := n) hs.pg
    hs.ready.bus hs.ready.wf hs.ready.script hf
  refine ⟨b, ?_, h2, h3⟩
  unfold sysRead
  rw [bind_ok (get_run s), bind_ok (bus_ok h1)]
  rfl

/-- An item of a doubleword that moves at 32 bits is one cycle, with the enables driven. -/
theorem itemCycles_one {c : MemCtx} {x : Xfer} {p : BusPart} (driven : BitVec 4) (d : DWord) (first ads more : Bool)
    (hw : x.width c p.addr = 32) (hb : busWidth c x.kind p.addr = 32) :
    ∃ y, itemCycles c x p driven d first ads more = [y] ∧ y.kind = x.kind ∧ y.be = ~~~driven ∧ y.addr = p.addr := by
  have h : cycleLanes 32 32 p.lanes = [p.lanes] := by unfold cycleLanes movedLanes; simp
  unfold itemCycles
  rw [hw, hb, ite_self, h]
  exact ⟨_, rfl, rfl, rfl, rfl⟩

/-- A special cycle with the bus free: the buffers drain, and it is the newest bus cycle. -/
theorem specialCycle_spec {s : State} (be : BitVec 4) (a : DWord) (hs : s.BusReady) :
    ∃ b, specialCycle be a s = .ok () { s with bus := b } ∧ Bus.Drained s.memCtx s.bus b ∧ Bus.SameControl s.bus b
      ∧ b.lastSpecial be (a.extractLsb' 2 30) := by
  obtain ⟨b1, h1, h2, h3, h4, h5, h6⟩ := drainBuffers_spec (c := s.memCtx) (b := s.bus) hs.wf hs.bus hs.script
  have ht := transact_ok (c := s.memCtx) (b := b1) false [specialXfer be (a.extractLsb' 2 30)] (h3.script.trans hs.script)
  have hm : b1.finishAll s.memCtx [specialXfer be (a.extractLsb' 2 30)]
      = b1.record (itemCycles s.memCtx { specialXfer be (a.extractLsb' 2 30) with decided := true }
          ⟨a.extractLsb' 2 30, ~~~be, 0, 0⟩ (~~~be) 0 true true false) := by
    show b1.finish s.memCtx (specialXfer be (a.extractLsb' 2 30)) = _
    rw [Bus.finish_plain b1 s.memCtx (x := specialXfer be (a.extractLsb' 2 30)) rfl rfl]
    exact Bus.movePart_message b1 s.memCtx (x := { specialXfer be (a.extractLsb' 2 30) with decided := true }) _ _ _ _ _ (.inr rfl)
  rw [show ([specialXfer be (a.extractLsb' 2 30)].any (·.kind.isRead)) = false from rfl, if_neg Bool.false_ne_true, hm] at ht
  refine ⟨b1.record (itemCycles s.memCtx { specialXfer be (a.extractLsb' 2 30) with decided := true }
    ⟨a.extractLsb' 2 30, ~~~be, 0, 0⟩ (~~~be) 0 true true false), ?_, ?_, ?_, ?_⟩
  · unfold specialCycle
    refine bus_ok ?_
    rw [bind_ok (needBus_ok hs.bus _), bind_ok h1]
    exact ht
  · exact ⟨h2, h4, h5, fun x => (Bus.view_congr (b := b1) rfl x rfl).trans (h6 x), h3.cache, h3.fetchq, h3.tlb, h3.queue, h3.cur,
      h3.phase, h3.script⟩
  · exact h3.control.trans (Bus.sameUnit_record _ _).control
  · unfold Bus.lastSpecial
    obtain ⟨c, h⟩ := itemCycles_one (c := s.memCtx) (x := { specialXfer be (a.extractLsb' 2 30) with decided := true })
      (p := ⟨a.extractLsb' 2 30, ~~~be, 0, 0⟩) (~~~be) 0 true true false rfl rfl
    refine ⟨c, b1.trace, ?_, h.2.1, h.2.2.1.trans (BitVec.not_not ..), h.2.2.2⟩
    rw [h.1]; rfl

/-! ### Exceptions -/

/-- A row of exceptions as long as a step delivers is left for the next step. -/
@[simp] theorem takeException_zero (e : Exc) (s : State) : takeException 0 e s = .ok () (s.parked e) := rfl

/-- With an exception left over the processor does nothing but deliver it. -/
theorem proceed_serial {s : State} {e : Exc} (h : s.serial = some e) : proceed s = runEvent (takeSerial e) s := by
  unfold proceed; rw [h]

theorem proceed_none {s : State} (h : s.serial = none) : proceed s = boundary s := by
  unfold proceed; rw [h]

/-- What can come of delivering an exception: it is delivered; it raises another, and what that escalates to is delivered, or the
processor shuts down; or it waits or is refused. The second is delivered with the registers as they were, or in the new task. -/
theorem takeException_cases {n : Nat} {e : Exc} {s u : State} (h : takeException (n + 1) e s = .ok () u) :
    deliver e s = .ok () u
      ∨ ∃ f t v, (deliver e s = .error (.exc f) t ∧ v = s.afterFailed t ∨ deliver e s = .error (.taskExc f) t ∧ v = t)
        ∧ ((∃ g, escalate e f = some g ∧ takeException n g (v.reported f) = .ok () u)
          ∨ (escalate e f = none ∧ enterShutdown (v.reported f) = .ok () u)) := by
  unfold takeException at h
  split at h
  · left; rw [← h]; assumption
  · rename_i f t hf
    right
    refine ⟨f, t, _, .inl ⟨hf, rfl⟩, ?_⟩
    split at h
    · rename_i g hg; exact .inl ⟨g, hg, h⟩
    · rename_i hg; exact .inr ⟨hg, h⟩
  · rename_i f t hf
    right
    refine ⟨f, t, _, .inr ⟨hf, rfl⟩, ?_⟩
    split at h
    · rename_i g hg; exact .inl ⟨g, hg, h⟩
    · rename_i hg; exact .inr ⟨hg, h⟩
  · cases h

/-- THE END OF A STEP, the environment answering as the platform says: buffered writes settle, and the processor sees no byte
change. -/
theorem settle_spec {s : State} (hw : s.bus.memWf = true) (hs : s.bus.script = []) :
    ∃ b, s.settle = { s with bus := b } ∧ b.memWf = true ∧ Bus.SameButWb s.bus b ∧ ∀ x, b.view s.memCtx x = s.bus.view s.memCtx x := by
  unfold State.settle
  split
  · rename_i h
    simp only [Bool.and_eq_true] at h
    obtain ⟨b, h1, h2, h3, -, -, h6⟩ := drainBuffers_spec (c := s.memCtx) (b := s.bus) hw h.1.1.1.1 hs
    refine ⟨b, ?_, h2, h3, h6⟩
    have : drain s = .ok () { s with bus := b } := bus_ok h1
    rw [this]
  · exact ⟨s.bus, rfl, hw, .refl _, fun _ => rfl⟩

end Sys2Proof.Machine
end

