-- ==== Sys2Proof/Laws/PerInstr.lean ====
section
/-! SUPPORT. One fact about the syntax, shown for every instruction: which rows have instruction bytes, how many, and which are bus
cycles with a word of their own (30_encoding.md R227 to R231). -/

set_option Elab.async false

namespace Sys2Proof.Laws

/-- A row has no instruction bytes exactly where it is a bus cycle; it has at most eleven; a bus cycle fits no decoding context, and
its word is read back as the row with its operands. -/
def Encoding.Statement (i : Instr) : Prop :=
  (i.isBusCycle = true ↔ encode i = []) ∧ (encode i).length ≤ 11
    ∧ (i.isBusCycle = true → (∀ c, i.wf c = false) ∧ ∃ w, encodeBus i = some w ∧ decodeBus w = some i)

/-- The operands of a bus cycle are read back from its word, whatever the code in the low byte. -/
theorem busOpOf_word (op : BusOp) (k : Nat) (hk : k < 256) : busOpOf (k + op.word) = op ∧ (k + op.word) % 256 = k := by
  obtain ⟨a, e, d⟩ := op
  have ha := a.isLt
  have he := e.isLt
  have hd := d.isLt
  unfold busOpOf BusOp.word
  refine ⟨?_, by dsimp only; omega⟩
  congr 1 <;> apply BitVec.eq_of_toNat_eq <;> simp only [BitVec.toNat_ofNat] <;> omega

/-- A row that has instruction bytes. -/
theorem encoding_of_bytes {i : Instr} (h : i.isBusCycle = false) (hne : encode i ≠ []) (hl : (encode i).length ≤ 11) :
    Encoding.Statement i :=
  ⟨by simp [h, hne], hl, by simp [h]⟩

/-- A bus-cycle row. -/
theorem encoding_of_bus {i : Instr} (h : i.isBusCycle = true) (he : encode i = []) (hw : ∀ c, i.wf c = false) {w : Nat}
    (hb : encodeBus i = some w) (hd : decodeBus w = some i) : Encoding.Statement i :=
  ⟨by simp [h, he], by simp [he], fun _ => ⟨hw, w, hb, hd⟩⟩

theorem encDisp16_length (d : Disp 16) : (encDisp16 d).length ≤ 2 := by cases d <;> simp [encDisp16, enc16]
theorem encDisp32_length (d : Disp 32) : (encDisp32 d).length ≤ 4 := by cases d <;> simp [encDisp32, enc32]

/-- An effective address takes one to six bytes. -/
theorem encEa_length (r : BitVec 3) (e : Ea) : encEa r e ≠ [] ∧ (encEa r e).length ≤ 6 := by
  cases e <;> simp only [encEa] <;> refine ⟨by simp, ?_⟩ <;>
    first
      | (rename_i d; have := encDisp16_length d; simp; omega)
      | (rename_i d; have := encDisp32_length d; simp; omega)
      | simp [enc16, enc32]

theorem encRm_length {ρ : Type} (bits : ρ → BitVec 3) (r : BitVec 3) (rm : Rm ρ) :
    encRm bits r rm ≠ [] ∧ (encRm bits r rm).length ≤ 6 := by
  cases rm with
  | reg x => simp [encRm]
  | mem m => exact encEa_length r m.ea

theorem encOffset_length (o : Offset) : (encOffset o).length ≤ 4 := by cases o <;> simp [encOffset, enc16, enc32]
theorem encImm_length (v : Imm) : (encImm v).length ≤ 4 := by cases v <;> simp [encImm, enc16, enc32]

theorem Encoding.bswap (os : OpSize) (r : Reg) : Encoding.Statement (.bswap os r) :=
  encoding_of_bytes rfl (by simp [encode]) (by simp [encode])
theorem Encoding.xaddRm8R8 (rm : Rm Reg8) (r : Reg8) : Encoding.Statement (.xaddRm8R8 rm r) :=
  encoding_of_bytes rfl (by simp [encode]) (by have := (encRm_length Reg8.toBits r.toBits rm).2; simp [encode]; omega)
theorem Encoding.xaddRmR (os : OpSize) (rm : Rm Reg) (r : Reg) : Encoding.Statement (.xaddRmR os rm r) :=
  encoding_of_bytes rfl (by simp [encode]) (by have := (encRm_length Reg.toBits r.toBits rm).2; simp [encode]; omega)
theorem Encoding.cmpxchgRm8R8 (rm : Rm Reg8) (r : Reg8) : Encoding.Statement (.cmpxchgRm8R8 rm r) :=
  encoding_of_bytes rfl (by simp [encode]) (by have := (encRm_length Reg8.toBits r.toBits rm).2; simp [encode]; omega)
theorem Encoding.cmpxchgRmR (os : OpSize) (rm : Rm Reg) (r : Reg) : Encoding.Statement (.cmpxchgRmR os rm r) :=
  encoding_of_bytes rfl (by simp [encode]) (by have := (encRm_length Reg.toBits r.toBits rm).2; simp [encode]; omega)
theorem Encoding.invd : Encoding.Statement .invd :=
  encoding_of_bytes rfl (by simp [encode]) (by simp [encode])
theorem Encoding.wbinvd : Encoding.Statement .wbinvd :=
  encoding_of_bytes rfl (by simp [encode]) (by simp [encode])
theorem Encoding.invlpg (m : MemOp) : Encoding.Statement (.invlpg m) :=
  encoding_of_bytes rfl (by simp [encode]) (by have := (encEa_length 7 m.ea).2; simp only [encode, List.length_cons]; omega)
theorem Encoding.rsm : Encoding.Statement .rsm :=
  encoding_of_bytes rfl (by simp [encode]) (by simp [encode])
theorem Encoding.cpuid : Encoding.Statement .cpuid :=
  encoding_of_bytes rfl (by simp [encode]) (by simp [encode])
theorem Encoding.movAlMoffs (m : Moffs) : Encoding.Statement (.movAlMoffs m) :=
  encoding_of_bytes rfl (by simp [encode]) (by have := encOffset_length m.off; simp [encode]; omega)
theorem Encoding.movEaxMoffs (os : OpSize) (m : Moffs) : Encoding.Statement (.movEaxMoffs os m) :=
  encoding_of_bytes rfl (by simp [encode]) (by have := encOffset_length m.off; simp [encode]; omega)
theorem Encoding.movMoffsAl (m : Moffs) : Encoding.Statement (.movMoffsAl m) :=
  encoding_of_bytes rfl (by simp [encode]) (by have := encOffset_length m.off; simp [encode]; omega)
theorem Encoding.movMoffsEax (os : OpSize) (m : Moffs) : Encoding.Statement (.movMoffsEax os m) :=
  encoding_of_bytes rfl (by simp [encode]) (by have := encOffset_length m.off; simp [encode]; omega)
theorem Encoding.movR8Rm8 (r : Reg8) (rm : Rm Reg8) : Encoding.Statement (.movR8Rm8 r rm) :=
  encoding_of_bytes rfl (by simp [encode]) (by have := (encRm_length Reg8.toBits r.toBits rm).2; simp [encode]; omega)
theorem Encoding.movRRm (os : OpSize) (r : Reg) (rm : Rm Reg) : Encoding.Statement (.movRRm os r rm) :=
  encoding_of_bytes rfl (by simp [encode]) (by have := (encRm_length Reg.toBits r.toBits rm).2; simp [encode]; omega)
theorem Encoding.movRm8R8 (rm : Rm Reg8) (r : Reg8) : Encoding.Statement (.movRm8R8 rm r) :=
  encoding_of_bytes rfl (by simp [encode]) (by have := (encRm_length Reg8.toBits r.toBits rm).2; simp [encode]; omega)
theorem Encoding.movRmR (os : OpSize) (rm : Rm Reg) (r : Reg) : Encoding.Statement (.movRmR os rm r) :=
  encoding_of_bytes rfl (by simp [encode]) (by have := (encRm_length Reg.toBits r.toBits rm).2; simp [encode]; omega)
theorem Encoding.movR8Imm8 (r : Reg8) (v : BitVec 8) : Encoding.Statement (.movR8Imm8 r v) :=
  encoding_of_bytes rfl (by simp [encode]) (by simp [encode])
theorem Encoding.movRImm (r : Reg) (v : Imm) : Encoding.Statement (.movRImm r v) :=
  encoding_of_bytes rfl (by simp [encode]) (by have := encImm_length v; simp [encode]; omega)
theorem Encoding.inAlImm8 (p : BitVec 8) : Encoding.Statement (.inAlImm8 p) :=
  encoding_of_bytes rfl (by simp [encode]) (by simp [encode])
theorem Encoding.inEaxImm8 (os : OpSize) (p : BitVec 8) : Encoding.Statement (.inEaxImm8 os p) :=
  encoding_of_bytes rfl (by simp [encode]) (by simp [encode])
theorem Encoding.inAlDx : Encoding.Statement .inAlDx :=
  encoding_of_bytes rfl (by simp [encode]) (by simp [encode])
theorem Encoding.inEaxDx (os : OpSize) : Encoding.Statement (.inEaxDx os) :=
  encoding_of_bytes rfl (by simp [encode]) (by simp [encode])
theorem Encoding.outImm8Al (p : BitVec 8) : Encoding.Statement (.outImm8Al p) :=
  encoding_of_bytes rfl (by simp [encode]) (by simp [encode])
theorem Encoding.outImm8Eax (os : OpSize) (p : BitVec 8) : Encoding.Statement (.outImm8Eax os p) :=
  encoding_of_bytes rfl (by simp [encode]) (by simp [encode])
theorem Encoding.outDxAl : Encoding.Statement .outDxAl :=
  encoding_of_bytes rfl (by simp [encode]) (by simp [encode])
theorem Encoding.outDxEax (os : OpSize) : Encoding.Statement (.outDxEax os) :=
  encoding_of_bytes rfl (by simp [encode]) (by simp [encode])
theorem Encoding.outsb (seg : SegReg) (as : AddrSize) : Encoding.Statement (.outsb seg as) :=
  encoding_of_bytes rfl (by simp [encode]) (by simp [encode])
theorem Encoding.outswd (os : OpSize) (seg : SegReg) (as : AddrSize) : Encoding.Statement (.outswd os seg as) :=
  encoding_of_bytes rfl (by simp [encode]) (by simp [encode])
theorem Encoding.repPrefix : Encoding.Statement .repPrefix :=
  encoding_of_bytes rfl (by simp [encode]) (by simp [encode])
theorem Encoding.xchgRm8R8 (rm : Rm Reg8) (r : Reg8) : Encoding.Statement (.xchgRm8R8 rm r) :=
  encoding_of_bytes rfl (by simp [encode]) (by have := (encRm_length Reg8.toBits r.toBits rm).2; simp [encode]; omega)
theorem Encoding.xchgRmR (os : OpSize) (rm : Rm Reg) (r : Reg) : Encoding.Statement (.xchgRmR os rm r) :=
  encoding_of_bytes rfl (by simp [encode]) (by have := (encRm_length Reg.toBits r.toBits rm).2; simp [encode]; omega)
theorem Encoding.xchgEaxR (os : OpSize) (r : Reg) : Encoding.Statement (.xchgEaxR os r) :=
  encoding_of_bytes rfl (by simp [encode]) (by simp [encode])
theorem Encoding.lockPrefix : Encoding.Statement .lockPrefix :=
  encoding_of_bytes rfl (by simp [encode]) (by simp [encode])
theorem Encoding.hlt : Encoding.Statement .hlt :=
  encoding_of_bytes rfl (by simp [encode]) (by simp [encode])
theorem Encoding.esc (os : OpSize) (op : BitVec 3) (reg : BitVec 3) (rm : Rm (BitVec 3)) : Encoding.Statement (.esc os op reg rm) :=
  encoding_of_bytes rfl (by simp [encode]) (by have := (encRm_length id reg rm).2; simp [encode]; omega)
theorem Encoding.wait : Encoding.Statement .wait :=
  encoding_of_bytes rfl (by simp [encode]) (by simp [encode])
theorem Encoding.jmpRel8 (os : OpSize) (d : BitVec 8) : Encoding.Statement (.jmpRel8 os d) :=
  encoding_of_bytes rfl (by simp [encode]) (by simp [encode])
theorem Encoding.jmpRel (d : Imm) : Encoding.Statement (.jmpRel d) :=
  encoding_of_bytes rfl (by simp [encode]) (by have := encImm_length d; simp [encode]; omega)
theorem Encoding.intN (v : BitVec 8) : Encoding.Statement (.intN v) :=
  encoding_of_bytes rfl (by simp [encode]) (by simp [encode])
theorem Encoding.movRCr (r : Reg) (n : BitVec 3) : Encoding.Statement (.movRCr r n) :=
  encoding_of_bytes rfl (by simp [encode]) (by simp [encode])
theorem Encoding.movCrR (n : BitVec 3) (r : Reg) : Encoding.Statement (.movCrR n r) :=
  encoding_of_bytes rfl (by simp [encode]) (by simp [encode])
theorem Encoding.movRDr (r : Reg) (n : BitVec 3) : Encoding.Statement (.movRDr r n) :=
  encoding_of_bytes rfl (by simp [encode]) (by simp [encode])
theorem Encoding.movDrR (n : BitVec 3) (r : Reg) : Encoding.Statement (.movDrR n r) :=
  encoding_of_bytes rfl (by simp [encode]) (by simp [encode])
theorem Encoding.movRTr (r : Reg) (n : BitVec 3) : Encoding.Statement (.movRTr r n) :=
  encoding_of_bytes rfl (by simp [encode]) (by simp [encode])
theorem Encoding.movTrR (n : BitVec 3) (r : Reg) : Encoding.Statement (.movTrR n r) :=
  encoding_of_bytes rfl (by simp [encode]) (by simp [encode])
theorem Encoding.pushf (os : OpSize) : Encoding.Statement (.pushf os) :=
  encoding_of_bytes rfl (by simp [encode]) (by simp [encode])
theorem Encoding.popf (os : OpSize) : Encoding.Statement (.popf os) :=
  encoding_of_bytes rfl (by simp [encode]) (by simp [encode])
theorem Encoding.opSizePrefix : Encoding.Statement .opSizePrefix :=
  encoding_of_bytes rfl (by simp [encode]) (by simp [encode])
theorem Encoding.addrSizePrefix : Encoding.Statement .addrSizePrefix :=
  encoding_of_bytes rfl (by simp [encode]) (by simp [encode])
theorem Encoding.intAckCycle (op : BusOp) : Encoding.Statement (.intAckCycle op) :=
  encoding_of_bus rfl rfl (fun _ => rfl) (w := 0 + op.word) (by simp [encodeBus])
    (by unfold decodeBus; rw [(busOpOf_word op 0 (by omega)).2, (busOpOf_word op 0 (by omega)).1]; rfl)
theorem Encoding.specialCycle (op : BusOp) : Encoding.Statement (.specialCycle op) :=
  encoding_of_bus rfl rfl (fun _ => rfl) (w := 1 + op.word) (by simp [encodeBus])
    (by unfold decodeBus; rw [(busOpOf_word op 1 (by omega)).2, (busOpOf_word op 1 (by omega)).1]; rfl)
theorem Encoding.ioReadCycle (op : BusOp) : Encoding.Statement (.ioReadCycle op) :=
  encoding_of_bus rfl rfl (fun _ => rfl) (w := 2 + op.word) (by simp [encodeBus])
    (by unfold decodeBus; rw [(busOpOf_word op 2 (by omega)).2, (busOpOf_word op 2 (by omega)).1]; rfl)
theorem Encoding.ioWriteCycle (op : BusOp) : Encoding.Statement (.ioWriteCycle op) :=
  encoding_of_bus rfl rfl (fun _ => rfl) (w := 3 + op.word) (by simp [encodeBus])
    (by unfold decodeBus; rw [(busOpOf_word op 3 (by omega)).2, (busOpOf_word op 3 (by omega)).1]; rfl)
theorem Encoding.codeReadCycle (op : BusOp) : Encoding.Statement (.codeReadCycle op) :=
  encoding_of_bus rfl rfl (fun _ => rfl) (w := 4 + op.word) (by simp [encodeBus])
    (by unfold decodeBus; rw [(busOpOf_word op 4 (by omega)).2, (busOpOf_word op 4 (by omega)).1]; rfl)
theorem Encoding.reservedCycle : Encoding.Statement .reservedCycle := encoding_of_bus rfl rfl (fun _ => rfl) rfl rfl
theorem Encoding.memReadCycle (op : BusOp) : Encoding.Statement (.memReadCycle op) :=
  encoding_of_bus rfl rfl (fun _ => rfl) (w := 6 + op.word) (by simp [encodeBus])
    (by unfold decodeBus; rw [(busOpOf_word op 6 (by omega)).2, (busOpOf_word op 6 (by omega)).1]; rfl)
theorem Encoding.memWriteCycle (op : BusOp) : Encoding.Statement (.memWriteCycle op) :=
  encoding_of_bus rfl rfl (fun _ => rfl) (w := 7 + op.word) (by simp [encodeBus])
    (by unfold decodeBus; rw [(busOpOf_word op 7 (by omega)).2, (busOpOf_word op 7 (by omega)).1]; rfl)
theorem Encoding.shutdownCycle : Encoding.Statement .shutdownCycle := encoding_of_bus rfl rfl (fun _ => rfl) rfl rfl
theorem Encoding.flushCycle : Encoding.Statement .flushCycle := encoding_of_bus rfl rfl (fun _ => rfl) rfl rfl
theorem Encoding.secondFlushAckCycle : Encoding.Statement .secondFlushAckCycle := encoding_of_bus rfl rfl (fun _ => rfl) rfl rfl
theorem Encoding.haltCycle : Encoding.Statement .haltCycle := encoding_of_bus rfl rfl (fun _ => rfl) rfl rfl
theorem Encoding.stopGrantCycle : Encoding.Statement .stopGrantCycle := encoding_of_bus rfl rfl (fun _ => rfl) rfl rfl
theorem Encoding.firstFlushAckCycle : Encoding.Statement .firstFlushAckCycle := encoding_of_bus rfl rfl (fun _ => rfl) rfl rfl
theorem Encoding.writeBackCycle : Encoding.Statement .writeBackCycle := encoding_of_bus rfl rfl (fun _ => rfl) rfl rfl

end Sys2Proof.Laws
end

