-- ==== Sys2Proof/Laws/Prefetch.lean ====
section
/-! SUPPORT. What the operations of the prefetch queue, the decode stages and the queue of write-backs do. -/

namespace Sys2Proof.Machine

/-! ### The bytes read ahead keep to their sizes (00_scope.md R9, log 27) -/

@[simp] theorem FetchQueue.noting_stages (q : FetchQueue) (f : QByte → QByte) : (q.noting f).stages = q.stages.map f := rfl
@[simp] theorem FetchQueue.noting_queue (q : FetchQueue) (f : QByte → QByte) : (q.noting f).queue = q.queue.map f := rfl
@[simp] theorem FetchQueue.empty_stages : FetchQueue.empty.stages = [] := rfl
@[simp] theorem FetchQueue.empty_queue : FetchQueue.empty.queue = [] := rfl
@[simp] theorem FetchQueue.empty_bytes : FetchQueue.empty.bytes = [] := rfl

/-- The prefetch queue has its 32 bytes and the stages theirs. -/
def FetchQueue.Sized (q : FetchQueue) : Prop := q.queue.length ≤ queueSize ∧ q.stages.length ≤ 3 * 15

theorem FetchQueue.sized_empty : FetchQueue.empty.Sized := ⟨Nat.zero_le _, Nat.zero_le _⟩

theorem FetchQueue.Sized.noting {q : FetchQueue} (h : q.Sized) (f : QByte → QByte) : (q.noting f).Sized := by
  simpa [FetchQueue.Sized] using h

theorem FetchQueue.Sized.dropBefore {q : FetchQueue} (h : q.Sized) (a : Addr) : (q.dropBefore a).Sized := by
  unfold FetchQueue.Sized FetchQueue.dropBefore at *
  simp only [List.length_drop]
  omega

/-- The stages take no more bytes than asked for. -/
theorem FetchQueue.Sized.advance {q : FetchQueue} (h : q.Sized) {n : Nat} (hn : n ≤ 3 * 15) : (q.advance n).Sized := by
  unfold FetchQueue.Sized FetchQueue.advance at *
  simp only [List.length_append, List.length_take, List.length_drop]
  omega

/-- An instruction has at most fifteen bytes in the stages (30_encoding.md R227). -/
theorem stageBytes_le (d : DecodeCtx) (k : Nat) (bs : List Byte) : stageBytes d k bs ≤ k * 15 := by
  induction k generalizing bs with
  | zero => exact Nat.le_refl 0
  | succ k ih =>
    unfold stageBytes
    split
    · rename_i n _
      split
      · rename_i h
        have := ih (bs.drop n)
        simp only [Bool.and_eq_true, decide_eq_true_eq] at h
        omega
      · exact Nat.zero_le _
    · exact Nat.zero_le _

/-- No more bytes than stand there are taken into the stages. -/
theorem stageBytes_le_length (d : DecodeCtx) (k : Nat) (bs : List Byte) : stageBytes d k bs ≤ bs.length := by
  induction k generalizing bs with
  | zero => exact Nat.zero_le _
  | succ k ih =>
    unfold stageBytes
    split
    · rename_i n _
      split
      · rename_i h
        have := ih (bs.drop n)
        simp only [Bool.and_eq_true, decide_eq_true_eq, List.length_drop] at h this
        omega
      · exact Nat.zero_le _
    · exact Nat.zero_le _

/-- A line enters the prefetch queue, and nothing else of the bus unit changes; the queue keeps its size. -/
theorem appendLine_spec {a : Addr} {bs : List Byte} {b : Bus} (h : b.fetchq.Sized) :
    ∃ q : FetchQueue, appendLine a bs b = .ok () { b with fetchq := q } ∧ q.Sized :=
  ⟨_, rfl, by rw [List.length_take]; exact Nat.min_le_left .., h.2⟩

theorem enqueueLine_spec {a : Addr} {bs : List Byte} {b : Bus} (h : b.fetchq.Sized) :
    ∃ q : FetchQueue, enqueueLine a bs b = .ok () { b with fetchq := q } ∧ q.Sized := by
  refine ⟨_, rfl, ?_, h.2⟩
  unfold lastBytes
  simp only [List.length_drop]
  omega

/-! ### The queue of write-backs (log 50) -/

/-- A write-back goes behind those that wait already and before the rest. -/
theorem scheduleWriteBack_spec (q : BusReq) (xs : List BusReq) :
    ∃ pre post, xs = pre ++ post ∧ (∀ x ∈ pre, x.isWriteBack = true) ∧ (∀ x ∈ post.head?, x.isWriteBack = false)
      ∧ scheduleWriteBack q xs = pre ++ q :: post := by
  induction xs with
  | nil => exact ⟨[], [], rfl, by simp, by simp, rfl⟩
  | cons x xs ih =>
    unfold scheduleWriteBack
    by_cases hx : x.isWriteBack = true
    · obtain ⟨pre, post, h1, h2, h3, h4⟩ := ih
      refine ⟨x :: pre, post, by rw [h1]; rfl, ?_, h3, by rw [if_pos hx, h4]; rfl⟩
      intro y hy
      rcases List.mem_cons.1 hy with rfl | hy
      · exact hx
      · exact h2 y hy
    · exact ⟨[], x :: xs, rfl, by simp, by simpa using hx, by rw [if_neg hx]; rfl⟩

end Sys2Proof.Machine
end

