-- ==== Sys2Proof/Tests/Slice0.lean ====
section
/-! SUPPORT. Tests of the model: ill-formed terms refused, the opcode table's words decoded (30_encoding.md R228 to R233,
95_test_vectors.md V-ENC), a state for every statement's hypotheses, and single steps with results taken from
95_test_vectors.md. -/
open Sys2Proof Sys2Proof.Machine

set_option Elab.async false

namespace Sys2Proof.Tests

/-! ### Ill-formed terms (30_encoding.md R223 to R226) -/

/-- A 32-bit code segment without prefixes. -/
def c32 : DecodeCtx := ⟨.w32, .a32, none⟩
/-- A 16-bit code segment without prefixes. -/
def c16 : DecodeCtx := DecodeCtx.reset

/-- BP without a displacement has no encoding. -/
theorem test_wf_bp_refused : (Instr.invlpg ⟨.ss, .base16 .bp .none⟩).wf c16 = false := by decide
/-- EBP without a displacement has no encoding. -/
theorem test_wf_ebp_refused : (Instr.invlpg ⟨.ss, .base32 .ebp .none⟩).wf c32 = false := by decide
/-- ESP as a base needs a SIB byte. -/
theorem test_wf_esp_refused : (Instr.invlpg ⟨.ss, .base32 .esp (.short 4)⟩).wf c32 = false := by decide
/-- SIB with base EBP needs a displacement. -/
theorem test_wf_sib_refused : (Instr.invlpg ⟨.ss, .sib 1 .ecx .ebp .none⟩).wf c32 = false := by decide
/-- The address size must be the one in force. -/
theorem test_wf_address_size_refused : (Instr.invlpg ⟨.ds, .abs32 7⟩).wf c16 = false := by decide
/-- The segment must be the default or the override. -/
theorem test_wf_segment_refused :
    (Instr.invlpg ⟨.es, .abs32 7⟩).wf c32 = false ∧ (Instr.invlpg ⟨.ds, .abs32 7⟩).wf { c32 with seg := some .es } = false := by
  decide
/-- The operand size must be the one in force. -/
theorem test_wf_operand_size_refused : (Instr.bswap .w16 .eax).wf c32 = false ∧ (Instr.pushf .w32).wf c16 = false := by decide
/-- So must an immediate's. -/
theorem test_wf_immediate_refused : (Instr.movRImm .eax (.i32 1)).wf c16 = false ∧ (Instr.jmpRel (.i16 1)).wf c32 = false := by
  decide
/-- And a moffs operand's address size and segment. -/
theorem test_wf_moffs_refused :
    (Instr.movAlMoffs ⟨.ds, .o32 1⟩).wf c16 = false ∧ (Instr.movAlMoffs ⟨.ss, .o16 1⟩).wf c16 = false := by decide
/-- A string operand takes its segment and address size from the context. -/
theorem test_wf_string_refused : (Instr.outsb .es .a16).wf c16 = false ∧ (Instr.outsb .ds .a32).wf c16 = false := by decide
/-- A bus cycle has no instruction bytes. -/
theorem test_wf_bus_refused : (Instr.haltCycle).wf c32 = false ∧ (Instr.memReadCycle ⟨0, 0, 0⟩).wf c16 = false := by decide

/-! ### Words of the opcode table, written out from 30_encoding.md R228 and V-ENC -/

/-- The instructions the 80486 adds. -/
theorem test_decode_new :
    decode c32 [0x0F, 0xC8] = .ok (.bswap .w32 .eax) []
    ∧ decode c32 [0x0F, 0xC1, 0xD1] = .ok (.xaddRmR .w32 (.reg .ecx) .edx) []
    ∧ decode c32 [0x0F, 0xC0, 0xC3] = .ok (.xaddRm8R8 (.reg .bl) .al) []
    ∧ decode c32 [0x0F, 0xB1, 0x1D, 0x00, 0x20, 0x00, 0x00] = .ok (.cmpxchgRmR .w32 (.mem ⟨.ds, .abs32 0x2000⟩) .ebx) []
    ∧ decode c32 [0x0F, 0xB0, 0x0C, 0x8B] = .ok (.cmpxchgRm8R8 (.mem ⟨.ds, .sib 2 .ecx .ebx .none⟩) .cl) []
    ∧ decode c32 [0x0F, 0x08] = .ok .invd [] ∧ decode c32 [0x0F, 0x09] = .ok .wbinvd []
    ∧ decode c32 [0x0F, 0x01, 0x38] = .ok (.invlpg ⟨.ds, .base32 .eax .none⟩) []
    ∧ decode c32 [0x0F, 0xAA] = .ok .rsm [] ∧ decode c32 [0x0F, 0xA2] = .ok .cpuid [] := by decide

/-- MOV. -/
theorem test_decode_mov :
    decode c32 [0xA0, 0x25, 0x40, 0x00, 0x00] = .ok (.movAlMoffs ⟨.ds, .o32 0x4025⟩) []
    ∧ decode c16 [0xA1, 0x25, 0x40] = .ok (.movEaxMoffs .w16 ⟨.ds, .o16 0x4025⟩) []
    ∧ decode c16 [0xA2, 0x25, 0x40] = .ok (.movMoffsAl ⟨.ds, .o16 0x4025⟩) []
    ∧ decode c32 [0xA3, 0x25, 0x40, 0x00, 0x00] = .ok (.movMoffsEax .w32 ⟨.ds, .o32 0x4025⟩) []
    ∧ decode c32 [0x8A, 0x05, 0x25, 0x40, 0x00, 0x00] = .ok (.movR8Rm8 .al (.mem ⟨.ds, .abs32 0x4025⟩)) []
    ∧ decode c16 [0x8B, 0x46, 0x10] = .ok (.movRRm .w16 .eax (.mem ⟨.ss, .base16 .bp (.short 0x10)⟩)) []
    ∧ decode c16 [0x88, 0xE0] = .ok (.movRm8R8 (.reg .al) .ah) []
    ∧ decode c32 [0x89, 0xC8] = .ok (.movRmR .w32 (.reg .eax) .ecx) []
    ∧ decode c16 [0xB1, 0x7F] = .ok (.movR8Imm8 .cl 0x7F) []
    ∧ decode c32 [0xBA, 0x78, 0x56, 0x34, 0x12] = .ok (.movRImm .edx (.i32 0x12345678)) [] := by decide

/-- IN, OUT and OUTS. -/
theorem test_decode_io :
    decode c32 [0xE4, 0x61] = .ok (.inAlImm8 0x61) [] ∧ decode c16 [0xE5, 0x61] = .ok (.inEaxImm8 .w16 0x61) []
    ∧ decode c32 [0xEC] = .ok .inAlDx [] ∧ decode c32 [0xED] = .ok (.inEaxDx .w32) []
    ∧ decode c32 [0xE6, 0x20] = .ok (.outImm8Al 0x20) [] ∧ decode c16 [0xE7, 0x20] = .ok (.outImm8Eax .w16 0x20) []
    ∧ decode c32 [0xEE] = .ok .outDxAl [] ∧ decode c32 [0xEF] = .ok (.outDxEax .w32) []
    ∧ decode c32 [0x6E] = .ok (.outsb .ds .a32) [] ∧ decode c16 [0x6F] = .ok (.outswd .w16 .ds .a16) []
    ∧ decode c32 [0xF3, 0x6E] = .ok .repPrefix [0x6E] := by decide

/-- XCHG, prefixes and control. -/
theorem test_decode_control :
    decode c32 [0x86, 0xC1] = .ok (.xchgRm8R8 (.reg .cl) .al) []
    ∧ decode c32 [0x87, 0x0B] = .ok (.xchgRmR .w32 (.mem ⟨.ds, .base32 .ebx .none⟩) .ecx) []
    ∧ decode c32 [0x90] = .ok (.xchgEaxR .w32 .eax) [] ∧ decode c32 [0xF0] = .ok .lockPrefix [] ∧ decode c32 [0xF4] = .ok .hlt []
    ∧ decode c32 [0xD8, 0xC1] = .ok (.esc .w32 0 0 (.reg 1)) [] ∧ decode c32 [0x9B] = .ok .wait []
    ∧ decode c32 [0xEB, 0x00] = .ok (.jmpRel8 .w32 0) []
    ∧ decode c16 [0xE9, 0xFD, 0xFF] = .ok (.jmpRel (.i16 0xFFFD)) []
    ∧ decode c32 [0xCD, 0x21] = .ok (.intN 0x21) []
    ∧ decode c32 [0x9C] = .ok (.pushf .w32) [] ∧ decode c16 [0x9D] = .ok (.popf .w16) []
    ∧ decode c32 [0x66] = .ok .opSizePrefix [] ∧ decode c32 [0x67] = .ok .addrSizePrefix [] := by decide

/-- Moves to and from special registers: the general register is the r/m field. -/
theorem test_decode_special :
    decode c32 [0x0F, 0x20, 0xC0] = .ok (.movRCr .eax 0) [] ∧ decode c32 [0x0F, 0x22, 0xD9] = .ok (.movCrR 3 .ecx) []
    ∧ decode c32 [0x0F, 0x21, 0xFA] = .ok (.movRDr .edx 7) [] ∧ decode c32 [0x0F, 0x23, 0xC3] = .ok (.movDrR 0 .ebx) []
    ∧ decode c32 [0x0F, 0x24, 0xF6] = .ok (.movRTr .esi 6) [] ∧ decode c32 [0x0F, 0x26, 0xDF] = .ok (.movTrR 3 .edi) [] := by
  decide

/-- What is no instruction (30_encoding.md R235): INVLPG with a register, and an unassigned two-byte opcode. -/
theorem test_decode_illegal : decode c32 [0x0F, 0x01, 0xF8] = .illegal ∧ decode c32 [0x0F, 0xFF] = .illegal := by decide

/-- 30_encoding.md R228: 0F 01 other than INVLPG is the 80386's, with its ModR/M byte (LGDT). -/
theorem test_decode_lgdt : decode c32 [0x0F, 0x01, 0x10] = .base386 true 0x01 (some 0x10) := by decide

/-- Bus-cycle rows: the definition lines of R230, and for the special cycles the enables and the qualifier of R231. -/
theorem test_decode_bus :
    decodeTableWord 8 0 = some (.intAckCycle ⟨0, 0, 0⟩) ∧ decodeTableWord 8 1 = some (.specialCycle ⟨0, 0, 0⟩)
    ∧ decodeTableWord 8 2 = some (.ioReadCycle ⟨0, 0, 0⟩) ∧ decodeTableWord 8 3 = some (.ioWriteCycle ⟨0, 0, 0⟩)
    ∧ decodeTableWord 8 4 = some (.codeReadCycle ⟨0, 0, 0⟩) ∧ decodeTableWord 8 5 = some .reservedCycle
    ∧ decodeTableWord 8 6 = some (.memReadCycle ⟨0, 0, 0⟩) ∧ decodeTableWord 8 7 = some (.memWriteCycle ⟨0, 0, 0⟩)
    ∧ decodeTableWord 8 0x3C = some .shutdownCycle ∧ decodeTableWord 8 0x3A = some .flushCycle
    ∧ decodeTableWord 8 0x3B = some .secondFlushAckCycle ∧ decodeTableWord 8 0x36 = some .haltCycle
    ∧ decodeTableWord 8 0x37 = some .stopGrantCycle ∧ decodeTableWord 8 0x2F = some .firstFlushAckCycle
    ∧ decodeTableWord 8 0x2E = some .writeBackCycle := by decide


/-! ### States and operands that meet the hypotheses of the statements -/

/-- After RESET: real mode, cache disabled, the bus free. -/
abbrev r0 : State := State.reset
/-- The same under LOCK, and under REP. -/
def r0Lock : State := { r0 with dec := { r0.dec with lock := true } }
def r0Rep (ecx : DWord) : State := { r0 with dec := { r0.dec with rep := true }, regs := { r0.regs with ecx := ecx, esi := 0xFFFF#32 } }
/-- Another value of CR0. -/
def withCr0 (v : DWord) (s : State) : State := { s with cr0 := v }
/-- A line in the cache at an address, in way 0 of its set. -/
def withLine (a : Addr) (st : Mesi) (s : State) : State :=
  { s with bus := { s.bus with cache := s.bus.cache.install s.part.bigCache a 0 st (Vector.replicate 16 0xA5#8) } }
/-- A 486DX2 with write-back mode. -/
def dx2wb : State := { r0 with part := { r0.part with variant := .dx2wb }, latch := ⟨true, 4, false⟩ }
/-- The same part with write-through mode. -/
def dx2wt : State := { dx2wb with latch := ⟨false, 4, false⟩ }
/-- A flat protected-mode segment of a level. -/
def flatSeg (ar : Word) : Seg := ⟨0x10#16, 0, 0xFFFFFFFF#32, ar⟩
/-- Protected mode at level 3 with flat segments, AM and AC set. -/
def user : State :=
  { r0 with
    cr0 := 0x60040011#32, cpl := 3, eflags := 0x00040002#32
    segs := { es := flatSeg 0xC0F3#16, cs := flatSeg 0xC0FB#16, ss := flatSeg 0xC0F3#16, ds := flatSeg 0xC0F3#16
              fs := flatSeg 0xC0F3#16, gs := flatSeg 0xC0F3#16 } }
/-- Virtual-8086 mode with IOPL 3. -/
def virtual : State := { user with cr0 := 0x60000011#32, eflags := 0x00023002#32, segs := r0.segs }

/-- A bus in the middle of a cycle. -/
def busy : State := { r0 with bus := { r0.bus with phase := .t2, cur := [Xfer.new .memRead .plain [⟨0, 0xF, 0, 0⟩]] } }

theorem busReady_of {s : State} (h : (s.busFree && s.bus.script.isEmpty && s.bus.memWf) = true) : s.BusReady := by
  simp only [Bool.and_eq_true, List.isEmpty_iff] at h
  exact ⟨h.1.1, h.1.2, h.2⟩

theorem flat_of {s : State} (h : (!s.pg && (s.busFree && s.bus.script.isEmpty && s.bus.memWf)) = true) : s.Flat := by
  rw [Bool.and_eq_true, Bool.not_eq_true'] at h
  exact ⟨h.1, busReady_of h.2⟩

def admitsB (s : State) (seg : SegReg) (off : DWord) (n : Nat) (write : Bool) : Bool :=
  (!s.prot || (s.segs.get seg).rightsAllow write) && (s.segs.get seg).inLimit s.prot off n
    && (!(s.am && s.ac && s.level == 3) || ((s.segs.get seg).base + off).toNat % n == 0)
    && s.dataHits ((s.segs.get seg).base + off) n write == 0

theorem admits_of {s : State} {seg : SegReg} {off : DWord} {n : Nat} {write : Bool} (h : admitsB s seg off n write = true) :
    s.Admits seg off n write := by
  simp only [admitsB, Bool.and_eq_true, Bool.or_eq_true, Bool.not_eq_true', beq_iff_eq] at h
  refine ⟨⟨fun hp => ?_, h.1.1.2⟩, fun h1 h2 h3 _ => ?_, h.2⟩
  · rcases h.1.1.1 with h' | h'
    · rw [hp] at h'; cases h'
    · exact h'
  · rcases h.1.2 with h' | h'
    · simp [h1, h2, h3] at h'
    · exact h'

def abs (off : BitVec 16) : MemOp := ⟨.ds, .abs16 off⟩
def absOff (off : BitVec 16) : DWord := eaOffset r0.regs (.abs16 off)

theorem witness_DecodeEncode :
    (Instr.bswap .w16 .edi).wf c16 = true ∧ (Instr.invlpg ⟨.ss, .base16 .bp (.short 0x80)⟩).wf c16 = true
    ∧ (Instr.movRmR .w32 (.mem ⟨.ds, .sib 3 .edi .eax (.full 0xFFFFFFFF#32)⟩) .esp).wf c32 = true
    ∧ (Instr.esc .w32 7 7 (.reg 7)).wf c32 = true ∧ (Instr.outswd .w16 .ds .a16).wf c16 = true
    ∧ (Instr.movEaxMoffs .w16 ⟨.gs, .o16 0xFFFF⟩).wf { c16 with seg := some .gs } = true := by decide

theorem witness_DecodeExact :
    decode c16 [0x0F, 0xC9, 0x90] = .ok (.bswap .w16 .ecx) [0x90]
    ∧ (Instr.bswap .w16 .ecx).wf c16 = true ∧ 1 < (encode (.bswap .w16 .ecx)).length := by decide

theorem witness_Bswap32_Bswap16 : r0.noLock := rfl
theorem witness_XaddRegister_CmpxchgRegister : r0.noLock := rfl
theorem witness_RegisterMoves_MovImmediate : r0.noLock := rfl

/-- Byte, word and doubleword at the end of the segment, without and with LOCK, from memory and from the cache. -/
theorem witness_XaddMemory_CmpxchgMemory :
    r0.Flat ∧ r0Lock.Flat
    ∧ (r0.Admits .ds (absOff 0xFFFF) 1 true ∧ r0.RmwReady .ds (absOff 0xFFFF) 1 false)
    ∧ (r0.Admits .ds (absOff 0xFFFE) 2 true ∧ r0.RmwReady .ds (absOff 0xFFFE) 2 false)
    ∧ (r0.Admits .ds (absOff 0xFFFC) 4 true ∧ r0.RmwReady .ds (absOff 0xFFFC) 4 false)
    ∧ (r0Lock.Admits .ds (absOff 0xFFFF) 1 true ∧ r0Lock.RmwReady .ds (absOff 0xFFFF) 1 true)
    ∧ (r0Lock.Admits .ds (absOff 0xFFFC) 4 true ∧ r0Lock.RmwReady .ds (absOff 0xFFFC) 4 true)
    ∧ (withCr0 0x10#32 (withLine 0xFFF0 .shared r0)).NoFill .ds (absOff 0xFFFC) 4 := by
  refine ⟨flat_of (by decide +kernel), flat_of (by decide +kernel), ⟨admits_of (by decide +kernel), .inl (by decide +kernel)⟩,
    ⟨admits_of (by decide +kernel), .inl (by decide +kernel)⟩, ⟨admits_of (by decide +kernel), .inl (by decide +kernel)⟩,
    ⟨admits_of (by decide +kernel), ?_⟩, ⟨admits_of (by decide +kernel), ?_⟩, .inr (by decide +kernel)⟩
  · simp only [State.RmwReady, if_true, State.Clean]; decide +kernel
  · simp only [State.RmwReady, if_true, State.Clean]; decide +kernel

theorem witness_ArithFlagsMeaning : (8 = 8 ∨ 8 = 16 ∨ 8 = 32) ∧ (16 = 8 ∨ 16 = 16 ∨ 16 = 32) ∧ (32 = 8 ∨ 32 = 16 ∨ 32 = 32) := by decide

theorem witness_RegisterPlaces :
    0 < 32 ∧ 31 < 32 ∧ Reg8.ah ≠ Reg8.al ∧ Reg.ecx ≠ Reg.eax ∧ Reg.esp ∈ [Reg.esp, .ebp, .esi, .edi]
    ∧ Reg.edi ∈ [Reg.esp, .ebp, .esi, .edi] := by decide

theorem reset_busReady : r0.BusReady := busReady_of (by decide +kernel)

theorem witness_CacheFlushed : r0.noLock ∧ r0.level = 0 ∧ r0.BusReady ∧ r0.wbMode = false :=
  ⟨rfl, by decide +kernel, reset_busReady, by decide +kernel⟩

/-- One modified line. -/
def dirty : State := withLine 0x1230#32 .modified dx2wb

theorem dirty_set (s : BitVec 8) (h : s ≠ 0x23#8) : dirty.bus.cache.entry s = emptyCache.entry s := by
  have hn : (setOf false 0x1230#32).toNat ≠ s.toNat := fun e => h (BitVec.eq_of_toNat_eq e.symm)
  exact Vector.getElem_set_ne (by decide) s.isLt hn

theorem dirty_slots : dirty.bus.cache.modifiedSlots = [(0x23#8, 0#2)] := by
  have key : ∀ s : BitVec 8, (dirty.bus.cache.entry s).modifiedWays.map (fun w => (s, w)) = if s = 0x23#8 then [(0x23#8, 0#2)] else [] := by
    intro s
    by_cases h : s = 0x23#8
    · subst h; decide +kernel
    · rw [dirty_set s h, if_neg h]
      simp [emptyCache, Cache.entry, CacheSet.modifiedWays, CacheSet.way, emptyLine]
  exact (congrArg (fun f => (List.range 256).flatMap f) (funext fun k => key (BitVec.ofNat 8 k))).trans (by decide +kernel)

theorem dirty_modified : (dirty.bus.cache.modified dirty.part.bigCache).map Prod.fst = [0x1230#32] := by
  unfold Cache.modified
  rw [dirty_slots]
  decide +kernel

theorem witness_WbinvdWritesBack :
    dirty.noLock ∧ dirty.level = 0 ∧ dirty.BusReady ∧ dirty.wbMode = true
    ∧ ((dirty.bus.cache.modified dirty.part.bigCache).map Prod.fst).Nodup
    ∧ (dirty.bus.cache.modified dirty.part.bigCache).map Prod.fst = [0x1230#32] := by
  rw [dirty_modified]
  exact ⟨rfl, by decide +kernel, busReady_of (by decide +kernel), by decide +kernel, by decide, rfl⟩

theorem witness_InvlpgInvalidates : r0.noLock ∧ r0.level = 0 := ⟨rfl, by decide +kernel⟩

theorem witness_CpuidIdentifies :
    r0.noLock ∧ r0.part.hasExt = true ∧ r0.BusReady ∧ (0xFFFFFFFF#32 : DWord) ≠ 0
    ∧ { defaultPart with variant := .sx2 }.hasFPU = false :=
  ⟨rfl, rfl, reset_busReady, by decide, rfl⟩

/-- A load of a byte, a word and a doubleword at the end of the segment. -/
theorem witness_MovLoad :
    r0.noLock ∧ r0.Flat
    ∧ (r0.Admits .ds (absOff 0xFFFF) 1 false ∧ r0.NoFill .ds (absOff 0xFFFF) 1)
    ∧ (r0.Admits .ds (absOff 0xFFFE) (OpSize.bytes .w16) false ∧ r0.NoFill .ds (absOff 0xFFFE) (OpSize.bytes .w16))
    ∧ (r0.Admits .ds (absOff 0xFFFC) (OpSize.bytes .w32) false ∧ r0.NoFill .ds (absOff 0xFFFC) (OpSize.bytes .w32))
    ∧ (r0.Admits .ds (moffsOffset (.o16 0xFFFF)) 1 false ∧ r0.NoFill .ds (moffsOffset (.o16 0xFFFF)) 1)
    ∧ (r0.Admits .ds (moffsOffset (.o16 0xFFFE)) (OpSize.bytes .w16) false
      ∧ r0.NoFill .ds (moffsOffset (.o16 0xFFFE)) (OpSize.bytes .w16)) :=
  ⟨rfl, flat_of (by decide +kernel), ⟨admits_of (by decide +kernel), .inl rfl⟩, ⟨admits_of (by decide +kernel), .inl rfl⟩,
    ⟨admits_of (by decide +kernel), .inl rfl⟩, ⟨admits_of (by decide +kernel), .inl rfl⟩, admits_of (by decide +kernel), .inl rfl⟩

/-- A store of a byte, a word and a doubleword at the end of the segment, and at level 3 of an aligned doubleword. -/
theorem witness_MovStore :
    r0.noLock ∧ r0.Flat ∧ user.noLock ∧ user.Flat ∧ r0.Admits .ds (absOff 0xFFFF) 1 true
    ∧ r0.Admits .ds (absOff 0xFFFE) (OpSize.bytes .w16) true ∧ r0.Admits .ds (absOff 0xFFFC) (OpSize.bytes .w32) true
    ∧ user.Admits .ds 0xFFFFFFFC#32 (OpSize.bytes .w32) true
    ∧ r0.Admits .ds (moffsOffset (.o16 0xFFFF)) 1 true ∧ r0.Admits .ds (moffsOffset (.o16 0xFFFE)) (OpSize.bytes .w16) true :=
  ⟨rfl, flat_of (by decide +kernel), rfl, flat_of (by decide +kernel), admits_of (by decide +kernel), admits_of (by decide +kernel),
    admits_of (by decide +kernel), admits_of (by decide +kernel), admits_of (by decide +kernel), admits_of (by decide +kernel)⟩

theorem witness_XchgMemory :
    r0.Flat ∧ (r0.Admits .ds (absOff 0xFFFF) 1 true ∧ r0.Clean .ds (absOff 0xFFFF) 1)
    ∧ (r0.Admits .ds (absOff 0xFFFE) (OpSize.bytes .w16) true ∧ r0.Clean .ds (absOff 0xFFFE) (OpSize.bytes .w16))
    ∧ (r0.Admits .ds (absOff 0xFFFC) (OpSize.bytes .w32) true ∧ r0.Clean .ds (absOff 0xFFFC) (OpSize.bytes .w32))
    ∧ r0.bus.wb = [] ∧ r0.platform.bus8 = [] ∧ r0.platform.bus16 = [] ∧ (r0.dataAddr .ds (absOff 0xFFFC) 0).extractLsb' 0 2 = 0 := by
  refine ⟨flat_of (by decide +kernel), ⟨admits_of (by decide +kernel), ?_⟩, ⟨admits_of (by decide +kernel), ?_⟩,
    ⟨admits_of (by decide +kernel), ?_⟩, rfl, rfl, rfl, by decide +kernel⟩
  · simp only [State.Clean]; decide +kernel
  · simp only [State.Clean]; decide +kernel
  · simp only [State.Clean]; decide +kernel

/-- Device data queued; DX at a port in the last lane, or at a word in the upper half of its doubleword. -/
def ioState (port : Word) : State :=
  { r0 with regs := { r0.regs with edx := port.setWidth 32 }, bus := { r0.bus with ioIn := [0x44332211#32] } }

/-- IOPL equal to the level. -/
def ioUser : State := { user with eflags := 0x00003002#32 }

theorem witness_InReads :
    (ioState 3).noLock ∧ (ioState 3).ioPermitted ∧ (ioState 3).BusReady
    ∧ ((3#16 : Word) = (3#8).setWidth 16) ∧ (3#16 : Word) = (ioState 3).regs.edx.setWidth 16 ∧ (ioState 3).bus.ioIn = [0x44332211#32]
    ∧ (ioState 3).platform.ioBus8 = [] ∧ (ioState 3).platform.ioBus16 = []
    ∧ portLane 3#16 + 1 ≤ 4 ∧ portLane 2#16 + OpSize.bytes .w16 ≤ 4 ∧ portLane 4#16 + OpSize.bytes .w32 ≤ 4
    ∧ (0xFFFF#16 : Word) = (ioState 0xFFFF).regs.edx.setWidth 16
    ∧ ioUser.ioPermitted ∧ ioUser.pe = true ∧ ioUser.level = 3 :=
  ⟨rfl, .inr (.inl rfl), busReady_of (by decide +kernel), by decide +kernel, by decide +kernel, rfl, rfl, rfl, by decide +kernel,
    by decide +kernel, by decide +kernel, by decide +kernel, .inr (.inr (by decide +kernel)), by decide +kernel, by decide +kernel⟩

theorem witness_OutWrites :
    (ioState 3).noLock ∧ (ioState 3).ioPermitted ∧ (ioState 3).BusReady
    ∧ ((3#16 : Word) = (3#8).setWidth 16) ∧ (3#16 : Word) = (ioState 3).regs.edx.setWidth 16
    ∧ (ioState 3).platform.ioBus8 = [] ∧ (ioState 3).platform.ioBus16 = []
    ∧ portLane 2#16 + OpSize.bytes .w16 ≤ 4 ∧ portLane 0xFFFC#16 + OpSize.bytes .w32 ≤ 4 :=
  ⟨rfl, .inr (.inl rfl), busReady_of (by decide +kernel), by decide +kernel, by decide +kernel, rfl, rfl, by decide +kernel,
    by decide +kernel⟩

/-- OUTSB alone, and repeated with a count of one, of two and of zero; OUTSW with 16-bit and OUTSD with 32-bit addresses; a doubleword
port of a 32-bit device. -/
theorem witness_OutsWrites :
    OutsForm (.outsb .ds .a16) 1 .ds .a16 ∧ OutsForm (.outswd .w16 .ds .a16) 2 .ds .a16
    ∧ OutsForm (.outswd .w32 .ds .a32) 4 .ds .a32
    ∧ r0.noLock ∧ r0.ioPermitted ∧ r0.Flat ∧ r0.Admits .ds (atSize .a16 r0.regs.esi) 1 false
    ∧ r0.NoFill .ds (atSize .a16 r0.regs.esi) 1 ∧ r0.dec.rep = false ∧ r0.dec.repne = false
    ∧ r0.Admits .ds (atSize .a32 r0.regs.esi) 4 false
    ∧ (r0Rep 1).noLock ∧ (r0Rep 1).ioPermitted ∧ (r0Rep 1).Flat
    ∧ (r0Rep 1).Admits .ds (atSize .a16 (r0Rep 1).regs.esi) 1 false
    ∧ (r0Rep 1).NoFill .ds (atSize .a16 (r0Rep 1).regs.esi) 1 ∧ (r0Rep 1).dec.rep = true ∧ atSize .a16 (r0Rep 1).regs.ecx = 1
    ∧ atSize .a16 (r0Rep 0x10002).regs.ecx = 2 ∧ atSize .a16 (r0Rep 0x10000).regs.ecx = 0
    ∧ r0.platform.ioBus8 = [] ∧ r0.platform.ioBus16 = [] ∧ portLane (r0.regs.edx.setWidth 16) + 4 ≤ 4 :=
  ⟨.inl ⟨rfl, rfl⟩, .inr ⟨.w16, rfl, rfl⟩, .inr ⟨.w32, rfl, rfl⟩, rfl, .inr (.inl rfl), flat_of (by decide +kernel),
    admits_of (by decide +kernel), .inl rfl, rfl, rfl, admits_of (by decide +kernel), rfl, .inr (.inl rfl), flat_of (by decide +kernel),
    admits_of (by decide +kernel), .inl rfl, rfl, by decide +kernel, by decide +kernel, by decide +kernel, rfl, rfl, by decide +kernel⟩

theorem witness_HltHalts : r0.noLock ∧ r0.level = 0 ∧ r0.BusReady := ⟨rfl, by decide +kernel, reset_busReady⟩

/-- After two bytes of an instruction at FFEEh. -/
def jumping : State := { r0 with dec := { r0.dec with start := 0xFFEE#32, count := 2 } }
/-- After six bytes of one at 20000h, past what a 16-bit code segment's EIP holds (60_exceptions.md R665). -/
def farJumping : State :=
  { r0 with segs := { r0.segs with cs := { r0.segs.cs with limit := 0xFFFFFFFF#32 } }, dec := { r0.dec with start := 0x20000#32, count := 6 } }

/-- Targets at the last byte of the segment, forward and backward, and one past 64KB. -/
theorem witness_JmpRelative :
    jumping.noLock ∧ farJumping.noLock
    ∧ jumping.segs.cs.inLimit false ((jumping.nextPc + (0x0F#8).signExtend 32) &&& 0xFFFF#32) 1 = true
    ∧ jumping.segs.cs.inLimit false (jumping.nextPc + (0x0F#8).signExtend 32) 1 = true
    ∧ jumping.segs.cs.inLimit false (jumping.nextPc + (0x80#8).signExtend 32) 1 = true
    ∧ jumping.segs.cs.inLimit false ((jumping.nextPc + (0x000F#16).signExtend 32) &&& 0xFFFF#32) 1 = true
    ∧ jumping.segs.cs.inLimit false ((jumping.nextPc + (0x7FFF#16).signExtend 32) &&& 0xFFFF#32) 1 = true
    ∧ jumping.segs.cs.inLimit false (jumping.nextPc + 0xFFFF0010#32) 1 = true
    ∧ jumping.segs.cs.inLimit false (jumping.nextPc + (0x10#8).signExtend 32) 1 = false
    ∧ { jumping.segs.cs with limit := 0xFFFE#32 }.inLimit false ((jumping.nextPc + (0x0F#8).signExtend 32) &&& 0xFFFF#32) 1 = false
    ∧ farJumping.code32 = false ∧ farJumping.segs.cs.inLimit false (farJumping.nextPc + 0x100#32) 1 = true :=
  ⟨rfl, rfl, by decide +kernel⟩

/-- PUSHF and POPF in real mode with SP = 0, where a push wraps to the end of the segment, and in virtual-8086 mode. -/
theorem witness_FlagsOnStack :
    r0.noLock ∧ r0.flagsMove ∧ r0.Flat ∧ r0.eflags = normFlags r0.part r0.eflags ∧ r0.stack32 = false
    ∧ r0.Admits .ss ((r0.regs.esp.setWidth 16 - BitVec.ofNat 16 2).setWidth 32) (OpSize.bytes .w16) true
    ∧ r0.Admits .ss ((r0.regs.esp.setWidth 16 - BitVec.ofNat 16 4).setWidth 32) (OpSize.bytes .w32) true
    ∧ r0.Admits .ss ((r0.regs.esp.setWidth 16).setWidth 32) (OpSize.bytes .w32) false
    ∧ r0.NoFill .ss ((r0.regs.esp.setWidth 16).setWidth 32) (OpSize.bytes .w32)
    ∧ virtual.noLock ∧ virtual.v86 = true ∧ virtual.flagsMove ∧ virtual.Flat
    ∧ virtual.eflags = normFlags virtual.part virtual.eflags
    ∧ virtual.Admits .ss ((virtual.regs.esp.setWidth 16 - BitVec.ofNat 16 2).setWidth 32) (OpSize.bytes .w16) true
    ∧ user.stack32 = true ∧ user.flagsMove ∧ user.Flat ∧ user.Admits .ss (user.regs.esp - 4) (OpSize.bytes .w32) true :=
  ⟨rfl, fun h => absurd h (by decide +kernel), flat_of (by decide +kernel), by decide +kernel, by decide +kernel,
    admits_of (by decide +kernel), admits_of (by decide +kernel), admits_of (by decide +kernel), .inl rfl, rfl, by decide +kernel,
    fun _ => by decide +kernel, flat_of (by decide +kernel), by decide +kernel, admits_of (by decide +kernel), by decide +kernel,
    fun h => absurd h (by decide +kernel), flat_of (by decide +kernel), admits_of (by decide +kernel)⟩

/-- A pending floating-point error, ignored or not. -/
def fpError (ne ignne : Bool) : State :=
  { r0 with cr0 := if ne then 0x60000030#32 else 0x60000010#32, fpErrorPending := true, pins := { r0.pins with ignne := ignne } }

theorem witness_EscControl :
    r0.noLock ∧ r0.FpuReady true ∧ (fpError true false).FpuReady true ∧ r0.Flat ∧ r0.Admits .ds (absOff 0xFFFE) 2 true
    ∧ r0.FpuReady false ∧ r0.Admits .ds (absOff 0xFFFE) 2 false ∧ r0.NoFill .ds (absOff 0xFFFE) 2
    ∧ (fpError false true).FpuReady false :=
  ⟨rfl, ⟨rfl, by decide +kernel, by decide +kernel, .inl rfl⟩, ⟨rfl, by decide +kernel, by decide +kernel, .inl rfl⟩,
    flat_of (by decide +kernel), admits_of (by decide +kernel), ⟨rfl, by decide +kernel, by decide +kernel, .inr (.inl rfl)⟩,
    admits_of (by decide +kernel), .inl rfl, ⟨rfl, by decide +kernel, by decide +kernel, .inr (.inr (by decide +kernel))⟩⟩

def admitsPiecesB (s : State) (seg : SegReg) (off : DWord) (ns : List Nat) (write : Bool) : Bool :=
  (!s.prot || (s.segs.get seg).rightsAllow write) && (s.segs.get seg).inLimit s.prot off ns.sum
    && (!(s.am && s.ac && s.level == 3)
      || (List.range ns.length).all fun k =>
        ((s.segs.get seg).base + off + BitVec.ofNat 32 (ns.take k).sum).toNat % ns.getD k 0 == 0)
    && s.dataHits ((s.segs.get seg).base + off) ns.sum write == 0

theorem admitsPieces_of {s : State} {seg : SegReg} {off : DWord} {ns : List Nat} {write : Bool}
    (h : admitsPiecesB s seg off ns write = true) : s.AdmitsPieces seg off ns write := by
  simp only [admitsPiecesB, Bool.and_eq_true, Bool.or_eq_true, Bool.not_eq_true', beq_iff_eq, List.all_eq_true, List.mem_range] at h
  refine ⟨⟨fun hp => ?_, h.1.1.2⟩, fun k hk h1 h2 h3 _ => ?_, h.2⟩
  · rcases h.1.1.1 with h' | h'
    · rw [hp] at h'; cases h'
    · exact h'
  · rcases h.1.2 with h' | h'
    · simp [h1, h2, h3] at h'
    · exact h' k hk

/-- FADD ST, ST(1); FADD of a single, D9 /1, FST of a single, FSTP of ten bytes at level 3, FNSAVE, FLDENV. -/
theorem witness_EscExecutes :
    r0.noLock ∧ r0.Flat ∧ r0.FpuReady false ∧ fpuOp 0 0 (.reg 1) = .other
    ∧ (fpuOp 0 0 (.mem (abs 0xFFFC)) = .other ∧ fpuOperand .w16 0 0 = .read [4] ∧ r0.AdmitsPieces .ds (absOff 0xFFFC) [4] false
      ∧ r0.NoFill .ds (absOff 0xFFFC) 4)
    ∧ (fpuOp 1 1 (.mem (abs 0)) = .other ∧ fpuOperand .w16 1 1 = .none)
    ∧ (fpuOp 1 2 (.mem (abs 0xFFFC)) = .other ∧ fpuOperand .w16 1 2 = .write [4] ∧ r0.AdmitsPieces .ds (absOff 0xFFFC) [4] true)
    ∧ (fpuOperand .w16 3 7 = .write [8, 2] ∧ user.AdmitsPieces .ds 0xFFFFFFF0#32 [8, 2] true)
    ∧ (fpuOp 5 6 (.mem (abs 0xFF94)) = .storeState ∧ fpuOperand .w32 5 6 = .write (savePieces .w32) ∧ (savePieces .w32).sum = 108
      ∧ r0.AdmitsPieces .ds (absOff 0xFF94) (savePieces .w32) true
      ∧ (fpError true false).FpuReady (fpuOp 5 6 (.mem (abs 0xFF94))).noWait)
    ∧ (fpuOp 1 4 (.mem (abs 0xFFF2)) = .loadState ∧ fpuOperand .w16 1 4 = .read (envPieces .w16) ∧ (envPieces .w16).sum = 14
      ∧ r0.AdmitsPieces .ds (absOff 0xFFF2) (envPieces .w16) false ∧ r0.NoFill .ds (absOff 0xFFF2) 14) := by
  refine ⟨rfl, flat_of (by decide +kernel), ⟨rfl, by decide +kernel, by decide +kernel, .inr (.inl rfl)⟩, by decide +kernel,
    ⟨by decide +kernel, by decide +kernel, admitsPieces_of (by decide +kernel), .inl rfl⟩, by decide +kernel,
    ⟨by decide +kernel, by decide +kernel, admitsPieces_of (by decide +kernel)⟩,
    ⟨by decide +kernel, admitsPieces_of (by decide +kernel)⟩,
    ⟨by decide +kernel, by decide +kernel, by decide +kernel, admitsPieces_of (by decide +kernel), rfl, by decide +kernel,
      by decide +kernel, .inl (by decide +kernel)⟩,
    by decide +kernel, by decide +kernel, by decide +kernel, admitsPieces_of (by decide +kernel), .inl rfl⟩

/-- No unit; EM; TS; MP and TS; a pending error with NE, frozen, ignored, and for WAIT with EM or with TS and not MP; nothing to
report. -/
theorem witness_FpuGate :
    { r0 with part := { r0.part with variant := .sx } }.part.hasFPU = false
    ∧ (withCr0 0x60000014#32 r0).em = true ∧ (withCr0 0x60000018#32 r0).ts = true
    ∧ ((withCr0 0x6000001A#32 r0).mp = true ∧ (withCr0 0x6000001A#32 r0).ts = true ∧ (withCr0 0x6000001A#32 r0).noLock)
    ∧ ((fpError true false).noLock ∧ (fpError true false).part.hasFPU = true ∧ (fpError true false).fpErrorPending = true
      ∧ (fpError true false).em = false ∧ (fpError true false).ts = false ∧ (fpError true false).ne = true)
    ∧ ((fpError false false).ne = false ∧ (fpError false false).pins.ignne = false ∧ (fpuOp 0 0 (.reg 1)).noWait = false)
    ∧ ((fpError false true).ne = false ∧ (fpError false true).pins.ignne = true ∧ (fpError false true).ts = false)
    ∧ (let s := withCr0 0x60000034#32 (fpError true false)
      s.noLock ∧ s.part.hasFPU = true ∧ s.fpErrorPending = true ∧ s.em = true ∧ s.ts = false ∧ s.ne = true)
    ∧ (let s := withCr0 0x60000018#32 (fpError false false)
      s.noLock ∧ s.fpErrorPending = true ∧ s.mp = false ∧ s.ts = true ∧ s.ne = false ∧ s.pins.ignne = false)
    ∧ (r0.noLock ∧ r0.mp = false ∧ r0.fpErrorPending = false) := by
  refine ⟨rfl, by decide +kernel, by decide +kernel, ⟨by decide +kernel, by decide +kernel, rfl⟩, ⟨rfl, by decide +kernel⟩,
    by decide +kernel, by decide +kernel, ⟨rfl, by decide +kernel⟩, ⟨rfl, by decide +kernel⟩, rfl, by decide +kernel⟩

/-- SP = 6 and the interrupt table of real mode: three words and vector FFh just fit. -/
def ready : State := { r0 with regs := { r0.regs with esp := 6 }, idtr := ⟨0, 0x3FF#16⟩ }

theorem room_of {s : State} (h : ∀ k : Fin 3, s.segs.ss.inLimit false (s.below16 (k.val + 1)) 2 = true) :
    ∀ k, 1 ≤ k → k ≤ 3 → s.segs.ss.inLimit false (s.below16 k) 2 = true := fun k h1 h3 => by
  have := h ⟨k - 1, by omega⟩
  rwa [show k - 1 + 1 = k by omega] at this

theorem unwatched_of {s : State} (h : ∀ k : Fin 3, s.dataHits (s.segs.ss.base + s.below16 (k.val + 1)) 2 true = 0) :
    ∀ k, 1 ≤ k → k ≤ 3 → s.dataHits (s.segs.ss.base + s.below16 k) 2 true = 0 := fun k h1 h3 => by
  have := h ⟨k - 1, by omega⟩
  rwa [show k - 1 + 1 = k by omega] at this

/-- What delivery in real mode needs, from facts that evaluate. -/
theorem realReady_of {s : State} {v : Byte} (h : s.pe = false ∧ s.pg = false ∧ s.cd = true ∧ 4 * v.toNat + 3 ≤ s.idtr.limit.toNat)
    (hb : s.busFree = true ∧ s.bus.script = [] ∧ s.bus.memWf = true)
    (hk : ∀ k : Fin 3, s.segs.ss.inLimit false (s.below16 (k.val + 1)) 2 = true
      ∧ s.dataHits (s.segs.ss.base + s.below16 (k.val + 1)) 2 true = 0) : s.RealReady v :=
  ⟨h.1, ⟨h.2.1, ⟨hb.1, hb.2.1, hb.2.2⟩⟩, h.2.2.1, h.2.2.2, room_of fun k => (hk k).1, unwatched_of fun k => (hk k).2⟩

theorem ready_realReady : ready.RealReady 0xFF :=
  realReady_of (by decide +kernel) (by decide +kernel) (by decide +kernel)

theorem witness_ExceptionInRealMode : ready.noLock ∧ ready.RealReady (softwareInterrupt 0xFF).vector ∧ ready.RealReady 0xFF :=
  ⟨rfl, ready_realReady, ready_realReady⟩

/-- An interrupt table that just reaches vector 8, or vector 13. -/
def tableOf (limit : Word) : State := { ready with idtr := ⟨0, limit⟩ }
/-- An interrupt table one byte too short for vector 8. -/
def noTable : State := { r0 with idtr := ⟨0, 34#16⟩ }

/-- A double fault in real mode is delivered through vector 8 of a table that ends with it. -/
theorem table8_realReady : (tableOf 35).RealReady 8 :=
  realReady_of (by decide +kernel) (by decide +kernel) (by decide +kernel)

theorem table13_realReady : (tableOf 55).RealReady 13 :=
  realReady_of (by decide +kernel) (by decide +kernel) (by decide +kernel)

/-- Which exceptions make a double fault and which do not; a page fault, a contributory fault and an interrupt whose vectors lie past the
table; a triple fault; an exception left over, after a prefix. -/
theorem witness_TripleFaultShutsDown :
    (doubleFault.fault = true ∧ doubleFault.vector = 8#8) ∧ ((segmentNotPresent 0).fault = true ∧ (segmentNotPresent 0).vector ∈ [0#8, 10#8, 11#8, 12#8, 13#8])
    ∧ ((pageFault 0 0).fault = true ∧ (pageFault 0 0).vector = 14#8) ∧ (invalidOpcode.vector ∉ [0#8, 10#8, 11#8, 12#8, 13#8] ∧ invalidOpcode.vector ≠ 14#8)
    ∧ ((tableOf 35).idtr.limit.toNat < 4 * (pageFault 7 0).vector.toNat + 3 ∧ (pageFault 7 0).vector ∈ [10#8, 11#8, 12#8, 13#8, 14#8]
      ∧ ((tableOf 35).reported (pageFault 7 0)).RealReady 8)
    ∧ ((tableOf 35).idtr.limit.toNat < 4 * (segmentNotPresent 0).vector.toNat + 3 ∧ ((tableOf 35).reported (segmentNotPresent 0)).RealReady 8)
    ∧ ((tableOf 55).idtr.limit.toNat < 4 * (externalInterrupt 14).vector.toNat + 3 ∧ (externalInterrupt 14).fault = false
      ∧ ((tableOf 55).reported (externalInterrupt 14)).RealReady 13)
    ∧ (let s := { ready with dec := { ready.dec with active := true, count := 1 }, serial := some (softwareInterrupt 0xFF) }
      s.serial = some (softwareInterrupt 0xFF) ∧ { s with serial := none }.Running false ∧ s.RealReady (softwareInterrupt 0xFF).vector)
    ∧ noTable.pe = false ∧ noTable.BusReady ∧ noTable.idtr.limit.toNat < 35
    ∧ noTable.idtr.limit.toNat < 4 * doubleFault.vector.toNat + 3
    ∧ noTable.idtr.limit.toNat < 4 * (generalProtection 0).vector.toNat + 3 :=
  ⟨by decide, by decide, by decide, by decide,
    ⟨by decide +kernel, by decide,
      realReady_of (by decide +kernel) (by decide +kernel) (by decide +kernel)⟩,
    ⟨by decide +kernel, table8_realReady⟩, ⟨by decide +kernel, rfl, table13_realReady⟩,
    ⟨rfl, ⟨rfl, rfl, rfl, .inl rfl, rfl⟩, realReady_of (by decide +kernel) (by decide +kernel) (by decide +kernel)⟩,
    by decide +kernel, busReady_of (by decide +kernel), by decide +kernel⟩

theorem witness_InstructionsChecked :
    (Instr.bswap .w32 .eax).refusesLock = true ∧ (Instr.xaddRm8R8 (.reg .al) .ah).refusesLock = true
    ∧ (Instr.movRCr .eax 0).refusesLock = true ∧ r0Lock.dec.lock = true
    ∧ (Instr.popf .w16).needsIopl = true ∧ (let s := { virtual with eflags := 0x00022002#32 }
      s.noLock ∧ s.v86 = true ∧ s.vme = false ∧ s.iopl ≠ 3)
    ∧ (Instr.hlt).isPrivileged = true ∧ (Instr.movTrR 7 .edi).isPrivileged = true ∧ user.noLock ∧ user.level ≠ 0
    ∧ virtual.noLock ∧ virtual.level ≠ 0 :=
  ⟨rfl, rfl, rfl, rfl, rfl, ⟨rfl, by decide +kernel⟩, rfl, rfl, rfl, by decide +kernel, rfl, by decide +kernel⟩

/-- Reset with a value in EAX. -/
def withEax (v : DWord) : State := { r0 with regs := { r0.regs with eax := v } }

theorem witness_OperandsChecked :
    r0.noLock ∧ r0.inSMM = false ∧ { r0 with part := { r0.part with sl := false } }.part.hasSL = false
    ∧ { r0 with part := { r0.part with hasExt := false } }.part.hasExt = false ∧ r0.level = 0
    ∧ 1#3 ∈ [1#3, 5#3, 6#3, 7#3] ∧ 7#3 ∈ [1#3, 5#3, 6#3, 7#3] ∧ 2#3 ∈ [0#3, 1#3, 2#3]
    ∧ ((withEax 0x80000000#32).noLock ∧ (withEax 0x80000000#32).level = 0
      ∧ ((withEax 0x80000000#32).regs.get .eax).getLsbD 31 = true ∧ ((withEax 0x80000000#32).regs.get .eax).getLsbD 0 = false)
    ∧ (((withEax 0x20000000#32).regs.get .eax).getLsbD 29 = true ∧ ((withEax 0x20000000#32).regs.get .eax).getLsbD 30 = false)
    ∧ (withEax 0x80000000#32).part.hasExt = true ∧ ∃ i, i < 32 ∧ i ∉ [0, 1, 4] ∧ ((withEax 0x80000000#32).regs.get .eax).getLsbD i = true :=
  ⟨rfl, rfl, rfl, rfl, by decide +kernel, by decide, by decide, by decide, ⟨rfl, by decide +kernel⟩, by decide +kernel, rfl,
    31, by decide +kernel⟩

/-- Level 3 with a read-only data segment. -/
def readOnly : State := { user with segs := { user.segs with ds := flatSeg 0xC0F1#16 } }

theorem witness_AccessTraps :
    r0.noLock ∧ ¬ r0.segAdmits .ds (absOff 0xFFFF) (OpSize.bytes .w16) false
    ∧ ¬ r0.segAdmits .ss (absOff 0xFFFD) (OpSize.bytes .w32) true
    ∧ readOnly.noLock ∧ readOnly.segAdmits .ds 0 (OpSize.bytes .w32) false ∧ ¬ readOnly.segAdmits .ds 0 (OpSize.bytes .w32) true
    ∧ user.noLock ∧ user.segAdmits .ds 2 (OpSize.bytes .w32) false ∧ user.segAdmits .ds 1 (OpSize.bytes .w16) true
    ∧ ¬ user.aligned ((user.segs.get .ds).base + 2) (OpSize.bytes .w32)
    ∧ ¬ user.aligned ((user.segs.get .ds).base + 1) (OpSize.bytes .w16) := by
  refine ⟨rfl, ?_, ?_, rfl, ?_, ?_, rfl, ?_, ?_, ?_, ?_⟩ <;>
    (simp only [State.segAdmits, State.aligned]; decide +kernel)

/-- An NMI pending in shutdown, blocked by an SMI handler that a bad RSM has left; one pending in no shutdown; an INTR with vector FFh
in the Auto HALT Power Down state. -/
def nmiPending : State := { ready with pend := ⟨true, false, false⟩, shutdown := true, nmiBlocked := true }
def intrPending : State :=
  { ready with pins := { ready.pins with intr := true, intVector := 0xFF#8 }, eflags := 0x202#32, halted := true, clock := .autoHaltPowerDown }

theorem witness_ExternalInterrupts :
    nmiPending.Running true ∧ nmiPending.BelowSmi ∧ nmiPending.pend.nmi = true ∧ nmiPending.shutdown = true ∧ nmiPending.RealReady 2
    ∧ (let s := { nmiPending with shutdown := false, nmiBlocked := false }
       s.BelowSmi ∧ s.nmiBlocked = false ∧ s.inNmi = false ∧ s.ssShadow = false)
    ∧ intrPending.Running true ∧ intrPending.BelowSmi ∧ intrPending.pend.nmi = false ∧ intrPending.shutdown = false
    ∧ intrPending.pins.intr = true ∧ intrPending.if_ = true ∧ intrPending.shadow = false
    ∧ intrPending.RealReady intrPending.pins.intVector
    ∧ (let s := { intrPending with bus := { intrPending.bus with wb := [⟨false, 0x400, 1, 0x11, false, false, false, false, false⟩] } }
       s.Running true ∧ s.BelowSmi ∧ s.RealReady s.pins.intVector) :=
  ⟨⟨rfl, rfl, rfl, .inl rfl, rfl⟩, ⟨rfl, .inl ⟨rfl, rfl, rfl⟩, ⟨rfl, rfl⟩, .inl rfl⟩, rfl, rfl,
    realReady_of (by decide +kernel) (by decide +kernel) (by decide +kernel),
    ⟨⟨rfl, .inl ⟨rfl, rfl, rfl⟩, ⟨rfl, rfl⟩, .inl rfl⟩, rfl, rfl, rfl⟩,
    ⟨rfl, rfl, rfl, .inr ⟨rfl, rfl⟩, rfl⟩, ⟨rfl, .inl ⟨rfl, rfl, rfl⟩, ⟨rfl, rfl⟩, .inl rfl⟩, rfl, rfl, rfl, by decide +kernel, rfl,
    realReady_of (by decide +kernel) (by decide +kernel) (by decide +kernel),
    ⟨rfl, rfl, rfl, .inr ⟨rfl, rfl⟩, rfl⟩, ⟨rfl, .inl ⟨rfl, rfl, rfl⟩, ⟨rfl, rfl⟩, .inl rfl⟩,
    realReady_of (by decide +kernel) (by decide +kernel) (by decide +kernel)⟩

/-- DR7.GD set. -/
def guarded : State := { r0 with dr7 := 0x2000#32 }

theorem witness_MovFromSpecial :
    r0.noLock ∧ r0.level = 0 ∧ r0.part.hasExt = true
    ∧ ((4#3 = 0#3 ∧ r0.cr4 = r0.cr0) ∨ (4#3 = 2#3 ∧ r0.cr4 = r0.cr2) ∨ (4#3 = 3#3 ∧ r0.cr4 = r0.cr3)
      ∨ (4#3 = 4#3 ∧ r0.cr4 = r0.cr4 ∧ r0.part.hasExt = true))
    ∧ ((5#3 = 4#3 ∨ 5#3 = 6#3) ∧ r0.dr7 = r0.dr6 ∨ (5#3 = 5#3 ∨ 5#3 = 7#3) ∧ r0.dr7 = r0.dr7)
    ∧ (7#3 = 7#3 ∧ r0.tr7 = r0.tr7) ∧ r0.dr7.getLsbD 13 = false
    ∧ guarded.noLock ∧ guarded.level = 0 ∧ guarded.dr7.getLsbD 13 = true := by
  simp only [State.noLock]; decide +kernel

/-- Turning paging on, turning the cache on, a directory base, and the largest CR4. -/
theorem witness_MovToControl :
    (withEax 0x80000001#32).noLock ∧ (withEax 0x80000001#32).level = 0
    ∧ (((withEax 0x80000001#32).regs.get .eax).getLsbD 31 = true → ((withEax 0x80000001#32).regs.get .eax).getLsbD 0 = true)
    ∧ (((withEax 0x80000001#32).regs.get .eax).getLsbD 29 = true → ((withEax 0x80000001#32).regs.get .eax).getLsbD 30 = true)
    ∧ (((withEax 0).regs.get .eax).getLsbD 29 = true → ((withEax 0).regs.get .eax).getLsbD 30 = true)
    ∧ (withEax 0x13#32).noLock ∧ (withEax 0x13#32).level = 0 ∧ (withEax 0x13#32).part.hasExt = true
    ∧ (withEax 0x13#32).regs.get .eax &&& 0xFFFFFFEC#32 = 0 := by
  simp only [State.noLock]; decide +kernel

theorem witness_MovToDebugAndTest :
    (withEax 0xFFFFFFFF#32).noLock ∧ (withEax 0xFFFFFFFF#32).level = 0 ∧ (withEax 0xFFFFFFFF#32).dr7.getLsbD 13 = false
    ∧ guarded.noLock ∧ guarded.level = 0 ∧ guarded.dr7.getLsbD 13 = true := by
  simp only [State.noLock]; decide +kernel

theorem witness_MessageRows :
    r0.BusReady ∧ r0.part.hasSL = true ∧ dx2wb.BusReady ∧ dx2wb.wbMode = true :=
  ⟨reset_busReady, rfl, busReady_of (by decide +kernel), rfl⟩

theorem witness_TransferRows :
    (ioState 0).BusReady ∧ (ioState 0).bus.ioIn = [0x44332211#32] ∧ (0xE#4).getLsbD (0#2).toNat = false
    ∧ (0x7#4).getLsbD (3#2).toNat = false ∧ (ioState 0).platform.ioBus8 = [] ∧ (ioState 0).platform.ioBus16 = [] :=
  ⟨busReady_of (by decide +kernel), rfl, by decide, by decide, rfl, rfl⟩

theorem witness_RowsRefusedOrWaiting :
    { r0 with part := { r0.part with sl := false } }.part.hasSL = false ∧ dx2wt.wbMode = false
    ∧ (Instr.memReadCycle ⟨0, 0, 0⟩).isBusCycle = true ∧ Instr.memReadCycle ⟨0, 0, 0⟩ ≠ .reservedCycle
    ∧ busy.busFree = false ∧ busy.part.hasSL = true ∧ (Instr.stopGrantCycle).isBusCycle = true
    ∧ (Instr.haltCycle ≠ .firstFlushAckCycle ∧ Instr.haltCycle ≠ .secondFlushAckCycle)
    ∧ { dx2wb with pins := { dx2wb.pins with hold := true } }.busFree = false
    ∧ { dx2wb with pins := { dx2wb.pins with hold := true } }.wbMode = true := by decide +kernel

/-- The pins of a clock, nothing asserted. -/
def quietPins : ClockIn := ⟨false, false, true, true, false, false, false, false, false, none, 0, none, none⟩

theorem witness_BusStates :
    r0.bus.phase = .ti ∧ { busy.bus with phase := .t1 }.phase = .t1 ∧ { busy.bus with phase := .tb }.phase = .tb
    ∧ { busy.bus with phase := .t1b }.phase = .t1b ∧ busy.bus.phase = .t2 ∧ busy.bus.cur ≠ [] ∧ quietPins.boff = false
    ∧ quietPins.rdy = false ∧ quietPins.brdy = false ∧ { quietPins with boff := true }.boff = true := by decide +kernel

theorem reset_smiReady : r0.SmiReady := ⟨rfl, rfl, reset_busReady, by decide +kernel⟩

theorem witness_SmmEntry :
    r0.SmiReady ∧ ∀ k, k < 512 → (0x3FDFF#32 ≠ maskA20 r0.memCtx (smmAddr r0.smbase k) ∧ 0x40000#32 ≠ maskA20 r0.memCtx (smmAddr r0.smbase k)) :=
  ⟨reset_smiReady, by decide +kernel⟩

/-- In SMM with a map of zeros. -/
def inSmm : State := { r0 with inSMM := true, smmImage := List.replicate 512 0 }
/-- The same with bytes of the map changed. -/
def mapped (k : Nat) (bs : List Byte) : State :=
  { inSmm with bus := { inSmm.bus with smram := Memory.setBytes [] (smmAddr inSmm.smbase k) bs } }

theorem empty_lookup (big : Bool) (a : Addr) : emptyCache.lookup big a = none := by
  simp [emptyCache, Cache.lookup, Cache.entry, CacheSet.find, CacheSet.matches, CacheSet.way, emptyLine, Line.valid]

theorem inSmm_byte (a : Addr) : inSmm.view a = 0 := by
  show inSmm.bus.view inSmm.memCtx a = 0
  unfold Bus.view
  rw [show inSmm.bus.cache.lookup inSmm.memCtx.big a = none from empty_lookup _ a]
  show (wbByte a []).getD (inSmm.bus.physByte inSmm.memCtx a) = 0
  unfold Bus.physByte
  split <;> rfl

theorem inSmm_image : inSmm.mapImage = List.replicate 512 0 := by
  have key : inSmm.mapByte inSmm.smbase = Function.const Nat 0 := funext fun k => inSmm_byte _
  unfold State.mapImage
  rw [key, List.map_const, List.length_range]

/-- One map for every clause: valid and unaltered; invalid by each of its four faults, at the boundaries of the fields; the auto-HALT slot
set with and without a halt before; I/O restart slots FFh, 1 and 100h; the byte after the last that a handler may change; an SMI#
latched; an I/O instruction of either kind before, or none. -/
theorem witness_RsmReturns :
    (at32 (mapped 0xF9 [0x40]).mapImage 0xF8).extractLsb' 0 15 ≠ 0 ∧ (mapped 0xF9 [0x40]).BusReady
    ∧ imageCr4 (mapped 92 [4]).mapImage &&& 0xFFFFFFEC#32 ≠ 0 ∧ (mapped 92 [4]).BusReady
    ∧ ((at32 (mapped 0x1FF [0x80]).mapImage 0x1FC).getLsbD 31 = true ∧ (at32 (mapped 0x1FF [0x80]).mapImage 0x1FC).getLsbD 0 = false)
    ∧ ((at32 (mapped 0x1FF [0x20]).mapImage 0x1FC).getLsbD 29 = true ∧ (at32 (mapped 0x1FF [0x20]).mapImage 0x1FC).getLsbD 30 = false)
    ∧ ((at16 (mapped 0x102 [1]).mapImage 0x102).getLsbD 0 = true ∧ imageInvalid (mapped 0x102 [1]).mapImage = false
      ∧ (mapped 0x102 [1]).haltedAtSmi = false ∧ { mapped 0x102 [1] with haltedAtSmi := true }.haltedAtSmi = true
      ∧ smmUnaltered 0 (mapped 0x102 [1]).mapImage (mapped 0x102 [1]).smmImage = true ∧ (mapped 0x102 [1]).BusReady)
    ∧ (at16 (mapped 0x100 [0xFF]).mapImage 0x100 = 0xFF#16 ∧ smmUnaltered 0 (mapped 0x100 [0xFF]).mapImage (mapped 0x100 [0xFF]).smmImage = true
      ∧ (mapped 0x100 [0xFF]).ioAtSmi = none ∧ { inSmm with ioAtSmi := some ⟨2, some ⟨.a16, false, 1⟩⟩ }.ioAtSmi = some ⟨2, some ⟨.a16, false, 1⟩⟩)
    ∧ at16 (mapped 0x100 [1]).mapImage 0x100 = 1#16 ∧ at16 (mapped 0x101 [1]).mapImage 0x100 = 0x100#16
    ∧ (smmUnaltered 0 (mapped 0x1F8 [1]).mapImage (mapped 0x1F8 [1]).smmImage = false ∧ imageInvalid (mapped 0x1F8 [1]).mapImage = false
      ∧ at16 (mapped 0x1F8 [1]).mapImage 0x102 = 0 ∧ at16 (mapped 0x1F8 [1]).mapImage 0x100 = 0)
    ∧ { inSmm with smiLatched := true }.smiLatched = true
    ∧ inSmm.noLock ∧ inSmm.BusReady ∧ inSmm.part.hasSL = true ∧ inSmm.inSMM = true ∧ inSmm.cd = true
    ∧ inSmm.smbase.extractLsb' 0 15 = 0 ∧ inSmm.smiLatched = false ∧ imageInvalid inSmm.mapImage = false
    ∧ smmUnaltered 0 inSmm.mapImage inSmm.smmImage = true ∧ at16 inSmm.mapImage 0x102 = 0 ∧ at16 inSmm.mapImage 0x100 = 0 := by
  rw [inSmm_image]
  exact ⟨by decide +kernel, busReady_of (by decide +kernel), by decide +kernel, busReady_of (by decide +kernel), by decide +kernel,
    by decide +kernel, ⟨by decide +kernel, by decide +kernel, rfl, rfl, by decide +kernel, busReady_of (by decide +kernel)⟩,
    by decide +kernel, by decide +kernel, by decide +kernel, by decide +kernel, rfl, rfl, busReady_of (by decide +kernel), rfl, rfl, by decide +kernel, by decide +kernel, rfl, by decide +kernel,
    by decide +kernel, by decide +kernel, by decide +kernel⟩

/-- What a computation of the processor leaves, if it completes. -/
def final {α : Type} (r : EStateM.Result Stop State α) : Option State :=
  match r with
  | .ok _ t => some t
  | .error _ _ => none

theorem ok_of_final {r : EStateM.Result Stop State Unit} (h : (final r).isSome = true) : ∃ t, r = .ok () t := by
  cases r with
  | ok a t => exact ⟨t, rfl⟩
  | error e t => simp [final] at h

theorem witness_SmmRoundTrip :
    r0.SmiReady ∧ RegInv r0 ∧ r0.cd = true ∧ r0.smiLatched = false ∧ ∃ t, enterSmm none r0 = .ok () t :=
  ⟨reset_smiReady, by simp only [RegInv, RegsLegal]; decide +kernel, by decide +kernel, rfl, ok_of_final (by decide +kernel)⟩

/-- The next state of a step, if there is one. -/
def next? (o : Host.Outcome State Fault Refusal) : Option State :=
  match o with
  | .next t => some t
  | .fault _ => none
  | .refused _ => none

theorem next_of {o : Host.Outcome State Fault Refusal} (h : (next? o).isSome = true) : ∃ t, o = .next t := by
  cases o with
  | next t => exact ⟨t, rfl⟩
  | fault f => simp [next?] at h
  | refused r => simp [next?] at h

/-- What was fetched and decoded. -/
def decodedAt (s : State) : Option (Dec Instr × Nat) :=
  match fetchDecode 15 [] s.begin with
  | .ok x _ => some x
  | .error _ _ => none

theorem fetched_of {s : State} {x : Dec Instr × Nat} (h : decodedAt s = some x) : ∃ t, fetchDecode 15 [] s.begin = .ok x t := by
  unfold decodedAt at h
  split at h
  · next y t hy => exact ⟨t, by rw [hy, Option.some.inj h]⟩
  · cases h

/-- A two-byte instruction where the next step fetches it. -/
def placed (w : Nat) : State := State.reset.withFetchWord 16 w
/-- MOV AH, 7Fh there. -/
abbrev withMov : State := placed 0xB47F
/-- The same after a prefix. -/
def withMovLocked : State := { withMov with dec := { withMov.dec with active := true, osz := true, count := 13 } }

theorem noEvent_of {s : State}
    (h : (s.trapPending = false ∧ s.taskTrap = false) ∧ s.pend = ⟨false, false, false⟩ ∧ s.shutdown = false ∧ s.pins = Pins.idle ∧ s.halted = false
      ∧ s.dbgHits = 0 ∧ s.frozen = false ∧ s.codeHits = 0) :
    s.NoEvent := by
  obtain ⟨⟨h1, h9⟩, h2, h3, h4, h5, h6, h7, h8⟩ := h
  exact .inr ⟨by simp [boundaryEvent, State.trapDue, State.nmiDue, State.stpclkDue, h1, h9, h2, h3, h4, h5, h6, h7, h8, Pins.idle], by simp [h4, Pins.idle]⟩

theorem running_of {s : State} (h : s.inputs = [] ∧ s.latch.upgradePresent = false ∧ s.bus.queue = [] ∧ s.clock = .normal ∧ s.serial = none) :
    s.Running false := ⟨h.1, h.2.1, h.2.2.1, .inl h.2.2.2.1, h.2.2.2.2⟩

theorem witness_StepRunsDecoded :
    withMov.Running false ∧ withMov.NoEvent
    ∧ ∃ t, fetchDecode 15 [] withMov.begin = .ok (.ok (.movR8Imm8 .ah 0x7F) [], 2) t :=
  ⟨running_of (by decide +kernel), noEvent_of (by decide +kernel), fetched_of (by decide +kernel)⟩

/-- Two bytes, alone and as the last two of fifteen. -/
theorem witness_StepRunsBytes :
    withMov.Running false ∧ withMov.NoEvent ∧ withMov.Flat ∧ withMov.cd = true ∧ withMov.FetchFresh
    ∧ decode withMov.begin.decodeCtx [0xB4, 0x7F] = .ok (.movR8Imm8 .ah 0x7F) []
    ∧ (∀ k, k < 2 → decode withMov.begin.decodeCtx ([0xB4, 0x7F].take k) = .more)
    ∧ withMov.begin.dec.count + 2 ≤ 15
    ∧ (∀ k, k < 2 → withMov.segs.cs.inLimit false (withMov.codeOffset k) 1 = true
      ∧ withMov.view (withMov.codeAddr k) = [0xB4, 0x7F].getD k 0)
    ∧ withMovLocked.NoEvent ∧ withMovLocked.begin.dec.count + 2 = 15 :=
  ⟨running_of (by decide +kernel), noEvent_of (by decide +kernel), flat_of (by decide +kernel), by decide +kernel,
    fun x hx => absurd hx (by rw [show withMov.bus.fetchq.bytes = [] by decide +kernel]; exact List.not_mem_nil),
    by decide +kernel, by decide +kernel, by decide +kernel, by decide +kernel, .inl (by decide +kernel), by decide +kernel⟩

/-- One byte in the last lane, and the last line of memory. -/
theorem witness_WriteMiss :
    r0.bus.memWf = true ∧ r0.memCtx.busFree = true ∧ r0.bus.script = [] ∧ [0xA5#8].length = (PChunk.mk 3 1 false false).len
    ∧ (byteOf (maskA20 r0.memCtx 3)).toNat + 1 ≤ 16 ∧ (byteOf (maskA20 r0.memCtx 0xFFFFFFF0#32)).toNat + 16 ≤ 16
    ∧ r0.bus.cache.lookup r0.memCtx.big (maskA20 r0.memCtx 3) = none := by decide +kernel

/-- A shared line of a write-through cache, and each state of a write-back one. -/
theorem witness_WriteHit :
    dirty.bus.memWf = true ∧ dirty.memCtx.busFree = true ∧ dirty.bus.script = []
    ∧ [0xA5#8].length = (PChunk.mk 0x123F 1 false false).len ∧ (byteOf (maskA20 dirty.memCtx 0x123F)).toNat + 1 ≤ 16
    ∧ Cache.stateAt dirty.bus.cache dirty.memCtx.big (maskA20 dirty.memCtx 0x123F) = some .modified ∧ dirty.memCtx.wb = true
    ∧ Cache.stateAt (withLine 0x1230 .exclusive dx2wb).bus.cache false 0x123F = some .exclusive
    ∧ Cache.stateAt (withLine 0x1230 .shared dx2wb).bus.cache false 0x123F = some .shared
    ∧ Cache.stateAt (withLine 0x1230 .shared r0).bus.cache r0.memCtx.big (maskA20 r0.memCtx 0x123F) = some .shared
    ∧ r0.memCtx.wb = false ∧ (withCr0 0x10 r0).memCtx.cd = false ∧ (withCr0 0x40000010 r0).memCtx.nw = false := by decide +kernel

/-- The cache on. -/
def cacheOn : State := withCr0 0x10#32 r0
/-- A set with four valid lines, each with its own tag, of which 1230h is the one to replace; it is modified or not. -/
def fullLines (st : Mesi) (s : State) : State :=
  let put := fun (c : Cache) (a : Addr) (w : BitVec 2) (x : Mesi) => c.install s.part.bigCache a w x (Vector.replicate 16 0)
  { s with bus := { s.bus with
      cache := put (put (put (put s.bus.cache 0x1230 0 st) 0x1A30 1 .shared) 0x2230 2 .shared) 0x2A30 3 .shared } }
/-- The set, and the line to replace, of a miss on the last byte of line 423h. -/
def missSet (s : State) : CacheSet := s.bus.cache.entry (setOf s.memCtx.big (maskA20 s.memCtx 0x423F))
def missOld (s : State) : Line := (missSet s).way (missSet s).victim
def missBase (s : State) : Addr := lineAddr s.memCtx.big (missOld s).tag (setOf s.memCtx.big (maskA20 s.memCtx 0x423F))

theorem byte_of_line {x base : Addr} (h : lineBase x = base) : x = base.extractLsb' 4 28 ++ x.extractLsb' 0 4 := by
  subst h
  refine BitVec.eq_of_getLsbD_eq (w := 28 + 4) fun i hi => ?_
  rw [BitVec.getLsbD_append, BitVec.getLsbD_extractLsb', BitVec.getLsbD_extractLsb', show lineBase x = x.extractLsb' 4 28 ++ 0#4 from rfl,
    BitVec.getLsbD_append (n := 28), BitVec.getLsbD_extractLsb']
  by_cases h4 : i < 4
  · simp [h4]
  · simp [h4, show i - 4 < 28 by omega, show 4 + (i - 4) = i by omega]

/-- A byte in the last lane of a line's last doubleword: the victim invalid, a modified line of a write-back cache, and a shared one
that equals memory. -/
theorem witness_ReadMissFills :
    cacheOn.bus.memWf = true ∧ cacheOn.memCtx.busFree = true ∧ cacheOn.bus.script = [] ∧ cacheOn.bus.wb = []
    ∧ (byteOf (maskA20 cacheOn.memCtx 0x423F)).toNat + 1 ≤ 16
    ∧ cacheOn.bus.cache.lookup cacheOn.memCtx.big (maskA20 cacheOn.memCtx 0x423F) = none
    ∧ cacheOn.memCtx.cd = false ∧ inRanges cacheOn.memCtx.plat.nonCacheable (lineBase (maskA20 cacheOn.memCtx 0x423F)).toNat = false
    ∧ cacheOn.memCtx.plat.kenAbort = false ∧ cacheOn.memCtx.plat.bus8 = [] ∧ cacheOn.memCtx.plat.bus16 = []
    ∧ (missOld cacheOn).valid = false ∧ (∀ w, ((missSet cacheOn).way w).valid = false)
    ∧ (let s := fullLines .modified (withCr0 0x10#32 dx2wb)
      s.bus.cache.lookup s.memCtx.big (maskA20 s.memCtx 0x423F) = none ∧ s.memCtx.wb = true ∧ (missOld s).st = .modified
      ∧ (∀ v w, v ≠ w → ((missSet s).way v).tag ≠ ((missSet s).way w).tag)
      ∧ setOf s.memCtx.big (missBase s) = setOf s.memCtx.big (maskA20 s.memCtx 0x423F)
      ∧ tagOf s.memCtx.big (missBase s) = (missOld s).tag)
    ∧ (let s := fullLines .shared cacheOn
      s.bus.cache.lookup s.memCtx.big (maskA20 s.memCtx 0x423F) = none ∧ (missOld s).st = .shared
      ∧ (∀ v w, v ≠ w → ((missSet s).way v).tag ≠ ((missSet s).way w).tag)
      ∧ setOf s.memCtx.big (missBase s) = setOf s.memCtx.big (maskA20 s.memCtx 0x423F)
      ∧ tagOf s.memCtx.big (missBase s) = (missOld s).tag
      ∧ ∀ x, lineBase x = missBase s → s.bus.view s.memCtx x = s.bus.physByte s.memCtx x) := by
  refine ⟨by decide +kernel, by decide +kernel, rfl, rfl, by decide +kernel, by decide +kernel, by decide +kernel, by decide +kernel, rfl,
    rfl, rfl, by decide +kernel, by decide +kernel, by decide +kernel, by decide +kernel, by decide +kernel, by decide +kernel,
    by decide +kernel, by decide +kernel, fun x h => ?_⟩
  rw [byte_of_line h]
  generalize x.extractLsb' 0 4 = k
  revert k
  decide +kernel

/-- A set with all ways valid and LRU bits 101b, with other LRU bits, and one with a single invalid way. -/
def fullSet : CacheSet := ⟨Vector.replicate 4 ⟨0, .shared, Vector.replicate 16 0⟩, 5#3⟩

theorem witness_VictimChosen :
    (∀ w, (fullSet.way w).valid = true) ∧ (∀ w, ({ fullSet with lru := 2#3 }.way w).valid = true) ∧ fullSet.lru = 5#3 ∧ ((fullSet.putWay 3 emptyLine).way 3).valid = false
    ∧ (0 < 3 ∧ 2 < 3) := by decide +kernel

/-- A fill of line 123h in progress. -/
def fillXfer : Xfer := { Xfer.new .memRead .plain (lineParts 0x48D) with want := true, decided := true, fill := true }

theorem witness_SnoopTransitions :
    ({ r0.bus with cur := [fillXfer] }.cur[0]? = some fillXfer ∧ fillXfer.line = 0x123#28 ∧ fillXfer.fill = true
      ∧ fillXfer.line ≠ 0x124#28 ∧ r0.memCtx.wb = false)
    ∧ busy.bus.cache.lookup r0.part.bigCache (0x0000123#28 ++ 0#4) = none ∧ busy.bus.cur.length = 1
    ∧ (busy.bus.cur.map Xfer.line) = [0#28]
    ∧ (withLine 0x1230 .shared cacheOn).bus.cache.lookup r0.part.bigCache (0x0000123#28 ++ 0#4) = some 0
    ∧ (withLine 0x1230 .shared cacheOn).wbMode = false ∧ (withLine 0x1230 .shared cacheOn).cd = false
    ∧ ((withLine 0x1230 .shared cacheOn).bus.cache.entry 0x23#8).way 1#2 ≠ ((withLine 0x1230 .shared cacheOn).bus.cache.entry 0x23#8).way 0#2
    ∧ dirty.bus.cache.lookup dirty.part.bigCache (0x0000123#28 ++ 0#4) = some 0 ∧ dirty.wbMode = true
    ∧ ((dirty.bus.cache.entry (setOf dirty.part.bigCache (0x0000123#28 ++ 0#4))).way 0).st = .modified
    ∧ dirty.bus.cur = [] ∧ (writeBackXfer 0x123 (Vector.replicate 16 0) false).writesBack 0x123 = true
    ∧ (writeBackXfer 0x123 (Vector.replicate 16 0) false).hitm = false ∧ (writeBackXfer 0x123 (Vector.replicate 16 0) true).hitm = true
    ∧ (withLine 0x1230 .exclusive dx2wb).wbMode = true
    ∧ (((withLine 0x1230 .exclusive dx2wb).bus.cache.entry (setOf false (0x0000123#28 ++ 0#4))).way 0).st = .exclusive := by
  decide +kernel

/-- Two buffered writes to one byte. -/
def buffered : State :=
  { r0 with
    bus := { r0.bus with
      wb := [⟨false, 0x400, 1, 0x11, false, false, false, false, false⟩, ⟨false, 0x400, 1, 0x22, false, false, false, false, false⟩] } }

theorem witness_BuffersInOrder :
    buffered.bus.memWf = true ∧ buffered.bus.script = [] ∧ buffered.memCtx.plat.bus8 = [] ∧ buffered.memCtx.plat.bus16 = []
    ∧ buffered.memCtx.plat.ioBus8 = [] ∧ buffered.memCtx.plat.ioBus16 = [] ∧ buffered.memCtx.busFree = true ∧ buffered.busFree = true
    ∧ buffered.platform.lazyBus = false := by decide +kernel

/-- Paging on, a directory and a table that map the last page of the space, and its translation in the TLB. -/
def paged (pde pte : DWord) : State :=
  { withCr0 0xE0000011#32 r0 with
    cr3 := 0x1000#32
    bus := { r0.bus with mem := Memory.setBytes (Memory.setBytes [] 0x1FFC#32 (toBytes 4 pde)) 0x2FFC#32 (toBytes 4 pte) } }
def userPage (s : State) : PageCtx := s.pageCtx true
def lastPage : Addr := 0xFFFFFFFF#32
/-- The doubleword the processor sees. -/
def seenDword (s : State) (a : Addr) : DWord :=
  s.bus.view s.memCtx (a + 3) ++ s.bus.view s.memCtx (a + 2) ++ s.bus.view s.memCtx (a + 1) ++ s.bus.view s.memCtx a

def withEntry (writable : Bool) : Tlb :=
  tlbPut emptyTlb (tlbIndex (tlbSet lastPage) 3) ⟨true, 0xFFFFF#20, 0xABCDE#20, writable, true, true, false, false, false⟩

theorem witness_TlbHitTranslates :
    (userPage (paged 0 0)).pg = true ∧ tlbFind (withEntry true) lastPage = some 3
    ∧ pageAllows (userPage (paged 0 0)) true (tlbAt (withEntry true) (tlbIndex (tlbSet lastPage) 3)).writable true = true
    ∧ (tlbAt (withEntry true) (tlbIndex (tlbSet lastPage) 3)).dirty = true
    ∧ tlbFind (withEntry false) lastPage = some 3
    ∧ pageAllows (userPage (paged 0 0)) true (tlbAt (withEntry false) (tlbIndex (tlbSet lastPage) 3)).writable true = false := by
  decide +kernel

theorem paged_clean (pde pte : DWord) (a : Addr) : (paged pde pte).bus.CleanByte (paged pde pte).memCtx a := by
  have h : (paged pde pte).bus.cache.lookup (paged pde pte).memCtx.big a = none := empty_lookup _ a
  exact ⟨fun w hw => absurd hw (by rw [h]; exact nofun), by unfold Bus.view; rw [h]; rfl⟩

/-- The last page's entry in the TLB, writable for a user, and no write through it yet. -/
def cleanEntry : Tlb :=
  tlbPut emptyTlb (tlbIndex (tlbSet lastPage) 3) ⟨true, 0xFFFFF#20, 0xABCDE#20, true, true, false, false, false, false⟩

/-- The last page, through a table and, with PSE, as the end of a 4MB page: absent, not allowed, accessed already, and with A or D to set in
both entries, in the directory's or in the table's only; its entry not in the TLB, or there with the dirty mark clear. -/
theorem witness_PageWalk :
    (tlbFind cleanEntry lastPage = some 3
      ∧ pageAllows (userPage (paged 0 0)) true (tlbAt cleanEntry (tlbIndex (tlbSet lastPage) 3)).writable
          (tlbAt cleanEntry (tlbIndex (tlbSet lastPage) 3)).user = true
      ∧ (tlbAt cleanEntry (tlbIndex (tlbSet lastPage) 3)).dirty = false)
    ∧ (seenDword (paged 0x2007 0xABCDE067) 0x1FFC = 0x2007#32 ∧ seenDword (paged 0x2007 0xABCDE067) 0x2FFC = 0xABCDE067#32)
    ∧ (seenDword (paged 0x2067 0xABCDE027) 0x2FFC = 0xABCDE027#32 ∧ (paged 0x2067 0xABCDE027).memCtx.plat.bus8 = []
      ∧ (paged 0x2067 0xABCDE027).memCtx.plat.bus16 = [])
    ∧
    (userPage (paged 0 0)).pg = true ∧ (userPage (paged 0 0)).pse = false ∧ tlbFind (paged 0 0).bus.tlb lastPage = none
    ∧ (paged 0 0).memCtx.cd = true ∧ (paged 0 0).memCtx.busFree = true ∧ (paged 0x2067 0xABCDE067).bus.memWf = true
    ∧ (paged 0x2067 0xABCDE067).bus.script = [] ∧ (paged 0x2067 0xABCDE067).bus.urgent = none
    ∧ (paged 0 0).memCtx.a20m = false
    ∧ (userPage (paged 0 0)).cr3.extractLsb' 12 20 ++ lastPage.extractLsb' 22 10 ++ 0#2 = 0x1FFC#32
    ∧ (seenDword (paged 0 0) 0x1FFC).getLsbD 0 = false
    ∧ seenDword (paged 0x2067 0) 0x1FFC = 0x2067#32 ∧ (seenDword (paged 0x2067 0) 0x2FFC).getLsbD 0 = false
    ∧ seenDword (paged 0x2067 0xABCDE063) 0x2FFC = 0xABCDE063#32
    ∧ pageAllows (userPage (paged 0x2067 0xABCDE063)) false (true && true) (true && false) = false
    ∧ seenDword (paged 0x2067 0xABCDE067) 0x2FFC = 0xABCDE067#32
    ∧ pageAllows (userPage (paged 0x2067 0xABCDE067)) true (true && true) (true && true) = true
    ∧ (0x2067#32).getLsbD 5 = true ∧ (0xABCDE067#32) &&& 0x60#32 = 0x60#32
    ∧ seenDword (paged 0x2007 0xABCDE027) 0x2FFC = 0xABCDE027#32 ∧ (0x2007#32).getLsbD 5 = false
    ∧ (0xABCDE027#32) &&& 0x60#32 ≠ 0x60#32
    ∧ (let s := { paged 0xABC000A7 0 with cr4 := 0x10#32 }
      (userPage s).pse = true ∧ seenDword s 0x1FFC = 0xABC000A7#32 ∧ (0xABC000A7#32).getLsbD 7 = true
      ∧ (0xABC000A7#32) &&& 0x60#32 = 0x20#32) := by decide +kernel

/-- 20_memory.md R161, R162: a walk with A and D to set: the translation, the entries and the two locked pairs of cycles. -/
theorem test_page_walk_sets_bits :
    (match translate (paged 0x2007 0xABCDE007).memCtx (userPage (paged 0x2007 0xABCDE007)) lastPage true (paged 0x2007 0xABCDE007).bus with
      | .ok ph b => ph.pa == 0xABCDEFFF#32 && b.mem.get 0x1FFC == 0x27#8 && b.mem.get 0x2FFC == 0x67#8
          && (b.trace.map (fun c => (c.kind, c.lock))).filter (·.2) == [(.memWrite, true), (.memRead, true), (.memWrite, true), (.memRead, true)]
      | .error _ _ => false) = true := by decide +kernel

/-- 20_memory.md R162: a write through a TLB entry whose dirty mark is clear sets D in the table by one locked pair, and the entry is dirty. -/
theorem test_page_first_write :
    (let s := paged 0x2027 0xABCDE027
     match translate s.memCtx (userPage s) lastPage true { s.bus with tlb := cleanEntry } with
      | .ok ph b => ph.pa == 0xABCDEFFF#32 && b.mem.get 0x2FFC == 0x67#8
          && (b.trace.map (fun c => (c.kind, c.lock))).filter (·.2) == [(.memWrite, true), (.memRead, true)]
          && b.tlb == tlbPut emptyTlb (tlbIndex (tlbSet lastPage) 3) ⟨true, 0xFFFFF#20, 0xABCDE#20, true, true, true, false, false, false⟩
      | .error _ _ => false) = true := by decide +kernel

theorem witness_Resets :
    { r0 with inputs := [.reset true true .breq] }.inputs = .reset true true .breq :: []
    ∧ { r0.part with variant := .dx4 }.variant = .dx4 ∧ { r0.part with variant := .sx2 }.variant ∈ [.dx2, .sx2, .dx2wb]
    ∧ r0.part.variant ∈ [.dx, .sx]
    ∧ { r0 with inputs := [.sreset] }.inputs = .sreset :: [] ∧ r0.part.hasSL = true ∧ r0.wbMode = false
    ∧ { dirty with inputs := [.sreset] }.inputs = .sreset :: [] ∧ dirty.part.hasSL = true ∧ dirty.wbMode = true
    ∧ { r0.part with sl := false }.hasSL = false ∧ r0.part.resetState.fpu = none := by decide +kernel

theorem reset_invariants : MemInv r0 ∧ BufferInv r0 ∧ RegInv r0 := by
  simp only [MemInv, BufferInv, RegInv, RegsLegal]; decide +kernel

theorem mov_invariants : MemInv withMov ∧ BufferInv withMov ∧ RegInv withMov := by
  simp only [MemInv, BufferInv, RegInv, RegsLegal]; decide +kernel

theorem witness_StorageInvKept_RegInvKept :
    (MemInv withMov ∧ BufferInv withMov ∧ RegInv withMov) ∧ ∃ t, step withMov = .next t :=
  ⟨mov_invariants, next_of (by decide +kernel)⟩

/-! ### Single steps, with the results of 95_test_vectors.md -/

/-- The vectors' machine: protected mode at level 0, flat 32-bit segments, the cache on, with some general registers. -/
def kernel (g : Regs) : State :=
  { user with
    regs := g, cr0 := 0x11#32, cpl := 0, eflags := 2#32
    segs := { user.segs with cs := flatSeg 0xC09B#16, ds := flatSeg 0xC093#16, es := flatSeg 0xC093#16, ss := flatSeg 0xC093#16 } }
def gr : Regs := r0.regs
def withMem (a : Addr) (bs : List Byte) (s : State) : State := { s with bus := { s.bus with mem := s.bus.mem.setBytes a bs } }
def locked (s : State) : State := { s with dec := { s.dec with lock := true } }
/-- A property of the state after an instruction. -/
def after (i : Instr) (s : State) (p : State → Bool) : Bool := (next? (exec i s)).any p
/-- The newest bus cycles, newest first, as kind, byte address, enables and LOCK#. -/
def cycles (n : Nat) (s : State) : List (CycleKind × Addr × BitVec 4 × Bool) :=
  (s.bus.trace.take n).map fun c => (c.kind, c.addr ++ 0#2, c.be, c.lock)

/-- V-BSWAP, ESP. -/
theorem test_bswap : after (.bswap .w32 .esp) (kernel { gr with esp := 0x80000001 }) (fun t => t.regs.esp == 0x01000080#32) = true := by
  decide +kernel

/-- V-XADD 3: signed overflow; V-XADD 6: only the byte registers change. -/
theorem test_xadd_register :
    after (.xaddRmR .w32 (.reg .ecx) .edx) (kernel { gr with ecx := 0x7FFFFFFF, edx := 1 })
      (fun t => t.regs.ecx == 0x80000000#32 && t.regs.edx == 0x7FFFFFFF#32 && t.eflags == 0x896#32) = true
    ∧ after (.xaddRm8R8 (.reg .bl) .al) (kernel { gr with ebx := 0x112233F0, eax := 0x44556620 })
      (fun t => t.regs.ebx == 0x11223310#32 && t.regs.eax == 0x445566F0#32 && t.eflags == 3#32) = true := by decide +kernel

/-- V-XADD 9: the locked read and write on the bus. -/
theorem test_xadd_locked :
    after (.xaddRmR .w32 (.mem ⟨.ds, .abs32 0x2000⟩) .eax) (locked (withMem 0x2000 [0x0A] (kernel { gr with eax := 5 })))
      (fun t => t.regs.eax == 0xA#32 && t.bus.mem == [(0x2000, 0xF#8)] && t.eflags == 6#32
        && cycles 3 t == [(.memWrite, 0x2000, 0, true), (.memRead, 0x2000, 0, true)]) = true := by decide +kernel

/-- V-CMPXCHG 2, not equal, and 5, the accumulator as destination. -/
theorem test_cmpxchg_register :
    after (.cmpxchgRmR .w32 (.reg .ecx) .edx) (kernel { gr with eax := 5, ecx := 7, edx := 9 })
      (fun t => t.regs.eax == 7#32 && t.regs.ecx == 7#32 && t.eflags == 0x93#32) = true
    ∧ after (.cmpxchgRmR .w32 (.reg .eax) .edx) (kernel { gr with eax := 0x77, edx := 1 })
      (fun t => t.regs.eax == 1#32 && t.eflags == 0x46#32) = true := by decide +kernel

/-- V-CMPXCHG 7: the failing case writes back too. -/
theorem test_cmpxchg_locked :
    after (.cmpxchgRmR .w32 (.mem ⟨.ds, .abs32 0x2000⟩) .ebx) (locked (withMem 0x2000 [1] (kernel { gr with ebx := 1 })))
      (fun t => t.regs.eax == 1#32 && t.bus.mem == [(0x2000, 1#8)] && t.eflags == 0x97#32
        && cycles 3 t == [(.memWrite, 0x2000, 0, true), (.memRead, 0x2000, 0, true)]) = true := by decide +kernel

/-- V-INVD 1. -/
theorem test_invd :
    after .invd (withLine 0x2000 .shared (kernel gr))
      (fun t => (t.bus.cache.lookup false 0x2000).isNone && cycles 2 t == [(.special, 0, 0xD#4, false)]) = true := by decide +kernel

/-- V-INVD 3. -/
theorem test_wbinvd :
    after .wbinvd (withLine 0x2000 .shared (kernel gr))
      (fun t => (t.bus.cache.lookup false 0x2000).isNone
        && cycles 3 t == [(.special, 0, 0xD#4, false), (.special, 0, 0x7#4, false)]) = true := by decide +kernel

/-- V-INVD 4: the modified line is written back in one burst of four doublewords before the special cycles. -/
theorem test_wbinvd_write_back :
    after .wbinvd (withLine 0x3000 .exclusive dirty)
      (fun t => t.bus.mem.length == 16 && cycles 7 t ==
        [(.special, 0, 0xD#4, false), (.special, 0, 0x7#4, false), (.memWrite, 0x123C, 0, false), (.memWrite, 0x1238, 0, false),
          (.memWrite, 0x1234, 0, false), (.memWrite, 0x1230, 0, false)]) = true := by decide +kernel

/-- R489, R578, R586: in the clocks of the write-backs of three lines a snoop of the last has it written next, and only once; an SRESET
keeps what is not written yet. -/
theorem test_write_back_clocks :
    let three := withLine 0x1250 .modified (withLine 0x1240 .modified dirty)
    let ready := { quietPins with brdy := true }
    let run := fun (ks : List ClockIn) => writeBackSlots three.memCtx [(0x23, 0), (0x24, 0), (0x25, 0)] { three.bus with script := ks }
    let lines := fun (b : Bus) => (b.trace.reverse.map fun c => c.addr.extractLsb' 2 28 : List (BitVec 28))
    (match run [quietPins, { quietPins with ahold := true, brdy := true }, { ready with ahold := true, eads := some (0x125#28, false) }] with
      | .ok () b => lines b == [0x123, 0x123, 0x123, 0x123, 0x125, 0x125, 0x125, 0x125, 0x124, 0x124, 0x124, 0x124]
          && Cache.stateAt b.cache false 0x1250 == some .exclusive
      | _ => false) = true
    ∧ (match run [quietPins, { ready with reset := some .soft }] with
      | .error (.reset .soft) b => Cache.stateAt b.cache false 0x1230 == some .modified && Cache.stateAt b.cache false 0x1250 == some .modified
      | _ => false) = true := by decide +kernel

/-- V-INVD 6: the entry of page 00403h goes, another stays. -/
theorem test_invlpg :
    let e : TlbEntry := ⟨true, 0x00403#20, 1, true, true, false, false, false, false⟩
    let tlb := tlbPut (tlbPut emptyTlb (tlbIndex 3 0) e) (tlbIndex 4 0) { e with page := 0x00404#20 }
    after (.invlpg ⟨.ds, .base32 .eax .none⟩)
      { kernel { gr with eax := 0x00403123 } with bus := { r0.bus with tlb := tlb } }
      (fun t => (tlbFind t.bus.tlb 0x00403000).isNone && (tlbFind t.bus.tlb 0x00404000).isSome && t.bus.trace == []) = true := by
  decide +kernel

/-- V-INVD 9 and 10, on model 1 stepping 0; R565: without a floating-point unit the feature bit 0 reads 0. -/
theorem test_cpuid :
    after .cpuid (kernel gr)
      (fun t => t.regs.eax == 1#32 && t.regs.ebx == 0x756E6547#32 && t.regs.edx == 0x49656E69#32 && t.regs.ecx == 0x6C65746E#32) = true
    ∧ after .cpuid (kernel { gr with eax := 1, ebx := 7 }) (fun t => t.regs.eax == 0x410#32 && t.regs.ebx == 0 && t.regs.edx == 3#32) = true
    ∧ after .cpuid { kernel { gr with eax := 1 } with part := { r0.part with variant := .sx } }
      (fun t => t.regs.eax == 0x410#32 && t.regs.edx == 2#32) = true := by
  decide +kernel

/-- V-INVD 8, V-FAULT 2 and the real-mode frame: RSM outside SMM goes through vector 6, saving its own address. -/
theorem test_rsm_outside :
    after .rsm (withMem 24 [0x34, 0x12, 0x00, 0xC0] { ready with eip := 0x102#32, dec := { ready.dec with start := 0x100#32 } })
      (fun t => t.eip == 0x1234#32 && t.segs.cs.base == 0xC0000#32 && t.regs.esp == 0
        && t.settle.bus.mem.get 0 == 0#8 && t.settle.bus.mem.get 1 == 1#8 && t.settle.bus.mem.get 3 == 0xF0#8
        && t.settle.bus.mem.get 4 == 2#8) = true := by decide +kernel

/-- P3: the set with tags 200h, A300h, 1000h, 2314h and LRU 101b. -/
def p3 : State :=
  let w := fun (a : Addr) (k : BitVec 2) (c : Cache) => c.install false a k .shared (Vector.replicate 16 0)
  let c := w 0x0118A020 3 (w 0x00800020 2 (w 0x05180020 1 (w 0x00100020 0 emptyCache)))
  let c := c.putSet 2 { c.entry 2 with lru := 5#3 }
  withMem 0x4020 ((List.range 16).map fun i => BitVec.ofNat 8 (0xA0 + i))
    { kernel { gr with eax := 0x11223344 } with bus := { r0.bus with cache := c } }

theorem test_mov_read_miss :
    after (.movAlMoffs ⟨.ds, .o32 0x4025⟩) p3
      (fun t => t.regs.eax == 0x112233A5#32 && ((t.bus.cache.entry 2).way 3).tag == 8#21 && (t.bus.cache.entry 2).lru == 0#3
        && ((t.bus.cache.entry 2).way 3).data[15] == 0xAF#8
        && cycles 5 t == [(.memRead, 0x4028, 0, false), (.memRead, 0x402C, 0, false), (.memRead, 0x4020, 0, false),
          (.memRead, 0x4024, 0xD#4, false)]) = true := by decide +kernel

/-- V-WRITE 2, a miss, and 3, a hit with CD and NW: no bus cycle. -/
theorem test_mov_write :
    after (.movMoffsAl ⟨.ds, .o32 0x4025⟩) (kernel { gr with eax := 0xAA })
      (fun t => t.bus.mem == [(0x4025, 0xAA#8)] && cycles 2 t == [(.memWrite, 0x4024, 0xD#4, false)]
        && (t.bus.cache.lookup false 0x4025).isNone) = true
    ∧ after (.movMoffsAl ⟨.ds, .o32 0x4025⟩) (withCr0 0x60000011 (withLine 0x4020 .shared (kernel { gr with eax := 0xAA })))
      (fun t => t.bus.mem == [] && t.bus.trace == [] && t.view 0x4025 == 0xAA#8 && t.view 0x4026 == 0xA5#8) = true := by
  decide +kernel

/-- A step from the bytes at CS:EIP: MOV AH, 7Fh changes one byte register and EIP. -/
theorem test_step_mov : (next? (step withMov)).any (fun t => t.regs.eax == 0x7F00#32 && t.eip == 0xFFF2#32) = true := by decide +kernel

/-- V-BE and P4: IN AL, 61h on lane 1; a doubleword at 0CFBh in two cycles. -/
theorem test_in :
    after (.inAlImm8 0x61) { kernel gr with bus := { r0.bus with ioIn := [0x00003000#32] } }
      (fun t => t.regs.eax == 0x30#32 && cycles 2 t == [(.ioRead, 0x60, 0xD#4, false)]) = true
    ∧ after (.inEaxDx .w32) { kernel { gr with edx := 0xCFB } with bus := { r0.bus with ioIn := [0x44000000#32, 0x00332211#32] } }
      (fun t => t.regs.eax == 0x33221144#32 && cycles 3 t == [(.ioRead, 0xCFC, 0x8#4, false), (.ioRead, 0xCF8, 0x7#4, false)]) = true := by
  decide +kernel

/-- P4: OUT 20h, AL. -/
theorem test_out :
    after (.outImm8Al 0x20) (kernel { gr with eax := 0x11 })
      (fun t => cycles 2 t == [(.ioWrite, 0x20, 0xE#4, false)] && (t.bus.trace.map (·.data)) == [0x11#32]) = true := by decide +kernel

/-- R531: one iteration of REP OUTSB goes back to its first byte. -/
theorem test_rep_outsb :
    after (.outsb .ds .a32)
      { kernel { gr with ecx := 2, esi := 0x500, edx := 0x80 } with eip := 0x1002, dec := { r0.dec with rep := true, start := 0x1000 } }
      (fun t => t.regs.ecx == 1#32 && t.regs.esi == 0x501#32 && t.eip == 0x1000#32) = true := by decide +kernel

/-- R534: XCHG with memory locks the bus without a prefix. -/
theorem test_xchg_memory :
    after (.xchgRmR .w32 (.mem ⟨.ds, .abs32 0x2000⟩) .ecx) (withMem 0x2000 [0x78, 0x56] (kernel { gr with ecx := 9 }))
      (fun t => t.regs.ecx == 0x5678#32 && t.bus.mem == [(0x2000, 9#8)]
        && cycles 3 t == [(.memWrite, 0x2000, 0, true), (.memRead, 0x2000, 0, true)]) = true := by decide +kernel

/-- V-CLK 6. -/
theorem test_hlt :
    after .hlt (kernel gr) (fun t => t.halted && t.clock == .autoHaltPowerDown && cycles 2 t == [(.special, 0, 0xB#4, false)]) = true := by
  decide +kernel

/-- EB FE jumps to itself. -/
theorem test_jmp :
    after (.jmpRel8 .w32 0xFE) { kernel gr with dec := { r0.dec with start := 0x1000, count := 2 } } (fun t => t.eip == 0x1000#32) = true := by
  decide +kernel

/-- R543, R665: 66h E9 at offset 20000h of a 16-bit segment with a limit of 4GB: the target counts from 20006h, which EIP there does not hold. -/
theorem test_jmp_far : after (.jmpRel (.i32 0x100)) { farJumping with eip := 6 } (fun t => t.eip == 0x20106#32) = true := by decide +kernel

/-- V-INT 7's delivery by INT 8: CS:IP from 00000022h and 00000020h. -/
theorem test_int_real :
    after (.intN 8) (withMem 0x20 [0x78, 0x56, 0x00, 0xF0] ready)
      (fun t => t.eip == 0x5678#32 && t.segs.cs.sel == 0xF000#16 && t.segs.cs.base == 0xF0000#32) = true := by decide +kernel

/-- 10_state.md R43: PUSHFD stores the flags; POPFD takes AC and ID. -/
theorem test_flags_on_stack :
    after (.pushf .w32) (kernel { gr with esp := 0x1004 }) (fun t => t.regs.esp == 0x1000#32 && t.bus.mem == [(0x1000, 2#8)]) = true
    ∧ after (.popf .w32) (withMem 0x1000 [0xFF, 0xFF, 0xFF, 0xFF] (withCr0 0x40000011 (kernel { gr with esp := 0x1000 })))
      (fun t => t.regs.esp == 0x1004#32 && t.eflags == 0x003C7FD7#32) = true := by decide +kernel

/-- V-FAULT 4 and 13: TS gives vector 7; a pending error freezes WAIT without NE and IGNNE#. -/
theorem test_fpu_gate :
    after (.esc .w16 0 0 (.reg 1)) (withMem 28 [0x00, 0x07] (withCr0 0x60000018 ready)) (fun t => t.eip == 0x700#32) = true
    ∧ after .wait (fpError false false) (fun t => t.eip == 0 && t.fpErrorPending) = true := by decide +kernel

/-- V-CR0 1, 5 and 7; V-CR0 3 through vector 13. -/
theorem test_mov_cr0 :
    after (.movCrR 0 .eax) (withEax 0x10) (fun t => t.cr0 == 0x10#32) = true ∧ after (.movCrR 0 .eax) (withEax 0) (fun t => t.cr0 == 0x10#32) = true
    ∧ after (.movRCr .ebx 0) r0 (fun t => t.regs.ebx == 0x60000010#32) = true
    ∧ after (.movCrR 0 .eax) (withMem 52 [0x00, 0x0D] { ready with regs := { ready.regs with eax := 0x20000010 } })
      (fun t => t.eip == 0xD00#32 && t.cr0 == 0x60000010#32) = true := by decide +kernel

/-- 44_instructions_referenced.md R546, R547: what is written is read, but for reserved bits (D5). -/
theorem test_mov_dr_tr :
    after (.movDrR 7 .eax) (withEax 0x401) (fun t => t.dr7 == 0x1#32) = true
    ∧ after (.movTrR 3 .eax) (withEax 0x1234) (fun t => t.tr3 == 0x1234#32) = true := by decide +kernel

/-- 30_encoding.md R230, R231: a memory write with two enables, and the interrupt acknowledge pair. -/
theorem test_bus_rows :
    after (.memWriteCycle ⟨0x400, 0xC#4, 0x44332211⟩) r0 (fun t => t.bus.mem == [(0x1000, 0x11#8), (0x1001, 0x22#8)]) = true
    ∧ after (.intAckCycle ⟨0, 0, 0⟩) { r0 with pins := { r0.pins with intVector := 8 } }
      (fun t => t.bus.vector == 8#8 && cycles 3 t == [(.intAck, 0, 0xE#4, true), (.intAck, 4, 0xE#4, true)]) = true := by decide +kernel

/-- V-BURST. -/
theorem test_fill_order :
    (List.range 4).map (fun k => fillAddr (0x4025#32 |>.extractLsb' 2 30) k ++ 0#2) = [0x4024#32, 0x4020#32, 0x402C#32, 0x4028#32]
    ∧ (List.range 4).map (fun k => fillAddr (0x402B#32 |>.extractLsb' 2 30) k ++ 0#2) = [0x4028#32, 0x402C#32, 0x4020#32, 0x4024#32] := by
  decide +kernel

/-- V-LRU: the victims of the eight settings, and Touch from 101b. -/
theorem test_lru :
    (List.range 8).map (fun k => { fullSet with lru := BitVec.ofNat 3 k }.victim) = [0, 2, 1, 2, 0, 3, 1, 3]
    ∧ [touchLru 5 0, touchLru 5 1, touchLru 5 2, touchLru 5 3] = [7, 5, 4, 0] := by decide +kernel

/-- V-ADDR, both cache sizes. -/
theorem test_cache_address :
    (tagOf false 0x0118A020, setOf false 0x0118A020, byteOf 0x0118A020) = (0x2314#21, 2#8, 0#4)
    ∧ (tagOf true 0x00000800, setOf true 0x00000800, byteOf 0x0000080F) = (0#21, 0x80#8, 0xF#4)
    ∧ lineAddr false 0xA300 2 = 0x05180020#32 := by decide +kernel

/-- V-SIZE. -/
theorem test_bus_size :
    itemLanes 8 4 0xF = [0xF, 0xE, 0xC, 0x8] ∧ itemLanes 16 4 0xF = [0xF, 0xC] ∧ itemLanes 16 4 0x6 = [0x6, 0x4] ∧ itemLanes 32 4 0xF = [0xF] := by
  decide +kernel

/-- V-MESI 7 and 8: a snooped modified line is queued for write-back with HITM#. -/
theorem test_snoop :
    let t := fun (inv : Bool) => { dirty with bus := dirty.bus.snoop dirty.memCtx 0x123 inv }
    Cache.stateAt (t false).bus.cache false 0x1230 = some .exclusive ∧ (t false).hitm = true
    ∧ (t true).bus.cache.lookup false 0x1230 = none ∧ (t true).hitm = true := by decide +kernel

/-- 60_exceptions.md R706, 40_signal_interface.md R286: a snoop sampled by a clock in Stop Grant passes through Stop Clock Snoop; HOLD is
not acknowledged between the locked interrupt acknowledge cycles. -/
theorem test_clocked_snoop :
    let held := { r0.bus with heldHold := true, heldAddr := true }
    let k := { quietPins with ahold := true, eads := some (0x123#28, false) }
    let ack := { Xfer.new .intAck { CycleAttr.plain with lock := true } [⟨0, 0xE, 0, 0⟩] with cont := true }
    ({ r0 with clock := .stopGrant, bus := held }.busClock k).clock = .stopClockSnoop
    ∧ { r0 with pins := { r0.pins with hold := true } }.hlda = true
    ∧ { r0 with pins := { r0.pins with hold := true }, bus := { r0.bus with cur := [ack] } }.hlda = false := by decide +kernel

/-- V-BUS 1 and 8. -/
theorem test_bus_states :
    let go := fun (b : Bus) (k : ClockIn) => b.clock r0.memCtx true false k
    let one := go { r0.bus with queue := [.row (.memReadCycle ⟨0, 0, 0⟩)] } quietPins
    let two := go one quietPins
    (one.phase, two.phase, (go two { quietPins with rdy := true }).phase) = (.t1, .t2, .ti)
    ∧ (go { busy.bus with phase := .t1b } { quietPins with boff := true }).phase = .tb := by decide +kernel

/-- R451, R356: BOFF# after the first doubleword of a fill; the fill goes on at the next address, with ADS#, and installs the line. -/
theorem test_fill_backed_off :
    let ready := { quietPins with brdy := true }
    let off := { quietPins with boff := true }
    let s := { withMem 0x4020 [0xA0, 0xA1, 0xA2, 0xA3, 0xA4] (kernel gr) with
      bus := { r0.bus with mem := (withMem 0x4020 [0xA0, 0xA1, 0xA2, 0xA3, 0xA4] r0).bus.mem
                           script := [quietPins, ready, off, quietPins] } }
    after (.movAlMoffs ⟨.ds, .o32 0x4024⟩) s
      (fun t => t.regs.eax == 0xA4#32 && (t.bus.trace.map (·.addr ++ 0#2)).reverse == [0x4024#32, 0x4020#32, 0x402C#32, 0x4028#32]
        && (t.bus.trace.map (·.ads)).reverse == [true, true, false, false] && t.bus.script == []
        && Cache.stateAt t.bus.cache false 0x4020 == some .shared) = true := by decide +kernel

/-- R366, R773: a snoop of the line while it is being filled: the data is used, the line is not made valid. -/
theorem test_fill_snooped :
    let ready := { quietPins with brdy := true }
    let s := { kernel gr with
      bus := { r0.bus with mem := [(0x4024, 0xA4)]
                           script := [quietPins, ready, { quietPins with ahold := true }, { quietPins with eads := some (0x402#28, false) }] } }
    after (.movAlMoffs ⟨.ds, .o32 0x4024⟩) s
      (fun t => t.regs.eax == 0xA4#32 && t.bus.trace.length == 4 && (t.bus.cache.lookup false 0x4020).isNone) = true := by decide +kernel

/-- R427: a line from an 8-bit device is sixteen items; R351: the first has the read's own enables. -/
theorem test_fill_narrow :
    let s := { kernel gr with platform := { r0.platform with bus8 := [⟨0, 0xFFFFFFFF⟩] } }
    after (.movAlMoffs ⟨.ds, .o32 0x4025⟩) s
      (fun t => t.bus.trace.length == 16 && t.bus.trace.getLast?.map (·.be) == some 0xD#4) = true := by decide +kernel

/-- R431, R445: an 8-byte operand that is not cached: one burst of two, BLAST# and PLOCK# off with the last and the first only. -/
theorem test_eight_byte_read :
    after (.esc .w32 5 0 (.mem ⟨.ds, .abs32 0x2000⟩)) (withCr0 0x60000011 (kernel gr))
      (fun t => t.bus.trace.map (fun c => (c.addr ++ 0#2, c.ads, c.blast, c.plock)) ==
        [(0x2004#32, false, true, false), (0x2000#32, true, false, true)]) = true := by decide +kernel

/-- R183, R445: a doubleword written to an 8-bit device: PLOCK# in all its cycles but the last. -/
theorem test_plock_narrow :
    let s := { kernel { gr with eax := 0x44332211 } with platform := { r0.platform with bus8 := [⟨0, 0xFFFFFFFF⟩] } }
    after (.movMoffsEax .w32 ⟨.ds, .o32 0x4024⟩) s
      (fun t => t.settle.bus.trace.map (·.plock) == [false, true, true, true]) = true := by decide +kernel

/-- R183, R445: a read that may become a fill has PLOCK# from its first T1, and in the idle clocks after its first ready. -/
theorem test_plock_fill :
    let x := { Xfer.new .codeRead .plain (lineParts 0x400) with want := true }
    let at_ := fun (p : BusPhase) (x : Xfer) => State.plockActive { r0 with bus := { r0.bus with phase := p, cur := [x] } }
    at_ .ti x = false ∧ at_ .t1 x = true ∧ at_ .t2 x = true ∧ at_ .ti (x.decide true false) = true ∧ at_ .t2 (x.decide false false) = false := by
  decide +kernel

/-- R183, R269: an eight-byte write of two cycles: PLOCK# stays asserted in Ti, where AHOLD keeps the second one waiting, until its
address is driven. -/
theorem test_plock_write :
    let wb := writeEntries false false false false false false memDword (dwordsOf 0x2000 8) (List.replicate 8 7)
    let go := fun (s : State) (k : ClockIn) => s.busClock k
    let held := { quietPins with ahold := true }
    let s := go (go (go { r0 with bus := { r0.bus with wb := wb } } quietPins) held) { held with rdy := true }
    let t := go s quietPins
    (s.bus.phase, s.bus.trace.length, s.plockActive) = (.ti, 1, true) ∧ (t.bus.phase, t.plockActive) = (.t1, false) := by decide +kernel

/-- R183, R269: a read that passes the second half of an operand's write in the buffers has PLOCK#; one of an operand whose other bytes
are in the cache has not. -/
theorem test_plock_read :
    let half : WbEntry := ⟨false, 0x900, 0xF, 7, true, false, false, false, true⟩
    let s := kernel gr
    after (.movAlMoffs ⟨.ds, .o32 0x4025⟩) { withCr0 0x60000011 s with bus := { s.bus with wb := [half] } }
      (fun t => t.bus.wb == [half] && t.bus.trace.map (·.plock) == [true] && t.plockActive) = true
    ∧ after (.esc .w32 5 0 (.mem ⟨.ds, .abs32 0x122C⟩)) (withLine 0x1230 .shared (withCr0 0x60000011 s))
      (fun t => t.bus.trace.map (fun c => (c.addr ++ 0#2, c.plock)) == [(0x122C#32, false)]) = true := by decide +kernel

/-- R425, R470: BS16# in the T1 after which the script ends: the first item moves half of the doubleword, in 2 clocks, and the burst goes on with
the rest. -/
theorem test_script_ends :
    let s := withCr0 0x60000011 (kernel gr)
    after (.movEaxMoffs .w32 ⟨.ds, .o32 0x4024⟩) { s with bus := { s.bus with script := [{ quietPins with bs16 := true }] } }
      (fun t => t.bus.trace.map (fun c => (c.be, c.clocks)) == [(0x3#4, 1), (0x0#4, 2)] && t.bus.clocks == s.bus.clocks + 3) = true := by
  decide +kernel

/-- R425: eight bytes in one burst, the first four at an 8-bit device: the size sampled in the only T1 counts for all of them; without a burst the
second doubleword samples its own. -/
theorem test_burst_size :
    let s := withCr0 0x60000011 (kernel gr)
    let run := fun (burst : Bool) => after (.esc .w32 5 0 (.mem ⟨.ds, .abs32 0x2000⟩))
      { s with platform := { s.platform with bus8 := [⟨0x2000, 0x2003⟩], burst := burst } }
    run true (fun t => t.bus.trace.length == 8) = true ∧ run false (fun t => t.bus.trace.length == 5) = true := by decide +kernel

/-- R425, R450, R470: the script ends in the write-back of a snooped line that has come before a burst backed off after its first doubleword.
The burst's new cycle has ADS#, samples the bus size anew (the device is 8 bits wide now) and takes 2 clocks, past the 1 it had. -/
theorem test_backed_off_behind :
    let x := { Xfer.new .memRead .plain [⟨0x801, 0xF, 0, 0⟩] with decided := true, ads := false, size := some 32, spent := 1 }
    let b := { dirty.bus with phase := .t1, cur := [writeBackXfer 0x123 (Vector.replicate 16 0xA5) true, x], clocks := 9 }
    let c := { dirty.memCtx with plat := { dirty.memCtx.plat with bus8 := [⟨0x2000, 0x20FF⟩] } }
    let b := b.finishCur c false
    (b.trace.take 5).map (fun t => (t.kind, t.be, t.ads, t.clocks))
      = [(.memRead, 0x7#4, false, 1), (.memRead, 0x3#4, false, 1), (.memRead, 0x1#4, false, 1), (.memRead, 0x0#4, true, 3), (.memWrite, 0x0#4, false, 1)]
    ∧ b.clocks = 9 + 5 + 5 := by decide +kernel

/-- R410, R470: an interrupt acknowledge takes 2, 4 idle and 2 clocks, wherever the script ends: in the first cycle, in each of the idle
clocks, or in the second cycle. -/
theorem test_acknowledge_clocks :
    (List.range 8).all (fun n =>
      match transact r0.memCtx false (ackXfers 8)
          { r0.bus with script := (quietPins :: { quietPins with rdy := true } :: List.replicate 5 quietPins).take n } with
      | .ok () b => b.clocks == 8 && b.trace.map (·.clocks) == [6, 2] && b.vector == 8
      | .error _ _ => false) = true := by decide +kernel

/-- R352: the script ends in the T1 of a read, with KEN# inactive; without wait states the ready follows at once, and no line is filled. With
one wait state KEN# is sampled once more. -/
theorem test_script_ends_ken :
    let s := kernel gr
    let run := fun (w : Nat) (k : Bool) => after (.movEaxMoffs .w32 ⟨.ds, .o32 0x4024⟩)
      { s with platform := { s.platform with waits := w }, bus := { s.bus with script := [{ quietPins with ken := k }] } }
      (fun t => t.bus.trace.length == 4 && (t.bus.cache.lookup false 0x4020).isSome)
    run 0 true = true ∧ run 0 false = false ∧ run 1 false = true := by decide +kernel

/-- R636: INT 20h where neither its vector nor that of the general protection fault lies in the table: the double fault. -/
theorem test_double_fault :
    after (.intN 0x20) (withMem 32 [0x34, 0x12, 0x00, 0xC0] (tableOf 35)) (fun t => t.eip == 0x1234#32 && !t.shutdown) = true := by decide +kernel

/-- R636: a row longer than a step delivers is left over, and the next step goes on with it; an NMI waits. -/
theorem test_serial :
    (match takeException 1 (externalInterrupt 0x20) (tableOf 55) with
      | .ok () t => t.serial == some (generalProtection 0x102) && !t.shutdown
      | .error _ _ => false) = true
    ∧ (next? (step (withMem 52 [0x34, 0x12, 0x00, 0xC0]
        { tableOf 55 with serial := some (generalProtection 0x102), pend := ⟨true, false, false⟩ }))).any
        (fun t => t.eip == 0x1234#32 && t.serial.isNone && t.pend.nmi) = true := by decide +kernel

/-- R641, R672, R675, R683: RSM of an invalid map, to the halt state, and with the I/O restart of a REP OUTSB one iteration back. -/
theorem test_rsm_slots :
    after .rsm (mapped 0xF9 [0x40]) (fun t => t.shutdown && t.inSMM && cycles 1 t == [(.special, 0, 0xE, false)]) = true
    ∧ after .rsm { mapped 0x102 [1] with haltedAtSmi := true }
      (fun t => t.halted && !t.inSMM && cycles 1 t == [(.special, 0, 0xB, false)]) = true
    ∧ after .rsm { mapped 0x100 [0xFF] with ioAtSmi := some ⟨2, some ⟨.a16, false, 1⟩⟩ }
      (fun t => t.eip == 0xFFFFFFFE#32 && t.regs.ecx == 1 && t.regs.esi == 0xFFFF#32) = true := by decide +kernel

/-- R544, R637: INT n with TF = 1: the handler starts with TF clear and no single-step trap due (log 29). -/
theorem test_int_n_stepped :
    after (.intN 6) (withMem 24 [0x34, 0x12, 0x00, 0xC0] { ready with eflags := 0x102, dec := { ready.dec with tf := true } })
      (fun t => t.eip == 0x1234#32 && !t.tf && !t.trapPending && (boundaryEvent t).isNone) = true := by decide +kernel

/-- R455, R586: when BOFF# is released the write-back of a snooped line goes first, but not while AHOLD is asserted. -/
theorem test_back_off_held :
    let b := { busy.bus with phase := .tb, queue := [.writeBack 0x123 (Vector.replicate 16 0xA5)] }
    let go := fun (k : ClockIn) => ((b.clock r0.memCtx false false k).phase, (b.clock r0.memCtx false false k).cur.map (·.kind))
    go quietPins = (.t1b, [.memWrite, .memRead]) ∧ go { quietPins with ahold := true } = (.t1b, [.memRead]) := by decide +kernel

/-- R586: a line snooped, stored to and snooped again is written back twice, last with the bytes of the store. -/
theorem test_snooped_again :
    let once := { dirty with bus := dirty.bus.snoop dirty.memCtx 0x123 false }
    let b := (withLine 0x1230 .modified { once with bus := { once.bus with cache := emptyCache } }).bus
    let b := { b with cache := b.cache.writeHit false 0x1230 0 .modified [0x5A] }
    let b := b.snoop dirty.memCtx 0x123 false
    b.queue.map (fun | .writeBack _ d => d[0] | .row _ => 0) = [0xA5#8, 0x5A]
    ∧ (b.runUrgent dirty.memCtx b.queue).mem.get 0x1230 = 0x5A := by decide +kernel

/-- R291, R325: EADS# in the first clock after AHOLD, HOLD or BOFF# has become asserted is a snoop; with none of them it is none. -/
theorem test_first_snoop :
    let s := withLine 0x1230 .shared cacheOn
    let hit := fun (p : Pins) =>
      ({ s with pins := p }.busClock { quietPins with eads := some (0x123#28, true) }).bus.cache.lookup false 0x1230
    (hit { Pins.idle with ahold := true }).isNone ∧ (hit { Pins.idle with hold := true }).isNone
    ∧ (hit { Pins.idle with boff := true }).isNone ∧ (hit Pins.idle).isSome := by decide +kernel

/-- R9, R184: straight-line code of one-byte instructions at 2038h. What has run leaves, the running instruction and two more stand in the
decode stages, and the queue fills up to its 32 bytes in the middle of a line; when one of them has run, the rest of the line comes. -/
theorem test_read_ahead :
    let nops := fun (a : Addr) (n : Nat) => (List.range n).map fun k => (⟨a + BitVec.ofNat 32 k, 0x90, 0x90⟩ : QByte)
    let run := fun (lin : Addr) (b : Bus) =>
      match prefetchAhead r0.memCtx (r0.pageCtx false) lin 0x1000 (stageBytes r0.decodeCtx 3) b with
      | .ok () b => b
      | .error _ b => b
    let code := (List.range 0x80).map fun k => ((0x2000 + k, 0x90) : Host.Cell)
    let b0 := { r0.bus with mem := code, fetchq := ⟨nops 0x2018 10, nops 0x2022 30⟩ }
    let b1 := run 0x2038 (run 0x2038 (run 0x2038 b0))
    (b1.fetchq.stages.map (·.addr), b1.fetchq.queue.length, b1.fetchq.queue.getLast?.map (·.addr))
        = ([0x2038#32, 0x2039, 0x203A], 32, some 0x205A#32)
    ∧ ((run 0x2039 b1).fetchq.queue.getLast?.map (·.addr), b1.trace.length, (run 0x2039 b1).trace.length) = (some 0x205B#32, 8, 12) := by
  decide +kernel

/-- R627: an instruction of `Base386` that has written and then faults leaves memory as it was; one that goes on reads what it has
written; after a task switch the fault is the new task's. -/
theorem test_base_writes :
    let s := kernel gr
    let left := { s.baseRegs with cpl := 0, regs := { gr with eax := 7 } }
    let r : BaseResult := ⟨left, [], some 0x5000, false, none, true⟩
    (match runBase [] (.write .ds 0x2000 [7] (.raise .divideError)) s with
      | .error (.exc e) t => e.vector == 0 && t.bus.trace == [] && t.bus.wb == [] && t.bus.mem == s.bus.mem
      | _ => false) = true
    ∧ (match runBase [] (.write .ds 0x2000 [7] (.read .ds 0x1FFF 2 fun bs => if bs == [0, 7] then .done r else .raise .divideError)) s with
      | .ok () t => t.eip == 0x5000 && t.taskTrap && t.bus.view t.memCtx 0x2000 == 7
      | _ => false) = true
    ∧ (match runBase [] (.commit r (.raise .divideError)) s with
      | .error (.taskExc e) t => e.returnPc t == 0x5000 && t.regs.eax == 7
      | _ => false) = true := by decide +kernel

/-- R8, R627: `Base386` pushes on a stack that is not loaded yet, and where a later push has no room nothing is written; the checks of a
write alone write nothing either. -/
theorem test_base_push :
    let s := kernel gr
    let inner : Seg := ⟨8, 0x3000, 0xFF, 0x4093⟩
    let r : BaseResult := ⟨s.baseRegs, [], none, false, none, false⟩
    (match runBase [] (.push inner 8 0 8 [1, 2, 3, 4] fun sp => .push inner sp 0 8 [5, 6, 7, 8] fun sp =>
        if sp == 0 then .done r else .raise .divideError) s with
      | .ok () t => t.bus.view t.memCtx 0x3004 == 1 && t.bus.view t.memCtx 0x3000 == 5
      | _ => false) = true
    ∧ (match runBase [] (.push inner 4 0 8 [1, 2, 3, 4] fun sp => .push inner sp 0 8 [5, 6, 7, 8] fun _ => .done r) s with
      | .error (.exc e) t => e.vector == 12 && e.code == some 8 && t.bus.trace == [] && t.bus.mem == s.bus.mem
      | _ => false) = true
    ∧ (match runBase [] (.check .ds 0x2000 4 (.done r)) s, runBase [] (.check .ds 0xFFFFFFFF 4 (.done r)) s with
      | .ok () t, .error (.exc e) _ => t.bus.trace == [] && t.bus.wb == [] && t.bus.mem == [] && e.vector == 13
      | _, _ => false) = true := by decide +kernel

/-- R627: IRET to an outer level marks both descriptors accessed once it is done; until then a mark is held back. -/
theorem test_iret_accessed :
    let s := withMem 0x1000 ([0x100#32, 0x1B, 2, 0x800, 0x23].flatMap (toBytes 4))
      (withMem 0x5018 ([0xFFFF#32, 0x00CFFA00, 0xFFFF, 0x00CFF200].flatMap (toBytes 4))
        { kernel { gr with esp := 0x1000 } with gdtr := ⟨0x5000, 0x27⟩ })
    (match iretProt .w32 s with
      | .ok () t => t.cpl == 3 && t.bus.view t.memCtx 0x501D == 0xFB && t.bus.view t.memCtx 0x5025 == 0xF3
      | _ => false) = true
    ∧ (match holdAccessed 0x5018 0xCFFA000000FFFF s with
      | .ok ws t => ws.length == 1 && t.bus.mem == s.bus.mem && t.bus.wb == [] && t.bus.trace == []
      | _ => false) = true := by decide +kernel

/-- R156: with PE cleared the segments have the limit of real mode; a segment loaded in real mode gets it too. -/
theorem test_real_limit :
    after (.movCrR 0 .eax) (kernel { gr with eax := 0x60000010 })
      (fun t => !t.pe && t.segs.ds.limit == 0xFFFF#32 && t.segs.cs.limit == 0xFFFF#32 && t.segs.ds.base == 0) = true
    ∧ (r0.segs.ds.loadReal { r0 with inSMM := true }.realLimit 0x1234) = ⟨0x1234, 0x12340, 0xFFFFFFFF#32, 0x93⟩ := by decide +kernel

/-- R645, R646: STPCLK# is recognised after MOV SS, but not before an NMI that waits; a trap of HLT comes before a FLUSH# in Auto HALT
Power Down. -/
theorem test_event_order :
    let s := { r0 with ssShadow := true, pins := { Pins.idle with stpclk := true } }
    s.stpclkDue = true ∧ { s with pend := { s.pend with nmi := true } }.stpclkDue = false
    ∧ (let h := { withLine 0x1230 .exclusive dx2wb with
                  clock := .autoHaltPowerDown, halted := true, pend := ⟨false, false, true⟩ }
       (next? (stepClocked h)).map (·.clock) = some .autoHaltPowerDownFlush
       ∧ (next? (stepClocked { h with trapPending := true })).map (·.clock) ≠ some .autoHaltPowerDownFlush) := by decide +kernel

/-- R646: MOV SS, but not MOV DS, holds interrupts back for one instruction. -/
theorem test_loads_ss :
    (loadsSs false 0x8E (some 0xD0), loadsSs false 0x8E (some 0xD8), loadsSs false 0x17 none) = (true, false, true) := by decide +kernel

/-- R536: LOCK before an instruction of the 80386 that does not take it, PUSH: an invalid opcode. -/
theorem test_lock_base :
    (next? (runBase386 false 0x50 none (locked (withMem 24 [0x34, 0x12, 0x00, 0xC0] ready)))).any (fun t => t.eip == 0x1234#32) = true := by
  decide +kernel

/-- R637: a store that a write breakpoint matches is followed by a trap. -/
theorem test_data_breakpoint :
    after (.movMoffsAl ⟨.ds, .o32 0x4025⟩) { kernel gr with dr0 := 0x4025, dr7 := 0x10001 }
      (fun t => t.dbgHits == 1#4 && t.bus.mem == [] && (boundaryEvent t).isSome) = true := by decide +kernel

/-- R641, U20: an NMI ends a shutdown though it is blocked else. -/
theorem test_nmi_ends_shutdown : (next? (step nmiPending)).any (fun t => !t.shutdown && t.inNmi) = true := by decide +kernel

/-- V-SMM-1: slots of the map, written from the top downward, and the processor after entry. -/
theorem test_smm_entry :
    let s := { kernel { gr with eax := 0xAAAAAAAA } with eip := 0x1001, eflags := 0x202, dr7 := 0x2001 }
    (final (enterSmm none s)).any (fun t => t.eip == 0x8000#32 && t.eflags == 2#32 && t.cr0 == 0x10#32 && t.segs.cs.sel == 0x3000#16
      && t.dr7 == 0x2000#32 && at32 t.smmImage 0x1F0 == 0x1001#32 && at32 t.smmImage 0x1D0 == 0xAAAAAAAA#32
      && at32 t.smmImage 0x1C8 == 0x2001#32 && at32 t.smmImage 0xF8 == 0x30000#32 && at16 t.smmImage 0x1B4 == 0x10#16
      && t.bus.trace.length == 128 && (t.bus.trace.getLast?.map fun c => (c.addr ++ 0#2, c.data)) == some (0x3FFFC#32, 0x11#32)
      && (t.bus.trace.head?.map (·.addr ++ 0#2)) == some 0x3FE00#32) = true := by
  decide +kernel

/-- V-RESET. -/
theorem test_reset_values :
    (r0.eip, r0.segs.cs.base, r0.eflags, r0.cr0, r0.smbase) = (0xFFF0#32, 0xFFFF0000#32, 2#32, 0x60000010#32, 0x30000#32)
    ∧ (r0.inSMM, r0.halted, r0.shutdown) = (false, false, false) := by decide +kernel

end Sys2Proof.Tests
end

section
/-! SUPPORT. What every computation of the model keeps: a property of the state that holds where it starts holds where it ends,
whether it ends well or not. -/

namespace Sys2Proof.Machine

/-! ### Computations that keep a property -/

section
variable {ε σ α β : Type} {P : σ → Prop} {Q : α → Prop} {R : β → Prop}

/-- A computation has ended, well or not, in a state with `P`. -/
def Ends (P : σ → Prop) : EStateM.Result ε σ α → Prop
  | .ok _ t => P t
  | .error _ t => P t

/-- Started with `P`, a computation ends with `P`, well or not. -/
structure Keeps (P : σ → Prop) (m : EStateM ε σ α) : Prop where
  run : ∀ s, P s → Ends P (m s)

/-- Moreover what it answers satisfies `Q`. -/
structure Gives (P : σ → Prop) (Q : α → Prop) (m : EStateM ε σ α) : Prop extends Keeps P m where
  answer : ∀ {s a t}, P s → m s = .ok a t → Q a

theorem Ends.of_ok {r : EStateM.Result ε σ α} {a : α} {t : σ} (h : Ends P r) (e : r = .ok a t) : P t := by
  rw [e] at h
  exact h

theorem Ends.of_error {r : EStateM.Result ε σ α} {e : ε} {t : σ} (h : Ends P r) (e : r = .error e t) : P t := by
  rw [e] at h
  exact h

theorem Keeps.gives {m : EStateM ε σ α} (h : Keeps P m) : Gives P (fun _ => True) m := ⟨h, fun _ _ => trivial⟩

/-- What follows relies on what was answered. -/
theorem Gives.andThen {m : EStateM ε σ α} {f : α → EStateM ε σ β} (hm : Gives P Q m) (hf : ∀ a, Q a → Keeps P (f a)) :
    Keeps P (m >>= f) := ⟨fun s hs => by
  have h := hm.run s hs
  cases e : m s with
  | ok a t => rw [bind_ok e]; exact (hf a (hm.answer hs e)).run t (h.of_ok e)
  | error r t => rw [bind_error e]; exact h.of_error e⟩

theorem Gives.andGives {m : EStateM ε σ α} {f : α → EStateM ε σ β} (hm : Gives P Q m) (hf : ∀ a, Q a → Gives P R (f a)) :
    Gives P R (m >>= f) where
  toKeeps := hm.andThen fun a ha => (hf a ha).toKeeps
  answer hs e := by
    obtain ⟨a, t, ha, hb⟩ := bind_eq_ok e
    exact (hf a (hm.answer hs ha)).answer ((hm.run _ hs).of_ok ha) hb

theorem Keeps.bind {m : EStateM ε σ α} {f : α → EStateM ε σ β} (hm : Keeps P m) (hf : ∀ a, Keeps P (f a)) : Keeps P (m >>= f) :=
  hm.gives.andThen fun a _ => hf a

theorem Gives.bind {m : EStateM ε σ α} {f : α → EStateM ε σ β} (hm : Keeps P m) (hf : ∀ a, Gives P R (f a)) :
    Gives P R (m >>= f) := hm.gives.andGives fun a _ => hf a

theorem Keeps.pure {a : α} : Keeps P (pure a : EStateM ε σ α) := ⟨fun _ hs => hs⟩
theorem Keeps.throw {e : ε} : Keeps P (throw e : EStateM ε σ α) := ⟨fun _ hs => hs⟩
theorem Keeps.set {t : σ} (h : P t) : Keeps P (set t : EStateM ε σ PUnit) := ⟨fun _ _ => h⟩
theorem Keeps.modify {f : σ → σ} (h : ∀ s, P s → P (f s)) : Keeps P (modify f : EStateM ε σ PUnit) := ⟨h⟩

theorem Gives.pure {a : α} (h : Q a) : Gives P Q (pure a : EStateM ε σ α) := ⟨.pure, fun _ e => by cases e; exact h⟩
theorem Gives.throw {e : ε} : Gives P Q (throw e : EStateM ε σ α) := ⟨.throw, fun _ e => by cases e⟩

/-- What is read of the state has the property. -/
theorem Gives.get : Gives P P (get : EStateM ε σ σ) := ⟨⟨fun _ hs => hs⟩, fun hs e => by cases e; exact hs⟩

theorem Keeps.get {f : σ → EStateM ε σ β} (hf : ∀ s, P s → Keeps P (f s)) : Keeps P (get >>= f) := Gives.get.andThen hf

theorem Keeps.ite {p : Prop} [Decidable p] {m n : EStateM ε σ α} (hm : p → Keeps P m) (hn : ¬p → Keeps P n) :
    Keeps P (if p then m else n) := by
  split
  · exact hm ‹_›
  · exact hn ‹_›

theorem Gives.ite {p : Prop} [Decidable p] {m n : EStateM ε σ α} (hm : p → Gives P Q m) (hn : ¬p → Gives P Q n) :
    Gives P Q (if p then m else n) := by
  split
  · exact hm ‹_›
  · exact hn ‹_›

/-- A check before the rest, which may end the computation. -/
theorem Keeps.check {p : Prop} [Decidable p] {m : EStateM ε σ Unit} {f : Unit → EStateM ε σ β} (hm : Keeps P m)
    (hf : ∀ a, Keeps P (f a)) : Keeps P (if p then m >>= f else f ()) := .ite (fun _ => hm.bind hf) fun _ => hf ()

theorem Gives.check {p : Prop} [Decidable p] {m : EStateM ε σ Unit} {f : Unit → EStateM ε σ β} (hm : Keeps P m)
    (hf : ∀ a, Gives P R (f a)) : Gives P R (if p then m >>= f else f ()) := .ite (fun _ => .bind hm hf) fun _ => hf ()

/-- Two ways to what the rest goes on with. -/
theorem Gives.either {p : Prop} [Decidable p] {m n : EStateM ε σ α} {f : α → EStateM ε σ β} (hm : Gives P Q m) (hn : Gives P Q n)
    (hf : ∀ a, Q a → Keeps P (f a)) : Keeps P (if p then m >>= f else n >>= f) :=
  .ite (fun _ => hm.andThen hf) fun _ => hn.andThen hf

/-- A check that ends the computation unless what follows may rely on it. -/
theorem Keeps.guard {p : Prop} [Decidable p] {m : EStateM ε σ Unit} {f : Unit → EStateM ε σ β} (hm : Gives P (fun _ => False) m)
    (hf : ¬p → ∀ a, Keeps P (f a)) : Keeps P (if p then m >>= f else f ()) :=
  .ite (fun _ => hm.andThen fun _ h => h.elim) fun hp => hf hp ()

end

/-! ### What the bus unit keeps -/

/-- What the invariants look at in the bus unit. -/
def Bus.storage (b : Bus) : Memory × Memory × List WbEntry × FetchQueue := (b.mem, b.smram, b.wb, b.fetchq)

/-- The memories keep their form and the bytes read ahead their sizes (log 6, 27), and no write enters the write buffers. -/
structure Bus.Moved (b b' : Bus) : Prop where
  mem : b.memWf = true → b'.memWf = true
  wb : b'.wb.length ≤ b.wb.length
  fetchq : b.fetchq.Sized → b'.fetchq.Sized

/-- The memories keep their form (log 6), the write buffers and the bytes read ahead their sizes (10_state.md R76, R77). -/
structure Bus.Kept (b b' : Bus) : Prop where
  mem : b.memWf = true → b'.memWf = true
  wb : b.wb.length ≤ 4 → b'.wb.length ≤ 4
  fetchq : b.fetchq.Sized → b'.fetchq.Sized

theorem Bus.Moved.trans {a b c : Bus} (h : a.Moved b) (k : b.Moved c) : a.Moved c :=
  ⟨k.mem ∘ h.mem, k.wb.trans h.wb, k.fetchq ∘ h.fetchq⟩

theorem Bus.Kept.trans {a b c : Bus} (h : a.Kept b) (k : b.Kept c) : a.Kept c :=
  ⟨k.mem ∘ h.mem, k.wb ∘ h.wb, k.fetchq ∘ h.fetchq⟩

/-- `trans` with the later part first. -/
theorem Bus.Moved.after {a b c : Bus} (k : b.Moved c) (h : a.Moved b) : a.Moved c := h.trans k

theorem Bus.Moved.kept {b b' : Bus} (h : b.Moved b') : b.Kept b' := ⟨h.mem, h.wb.trans, h.fetchq⟩

theorem Bus.Moved.same {b b' : Bus} (h : b'.storage = b.storage) : b.Moved b' := by
  simp only [Bus.storage, Prod.mk.injEq] at h
  obtain ⟨hm, hs, hw, hq⟩ := h
  exact ⟨by simp only [Bus.memWf, hm, hs]; exact id, by rw [hw], by rw [hq]; exact id⟩

theorem Bus.Moved.refl (b : Bus) : b.Moved b := .same rfl
theorem Bus.Kept.same {b b' : Bus} (h : b'.storage = b.storage) : b.Kept b' := (Bus.Moved.same h).kept
theorem Bus.Kept.refl (b : Bus) : b.Kept b := .same rfl

/-! ### Transfers run whole -/

variable {b₀ b : Bus} {c : MemCtx}

theorem Bus.moved_setPhysByte (a : Addr) (v : Byte) : b.Moved (b.setPhysByte c a v) :=
  have h := Bus.sameUnit_setPhysByte b c a v
  ⟨Bus.memWf_setPhysByte b c a v, by rw [h.wb], by rw [h.fetchq]; exact id⟩

theorem Bus.moved_storeLane (a : BitVec 30) (lanes : BitVec 4) (d : DWord) (i : Nat) :
    b.Moved (if lanes.getLsbD i then b.setPhysByte c (laneAddr a (BitVec.ofNat 2 i)) (d.extractLsb' (8 * i) 8) else b) := by
  split
  · exact moved_setPhysByte ..
  · exact .refl b

theorem Bus.moved_storeLanes (a : BitVec 30) (lanes : BitVec 4) (d : DWord) : b.Moved (b.storeLanes c a lanes d) :=
  (((moved_storeLane a lanes d 0).trans (moved_storeLane a lanes d 1)).trans (moved_storeLane a lanes d 2)).trans
    (moved_storeLane a lanes d 3)

theorem Bus.moved_moveLanes (kind : CycleKind) (a : BitVec 30) (lanes : BitVec 4) (d : DWord) (bad : BitVec 4) :
    b.Moved (b.moveLanes c kind a lanes d bad) := by
  cases kind with
  | memWrite => exact moved_storeLanes ..
  | ioWrite | special => exact .refl b
  | memRead | codeRead | ioRead | intAck => exact .same rfl

theorem Bus.moved_keepPart (kind : CycleKind) (p : BusPart) : b.Moved (b.keepPart kind p) := by
  unfold Bus.keepPart
  split <;> exact .same rfl

theorem Bus.moved_movePart (x : Xfer) (p : BusPart) (driven : BitVec 4) (first ads more : Bool) :
    b.Moved (b.movePart c x p driven first ads more) :=
  have record (cs : List BusCycle) : b.Moved (b.record cs) := .same rfl
  ((record _).trans (moved_moveLanes ..)).trans (moved_keepPart ..)

theorem Bus.moved_moveRest (x : Xfer) (ps : List BusPart) : b.Moved (Bus.moveRest c x ps b) := by
  induction ps generalizing b with
  | nil => exact .refl b
  | cons p ps ih => exact (moved_movePart ..).trans ih

theorem Bus.moved_moveAll (x : Xfer) (driven : BitVec 4) (first : Bool) : b.Moved (b.moveAll c x driven first) := by
  unfold Bus.moveAll
  split
  · exact .refl b
  · exact (moved_movePart ..).trans (moved_moveRest ..)

theorem Bus.moved_installLine {b' : Bus} {line : BitVec 28} {wbwt : Bool} {v : Option Xfer}
    (h : b.installLine c line wbwt = (b', v)) : b.Moved b' := by
  cases h
  exact .same rfl

theorem Bus.moved_finish (x : Xfer) : b.Moved (b.finish c x) := by
  unfold Bus.finish
  dsimp only
  split
  · split <;> rename_i h
    · exact (moved_moveAll ..).trans (moved_installLine h)
    · exact ((moved_moveAll ..).trans (moved_installLine h)).trans (moved_moveAll ..)
  · exact moved_moveAll ..

theorem Bus.moved_finishAll (xs : List Xfer) : b.Moved (b.finishAll c xs) := by
  induction xs generalizing b with
  | nil => exact .refl b
  | cons x xs ih => exact (moved_finish x).trans ih

/-! ### The bus clock by clock -/

theorem Bus.moved_masterWrite (smram : Bool) (a : Addr) (v : Byte) : b.Moved (b.masterWrite c smram a v) := by
  refine ⟨fun h => ?_, Nat.le_refl _, fun h => h.noting _⟩
  simp only [Bus.memWf, Bool.and_eq_true, Bus.masterWrite] at h ⊢
  cases smram
  · exact ⟨Memory.wf_set _ _ h.1, h.2⟩
  · exact ⟨h.1, Memory.wf_set _ _ h.2⟩

theorem Bus.moved_snoop (line : BitVec 28) (inv : Bool) : b.Moved (b.snoop c line inv) := by
  unfold Bus.snoop
  dsimp only
  split_ifs <;> split <;> try split_ifs
  all_goals exact .same rfl

theorem Bus.moved_startCur : b.Moved b.startCur := by
  unfold Bus.startCur
  split <;> exact .same rfl

theorem Bus.moved_idled : b.Moved b.idled := by
  unfold Bus.idled
  split
  · exact .refl b
  · split <;> exact .same rfl

theorem Bus.moved_urgentFirst : b.Moved b.urgentFirst := by
  unfold Bus.urgentFirst
  split
  · split <;> exact .same rfl
  · exact .refl b

theorem Bus.moved_deviceData : b.Moved b.deviceData.2 := by
  unfold Bus.deviceData
  split <;> exact .same rfl

theorem Bus.moved_rowXfers {b' : Bus} {i : Instr} {xs : List Xfer} (h : b.rowXfers c i = (xs, b')) : b.Moved b' := by
  have key : b.Moved (b.rowXfers c i).2 := by
    cases i with
    | ioReadCycle op => exact moved_deviceData
    | _ => exact .refl b
  rwa [h] at key

theorem Bus.moved_nextOwn : b.Moved (b.nextOwn c) := by
  unfold Bus.nextOwn
  split
  · next e rest h => exact ⟨id, by rw [h]; exact Nat.le_succ _, id⟩
  · split
    · split
      · exact .refl b
      · next h => exact (moved_rowXfers h).trans (.same rfl)
    · exact .refl b

theorem Bus.moved_startNext (own keep : Bool) (k : ClockIn) : b.Moved (b.startNext c own keep k) := by
  unfold Bus.startNext
  dsimp only
  split
  · exact .same rfl
  · split
    · exact moved_startCur
    · split
      · exact .same rfl
      · split
        · exact moved_nextOwn.trans moved_startCur
        · exact moved_startCur

theorem Bus.moved_ready (own keep : Bool) (k : ClockIn) (x : Xfer) (xs : List Xfer) : b.Moved (b.ready c own keep k x xs) := by
  unfold Bus.ready
  extract_lets y
  split
  · exact (moved_startNext ..).after (.same rfl)
  · extract_lets moved d left t cycle b₁ p' rest b₂ b₃
    have h₁ : b.Moved b₁ := (moved_moveLanes ..).after (.same rfl)
    have h₂ : b.Moved b₂ := by
      unfold b₂
      split
      · exact h₁.trans (moved_keepPart ..)
      · exact h₁
    have h₃ : b.Moved b₃ := h₂.trans (.same rfl)
    clear_value b₂ b₃
    split
    · split
      · split
        next h => exact (moved_startNext ..).after ((h₂.trans (moved_installLine h)).trans (.same rfl))
      · exact (moved_startNext ..).after (h₂.trans (.same rfl))
    · split
      · exact h₃.trans (moved_startNext ..)
      · exact h₃

theorem Bus.moved_clock (own keep : Bool) (k : ClockIn) : b.Moved (b.clock c own keep k) := by
  unfold Bus.clock
  extract_lets b₁ b₂ b₃
  have hb₁ : b.Moved b₁ := by
    unfold b₁
    split
    · exact moved_masterWrite ..
    · exact .refl b
  have hb₂ : b₁.Moved b₂ := by
    unfold b₂
    split
    · split
      · exact moved_snoop ..
      · exact .refl b₁
    · exact .refl b₁
  have hb₃ : b.Moved b₃ := (hb₁.trans hb₂).trans (.same rfl)
  clear_value b₃
  split
  · refine (moved_startNext ..).after ?_
    split
    · exact hb₃
    · exact hb₃.trans moved_idled
  · split
    · exact hb₃
    · have urgent (p : Bool) : b.Moved (if p then b₃ else b₃.urgentFirst) := by
        split
        · exact hb₃
        · exact hb₃.trans moved_urgentFirst
      exact (urgent (k.ahold || k.hold)).trans (.same rfl)
  · exact hb₃.trans (.same rfl)
  · split <;> exact hb₃.trans (.same rfl)
  · split <;> exact hb₃.trans (.same rfl)
  · split
    · exact hb₃.trans (.same rfl)
    · split
      · exact hb₃.trans (moved_ready ..)
      · exact hb₃.trans (.same rfl)

/-! ### Transfers of the processor -/

theorem Bus.moved_runUrgent (q : List BusReq) : b.Moved (b.runUrgent c q) := by
  induction q generalizing b with
  | nil => exact .same rfl
  | cons x q ih =>
    cases x with
    | row i => exact .same rfl
    | writeBack line d => exact Moved.after ih ((moved_finish _).after (.same rfl))

theorem Bus.moved_finishCur (keep : Bool) : b.Moved (b.finishCur c keep) := by
  unfold Bus.finishCur
  extract_lets spent xs n b₁ b₂
  have h₁ : b.Moved b₁ := (moved_finishAll ..).after (.same rfl)
  split
  · exact h₁.trans (moved_finishAll ..)
  · exact ((h₁.trans (moved_runUrgent _)).trans (moved_finishAll ..)).trans (moved_runUrgent _)

theorem driveClocks_moved (keep : Bool) (ks : List ClockIn) : Keeps b₀.Moved (driveClocks c keep ks) := by
  induction ks with
  | nil => exact ⟨fun b hb => hb.trans ((Bus.moved_finishCur keep).after (.same rfl))⟩
  | cons k ks ih =>
    refine ⟨fun b hb => ?_⟩
    unfold driveClocks
    dsimp only
    split_ifs
    · exact hb.trans (.same rfl)
    · have clock : b₀.Moved (({ b with script := ks } : Bus).clock c false keep k) :=
        hb.trans ((Bus.moved_clock ..).after (.same rfl))
      cases k.resets c.sl with
      | some r => exact clock
      | none => exact ih.run _ clock

theorem transact_moved (keep : Bool) (xs : List Xfer) : Keeps b₀.Moved (transact c keep xs) := by
  refine ⟨fun b hb => ?_⟩
  unfold transact
  extract_lets b₁
  have h₁ : b₀.Moved b₁ := by
    unfold b₁
    split
    · exact hb.trans (.same rfl)
    · exact hb
  clear_value b₁
  split_ifs
  · exact h₁.trans (Bus.moved_finishAll xs)
  · exact (driveClocks_moved ..).run _ (h₁.trans (.same rfl))
  · have h₂ : b₀.Moved { b₁ with cur := xs } := h₁.trans (.same rfl)
    exact (driveClocks_moved ..).run _ ((h₂.trans Bus.moved_urgentFirst).trans (.same rfl))

end Sys2Proof.Machine
end

section
/-! SUPPORT. What the bus unit's computations keep: memories in form, buffers within their sizes. -/

namespace Sys2Proof.Machine

variable {b₀ b : Bus} {c : MemCtx} {p : PageCtx}

/-! ### The bus unit's computations -/

theorem transact_kept (keep : Bool) (xs : List Xfer) : Keeps b₀.Kept (transact c keep xs) := ⟨fun b hb => by
  have h := (transact_moved keep xs (b₀ := b) (c := c)).run b (.refl b)
  cases e : transact c keep xs b with
  | ok a t => exact hb.trans (h.of_ok e).kept
  | error r t => exact hb.trans (h.of_error e).kept⟩

theorem writeBackSnooped_kept : Keeps b₀.Kept (writeBackSnooped c) := ⟨fun b hb => by
  unfold writeBackSnooped
  split
  · exact hb.trans (Bus.moved_runUrgent _).kept
  · exact hb⟩

theorem needBus_kept : Keeps b₀.Kept (needBus c) := .ite (fun _ => .pure) (fun _ => .throw)

theorem drainBuffers_kept : Keeps b₀.Kept (drainBuffers c) := ⟨fun b hb => by
  unfold drainBuffers
  split_ifs
  · exact hb
  · exact (transact_kept ..).run _ (hb.trans ⟨id, fun _ => Nat.zero_le _, id⟩)
  · exact hb⟩

/-- The oldest buffered write goes out: with a write buffer in use there is room for another one. -/
theorem drainOne_moved (h : b.wb ≠ []) :
    Ends (fun b' => b.Moved b' ∧ b'.wb.length < b.wb.length) (drainOne c b) := by
  unfold drainOne
  split
  · next e => exact absurd e h
  · next e rest hw =>
    have room (b' : Bus) (hb' : Bus.Moved { b with wb := rest, readPassed := b.readPassed && !rest.isEmpty } b') :
        b.Moved b' ∧ b'.wb.length < b.wb.length := by
      have : rest.length < b.wb.length := by rw [hw]; exact Nat.lt_succ_self _
      exact ⟨⟨hb'.mem, hb'.wb.trans this.le, hb'.fetchq⟩, hb'.wb.trans_lt this⟩
    have ht := (transact_moved (c := c) false [e.xfer]).run _ (.refl { b with wb := rest, readPassed := b.readPassed && !rest.isEmpty })
    cases hr : transact c false [e.xfer] { b with wb := rest, readPassed := b.readPassed && !rest.isEmpty } with
    | ok a t => exact room t (ht.of_ok hr)
    | error r t => exact room t (ht.of_error hr)

/-- A write enters the buffers only where one of the four is free. -/
theorem postWrite_kept (e : WbEntry) : Keeps b₀.Kept (postWrite c e) := ⟨fun b hb => by
  unfold postWrite
  split_ifs with h₁ h₂
  · exact (transact_kept ..).run _ hb
  · exact hb.trans ⟨id, fun _ => by rw [List.length_append]; exact h₂, id⟩
  · have hd := drainOne_moved (c := c) (b := b) fun hw => h₂ (by rw [hw]; exact Nat.zero_lt_succ 3)
    split <;> rename_i hr
    · obtain ⟨hm, hl⟩ := hd.of_ok hr
      exact hb.trans ⟨hm.mem, fun h4 => by rw [List.length_append]; exact Nat.lt_of_lt_of_le hl h4, hm.fetchq⟩
    · exact hb.trans (hd.of_error hr).1.kept
  · exact hb⟩

theorem postWrites_kept (es : List WbEntry) : Keeps b₀.Kept (postWrites c es) := by
  induction es with
  | nil => exact .pure
  | cons e es ih => exact .bind (postWrite_kept e) fun _ => ih

theorem orderRead_kept (a : Addr) : Keeps b₀.Kept (orderRead c a) := ⟨fun b hb => by
  unfold orderRead
  split_ifs
  · exact hb
  · exact hb.trans (.same rfl)
  · exact drainBuffers_kept.run _ hb⟩

theorem readChunk_kept (kind : CycleKind) (more : Bool) (ch : PChunk) : Keeps b₀.Kept (readChunk c kind more ch) := by
  unfold readChunk
  refine .get fun b hb => ?_
  split
  · exact .bind (.set (hb.trans (.same rfl))) fun _ => .pure
  · exact .bind (orderRead_kept _) fun _ => .get fun _ _ => .bind (transact_kept _ _) fun _ => .get fun _ _ => .pure

theorem writeChunk_kept (follows more : Bool) (ch : PChunk) (bs : List Byte) : Keeps b₀.Kept (writeChunk c follows more ch bs) := by
  unfold writeChunk
  refine .get fun b hb => ?_
  split
  · exact .bind (.set (hb.trans (.same rfl))) fun _ => .ite (fun _ => .pure) fun _ => postWrites_kept _
  · exact postWrites_kept _

theorem readChunks_kept (kind : CycleKind) (chs : List PChunk) : Keeps b₀.Kept (readChunks c kind chs) := by
  induction chs with
  | nil => exact .pure
  | cons ch chs ih => exact .get fun _ _ => .bind (readChunk_kept ..) fun _ => .bind ih fun _ => .pure

theorem writeChunks_kept (follows : Bool) (chs : List PChunk) (bs : List Byte) : Keeps b₀.Kept (writeChunks c follows chs bs) := by
  induction chs generalizing follows bs with
  | nil => exact .pure
  | cons ch chs ih => exact .get fun _ _ => .bind (writeChunk_kept ..) fun _ => ih ..

theorem writeBackSlot_kept (s : BitVec 8) (w : BitVec 2) : Keeps b₀.Kept (writeBackSlot c s w) :=
  .get fun _ _ => .ite (fun _ => .bind (transact_kept _ _) fun _ => .modify fun _ h => h.trans (.same rfl)) fun _ => .pure

theorem writeBackSlots_kept (xs : List (BitVec 8 × BitVec 2)) : Keeps b₀.Kept (writeBackSlots c xs) := by
  induction xs with
  | nil => exact .pure
  | cons x xs ih => exact .bind (writeBackSlot_kept ..) fun _ => ih

theorem cleanLine_kept (a : Addr) : Keeps b₀.Kept (cleanLine c a) := by
  refine .get fun b _ => ?_
  split
  · exact writeBackSlot_kept ..
  · exact .pure

theorem cleanLines_kept (chs : List PChunk) : Keeps b₀.Kept (cleanLines c chs) := by
  induction chs with
  | nil => exact .pure
  | cons ch chs ih => exact .bind (cleanLine_kept _) fun _ => ih

theorem readChunksLocked_kept (chs : List PChunk) : Keeps b₀.Kept (readChunksLocked c chs) :=
  .bind needBus_kept fun _ => .bind drainBuffers_kept fun _ => .bind (cleanLines_kept chs) fun _ =>
    .bind (transact_kept _ _) fun _ => .get fun _ _ => .pure

theorem Bus.storage_storeHits (chs : List PChunk) (bs : List Byte) : (b.storeHits c chs bs).storage = b.storage := by
  induction chs generalizing b bs with
  | nil => rfl
  | cons ch chs ih =>
    refine (ih _).trans ?_
    split <;> rfl

theorem writeChunksLocked_kept (chs : List PChunk) (bs : List Byte) : Keeps b₀.Kept (writeChunksLocked c chs bs) :=
  .bind (.modify fun _ h => h.trans (.same (Bus.storage_storeHits ..))) fun _ => transact_kept _ _

/-! ### Paging -/

theorem readEntry_kept (ch : PChunk) : Keeps b₀.Kept (readEntry c ch) := .bind (readChunk_kept ..) fun _ => .pure

theorem walk_kept (lin : Addr) (write : Bool) : Keeps b₀.Kept (walk c p lin write) :=
  .bind (readEntry_kept _) fun _ => .check .throw fun _ =>
    .ite (fun _ => .check .throw fun _ => .pure)
      fun _ => .bind (readEntry_kept _) fun _ => .check .throw fun _ => .check .throw fun _ => .pure

theorem setEntryBits_kept (ch : PChunk) (v bits : DWord) : Keeps b₀.Kept (setEntryBits c ch v bits) :=
  .ite (fun _ => .pure) fun _ => .bind (readChunksLocked_kept _) fun _ => .bind (writeChunksLocked_kept ..) fun _ =>
    writeBackSnooped_kept

theorem commitWalk_kept (lin : Addr) (write : Bool) (w : Walk) : Keeps b₀.Kept (commitWalk c lin write w) := by
  unfold commitWalk
  split
  · exact .bind (setEntryBits_kept ..) fun _ => .get fun _ hb => .set (hb.trans (.same rfl))
  · exact .bind (setEntryBits_kept ..) fun _ => .bind (setEntryBits_kept ..) fun _ =>
      .get fun _ hb => .set (hb.trans (.same rfl))

theorem translate_kept (lin : Addr) (write : Bool) : Keeps b₀.Kept (translate c p lin write) := by
  have walked : Keeps b₀.Kept (do
      let wk ← walk c p lin write
      commitWalk c lin write wk
      return TlbEntry.phys wk.entry lin : BM Phys) :=
    .bind (walk_kept ..) fun _ => .bind (commitWalk_kept ..) fun _ => .pure
  unfold translate
  refine .ite (fun _ => .pure) fun _ => .get fun b _ => ?_
  split
  · exact .check .throw fun _ => .ite (fun _ => walked) fun _ => .pure
  · exact walked

theorem probe_kept (lin : Addr) (write : Bool) : Keeps b₀.Kept (probe c p lin write) := by
  unfold probe
  refine .ite (fun _ => .pure) fun _ => .get fun b _ => ?_
  split
  · exact .check .throw fun _ => .ite (fun _ => .bind (walk_kept ..) fun _ => .pure) fun _ => .pure
  · exact .bind (walk_kept ..) fun _ => .pure

theorem probeAll_kept (write : Bool) (ls : List LChunk) : Keeps b₀.Kept (probeAll c p write ls) := by
  induction ls with
  | nil => exact .pure
  | cons l ls ih => exact .bind (probe_kept ..) fun _ => ih

theorem translateAll_kept (write : Bool) (ls : List LChunk) : Keeps b₀.Kept (translateAll c p write ls) := by
  induction ls with
  | nil => exact .pure
  | cons l ls ih => exact .bind (translate_kept ..) fun _ => .bind ih fun _ => .pure

theorem translateRange_kept (lin : Addr) (n : Nat) (write : Bool) : Keeps b₀.Kept (translateRange c p lin n write) :=
  .check (probeAll_kept ..) fun _ => translateAll_kept ..

theorem linRead_kept (lin : Addr) (n : Nat) : Keeps b₀.Kept (linRead c p lin n) :=
  .bind (translateRange_kept ..) fun _ => readChunks_kept ..

theorem linWrite_kept (lin : Addr) (bs : List Byte) : Keeps b₀.Kept (linWrite c p lin bs) :=
  .bind (translateRange_kept ..) fun _ => writeChunks_kept ..

theorem linReads_kept (lin : Addr) (ns : List Nat) : Keeps b₀.Kept (linReads c p lin ns) := by
  induction ns generalizing lin with
  | nil => exact .pure
  | cons n ns ih => exact .bind (linRead_kept ..) fun _ => .bind (ih _) fun _ => .pure

theorem linWrites_kept (lin : Addr) (ns : List Nat) (bs : List Byte) : Keeps b₀.Kept (linWrites c p lin ns bs) := by
  induction ns generalizing lin bs with
  | nil => exact .pure
  | cons n ns ih => exact .bind (linWrite_kept ..) fun _ => ih ..

theorem probeWrite_kept (lin : Addr) (n : Nat) : Keeps b₀.Kept (probeWrite c p lin n) := probeAll_kept ..

/-! ### The prefetcher -/

theorem readCodeLine_kept (ph : Phys) : Keeps b₀.Kept (readCodeLine c ph) := by
  unfold readCodeLine
  refine .get fun b hb => ?_
  split
  · exact .bind (.set (hb.trans (.same rfl))) fun _ => .pure
  · exact .bind (orderRead_kept _) fun _ => .get fun _ _ => .bind (transact_kept _ _) fun _ => .get fun _ _ => .pure

theorem Bus.kept_fetchq {q : FetchQueue} (h : b.fetchq.Sized → q.Sized) : b.Kept { b with fetchq := q } := ⟨id, id, h⟩

theorem enqueueLine_kept (a : Addr) (bs : List Byte) : Keeps b₀.Kept (enqueueLine a bs) := ⟨fun b hb =>
  hb.trans (Bus.kept_fetchq fun h => by
    obtain ⟨q, hq, hs⟩ := enqueueLine_spec (a := a) (bs := bs) h
    cases hq
    exact hs)⟩

theorem appendLine_kept (a : Addr) (bs : List Byte) : Keeps b₀.Kept (appendLine a bs) := ⟨fun b hb =>
  hb.trans (Bus.kept_fetchq fun h => by
    obtain ⟨q, hq, hs⟩ := appendLine_spec (a := a) (bs := bs) h
    cases hq
    exact hs)⟩

theorem fetchByte_kept (lin : Addr) : Keeps b₀.Kept (fetchByte c p lin) := by
  refine .bind (translate_kept ..) fun ph => .get fun b hb => ?_
  split
  · exact .ite (fun _ => .pure) fun _ => .bind (.set (hb.trans (.same rfl))) fun _ => .pure
  · exact .bind (readCodeLine_kept _) fun _ => .bind (enqueueLine_kept ..) fun _ => .pure

/-- The prefetcher, where the decode stages take three instructions at most. -/
theorem prefetchAhead_kept (lin : Addr) (room : Nat) {stages : List Byte → Nat} (h : ∀ bs, stages bs ≤ 3 * 15) :
    Keeps b₀.Kept (prefetchAhead c p lin room stages) :=
  .bind (translate_kept ..) fun _ =>
    .bind (.modify fun _ hb => hb.trans (Bus.kept_fetchq fun hq => (hq.dropBefore _).advance (h _))) fun _ =>
    .get fun _ _ => .ite
      (fun _ => .bind (translate_kept ..) fun _ => .bind (readCodeLine_kept _) fun _ => appendLine_kept ..) fun _ => .pure

end Sys2Proof.Machine
end

section
/-! SUPPORT. The bits of a register that are fixed, and what every operation of the processor keeps of them. -/

namespace Sys2Proof.Machine

/-! ### Bits -/

theorem getLsbD_setBit {n : Nat} (v : BitVec n) (k : Nat) (x : Bool) (i : Nat) :
    (setBit v k x).getLsbD i = if i < n ∧ i = k then x else v.getLsbD i := by
  have bit : (BitVec.ofNat n (2 ^ k)).getLsbD i = (decide (i < n) && decide (k = i)) := by
    rw [BitVec.getLsbD_ofNat, Nat.testBit_two_pow]
  have past : ¬i < n → v.getLsbD i = false := fun h => BitVec.getLsbD_of_ge v i (Nat.le_of_not_lt h)
  unfold setBit
  cases x
  · rw [if_neg Bool.false_ne_true, BitVec.getLsbD_and, BitVec.getLsbD_not, bit]
    grind
  · rw [if_pos rfl, BitVec.getLsbD_or, bit]
    grind

theorem getLsbD_mergeBits (mask old new : DWord) (i : Nat) :
    (mergeBits mask old new).getLsbD i = if mask.getLsbD i then new.getLsbD i else old.getLsbD i := by
  have past : ¬i < 32 → old.getLsbD i = false := fun h => BitVec.getLsbD_of_ge old i (Nat.le_of_not_lt h)
  unfold mergeBits
  rw [BitVec.getLsbD_or, BitVec.getLsbD_and, BitVec.getLsbD_and, BitVec.getLsbD_not]
  grind

/-- Two values have the same bits at the places of `f`. -/
def AgreeOn (f v w : DWord) : Prop := ∀ i, f.getLsbD i = true → v.getLsbD i = w.getLsbD i

/-- A register with the bits `m` and with bits `k` that are always set: its other bits and these are fixed. -/
theorem eq_masked_iff {m k v : DWord} : v = (v &&& m) ||| k ↔ AgreeOn (~~~m ||| k) v k := by
  have bits (i : Nat) (hi : i < 32) : (~~~m ||| k).getLsbD i = (!m.getLsbD i || k.getLsbD i) := by
    rw [BitVec.getLsbD_or, BitVec.getLsbD_not, decide_eq_true hi, Bool.true_and]
  constructor
  · intro h i hf
    have hi : i < 32 := Nat.lt_of_not_le fun hge => by rw [BitVec.getLsbD_of_ge _ i hge] at hf; cases hf
    rw [bits i hi] at hf
    rw [h, BitVec.getLsbD_or, BitVec.getLsbD_and]
    grind
  · intro h
    refine BitVec.eq_of_getLsbD_eq fun i hi => ?_
    have := h i
    rw [bits i hi] at this
    rw [BitVec.getLsbD_or, BitVec.getLsbD_and]
    grind

theorem agreeOn_masked (m k v : DWord) : AgreeOn (~~~m ||| k) ((v &&& m) ||| k) k := by
  refine eq_masked_iff.1 (BitVec.eq_of_getLsbD_eq fun i _ => ?_)
  simp only [BitVec.getLsbD_or, BitVec.getLsbD_and]
  grind

theorem AgreeOn.setBit {f v w : DWord} (h : AgreeOn f v w) {k : Nat} (x : Bool) (hk : f.getLsbD k = false) :
    AgreeOn f (setBit v k x) w := fun i hi => by
  rw [getLsbD_setBit, if_neg fun e => by rw [e.2, hk] at hi; cases hi]
  exact h i hi

theorem AgreeOn.mergeBits {f v w mask : DWord} (h : AgreeOn f v w) (new : DWord) (hm : mask &&& f = 0) :
    AgreeOn f (mergeBits mask v new) w := fun i hi => by
  have : (mask &&& f).getLsbD i = false := by rw [hm]; exact BitVec.getLsbD_zero
  rw [BitVec.getLsbD_and, hi, Bool.and_true] at this
  rw [getLsbD_mergeBits, this]
  exact h i hi

theorem AgreeOn.and {f v w mask : DWord} (h : AgreeOn f v w) (hm : mask &&& f = f) : AgreeOn f (v &&& mask) w := fun i hi => by
  have : mask.getLsbD i = true := by
    rw [← hm, BitVec.getLsbD_and, Bool.and_eq_true] at hi
    exact hi.1
  rw [BitVec.getLsbD_and, this, Bool.and_true]
  exact h i hi

/-! ### The registers with reserved bits (10_state.md R44, R48, R54, R56, R57) -/

/-- EFLAGS holds a value as it reads. -/
def FlagsLegal (p : Part) (v : DWord) : Prop := v = normFlags p v

/-- CR0 holds a value as it reads, and no combination that it must not hold. -/
def Cr0Legal (v : DWord) : Prop := v = normCr0 v ∧ cr0Illegal v = false

theorem regsLegal_iff {p : Part} {eflags cr0 cr3 cr4 : DWord} :
    RegsLegal p eflags cr0 cr3 cr4 ↔ FlagsLegal p eflags ∧ Cr0Legal cr0 ∧ cr3 = normCr3 cr3 ∧ cr4 &&& cr4Reserved = 0 := by
  unfold RegsLegal FlagsLegal Cr0Legal
  tauto

theorem flagsLegal_iff {p : Part} {v : DWord} : FlagsLegal p v ↔ AgreeOn (~~~flagBits p ||| 2#32) v 2#32 := eq_masked_iff

theorem flagsLegal_normFlags (p : Part) (v : DWord) : FlagsLegal p (normFlags p v) := flagsLegal_iff.2 (agreeOn_masked _ _ _)

/-- Every fixed bit of EFLAGS is one of these. -/
theorem fixedFlags_le (p : Part) : 0xFFF8802A#32 &&& (~~~flagBits p ||| 2#32) = ~~~flagBits p ||| 2#32 := by
  unfold flagBits
  split <;> rfl

theorem FlagsLegal.setBit {p : Part} {v : DWord} (h : FlagsLegal p v) {k : Nat} (x : Bool)
    (hk : (0xFFF8802A#32).getLsbD k = false) : FlagsLegal p (setBit v k x) :=
  flagsLegal_iff.2 ((flagsLegal_iff.1 h).setBit x (by rw [← fixedFlags_le, BitVec.getLsbD_and, hk, Bool.false_and]))

theorem FlagsLegal.mergeBits {p : Part} {v mask : DWord} (h : FlagsLegal p v) (new : DWord)
    (hm : mask &&& 0xFFF8802A#32 = 0#32) : FlagsLegal p (mergeBits mask v new) :=
  flagsLegal_iff.2 ((flagsLegal_iff.1 h).mergeBits new (by rw [← fixedFlags_le, ← BitVec.and_assoc, hm, BitVec.zero_and]; rfl))

theorem FlagsLegal.and {p : Part} {v mask : DWord} (h : FlagsLegal p v) (hm : mask &&& 0xFFF8802A#32 = 0xFFF8802A#32) :
    FlagsLegal p (v &&& mask) :=
  flagsLegal_iff.2 ((flagsLegal_iff.1 h).and (by rw [← fixedFlags_le, ← BitVec.and_assoc, hm]))

theorem FlagsLegal.putFlags {p : Part} {v : DWord} (h : FlagsLegal p v) (f : ArithFlags) : FlagsLegal p (putFlags v f) :=
  (((((h.setBit _ rfl).setBit _ rfl).setBit _ rfl).setBit _ rfl).setBit _ rfl).setBit _ rfl

theorem eq_normCr0_iff {v : DWord} : v = normCr0 v ↔ AgreeOn (~~~cr0Bits ||| 0x10#32) v 0x10#32 := eq_masked_iff

theorem cr0Illegal_normCr0 (v : DWord) : cr0Illegal (normCr0 v) = cr0Illegal v := by
  simp [cr0Illegal, normCr0, cr0Bits]

theorem cr0Legal_normCr0 {v : DWord} (h : cr0Illegal v = false) : Cr0Legal (normCr0 v) :=
  ⟨eq_normCr0_iff.2 (agreeOn_masked _ _ _), (cr0Illegal_normCr0 v).trans h⟩

/-- CR0 at SMM entry: PE, EM, TS and PG cleared (60_exceptions.md R662). -/
theorem Cr0Legal.smm {v : DWord} (h : Cr0Legal v) : Cr0Legal (v &&& 0x7FFFFFF2#32) := by
  refine ⟨eq_normCr0_iff.2 ((eq_normCr0_iff.1 h.1).and rfl), ?_⟩
  have := h.2
  simp_all [cr0Illegal]

/-- CR0 after SRESET in write-back mode: CD and NW stay (45_family_variants.md R578). -/
theorem Cr0Legal.keepCdNw {r v : DWord} (hr : Cr0Legal r) (hv : Cr0Legal v) : Cr0Legal (mergeBits 0x60000000#32 r v) := by
  refine ⟨eq_normCr0_iff.2 ((eq_normCr0_iff.1 hr.1).mergeBits v rfl), ?_⟩
  have hr' := hr.2
  have hv' := hv.2
  unfold cr0Illegal at *
  rw [Bool.or_eq_false_iff] at hr' hv'
  simp only [getLsbD_mergeBits]
  exact Bool.or_eq_false_iff.2 ⟨hv'.1, hr'.2⟩

theorem normCr3_normCr3 (v : DWord) : normCr3 (normCr3 v) = normCr3 v := by
  unfold normCr3
  rw [BitVec.and_assoc, BitVec.and_self]

/-! ### What the processor keeps -/

/-- The bus unit is kept, and registers that are legal stay so. -/
structure State.Kept (s t : State) : Prop where
  bus : s.bus.Kept t.bus
  regs : RegInv s → RegInv t

/-- What the invariants look at. -/
def State.guarded (s : State) : Part × DWord × DWord × DWord × DWord × Bus := (s.part, s.eflags, s.cr0, s.cr3, s.cr4, s.bus)

variable {s₀ s t : State}

theorem State.Kept.refl (s : State) : s.Kept s := ⟨.refl _, id⟩

theorem State.Kept.trans {s t u : State} (h : s.Kept t) (k : t.Kept u) : s.Kept u := ⟨h.bus.trans k.bus, k.regs ∘ h.regs⟩

/-- Only registers that no invariant looks at change. -/
theorem State.Kept.same (h : t.guarded = s.guarded) : s.Kept t := by
  simp only [State.guarded, Prod.mk.injEq] at h
  obtain ⟨hp, hf, h0, h3, h4, hb⟩ := h
  exact ⟨by rw [hb]; exact .refl _, by unfold RegInv; rw [hp, hf, h0, h3, h4]; exact id⟩

/-- Of what the invariants look at only the bus unit changes. -/
theorem State.Kept.ofBus {t : State} (hb : s.bus.Kept t.bus) (h : t.guarded = { s with bus := t.bus }.guarded) : s.Kept t :=
  State.Kept.trans (t := { s with bus := t.bus }) ⟨hb, id⟩ (.same h)

/-- Of what the invariants look at only the flags change. -/
theorem State.Kept.ofFlags (hf : FlagsLegal s.part s.eflags → FlagsLegal s.part t.eflags)
    (h : t.guarded = { s with eflags := t.eflags }.guarded) : s.Kept t :=
  State.Kept.trans (t := { s with eflags := t.eflags })
    ⟨.refl _, fun hs => ⟨regsLegal_iff.2 ((regsLegal_iff.1 hs.1).imp_left hf), hs.2⟩⟩ (.same h)

/-- Of what the invariants look at only the flags and CR0 change. -/
theorem State.Kept.ofFlagsCr0 (hf : FlagsLegal s.part s.eflags → FlagsLegal s.part t.eflags) (h0 : Cr0Legal s.cr0 → Cr0Legal t.cr0)
    (h : t.guarded = { s with eflags := t.eflags, cr0 := t.cr0 }.guarded) : s.Kept t :=
  State.Kept.trans (t := { s with eflags := t.eflags, cr0 := t.cr0 })
    ⟨.refl _, fun hs => by
      obtain ⟨lf, l0, l3⟩ := regsLegal_iff.1 hs.1
      exact ⟨regsLegal_iff.2 ⟨hf lf, h0 l0, l3⟩, hs.2⟩⟩ (.same h)

/-- All the registers that the invariants look at are given legal values. -/
theorem State.Kept.ofLegal (hb : s.bus.Kept t.bus) (hp : t.part = s.part)
    (h : RegInv s → RegsLegal s.part t.eflags t.cr0 t.cr3 t.cr4) : s.Kept t :=
  ⟨hb, fun hs => ⟨by rw [hp]; exact h hs, by rw [hp]; exact hs.2⟩⟩

end Sys2Proof.Machine
end

section
/-! SUPPORT. The shared operations of the processor keep the invariants. -/

namespace Sys2Proof.Machine

variable {s₀ s t : State}

/-! ### States that the shared operations make -/

theorem State.kept_advance (n : Nat) : s.Kept (s.advance n) := .ofFlags (fun h => h.setBit (k := 16) false rfl) rfl

theorem State.kept_again : s.Kept s.again := .ofFlags (fun h => h.setBit _ rfl) rfl
theorem State.kept_waiting : s.Kept s.waiting := .ofFlags (fun h => h.setBit _ rfl) rfl
theorem State.kept_freezing : s.Kept s.freezing := .ofFlags (fun h => h.setBit _ rfl) rfl

theorem State.kept_begin : s.Kept s.begin := by
  unfold State.begin
  split <;> exact .same rfl

theorem State.Kept.afterFailed (h : s.Kept t) : s.Kept (s.afterFailed t) := .ofBus h.bus rfl

theorem State.kept_setCr0 {v : DWord} (h : Cr0Legal s.cr0 → Cr0Legal v) : s.Kept (s.setCr0 v) := .ofFlagsCr0 id h rfl

theorem cr0Legal_orElse {v w : DWord} (h : Cr0Legal v) : Cr0Legal (if cr0Illegal w then v else normCr0 w) := by
  split
  · exact h
  · exact cr0Legal_normCr0 (Bool.eq_false_iff.2 ‹_›)

theorem State.kept_withBase (r : BaseResult) : s.Kept (s.withBase r) := by
  refine .ofLegal ⟨id, id, fun h => ?_⟩ rfl fun hs => ?_
  · show FetchQueue.Sized (if r.target.isSome && !r.again then .empty else s.bus.fetchq)
    split
    · exact FetchQueue.sized_empty
    · exact h
  · obtain ⟨-, l0, -, l4⟩ := regsLegal_iff.1 hs.1
    have flags := flagsLegal_normFlags s.part r.left.eflags
    refine regsLegal_iff.2 ⟨?_, cr0Legal_orElse l0, (normCr3_normCr3 _).symm, l4⟩
    show FlagsLegal s.part (if r.again then setBit (normFlags s.part r.left.eflags) 16 s.dec.rf else normFlags s.part r.left.eflags)
    split
    · exact flags.setBit _ rfl
    · exact flags

theorem State.kept_switched (r : BaseResult) : s.Kept (s.switched r) := (kept_withBase r).trans (.same rfl)

theorem Bus.kept_afterReset (b : Bus) : b.Kept b.afterReset := ⟨id, fun _ => Nat.zero_le _, fun _ => FetchQueue.sized_empty⟩

theorem State.kept_resetPin (up wbwt : Bool) (m : ClkMul) : s.Kept (s.resetPin up wbwt m) :=
  ⟨Bus.kept_afterReset _, fun hs => ⟨hs.2, hs.2⟩⟩

theorem State.kept_sreset : s.Kept s.sreset := by
  unfold State.sreset
  dsimp only
  split
  · refine ⟨(Bus.kept_afterReset _).trans (.same rfl), fun hs => ⟨regsLegal_iff.2 ?_, hs.2⟩⟩
    obtain ⟨rf, r0, r3⟩ := regsLegal_iff.1 hs.2
    obtain ⟨-, s0, -⟩ := regsLegal_iff.1 hs.1
    exact ⟨rf, r0.keepCdNw s0, r3⟩
  · exact ⟨Bus.kept_afterReset _, fun hs => ⟨hs.2, hs.2⟩⟩

theorem State.kept_applyReset (r : ResetIn) : s.Kept (s.applyReset r) := by
  cases r with
  | hard up wbwt m => exact kept_resetPin ..
  | soft =>
    show s.Kept (if s.part.hasSL then s.sreset else s)
    split
    · exact kept_sreset
    · exact .refl s

/-! ### Registers, modes, the bus unit -/

theorem raise_kept {α : Type} (e : Exc) : Keeps s₀.Kept (raise e : M α) := .throw
theorem refuse_kept {α : Type} (r : Refusal) : Keeps s₀.Kept (refuse r : M α) := .throw

/-- A change of the state that no invariant looks at. -/
theorem modify_kept {f : State → State} (h : ∀ s, (f s).guarded = s.guarded) : Keeps s₀.Kept (modify f : M Unit) :=
  .modify fun s hs => hs.trans (.same (h s))

theorem setReg_kept (r : Reg) (v : DWord) : Keeps s₀.Kept (setReg r v) := modify_kept fun _ => rfl
theorem setReg8_kept (r : Reg8) (v : BitVec 8) : Keeps s₀.Kept (setReg8 r v) := modify_kept fun _ => rfl
theorem setRegSz_kept (os : OpSize) (r : Reg) (v : BitVec os.bits) : Keeps s₀.Kept (setRegSz os r v) := modify_kept fun _ => rfl

theorem setFlags_kept (v : DWord) : Keeps s₀.Kept (setFlags v) :=
  .modify fun _ hs => hs.trans (.ofFlags (fun _ => flagsLegal_normFlags ..) rfl)

theorem setArith_kept (f : ArithFlags) : Keeps s₀.Kept (setArith f) :=
  .modify fun _ hs => hs.trans (.ofFlags (fun h => h.putFlags f) rfl)

theorem freeDWord_kept : Keeps s₀.Kept freeDWord := ⟨fun _ hs => hs.trans (.ofBus (.same rfl) rfl)⟩

theorem freeStatus_kept : Keeps s₀.Kept freeStatus :=
  .bind freeDWord_kept fun _ => .modify fun _ hs => hs.trans (.ofFlags (fun h => h.mergeBits _ rfl) rfl)

/-- An access of the bus unit, as far as the invariants go. -/
theorem bus_kept {α : Type} {x : MemCtx → BM α} (hx : ∀ c, Keeps s₀.bus.Kept (x c)) : Keeps s₀.Kept (bus x) := ⟨fun s hs => by
  have h := (hx s.memCtx).run s.bus hs.bus
  have key (b : Bus) (hb : s₀.bus.Kept b) : s₀.Kept { s with bus := b } := ⟨hb, hs.regs⟩
  unfold bus
  split <;> rename_i e
  · exact key _ (h.of_ok e)
  all_goals exact key _ (h.of_error e)⟩

theorem drain_kept : Keeps s₀.Kept drain := bus_kept fun _ => drainBuffers_kept

theorem specialCycle_kept (be : BitVec 4) (a : DWord) : Keeps s₀.Kept (specialCycle be a) :=
  bus_kept fun _ => .bind needBus_kept fun _ => .bind drainBuffers_kept fun _ => transact_kept ..

theorem clearFetch_kept : Keeps s₀.Kept clearFetch :=
  .modify fun _ hs => hs.trans (.ofBus (Bus.kept_fetchq fun _ => FetchQueue.sized_empty) rfl)

theorem flushTlb_kept : Keeps s₀.Kept flushTlb := .modify fun _ hs => hs.trans (.ofBus (.same rfl) rfl)

/-! ### Memory -/

theorem segLinearIn_kept (pm : Bool) (g : Seg) (e : Exc) (off : DWord) (n : Nat) (write : Bool) :
    Keeps s₀.Kept (segLinearIn pm g e off n write) :=
  .check (raise_kept e) fun _ => .check (raise_kept e) fun _ => .pure

theorem segLinear_kept (g : Seg) (e : Exc) (off : DWord) (n : Nat) (write : Bool) : Keeps s₀.Kept (segLinear g e off n write) :=
  .get fun _ _ => segLinearIn_kept ..

theorem checkAlign_kept (lin : Addr) (n : Nat) : Keeps s₀.Kept (checkAlign lin n) :=
  .get fun _ _ => .ite (fun _ => raise_kept _) fun _ => .pure

theorem watch_kept (lin : Addr) (n : Nat) (write : Bool) : Keeps s₀.Kept (watch lin n write) :=
  modify_kept fun s => by split <;> rfl

theorem readMem_kept (r : SegReg) (off : DWord) (n : Nat) : Keeps s₀.Kept (readMem r off n) :=
  .get fun _ _ => .bind (segLinear_kept ..) fun _ => .bind (checkAlign_kept ..) fun _ => .bind (watch_kept ..) fun _ =>
    bus_kept fun _ => linRead_kept ..

theorem writeMem_kept (r : SegReg) (off : DWord) (bs : List Byte) : Keeps s₀.Kept (writeMem r off bs) :=
  .get fun _ _ => .bind (segLinear_kept ..) fun _ => .bind (checkAlign_kept ..) fun _ => .bind (watch_kept ..) fun _ =>
    bus_kept fun _ => linWrite_kept ..

theorem checkAligns_kept (lin : Addr) (ns : List Nat) : Keeps s₀.Kept (checkAligns lin ns) := by
  induction ns generalizing lin with
  | nil => exact .pure
  | cons n ns ih => exact .bind (checkAlign_kept ..) fun _ => ih _

theorem readPieces_kept (r : SegReg) (off : DWord) (ns : List Nat) : Keeps s₀.Kept (readPieces r off ns) :=
  .get fun _ _ => .bind (segLinear_kept ..) fun _ => .bind (checkAligns_kept ..) fun _ => .bind (watch_kept ..) fun _ =>
    bus_kept fun _ => linReads_kept ..

theorem writePieces_kept (r : SegReg) (off : DWord) (ns : List Nat) (bs : List Byte) : Keeps s₀.Kept (writePieces r off ns bs) :=
  .get fun _ _ => .bind (segLinear_kept ..) fun _ => .bind (checkAligns_kept ..) fun _ => .bind (watch_kept ..) fun _ =>
    bus_kept fun _ => .check (probeWrite_kept ..) fun _ => linWrites_kept ..

theorem checkPieces_kept (r : SegReg) (off : DWord) (ns : List Nat) : Keeps s₀.Kept (checkPieces r off ns) :=
  .get fun _ _ => .bind (segLinear_kept ..) fun _ => .bind (checkAligns_kept ..) fun _ => bus_kept fun _ => probeWrite_kept ..

theorem rmwRead_kept (r : SegReg) (off : DWord) (n : Nat) (lock : Bool) : Keeps s₀.Kept (rmwRead r off n lock) :=
  .get fun _ _ => .bind (segLinear_kept ..) fun _ => .bind (checkAlign_kept ..) fun _ => .bind (watch_kept ..) fun _ =>
    bus_kept fun _ => .bind (translateRange_kept ..) fun _ =>
      .ite (fun _ => .bind (readChunksLocked_kept _) fun _ => .pure) fun _ => .bind (readChunks_kept ..) fun _ => .pure

theorem rmwWrite_kept (ps : List PChunk) (bs : List Byte) (lock : Bool) : Keeps s₀.Kept (rmwWrite ps bs lock) :=
  bus_kept fun _ => .ite (fun _ => writeChunksLocked_kept ..) fun _ => writeChunks_kept ..

theorem sysRead_kept (lin : Addr) (n : Nat) : Keeps s₀.Kept (sysRead lin n) :=
  .get fun _ _ => .bind (bus_kept fun _ => linRead_kept ..) fun _ => .pure

/-! ### Writes held back -/

/-- A write that waits keeps what every step keeps, once it is performed. -/
abbrev HeldWrite.Kept (s₀ : State) (w : HeldWrite) : Prop := Keeps s₀.Kept w.perform

theorem HeldWrite.kept_writeChunks (chs : List PChunk) (bs new : List Byte) :
    HeldWrite.Kept s₀ ⟨chs, bs, bus fun c => writeChunks c false chs new⟩ := by
  unfold HeldWrite.Kept
  dsimp only
  exact bus_kept fun _ => writeChunks_kept ..

theorem performAll_kept {ws : List HeldWrite} (h : ∀ w ∈ ws, w.Kept s₀) : Keeps s₀.Kept (performAll ws) := by
  induction ws with
  | nil => exact .pure
  | cons w ws ih =>
    exact .bind (h w (List.mem_cons_self ..)) fun _ => ih fun v hv => h v (List.mem_cons_of_mem _ hv)

theorem kept_append {ws vs : List HeldWrite} (hw : ∀ w ∈ ws, w.Kept s₀) (hv : ∀ w ∈ vs, w.Kept s₀) :
    ∀ w ∈ ws ++ vs, w.Kept s₀ :=
  fun w h => (List.mem_append.1 h).elim (hw w) (hv w)

theorem kept_singleton {w : HeldWrite} (h : w.Kept s₀) : ∀ v ∈ [w], v.Kept s₀ := fun v hv => by
  rw [List.mem_singleton.1 hv]
  exact h

theorem readHeld_kept (ws : List HeldWrite) {x : MemCtx → BM (List PChunk)} (hx : ∀ c, Keeps s₀.bus.Kept (x c)) :
    Keeps s₀.Kept (readHeld ws x) :=
  bus_kept fun c => .bind (hx c) fun _ => .bind (readChunks_kept ..) fun _ => .pure

theorem holdWrite_gives (p : PageCtx) (lin : Addr) (bs : List Byte) : Gives s₀.Kept (·.Kept s₀) (holdWrite p lin bs) :=
  .bind (bus_kept fun _ => translateRange_kept ..) fun _ => .pure (HeldWrite.kept_writeChunks ..)

/-! ### The stack -/

theorem holdPush_gives (k : Stack) (bs : List Byte) : Gives s₀.Kept (fun x => x.2.Kept s₀) (holdPush k bs) :=
  Gives.get.andGives fun _ _ => .bind (segLinearIn_kept ..) fun _ => .check (checkAlign_kept ..) fun _ =>
    .bind (watch_kept ..) fun _ => (holdWrite_gives ..).andGives fun _ hw => .pure hw

theorem pushOn_kept (k : Stack) (bs : List Byte) : Keeps s₀.Kept (pushOn k bs) :=
  (holdPush_gives k bs).andThen fun _ hw => .bind hw fun _ => .pure

theorem holdPushes_gives (n : Nat) (vs : List DWord) (k : Stack) :
    Gives s₀.Kept (fun x => ∀ w ∈ x.2, w.Kept s₀) (holdPushes n vs k) := by
  induction vs generalizing k with
  | nil => exact .pure fun _ h => absurd h List.not_mem_nil
  | cons v vs ih =>
    exact (holdPush_gives ..).andGives fun _ hw => (ih _).andGives fun _ hws => .pure (kept_append (kept_singleton hw) hws)

theorem pushAll_kept (n : Nat) (vs : List DWord) (k : Stack) : Keeps s₀.Kept (pushAll n vs k) :=
  (holdPushes_gives ..).andThen fun _ hws => .bind (performAll_kept hws) fun _ => .pure

theorem push_kept (os : OpSize) (v : DWord) : Keeps s₀.Kept (push os v) :=
  .get fun _ _ => .bind (pushOn_kept ..) fun _ => setReg_kept ..

theorem peek_kept (k n : Nat) : Keeps s₀.Kept (peek k n) := .get fun _ _ => .bind (readMem_kept ..) fun _ => .pure

theorem release_kept (n : Nat) : Keeps s₀.Kept (release n) := modify_kept fun _ => rfl

/-! ### Descriptors and ports -/

theorem readDesc_kept (sel : Word) (e : Exc) : Keeps s₀.Kept (readDesc sel e) :=
  .get fun _ _ => .check (raise_kept e) fun _ => .bind (sysRead_kept ..) fun _ => .pure

theorem tableUpdate_kept (lin : Addr) (n : Nat) (f : List Byte → List Byte) : Keeps s₀.Kept (tableUpdate lin n f) :=
  .get fun _ _ => bus_kept fun _ => .bind (translateRange_kept ..) fun _ => .bind (readChunksLocked_kept _) fun _ =>
    .bind (writeChunksLocked_kept ..) fun _ => writeBackSnooped_kept

theorem tableWrite_kept (lin : Addr) (bs : List Byte) : Keeps s₀.Kept (tableWrite lin bs) :=
  .get fun _ _ => .ite (fun _ => bus_kept fun _ => linWrite_kept ..) fun _ => tableUpdate_kept ..

theorem ioBitmapAllows_kept (port : Word) (n : Nat) : Keeps s₀.Kept (ioBitmapAllows port n) :=
  .get fun _ _ => .ite (fun _ => .pure) fun _ => .bind (sysRead_kept ..) fun _ =>
    .ite (fun _ => .pure) fun _ => .bind (sysRead_kept ..) fun _ => .pure

theorem ioPermission_kept (port : Word) (n : Nat) : Keeps s₀.Kept (ioPermission port n) :=
  .get fun _ _ => .ite (fun _ => .bind (ioBitmapAllows_kept ..) fun _ => .ite (fun _ => raise_kept _) fun _ => .pure) fun _ => .pure

theorem Bus.moved_portParts {b : Bus} (ls : List LChunk) : b.Moved (b.portParts ls).2 := by
  induction ls generalizing b with
  | nil => exact .refl b
  | cons l ls ih => exact moved_deviceData.trans ih

theorem readPortLines_kept {b₀ : Bus} (c : MemCtx) (ls : List LChunk) : Keeps b₀.Kept (readPortLines c ls) := by
  induction ls with
  | nil => exact .pure
  | cons l ls ih =>
    exact .get fun _ hb => .bind (.set (hb.trans (Bus.moved_portParts _).kept)) fun _ => .bind (transact_kept ..) fun _ =>
      .get fun _ _ => .bind ih fun _ => .pure

theorem ioRead_kept (port : Word) (n : Nat) : Keeps s₀.Kept (ioRead port n) :=
  bus_kept fun _ => .bind needBus_kept fun _ => .bind drainBuffers_kept fun _ => readPortLines_kept ..

theorem ioWrite_kept (port : Word) (bs : List Byte) : Keeps s₀.Kept (ioWrite port bs) :=
  bus_kept fun _ => .bind needBus_kept fun _ => .bind drainBuffers_kept fun _ => transact_kept ..

theorem ioWriteBuffered_kept (port : Word) (bs : List Byte) : Keeps s₀.Kept (ioWriteBuffered port bs) :=
  bus_kept fun _ => postWrites_kept _

/-! ### `Base386` -/

theorem codeByte_kept (off : DWord) : Keeps s₀.Kept (codeByte off) :=
  .get fun _ _ => .check (raise_kept _) fun _ => bus_kept fun _ => fetchByte_kept ..

theorem nextCodeByte_kept : Keeps s₀.Kept nextCodeByte :=
  .get fun _ _ => .check (raise_kept _) fun _ => .bind (codeByte_kept _) fun _ =>
    .bind (.modify fun _ hs => hs.trans (State.kept_advance 1)) fun _ => .pure

theorem readTable_kept (ws : List HeldWrite) (lin : Addr) (ns : List Nat) : Keeps s₀.Kept (readTable ws lin ns) := by
  induction ns generalizing lin with
  | nil => exact .pure
  | cons n ns ih =>
    exact .get fun _ _ => .bind (readHeld_kept _ fun _ => translateRange_kept ..) fun _ => .bind (ih _) fun _ => .pure

theorem holdUpdate_gives (ws : List HeldWrite) (p : PageCtx) (lin : Addr) (n : Nat) (f : List Byte → List Byte) :
    Gives s₀.Kept (·.Kept s₀) (holdUpdate ws p lin n f) :=
  .bind (bus_kept fun _ => translateRange_kept ..) fun _ => Gives.get.andGives fun _ _ => .pure (tableUpdate_kept ..)

theorem holdAccessed_gives (a : Addr) (d : Nat) : Gives s₀.Kept (fun ws => ∀ w ∈ ws, w.Kept s₀) (holdAccessed a d) :=
  .ite (fun _ => .pure fun _ h => absurd h List.not_mem_nil) fun _ => Gives.get.andGives fun _ _ =>
    (holdUpdate_gives ..).andGives fun _ hw => .pure (kept_singleton hw)

theorem operandAt_kept (seg : SegReg) (off : DWord) (n : Nat) (write : Bool) : Keeps s₀.Kept (operandAt seg off n write) :=
  .get fun _ _ => .bind (segLinear_kept ..) fun _ => .bind (checkAlign_kept ..) fun _ => .bind (watch_kept ..) fun _ => .pure

theorem inNewTask_kept {m : M Unit} (hm : ∀ s₀ : State, Keeps s₀.Kept m) : Keeps s₀.Kept (inNewTask m) := ⟨fun s hs => by
  have h := (hm s).run s (.refl s)
  rcases inNewTask_cases m s with ⟨e, t, hr, hn⟩ | ⟨-, hn⟩
  · rw [hn]
    exact hs.trans (h.of_error hr).afterFailed
  · rw [hn]
    exact (hm s₀).run s hs⟩

/-- Whatever `Base386` gives: its accesses are those of the rules, and its registers are taken as they can be held. -/
theorem runBase_kept {ws : List HeldWrite} (op : BaseOp) (hws : ∀ w ∈ ws, w.Kept s₀) : Keeps s₀.Kept (runBase ws op) := by
  induction op generalizing ws s₀ with
  | done r => exact .bind (performAll_kept hws) fun _ => .modify fun _ hs => hs.trans (State.kept_withBase r)
  | commit r k ih =>
    exact .bind (performAll_kept hws) fun _ => .bind (.modify fun _ hs => hs.trans (State.kept_switched r)) fun _ =>
      inNewTask_kept fun _ => ih fun _ h => absurd h List.not_mem_nil
  | fetch k ih => exact .bind nextCodeByte_kept fun _ => ih _ hws
  | read seg off n k ih =>
    exact .bind (operandAt_kept ..) fun _ => .get fun _ _ =>
      .bind (readHeld_kept _ fun _ => translateRange_kept ..) fun _ => ih _ hws
  | write seg off bs k ih =>
    exact .bind (operandAt_kept ..) fun _ => .get fun _ _ =>
      (holdWrite_gives ..).andThen fun _ hw => ih (kept_append hws (kept_singleton hw))
  | check seg off n k ih => exact .bind (checkPieces_kept ..) fun _ => ih hws
  | push seg sp lvl code bs k ih =>
    exact .get fun _ _ => (holdPush_gives ..).andThen fun _ hw => ih _ (kept_append hws (kept_singleton hw))
  | update seg off n f k ih =>
    exact .bind (operandAt_kept ..) fun _ => .get fun _ _ => .bind (bus_kept fun _ => translateRange_kept ..) fun _ =>
      .bind (readHeld_kept _ fun _ => .pure) fun _ =>
        ih _ (kept_append hws (kept_singleton (HeldWrite.kept_writeChunks ..)))
  | memRead pa n k ih => exact .get fun _ _ => .bind (readHeld_kept _ fun _ => .pure) fun _ => ih _ hws
  | memWrite pa bs k ih =>
    exact .get fun _ _ => ih (kept_append hws (kept_singleton (HeldWrite.kept_writeChunks ..)))
  | tableRead lin n k ih => exact .get fun _ _ => .bind (readTable_kept ..) fun _ => ih _ hws
  | tableWrite lin bs k ih =>
    exact .get fun _ _ => .bind (holdWrite_gives ..).toKeeps fun _ => ih (kept_append hws (kept_singleton (tableWrite_kept ..)))
  | tableUpdate lin n f k ih =>
    exact .get fun _ _ => (holdUpdate_gives ..).andThen fun _ hw => ih (kept_append hws (kept_singleton hw))
  | portRead port n k ih =>
    exact .bind (ioPermission_kept ..) fun _ => .bind (performAll_kept hws) fun _ => .bind (ioRead_kept ..) fun _ =>
      ih _ fun _ h => absurd h List.not_mem_nil
  | portWrite port bs k ih =>
    exact .bind (ioPermission_kept ..) fun _ => .bind (performAll_kept hws) fun _ => .bind (ioWrite_kept ..) fun _ =>
      ih fun _ h => absurd h List.not_mem_nil
  | raise e => exact raise_kept _

theorem base386_kept (kind : BaseKind) : Keeps s₀.Kept (base386 kind) :=
  .get fun _ _ => .bind (.modify fun _ hs => hs.trans (.ofBus (.same rfl) rfl)) fun _ =>
    runBase_kept _ fun _ h => absurd h List.not_mem_nil

end Sys2Proof.Machine
end

section
/-! SUPPORT. Taking an exception and returning from one keep the invariants; what the end of an instruction is. -/

namespace Sys2Proof.Machine

variable {s₀ s t : State}

/-! ### Taking an exception -/

theorem deliverReal_kept (e : Exc) : Keeps s₀.Kept (deliverReal e) :=
  .get fun _ _ => .check (raise_kept _) fun _ => .bind (pushAll_kept ..) fun _ => .bind (sysRead_kept ..) fun _ =>
    .bind (sysRead_kept ..) fun _ => .modify fun _ hs => hs.trans (.ofFlags (fun h => h.and rfl) rfl)

theorem innerStack_gives (ext : DWord) (lvl : BitVec 2) :
    Gives s₀.Kept (fun x => ∀ w ∈ x.2, w.Kept s₀) (innerStack ext lvl) :=
  Gives.get.andGives fun _ _ => .check (raise_kept _) fun _ => .bind (sysRead_kept ..) fun _ => .bind (sysRead_kept ..) fun _ =>
    .check (raise_kept _) fun _ => .bind (readDesc_kept ..) fun _ => .check (raise_kept _) fun _ => .check (raise_kept _) fun _ =>
      (holdAccessed_gives ..).andGives fun _ hws => .pure hws

theorem deliverGate_kept (e : Exc) (g : Nat) : Keeps s₀.Kept (deliverGate e g) :=
  .get fun _ _ => .check (raise_kept _) fun _ => .check (raise_kept _) fun _ => .check (raise_kept _) fun _ =>
    .check (raise_kept _) fun _ => .bind (readDesc_kept ..) fun _ => .check (raise_kept _) fun _ =>
    .check (raise_kept _) fun _ => .check (raise_kept _) fun _ => (holdAccessed_gives ..).andThen fun _ hws =>
      (innerStack_gives ..).either (.pure fun _ h => absurd h List.not_mem_nil) fun _ hws' =>
        .check (raise_kept _) fun _ => (holdPushes_gives ..).andThen fun _ hps =>
          .bind (performAll_kept (kept_append (kept_append hws hws') hps)) fun _ =>
            .modify fun _ hs => hs.trans (.ofFlags (fun h => h.and (by split <;> rfl)) rfl)

theorem deliverProtected_kept (e : Exc) : Keeps s₀.Kept (deliverProtected e) :=
  .get fun _ _ => .check (raise_kept _) fun _ => .bind (sysRead_kept ..) fun _ =>
    .ite (fun _ => .check (raise_kept _) fun _ => .check (raise_kept _) fun _ => base386_kept _) fun _ => deliverGate_kept ..

theorem deliver_kept (e : Exc) : Keeps s₀.Kept (deliver e) := by
  have done : Keeps s₀.Kept (do
      clearFetch
      modify fun s =>
        { s with dec := Decoding.idle, halted := false, trapPending := false, shadow := false, ssShadow := false, frozen := false
                 busWanted := false, lastIo := none
                 clock := if s.clock = .autoHaltPowerDown then .normal else s.clock } : M Unit) :=
    .bind clearFetch_kept fun _ => modify_kept fun _ => rfl
  exact .bind (modify_kept fun _ => rfl) fun _ => .get fun _ _ =>
    .ite (fun _ => .bind (deliverProtected_kept e) fun _ => done) fun _ => .bind (deliverReal_kept e) fun _ => done

theorem enterShutdown_kept : Keeps s₀.Kept enterShutdown := .bind (specialCycle_kept ..) fun _ => modify_kept fun _ => rfl

theorem takeException_kept (n : Nat) (e : Exc) : Keeps s₀.Kept (takeException n e) := by
  induction n generalizing s₀ e with
  | zero => exact modify_kept fun _ => rfl
  | succ n ih =>
    have next (f : Exc) (u : State) (hu : s₀.Kept u) :
        Ends s₀.Kept (match escalate e f with | some g => takeException n g u | none => enterShutdown u) := by
      split
      · exact (ih _).run u hu
      · exact enterShutdown_kept.run u hu
    have reported (f : Exc) (u : State) (hu : s₀.Kept u) : s₀.Kept (u.reported f) := hu.trans (.same rfl)
    refine ⟨fun s hs => ?_⟩
    have hd := (deliver_kept e).run s (.refl s)
    unfold takeException
    split <;> rename_i h
    · exact hs.trans (hd.of_ok h)
    · exact next _ _ (reported _ _ (hs.trans (hd.of_error h).afterFailed))
    · exact next _ _ (reported _ _ (hs.trans (hd.of_error h)))
    · exact hs.trans (hd.of_error h)

theorem takeExc_kept (e : Exc) : Keeps s₀.Kept (takeExc e) := takeException_kept 5 e

/-! ### Returning from one -/

theorem iretDone_kept : Keeps s₀.Kept iretDone := .bind clearFetch_kept fun _ => modify_kept fun _ => rfl

theorem iretReal_kept (os : OpSize) : Keeps s₀.Kept (iretReal os) :=
  .get fun _ _ => .check (raise_kept _) fun _ => .bind (peek_kept ..) fun _ => .bind (peek_kept ..) fun _ =>
    .bind (peek_kept ..) fun _ => .check (raise_kept _) fun _ => .bind (release_kept _) fun _ =>
      .bind (.modify fun _ hs => hs.trans (.ofFlags (fun _ => flagsLegal_normFlags ..) rfl)) fun _ => iretDone_kept

/-- The registers that an IRET loads, and its end. -/
theorem returned_kept {f : State → State} (h : ∀ s : State, s.Kept (f s)) : Keeps s₀.Kept (modify f >>= fun _ => iretDone) :=
  .bind (.modify fun s hs => hs.trans (h s)) fun _ => iretDone_kept

theorem iretProt_kept (os : OpSize) : Keeps s₀.Kept (iretProt os) := by
  unfold iretProt
  refine .get fun s _ => .bind (peek_kept ..) fun _ => .bind (peek_kept ..) fun _ => .bind (peek_kept ..) fun fl =>
    .ite (fun _ => ?_) fun _ => ?_
  · exact .bind (peek_kept ..) fun _ => .bind (peek_kept ..) fun _ => .bind (peek_kept ..) fun _ => .bind (peek_kept ..) fun _ =>
      .bind (peek_kept ..) fun _ => .bind (peek_kept ..) fun _ => returned_kept fun _ => .ofFlags (fun _ => flagsLegal_normFlags ..) rfl
  · exact .check (raise_kept _) fun _ => .check (raise_kept _) fun _ => .bind (readDesc_kept ..) fun _ =>
      .check (raise_kept _) fun _ => .check (raise_kept _) fun _ => .check (raise_kept _) fun _ => .check (raise_kept _) fun _ =>
      .ite
        (fun _ => (holdAccessed_gives ..).andThen fun _ hws => .bind (performAll_kept hws) fun _ => .bind (release_kept _) fun _ =>
          returned_kept fun _ => .ofFlags (fun _ => flagsLegal_normFlags ..) rfl)
        fun _ => .bind (peek_kept ..) fun _ => .bind (peek_kept ..) fun _ => .check (raise_kept _) fun _ =>
          .bind (readDesc_kept ..) fun _ => .check (raise_kept _) fun _ => .check (raise_kept _) fun _ =>
          (holdAccessed_gives ..).andThen fun _ hws => (holdAccessed_gives ..).andThen fun _ hws' =>
          .bind (performAll_kept (kept_append hws hws')) fun _ => returned_kept fun _ => .ofFlags (fun _ => flagsLegal_normFlags ..) rfl

theorem iretTask_kept : Keeps s₀.Kept iretTask := ⟨fun s hs => by
  have h := (base386_kept .taskReturn).run s hs
  unfold iretTask
  split <;> rename_i e
  · exact iretDone_kept.run _ (h.of_ok e)
  · exact (h.of_error e).trans (.same rfl)
  · exact h⟩

theorem iret_kept (os : OpSize) : Keeps s₀.Kept (iret os) :=
  .get fun _ _ => .ite (fun _ => iretReal_kept os) fun _ => .ite (fun _ => iretTask_kept) fun _ => iretProt_kept os

/-! ### The end of an instruction -/

/-- A step that goes on goes on in a state with `P`. -/
def Lands (P : State → Prop) : Host.Outcome State Fault Refusal → Prop
  | .next t => P t
  | .fault _ | .refused _ => True

theorem stopped_lands (r : Stop) (hs : s₀.Kept s) (ht : s₀.Kept t) : Lands s₀.Kept (stopped s r t) := by
  cases r with
  | stall => exact hs.trans State.kept_waiting
  | freeze => exact hs.trans State.kept_freezing
  | reset r => exact ht.trans (State.kept_applyReset r)
  | refuse r => trivial
  | exc e | taskExc e => exact ht

theorem exceptIn_lands (e : Exc) (hs : s₀.Kept s) (ht : s₀.Kept t) : Lands s₀.Kept (exceptIn s e t) := by
  have h := (takeExc_kept e).run t ht
  unfold exceptIn
  split <;> rename_i hr
  · exact h.of_ok hr
  · exact stopped_lands _ hs (h.of_error hr)

theorem except_lands (e : Exc) (h : s.Kept t) (hs : s₀.Kept s) : Lands s₀.Kept (except s e t) :=
  exceptIn_lands e hs (hs.trans h.afterFailed)

/-- An instruction whose effect keeps the invariants, to its end or into its exception. -/
theorem runWith_lands {m : M Unit} {fin : State → State} (hm : ∀ s₀ : State, Keeps s₀.Kept m)
    (hfin : ∀ t : State, t.Kept (fin t)) (hs : s₀.Kept s) : Lands s₀.Kept (runWith m fin s) := by
  have h := (hm s).run s (.refl s)
  unfold runWith
  split <;> rename_i e
  · exact (hs.trans (h.of_ok e)).trans (hfin _)
  · exact except_lands _ (h.of_error e) hs
  · exact exceptIn_lands _ hs (hs.trans (h.of_error e))
  · exact stopped_lands _ hs (hs.trans (h.of_error e))

theorem run_lands {m : M Unit} (hm : ∀ s₀ : State, Keeps s₀.Kept m) (hs : s₀.Kept s) : Lands s₀.Kept (run m s) :=
  runWith_lands hm (fun _ => .same rfl) hs

theorem lockable_kept (ok : Bool) : Keeps s₀.Kept (lockable ok) := .get fun _ _ => .ite (fun _ => raise_kept _) fun _ => .pure

theorem privileged_kept : Keeps s₀.Kept privileged := .get fun _ _ => .ite (fun _ => raise_kept _) fun _ => .pure

theorem jumpTo_kept (target : DWord) : Keeps s₀.Kept (jumpTo target) := .bind (modify_kept fun _ => rfl) fun _ => clearFetch_kept

end Sys2Proof.Machine
end

section
/-! SUPPORT. Every instruction keeps the invariants. -/

namespace Sys2Proof.Machine

variable {s₀ s t : State}

/-! ### Operands -/

theorem readRm8_kept (rm : Rm Reg8) : Keeps s₀.Kept (readRm8 rm) := by
  cases rm with
  | reg r => exact .get fun _ _ => .pure
  | mem m => exact .get fun _ _ => .bind (readMem_kept ..) fun _ => .pure

theorem writeRm8_kept (rm : Rm Reg8) (v : BitVec 8) : Keeps s₀.Kept (writeRm8 rm v) := by
  cases rm with
  | reg r => exact .get fun _ _ => setReg8_kept ..
  | mem m => exact .get fun _ _ => writeMem_kept ..

theorem readRm_kept (os : OpSize) (rm : Rm Reg) : Keeps s₀.Kept (readRm os rm) := by
  cases rm with
  | reg r => exact .get fun _ _ => .pure
  | mem m => exact .get fun _ _ => .bind (readMem_kept ..) fun _ => .pure

theorem writeRm_kept (os : OpSize) (rm : Rm Reg) (v : BitVec os.bits) : Keeps s₀.Kept (writeRm os rm v) := by
  cases rm with
  | reg r => exact .get fun _ _ => setRegSz_kept ..
  | mem m => exact .get fun _ _ => writeMem_kept ..

theorem modifyRm8_kept {rm : Rm Reg8} {lock : Bool} {f : BitVec 8 → BitVec 8} {other : BitVec 8 → M Unit}
    (h : ∀ v, Keeps s₀.Kept (other v)) : Keeps s₀.Kept (modifyRm8 rm lock f other) := by
  cases rm with
  | reg r => exact .get fun _ _ => .bind (h _) fun _ => setReg8_kept ..
  | mem m => exact .get fun _ _ => .bind (rmwRead_kept ..) fun _ => .bind (rmwWrite_kept ..) fun _ => h _

theorem modifyRm_kept {os : OpSize} {rm : Rm Reg} {lock : Bool} {f : BitVec os.bits → BitVec os.bits}
    {other : BitVec os.bits → M Unit} (h : ∀ v, Keeps s₀.Kept (other v)) : Keeps s₀.Kept (modifyRm os rm lock f other) := by
  cases rm with
  | reg r => exact .get fun _ _ => .bind (h _) fun _ => setRegSz_kept ..
  | mem m => exact .get fun _ _ => .bind (rmwRead_kept ..) fun _ => .bind (rmwWrite_kept ..) fun _ => h _

/-! ### The instructions the 80486 adds -/

theorem execBswap_lands (os : OpSize) (r : Reg) (hs : s₀.Kept s) : Lands s₀.Kept (execBswap os r s) := by
  cases os with
  | w16 => exact run_lands (fun _ => .bind (lockable_kept _) fun _ => .bind freeDWord_kept fun _ => setReg_kept ..) hs
  | w32 => exact run_lands (fun _ => .bind (lockable_kept _) fun _ => setReg_kept ..) hs

theorem execXaddRm8R8_lands (rm : Rm Reg8) (r : Reg8) (hs : s₀.Kept s) : Lands s₀.Kept (execXaddRm8R8 rm r s) :=
  run_lands (fun _ => .bind (lockable_kept _) fun _ => modifyRm8_kept fun _ => .bind (setReg8_kept ..) fun _ => setArith_kept _) hs

theorem execXaddRmR_lands (os : OpSize) (rm : Rm Reg) (r : Reg) (hs : s₀.Kept s) : Lands s₀.Kept (execXaddRmR os rm r s) :=
  run_lands (fun _ => .bind (lockable_kept _) fun _ => modifyRm_kept fun _ => .bind (setRegSz_kept ..) fun _ => setArith_kept _) hs

theorem execCmpxchgRm8R8_lands (rm : Rm Reg8) (r : Reg8) (hs : s₀.Kept s) : Lands s₀.Kept (execCmpxchgRm8R8 rm r s) :=
  run_lands (fun _ => .bind (lockable_kept _) fun _ => modifyRm8_kept fun _ =>
    .ite (fun _ => setArith_kept _) fun _ => .bind (setReg8_kept ..) fun _ => setArith_kept _) hs

theorem execCmpxchgRmR_lands (os : OpSize) (rm : Rm Reg) (r : Reg) (hs : s₀.Kept s) : Lands s₀.Kept (execCmpxchgRmR os rm r s) :=
  run_lands (fun _ => .bind (lockable_kept _) fun _ => modifyRm_kept fun _ =>
    .ite (fun _ => setArith_kept _) fun _ => .bind (setRegSz_kept ..) fun _ => setArith_kept _) hs

theorem flushCache_kept : Keeps s₀.Kept flushCache := .modify fun _ hs => hs.trans (.ofBus (.same rfl) rfl)

theorem writeBackModified_kept : Keeps s₀.Kept writeBackModified :=
  bus_kept fun _ => .bind needBus_kept fun _ => .bind drainBuffers_kept fun _ => .get fun _ _ => writeBackSlots_kept _

theorem execInvd_lands (hs : s₀.Kept s) : Lands s₀.Kept (execInvd s) :=
  run_lands (fun _ => .bind (lockable_kept _) fun _ => .bind privileged_kept fun _ => .bind flushCache_kept fun _ =>
    specialCycle_kept ..) hs

theorem execWbinvd_lands (hs : s₀.Kept s) : Lands s₀.Kept (execWbinvd s) :=
  run_lands (fun _ => .bind (lockable_kept _) fun _ => .bind privileged_kept fun _ => .check writeBackModified_kept fun _ =>
    .bind flushCache_kept fun _ => .bind (specialCycle_kept ..) fun _ => specialCycle_kept ..) hs

theorem execInvlpg_lands (m : MemOp) (hs : s₀.Kept s) : Lands s₀.Kept (execInvlpg m s) :=
  run_lands (fun _ => .bind (lockable_kept _) fun _ => .bind privileged_kept fun _ =>
    .modify fun _ hs => hs.trans (.ofBus (.same rfl) rfl)) hs

theorem execCpuid_lands (hs : s₀.Kept s) : Lands s₀.Kept (execCpuid s) :=
  run_lands (fun _ => .bind (lockable_kept _) fun _ => .check (raise_kept _) fun _ => .bind drain_kept fun _ =>
    .bind clearFetch_kept fun _ => modify_kept fun _ => rfl) hs

/-! ### MOV and XCHG -/

theorem execMovAlMoffs_lands (m : Moffs) (hs : s₀.Kept s) : Lands s₀.Kept (execMovAlMoffs m s) :=
  run_lands (fun _ => .bind (lockable_kept _) fun _ => .bind (readMem_kept ..) fun _ => setReg8_kept ..) hs

theorem execMovEaxMoffs_lands (os : OpSize) (m : Moffs) (hs : s₀.Kept s) : Lands s₀.Kept (execMovEaxMoffs os m s) :=
  run_lands (fun _ => .bind (lockable_kept _) fun _ => .bind (readMem_kept ..) fun _ => setRegSz_kept ..) hs

theorem execMovMoffsAl_lands (m : Moffs) (hs : s₀.Kept s) : Lands s₀.Kept (execMovMoffsAl m s) :=
  run_lands (fun _ => .bind (lockable_kept _) fun _ => writeMem_kept ..) hs

theorem execMovMoffsEax_lands (os : OpSize) (m : Moffs) (hs : s₀.Kept s) : Lands s₀.Kept (execMovMoffsEax os m s) :=
  run_lands (fun _ => .bind (lockable_kept _) fun _ => writeMem_kept ..) hs

theorem execMovR8Rm8_lands (r : Reg8) (rm : Rm Reg8) (hs : s₀.Kept s) : Lands s₀.Kept (execMovR8Rm8 r rm s) :=
  run_lands (fun _ => .bind (lockable_kept _) fun _ => .bind (readRm8_kept _) fun _ => setReg8_kept ..) hs

theorem execMovRRm_lands (os : OpSize) (r : Reg) (rm : Rm Reg) (hs : s₀.Kept s) : Lands s₀.Kept (execMovRRm os r rm s) :=
  run_lands (fun _ => .bind (lockable_kept _) fun _ => .bind (readRm_kept ..) fun _ => setRegSz_kept ..) hs

theorem execMovRm8R8_lands (rm : Rm Reg8) (r : Reg8) (hs : s₀.Kept s) : Lands s₀.Kept (execMovRm8R8 rm r s) :=
  run_lands (fun _ => .bind (lockable_kept _) fun _ => writeRm8_kept ..) hs

theorem execMovRmR_lands (os : OpSize) (rm : Rm Reg) (r : Reg) (hs : s₀.Kept s) : Lands s₀.Kept (execMovRmR os rm r s) :=
  run_lands (fun _ => .bind (lockable_kept _) fun _ => writeRm_kept ..) hs

theorem execMovR8Imm8_lands (r : Reg8) (v : BitVec 8) (hs : s₀.Kept s) : Lands s₀.Kept (execMovR8Imm8 r v s) :=
  run_lands (fun _ => .bind (lockable_kept _) fun _ => setReg8_kept ..) hs

theorem execMovRImm_lands (r : Reg) (v : Imm) (hs : s₀.Kept s) : Lands s₀.Kept (execMovRImm r v s) := by
  cases v with
  | i16 x | i32 x => exact run_lands (fun _ => .bind (lockable_kept _) fun _ => setRegSz_kept ..) hs

theorem execXchgRm8R8_lands (rm : Rm Reg8) (r : Reg8) (hs : s₀.Kept s) : Lands s₀.Kept (execXchgRm8R8 rm r s) :=
  run_lands (fun _ => .bind (lockable_kept _) fun _ => modifyRm8_kept fun _ => setReg8_kept ..) hs

theorem execXchgRmR_lands (os : OpSize) (rm : Rm Reg) (r : Reg) (hs : s₀.Kept s) : Lands s₀.Kept (execXchgRmR os rm r s) :=
  run_lands (fun _ => .bind (lockable_kept _) fun _ => modifyRm_kept fun _ => setRegSz_kept ..) hs

theorem execXchgEaxR_lands (os : OpSize) (r : Reg) (hs : s₀.Kept s) : Lands s₀.Kept (execXchgEaxR os r s) :=
  run_lands (fun _ => .bind (lockable_kept _) fun _ => .bind (setRegSz_kept ..) fun _ => setRegSz_kept ..) hs

/-! ### Input and output -/

theorem runIo_lands {m : M Unit} (hm : ∀ s₀ : State, Keeps s₀.Kept m) (hs : s₀.Kept s) : Lands s₀.Kept (runIo m s) :=
  runWith_lands hm (fun _ => .same rfl) hs

theorem inByte_kept (port : Word) : Keeps s₀.Kept (inByte port) :=
  .bind (lockable_kept _) fun _ => .bind (ioPermission_kept ..) fun _ => .bind (ioRead_kept ..) fun _ => setReg8_kept ..

theorem inSized_kept (os : OpSize) (port : Word) : Keeps s₀.Kept (inSized os port) :=
  .bind (lockable_kept _) fun _ => .bind (ioPermission_kept ..) fun _ => .bind (ioRead_kept ..) fun _ => setRegSz_kept ..

theorem outBytes_kept (port : Word) (bs : List Byte) : Keeps s₀.Kept (outBytes port bs) :=
  .bind (lockable_kept _) fun _ => .bind (ioPermission_kept ..) fun _ => ioWrite_kept ..

theorem outsOnce_kept (n : Nat) (seg : SegReg) (as : AddrSize) (buffered : Bool) : Keeps s₀.Kept (outsOnce n seg as buffered) :=
  have moved : Keeps s₀.Kept (modify fun s =>
      { s with regs := { s.regs with esi := stepValue as s.regs.esi (outsDelta n s.df) } } : M Unit) :=
    modify_kept fun _ => rfl
  .get fun _ _ => .bind (ioPermission_kept ..) fun _ => .bind (readMem_kept ..) fun _ =>
    .ite (fun _ => .bind (ioWriteBuffered_kept ..) fun _ => moved) fun _ => .bind (ioWrite_kept ..) fun _ => moved

theorem outsSingle_lands (n : Nat) (seg : SegReg) (as : AddrSize) (hs : s₀.Kept s) : Lands s₀.Kept (outsSingle n seg as s) :=
  runIo_lands (fun _ => .bind (lockable_kept _) fun _ => outsOnce_kept ..) hs

theorem outsRep_lands (n : Nat) (seg : SegReg) (as : AddrSize) (hs : s₀.Kept s) : Lands s₀.Kept (outsRep n seg as s) := by
  unfold outsRep
  split
  · exact run_lands (fun _ => lockable_kept _) hs
  · refine runWith_lands (fun _ => .bind (lockable_kept _) fun _ => .bind (outsOnce_kept ..) fun _ =>
      .modify fun _ hs => hs.trans (.ofFlags (fun h => ?_) rfl)) (fun _ => .same rfl) hs
    dsimp only
    split
    · exact h
    · exact h.setBit _ rfl

theorem execOutsb_lands (seg : SegReg) (as : AddrSize) (hs : s₀.Kept s) : Lands s₀.Kept (execOutsb seg as s) := by
  unfold execOutsb
  split
  · exact outsRep_lands _ _ _ hs
  · exact outsSingle_lands _ _ _ hs

theorem execOutswd_lands (os : OpSize) (seg : SegReg) (as : AddrSize) (hs : s₀.Kept s) : Lands s₀.Kept (execOutswd os seg as s) := by
  unfold execOutswd
  split
  · exact outsRep_lands _ _ _ hs
  · exact outsSingle_lands _ _ _ hs

/-! ### Control -/

theorem jumpRelative_kept (os : OpSize) (d : DWord) : Keeps s₀.Kept (jumpRelative os d) :=
  .bind (lockable_kept _) fun _ => .get fun _ _ => .check (raise_kept _) fun _ => jumpTo_kept _

theorem execJmpRel_lands (d : Imm) (hs : s₀.Kept s) : Lands s₀.Kept (execJmpRel d s) := by
  cases d with
  | i16 v | i32 v => exact run_lands (fun _ => jumpRelative_kept ..) hs

theorem softInterrupt_kept (v : Byte) : Keeps s₀.Kept (softInterrupt v) :=
  .get fun _ _ => .check (refuse_kept _) fun _ => .check (raise_kept _) fun _ => raise_kept _

theorem execIntN_lands (v : BitVec 8) (hs : s₀.Kept s) : Lands s₀.Kept (execIntN v s) :=
  run_lands (fun _ => .bind (lockable_kept _) fun _ => softInterrupt_kept _) hs

theorem execHlt_lands (hs : s₀.Kept s) : Lands s₀.Kept (execHlt s) :=
  run_lands (fun _ => .bind (lockable_kept _) fun _ => .bind privileged_kept fun _ => .bind (specialCycle_kept ..) fun _ =>
    modify_kept fun _ => rfl) hs

theorem execPushf_lands (os : OpSize) (hs : s₀.Kept s) : Lands s₀.Kept (execPushf os s) :=
  run_lands (fun _ => .bind (lockable_kept _) fun _ => .check (refuse_kept _) fun _ => .check (raise_kept _) fun _ => push_kept ..) hs

theorem execPopf_lands (os : OpSize) (hs : s₀.Kept s) : Lands s₀.Kept (execPopf os s) :=
  run_lands (fun _ => .bind (lockable_kept _) fun _ => .check (refuse_kept _) fun _ => .check (raise_kept _) fun _ =>
    .bind (peek_kept ..) fun _ => .bind (release_kept _) fun _ => setFlags_kept _) hs

/-! ### Floating point -/

theorem fpErrorCheck_kept : Keeps s₀.Kept fpErrorCheck :=
  .get fun _ _ => .ite (fun _ => .ite (fun _ => raise_kept _) fun _ => .ite (fun _ => .pure) fun _ => .throw) fun _ => .pure

theorem escGate_kept (noWait : Bool) : Keeps s₀.Kept (escGate noWait) :=
  .get fun _ _ => .check (raise_kept _) fun _ => .ite (fun _ => fpErrorCheck_kept) fun _ => .pure

theorem escExecute_kept (os : OpSize) (op reg : BitVec 3) (rm : Rm (BitVec 3)) : Keeps s₀.Kept (escExecute os op reg rm) := by
  unfold escExecute
  refine .get fun s _ => ?_
  cases rm with
  | reg r => exact .pure
  | mem m =>
    dsimp only
    split
    · exact .pure
    · exact .bind (readPieces_kept ..) fun _ => .pure
    · split
      · exact .bind (writePieces_kept ..) fun _ => .pure
      · exact .bind (checkPieces_kept ..) fun _ => .pure

theorem escEffect_kept (os : OpSize) (op reg : BitVec 3) (rm : Rm (BitVec 3)) : Keeps s₀.Kept (escEffect os op reg rm) := by
  unfold escEffect
  refine .get fun s _ => ?_
  split
  · exact .pure
  · exact .pure
  · exact .bind (setRegSz_kept ..) fun _ => .pure
  · exact .bind (writeMem_kept ..) fun _ => .pure
  · exact .bind (writeMem_kept ..) fun _ => .pure
  · exact .bind (readMem_kept ..) fun _ => .pure
  · exact .bind (escExecute_kept ..) fun _ => .pure

theorem execEsc_lands (os : OpSize) (op reg : BitVec 3) (rm : Rm (BitVec 3)) (hs : s₀.Kept s) :
    Lands s₀.Kept (execEsc os op reg rm s) :=
  run_lands (fun _ => .bind (lockable_kept _) fun _ => .bind (escGate_kept _) fun _ => .bind (escEffect_kept ..) fun _ =>
    modify_kept fun _ => rfl) hs

theorem execWait_lands (hs : s₀.Kept s) : Lands s₀.Kept (execWait s) :=
  run_lands (fun _ => .bind (lockable_kept _) fun _ => .check (raise_kept _) fun _ => fpErrorCheck_kept) hs

/-! ### Special registers -/

theorem readCr_kept (n : BitVec 3) : Keeps s₀.Kept (readCr n) := by
  unfold readCr
  refine .get fun s _ => ?_
  split
  · exact .pure
  · exact .pure
  · exact .pure
  · exact .ite (fun _ => .pure) fun _ => raise_kept _
  · exact raise_kept _

/-- A control register takes a value that it may hold, or none. -/
theorem writeCr_kept (n : BitVec 3) (v : DWord) : Keeps s₀.Kept (writeCr n v) := by
  unfold writeCr
  refine .get fun s _ => ?_
  split
  · exact .guard .throw fun hv _ =>
      .bind (.modify fun _ hs => hs.trans (State.kept_setCr0 fun _ => cr0Legal_normCr0 (Bool.eq_false_iff.2 hv))) fun _ =>
        .ite (fun _ => .pure) fun _ => flushTlb_kept
  · exact modify_kept fun _ => rfl
  · refine .bind (.modify fun _ hs => hs.trans (.ofLegal (.refl _) rfl fun hr => ?_)) fun _ => flushTlb_kept
    obtain ⟨hf, h0, -, h4⟩ := regsLegal_iff.1 hr.1
    exact regsLegal_iff.2 ⟨hf, h0, (normCr3_normCr3 v).symm, h4⟩
  · refine .check (raise_kept _) fun _ =>
      .ite (fun hv => .modify fun _ hs => hs.trans (.ofLegal (.refl _) rfl fun hr => ?_)) fun _ => raise_kept _
    obtain ⟨hf, h0, h3, -⟩ := regsLegal_iff.1 hr.1
    exact regsLegal_iff.2 ⟨hf, h0, h3, hv⟩
  · exact raise_kept _

theorem execMovRCr_lands (r : Reg) (n : BitVec 3) (hs : s₀.Kept s) : Lands s₀.Kept (execMovRCr r n s) :=
  run_lands (fun _ => .bind (lockable_kept _) fun _ => .bind privileged_kept fun _ => .bind (readCr_kept n) fun _ =>
    .bind (setReg_kept ..) fun _ => freeStatus_kept) hs

theorem execMovCrR_lands (n : BitVec 3) (r : Reg) (hs : s₀.Kept s) : Lands s₀.Kept (execMovCrR n r s) :=
  run_lands (fun _ => .bind (lockable_kept _) fun _ => .bind privileged_kept fun _ => .bind (writeCr_kept ..) fun _ =>
    freeStatus_kept) hs

theorem debugProtected_kept : Keeps s₀.Kept debugProtected := .get fun _ _ => .ite (fun _ => raise_kept _) fun _ => .pure

theorem execMovRDr_lands (r : Reg) (n : BitVec 3) (hs : s₀.Kept s) : Lands s₀.Kept (execMovRDr r n s) :=
  run_lands (fun _ => .bind (lockable_kept _) fun _ => .bind privileged_kept fun _ => .bind debugProtected_kept fun _ =>
    .bind (setReg_kept ..) fun _ => freeStatus_kept) hs

theorem State.guarded_setDr (n : BitVec 3) (v : DWord) : (s.setDr n v).guarded = s.guarded := by
  unfold State.setDr
  split <;> rfl

theorem execMovDrR_lands (n : BitVec 3) (r : Reg) (hs : s₀.Kept s) : Lands s₀.Kept (execMovDrR n r s) :=
  run_lands (fun _ => .bind (lockable_kept _) fun _ => .bind privileged_kept fun _ => .bind debugProtected_kept fun _ =>
    .bind (modify_kept fun _ => State.guarded_setDr ..) fun _ => freeStatus_kept) hs

theorem execMovRTr_lands (r : Reg) (n : BitVec 3) (hs : s₀.Kept s) : Lands s₀.Kept (execMovRTr r n s) :=
  run_lands (fun _ => .bind (lockable_kept _) fun _ => .bind privileged_kept fun _ => .check (raise_kept _) fun _ =>
    .bind (setReg_kept ..) fun _ => freeStatus_kept) hs

/-- A test register takes its value, and the bus unit another cache or another TLB. -/
theorem State.kept_setTestReg (n : BitVec 3) (v : DWord) {b : Bus} (hb : b.storage = s.bus.storage) :
    s.Kept { s.setTestReg n v with bus := b } := by
  refine .ofBus (.same hb) ?_
  unfold State.setTestReg
  split <;> rfl

theorem execMovTrR_lands (n : BitVec 3) (r : Reg) (hs : s₀.Kept s) : Lands s₀.Kept (execMovTrR n r s) :=
  run_lands (fun _ => .bind (lockable_kept _) fun _ => .bind privileged_kept fun _ => .check (raise_kept _) fun _ =>
    .bind (.modify fun _ hs => hs.trans (State.kept_setTestReg n _ (by split <;> rfl))) fun _ => freeStatus_kept) hs

end Sys2Proof.Machine
end

section
/-! SUPPORT. Bus cycles, system management mode, events and inputs keep the invariants, and so every step does (O58, O59). -/

namespace Sys2Proof.Machine

variable {s₀ s t : State}

/-! ### Prefixes and bus cycles -/

theorem runRow_lands {m : M Unit} (hm : Keeps s₀.Kept m) (hs : s₀.Kept s) : Lands s₀.Kept (runRow m s) := by
  have h := hm.run s hs
  unfold runRow
  split <;> rename_i e
  · exact h.of_ok e
  · trivial
  · exact (h.of_error e).trans (State.kept_applyReset _)
  · exact hs

theorem runTransfers_kept (i : Instr) : Keeps s₀.Kept (runTransfers i) :=
  bus_kept fun _ => .bind needBus_kept fun _ => .bind drainBuffers_kept fun _ => .get fun _ hb =>
    .bind (.set (hb.trans (Bus.moved_rowXfers rfl).kept)) fun _ => transact_kept ..

/-! ### System management mode -/

theorem writeImage_kept {b₀ : Bus} (c : MemCtx) (chs : List PChunk) (bs : List Byte) : Keeps b₀.Kept (writeImage c chs bs) := by
  induction chs generalizing bs with
  | nil => exact .pure
  | cons ch chs ih => exact .bind (writeChunk_kept ..) fun _ => ih _

theorem readImage_kept {b₀ : Bus} (c : MemCtx) (chs : List PChunk) : Keeps b₀.Kept (readImage c chs) := by
  induction chs with
  | nil => exact .pure
  | cons ch chs ih => exact .bind (readChunk_kept ..) fun _ => .bind ih fun _ => .pure

theorem freeRegs_kept : Keeps s₀.Kept freeRegs :=
  .bind freeDWord_kept fun _ => .bind freeDWord_kept fun _ => .bind freeDWord_kept fun _ => .bind freeDWord_kept fun _ =>
    .bind freeDWord_kept fun _ => .bind freeDWord_kept fun _ => .bind freeDWord_kept fun _ => .bind freeDWord_kept fun _ => .pure

theorem flagsLegal_two (p : Part) : FlagsLegal p 2#32 := flagsLegal_iff.2 fun _ _ => rfl

theorem enterSmm_kept (io : Option IoInfo) : Keeps s₀.Kept (enterSmm io) :=
  .bind (bus_kept fun _ => needBus_kept) fun _ => .bind drain_kept fun _ => .bind (modify_kept fun _ => rfl) fun _ =>
    .get fun _ _ => .bind (bus_kept fun _ => writeImage_kept ..) fun _ => .bind freeDWord_kept fun _ =>
    .bind freeRegs_kept fun _ => .bind freeDWord_kept fun _ => .bind clearFetch_kept fun _ =>
      .modify fun _ hs => hs.trans (.ofFlagsCr0 (fun _ => flagsLegal_two _) (fun h => h.smm) rfl)

/-- An image that RSM does not shut down on has a legal CR4 and a legal CR0. -/
theorem imageInvalid_eq_false {img : List Byte} (h : ¬imageInvalid img = true) :
    cr0Illegal (at32 img 0x1FC) = false ∧ imageCr4 img &&& cr4Reserved = 0 := by
  unfold imageInvalid at h
  simp only [Bool.or_eq_true, not_or, bne_iff_ne, ne_eq, not_not, Bool.not_eq_true] at h
  exact ⟨h.2, h.1.2⟩

theorem State.kept_restoreImage {img : List Byte} (h : ¬imageInvalid img = true) : s.Kept (restoreImage img s) := by
  obtain ⟨h0, h4⟩ := imageInvalid_eq_false h
  exact .ofLegal (.refl _) rfl fun _ =>
    regsLegal_iff.2 ⟨flagsLegal_normFlags .., cr0Legal_normCr0 h0, (normCr3_normCr3 _).symm, h4⟩

theorem restartIo_kept (io : Option IoInfo) : Keeps s₀.Kept (restartIo io) := by
  cases io with
  | some i => exact modify_kept fun _ => rfl
  | none => exact .bind freeDWord_kept fun _ => modify_kept fun _ => rfl

theorem rsmBody_kept : Keeps s₀.Kept rsmBody := by
  refine .bind (lockable_kept _) fun _ => .get fun s _ => .check (raise_kept _) fun _ => .bind drain_kept fun _ =>
    .bind (bus_kept fun _ => readImage_kept ..) fun img => .ite (fun _ => enterShutdown_kept) fun himg => ?_
  refine .check (refuse_kept _) fun _ => .check (refuse_kept _) fun _ => .check (refuse_kept _) fun _ =>
    .bind clearFetch_kept fun _ => .bind (.modify fun _ hs => hs.trans ((State.kept_restoreImage himg).trans (.same rfl))) fun _ =>
      .check (restartIo_kept _) fun _ => .ite (fun _ => .bind (modify_kept fun _ => rfl) fun _ => enterSmm_kept _) fun _ =>
        .ite (fun _ => .bind (specialCycle_kept ..) fun _ => modify_kept fun _ => rfl) fun _ => .pure

/-! ### Every instruction -/

theorem exec_lands (i : Instr) (hs : s₀.Kept s) : Lands s₀.Kept (exec i s) := by
  cases i with
  | bswap os r => exact execBswap_lands os r hs
  | xaddRm8R8 rm r => exact execXaddRm8R8_lands rm r hs
  | xaddRmR os rm r => exact execXaddRmR_lands os rm r hs
  | cmpxchgRm8R8 rm r => exact execCmpxchgRm8R8_lands rm r hs
  | cmpxchgRmR os rm r => exact execCmpxchgRmR_lands os rm r hs
  | invd => exact execInvd_lands hs
  | wbinvd => exact execWbinvd_lands hs
  | invlpg m => exact execInvlpg_lands m hs
  | rsm => exact runWith_lands (fun _ => rsmBody_kept) (fun _ => .refl _) hs
  | cpuid => exact execCpuid_lands hs
  | movAlMoffs m => exact execMovAlMoffs_lands m hs
  | movEaxMoffs os m => exact execMovEaxMoffs_lands os m hs
  | movMoffsAl m => exact execMovMoffsAl_lands m hs
  | movMoffsEax os m => exact execMovMoffsEax_lands os m hs
  | movR8Rm8 r rm => exact execMovR8Rm8_lands r rm hs
  | movRRm os r rm => exact execMovRRm_lands os r rm hs
  | movRm8R8 rm r => exact execMovRm8R8_lands rm r hs
  | movRmR os rm r => exact execMovRmR_lands os rm r hs
  | movR8Imm8 r v => exact execMovR8Imm8_lands r v hs
  | movRImm r v => exact execMovRImm_lands r v hs
  | inAlImm8 | inAlDx => exact runIo_lands (fun _ => inByte_kept _) hs
  | inEaxImm8 | inEaxDx => exact runIo_lands (fun _ => inSized_kept ..) hs
  | outImm8Al | outImm8Eax | outDxAl | outDxEax => exact runIo_lands (fun _ => outBytes_kept ..) hs
  | outsb seg as => exact execOutsb_lands seg as hs
  | outswd os seg as => exact execOutswd_lands os seg as hs
  | repPrefix | lockPrefix | opSizePrefix | addrSizePrefix => exact hs.trans (.same rfl)
  | xchgRm8R8 rm r => exact execXchgRm8R8_lands rm r hs
  | xchgRmR os rm r => exact execXchgRmR_lands os rm r hs
  | xchgEaxR os r => exact execXchgEaxR_lands os r hs
  | hlt => exact execHlt_lands hs
  | esc os op reg rm => exact execEsc_lands os op reg rm hs
  | wait => exact execWait_lands hs
  | jmpRel8 os d => exact run_lands (fun _ => jumpRelative_kept ..) hs
  | jmpRel d => exact execJmpRel_lands d hs
  | intN v => exact execIntN_lands v hs
  | movRCr r n => exact execMovRCr_lands r n hs
  | movCrR n r => exact execMovCrR_lands n r hs
  | movRDr r n => exact execMovRDr_lands r n hs
  | movDrR n r => exact execMovDrR_lands n r hs
  | movRTr r n => exact execMovRTr_lands r n hs
  | movTrR n r => exact execMovTrR_lands n r hs
  | pushf os => exact execPushf_lands os hs
  | popf os => exact execPopf_lands os hs
  | intAckCycle | ioReadCycle | ioWriteCycle | codeReadCycle | memReadCycle | memWriteCycle =>
    exact runRow_lands (runTransfers_kept _) hs
  | specialCycle | flushCycle | haltCycle | writeBackCycle => exact runRow_lands (specialCycle_kept ..) hs
  | reservedCycle => trivial
  | shutdownCycle => exact runRow_lands enterShutdown_kept hs
  | secondFlushAckCycle | stopGrantCycle | firstFlushAckCycle =>
    exact runRow_lands (.check (refuse_kept _) fun _ => specialCycle_kept ..) hs

/-! ### Fetching and running one instruction -/

theorem fetchDecode_kept (n : Nat) (got : List Byte) : Keeps s₀.Kept (fetchDecode n got) := by
  induction n generalizing got with
  | zero => exact raise_kept _
  | succ n ih =>
    refine .get fun s _ => .check (raise_kept _) fun _ => .bind (codeByte_kept _) fun b => ?_
    dsimp only
    split
    · exact ih _
    · exact .pure

theorem State.kept_latchExtra (p : ExtraPrefix) : s.Kept (s.latchExtra p) := by cases p <;> exact .same rfl

theorem ifPermission_kept : Keeps s₀.Kept ifPermission :=
  .get fun _ _ => .ite (fun _ => .ite (fun _ => refuse_kept _) fun _ => raise_kept _) fun _ => .pure

theorem nextCodeBytes_kept (n : Nat) : Keeps s₀.Kept (nextCodeBytes n) := by
  induction n with
  | zero => exact .pure
  | succ n ih => exact .bind nextCodeByte_kept fun _ => .bind ih fun _ => .pure

theorem fetchMem_kept (m : Byte) (n : Nat) (got : List Byte) : Keeps s₀.Kept (fetchMem m n got) := by
  induction n generalizing got with
  | zero => exact raise_kept _
  | succ n ih =>
    refine .get fun s _ => ?_
    split
    · exact .pure
    · exact .bind nextCodeByte_kept fun _ => ih _

theorem runLocked_kept (twoByte : Bool) (b m : Byte) : Keeps s₀.Kept (runLocked twoByte b m) :=
  .get fun _ _ => .bind (fetchMem_kept ..) fun _ => .bind (nextCodeBytes_kept _) fun _ => .bind (rmwRead_kept ..) fun _ =>
    .get fun _ _ => .bind (rmwWrite_kept ..) fun _ => .modify fun s hs =>
      hs.trans (State.Kept.trans (t := { s with bus := { s.bus with draws := s.bus.draws + 1 } }) (.ofBus (.same rfl) rfl)
        (.ofFlags (fun h => h.mergeBits (mask := statusMask) _ rfl) rfl))

theorem lockBase_kept (twoByte : Bool) (b : Byte) (modRm : Option Byte) : Keeps s₀.Kept (lockBase twoByte b modRm) := by
  cases modRm with
  | none => exact raise_kept _
  | some m => exact .ite (fun _ => raise_kept _) fun _ => runLocked_kept ..

/-- CLI and STI. -/
theorem setIf_kept (x : Bool) : Keeps s₀.Kept (do
    lockable false
    ifPermission
    modify fun t => { t with eflags := setBit t.eflags 9 x } : M Unit) :=
  .bind (lockable_kept _) fun _ => .bind ifPermission_kept fun _ =>
    .modify fun _ hs => hs.trans (.ofFlags (fun h => h.setBit (k := 9) x rfl) rfl)

theorem runBase386_lands (twoByte : Bool) (b : Byte) (modRm : Option Byte) (hs : s₀.Kept s) :
    Lands s₀.Kept (runBase386 twoByte b modRm s) := by
  unfold runBase386
  split
  · exact run_lands (fun _ => .bind (lockable_kept _) fun _ => .check (refuse_kept _) fun _ => iret_kept _) hs
  · exact run_lands (fun _ => .bind (lockable_kept _) fun _ => raise_kept _) hs
  · exact run_lands (fun _ => .bind (lockable_kept _) fun _ => .ite (fun _ => raise_kept _) fun _ => .pure) hs
  · exact run_lands (fun _ => setIf_kept _) hs
  · exact runWith_lands (fun _ => setIf_kept _) (fun _ => .same rfl) hs
  · exact runWith_lands (fun _ => .ite (fun _ => lockBase_kept ..) fun _ => base386_kept _) (fun _ => .same rfl) hs

theorem runDecoded_lands (d : Dec Instr) (hs : s₀.Kept s) : Lands s₀.Kept (runDecoded d s) := by
  cases d with
  | ok i rest => exact exec_lands i hs
  | more | illegal => exact run_lands (fun _ => raise_kept _) hs
  | base386 t b m => exact runBase386_lands _ _ _ hs
  | extra p => exact hs.trans (State.kept_latchExtra p)

theorem runInstr_lands (hs : s₀.Kept s) : Lands s₀.Kept (runInstr s) := by
  have h := (fetchDecode_kept 15 []).run s.begin (.refl s.begin)
  have hb := hs.trans State.kept_begin
  unfold runInstr
  split <;> rename_i e
  · exact runDecoded_lands _ ((hb.trans (h.of_ok e)).trans (State.kept_advance _))
  · exact except_lands _ (h.of_error e) hb
  · exact stopped_lands _ hb (hb.trans (h.of_error e))

/-! ### Between instructions -/

theorem runEvent_lands {m : M Unit} (hm : Keeps s₀.Kept m) (hs : s₀.Kept s) : Lands s₀.Kept (runEvent m s) := by
  have h := hm.run s hs
  unfold runEvent
  split <;> rename_i e
  · exact (h.of_ok e).trans (.same rfl)
  · exact hs.trans (.same rfl)
  · exact stopped_lands _ hs (h.of_error e)

theorem State.kept_snooping : s.Kept s.snooping := by
  unfold State.snooping
  split <;> exact .same rfl

theorem State.kept_snoop (line : BitVec 28) (inv : Bool) : s.Kept (s.snoop line inv) := by
  unfold State.snoop
  split
  · have h : s.Kept { s with bus := s.bus.snoop s.memCtx line inv } := .ofBus (Bus.moved_snoop line inv).kept rfl
    exact h.trans kept_snooping
  · exact .refl s

theorem readAhead_lands (hs : s₀.Kept s) : Lands s₀.Kept s.readAhead := by
  have h := (prefetchAhead_kept (c := s.memCtx) (p := s.pageCtx (s.level == 3)) (s.segs.cs.base + s.begin.dec.start)
    (s.segs.cs.limit.toNat + 1 - s.begin.dec.start.toNat)
    (stageBytes_le { s with dec := Decoding.idle }.decodeCtx 3)).run s.bus hs.bus
  have key (b : Bus) (hb : s₀.bus.Kept b) : s₀.Kept { s with bus := b } := ⟨hb, hs.regs⟩
  unfold State.readAhead
  extract_lets off
  split
  · exact hs
  · split <;> rename_i e
    · exact key _ (h.of_ok e)
    · exact (key _ (h.of_error e)).trans (State.kept_applyReset _)
    · exact hs

theorem State.kept_busClock (k : ClockIn) : s.Kept (s.busClock k) := by
  have resets (t : State) (h : s.Kept t) : s.Kept (match k.resets s.part.hasSL with | some r => t.applyReset r | none => t) := by
    split
    · exact h.trans (kept_applyReset _)
    · exact h
  unfold State.busClock
  split
  · exact resets s (.refl s)
  · extract_lets b t t'
    have hh : s.bus.Moved s.heldBus := .same rfl
    have hb : s.bus.Kept b := (hh.trans (Bus.moved_clock ..)).kept
    have ht : s.Kept t := .ofBus (hb.trans (.same rfl)) rfl
    refine resets t' ?_
    unfold t'
    split
    · exact ht.trans kept_snooping
    · exact ht

theorem applyInput_lands (e : Input) (hs : s₀.Kept s) : Lands s₀.Kept (applyInput e s) := by
  unfold applyInput
  split
  · trivial
  · cases e with
    | smi =>
      dsimp only
      split
      · exact hs
      · split <;> exact hs.trans (.same rfl)
    | stpclk l =>
      dsimp only
      split
      · exact hs.trans (.same rfl)
      · exact hs
    | snoop line inv => exact hs.trans (State.kept_snoop ..)
    | reset up wbwt m => exact hs.trans (State.kept_resetPin ..)
    | sreset => exact hs.trans (State.kept_applyReset _)
    | removeClk =>
      dsimp only
      split
      · exact hs.trans (.same rfl)
      · trivial
    | restoreClk =>
      dsimp only
      split
      · exact hs.trans (.same rfl)
      · exact hs
    | masterWrite sm a b => exact hs.trans (.ofBus (Bus.moved_masterWrite ..).kept rfl)
    | ioData d => exact hs.trans (.ofBus (.same rfl) rfl)
    | script ks => exact hs.trans (.ofBus (.same rfl) rfl)
    | busClock k => exact hs.trans (State.kept_busClock k)
    | prefetch => exact readAhead_lands hs
    | _ => exact hs.trans (.same rfl)

theorem takeEvent_kept (e : Exc) : Keeps s₀.Kept (takeEvent e) := .bind (modify_kept fun _ => rfl) fun _ => takeExc_kept e

theorem takeTrap_kept : Keeps s₀.Kept takeTrap := .get fun _ _ => .bind (modify_kept fun _ => rfl) fun _ => takeEvent_kept _
theorem takeBreak_kept : Keeps s₀.Kept takeBreak := .get fun _ _ => takeEvent_kept _
theorem takeNmi_kept : Keeps s₀.Kept takeNmi := .bind (modify_kept fun _ => rfl) fun _ => takeEvent_kept _

theorem takeIntr_kept : Keeps s₀.Kept takeIntr :=
  .bind (bus_kept fun _ => .bind needBus_kept fun _ => .bind drainBuffers_kept fun _ => transact_kept ..) fun _ =>
    .bind (modify_kept fun _ => rfl) fun _ => .get fun _ _ => takeEvent_kept _

theorem serviceFlush_kept : Keeps s₀.Kept serviceFlush :=
  have served : Keeps s₀.Kept (modify fun s => { s with pend := { s.pend with flush := false } } : M Unit) := modify_kept fun _ => rfl
  .get fun _ _ => .ite
    (fun _ => .bind writeBackModified_kept fun _ => .bind flushCache_kept fun _ => .bind (specialCycle_kept ..) fun _ =>
      .bind (specialCycle_kept ..) fun _ => served)
    fun _ => .bind flushCache_kept fun _ => served

theorem enterStopGrant_kept : Keeps s₀.Kept enterStopGrant :=
  .bind clearFetch_kept fun _ => .bind drain_kept fun _ => .bind (specialCycle_kept ..) fun _ => modify_kept fun _ => rfl

theorem leaveStopGrant_kept : Keeps s₀.Kept leaveStopGrant :=
  .get fun _ _ => .ite (fun _ => .bind (specialCycle_kept ..) fun _ => modify_kept fun _ => rfl) fun _ => modify_kept fun _ => rfl

theorem heldFlush_kept : Keeps s₀.Kept heldFlush :=
  .get fun _ _ => .ite (fun _ => .check writeBackModified_kept fun _ => flushCache_kept) fun _ => .pure

theorem boundaryEvent_kept {m : M Unit} (h : boundaryEvent s = some m) : Keeps s₀.Kept m := by
  unfold boundaryEvent at h
  split_ifs at h <;> cases h
  · exact takeTrap_kept
  · exact serviceFlush_kept
  · exact enterSmm_kept _
  · exact takeNmi_kept
  · exact .pure
  · exact takeIntr_kept
  · exact enterStopGrant_kept
  · exact .pure
  · exact takeBreak_kept

theorem boundary_lands (hs : s₀.Kept s) : Lands s₀.Kept (boundary s) := by
  have h := heldFlush_kept.run s hs
  unfold boundary
  split
  · exact runInstr_lands hs
  · split <;> rename_i e
    · have ht := h.of_ok e
      split
      · exact runEvent_lands (boundaryEvent_kept ‹_›) ht
      · exact runInstr_lands ht
    · exact hs.trans (.same rfl)
    · exact stopped_lands _ hs (h.of_error e)

theorem proceed_lands (hs : s₀.Kept s) : Lands s₀.Kept (proceed s) := by
  unfold proceed
  split
  · exact runEvent_lands (.bind (modify_kept fun _ => rfl) fun _ => takeExc_kept _) hs
  · exact boundary_lands hs

theorem stepClocked_lands (hs : s₀.Kept s) : Lands s₀.Kept (stepClocked s) := by
  unfold stepClocked
  split
  · exact hs
  · show s₀.Kept (if s.hitm then s else { s with clock := s.snoopReturn })
    split
    · exact hs
    · exact hs.trans (.same rfl)
  · split
    · exact hs
    · exact runEvent_lands leaveStopGrant_kept hs
  · exact runEvent_lands (.bind serviceFlush_kept fun _ => modify_kept fun _ => rfl) hs
  · split
    · exact hs.trans (.same rfl)
    · exact proceed_lands hs
  · exact proceed_lands hs

theorem runRequest_lands (q : BusReq) (hs : s₀.Kept s) : Lands s₀.Kept (runRequest q s) := by
  cases q with
  | row i => exact exec_lands i hs
  | writeBack line d => exact runEvent_lands (bus_kept fun _ => transact_kept ..) hs

theorem State.kept_settle : s.Kept s.settle := by
  have h := drain_kept.run s (.refl s)
  unfold State.settle
  split
  · split <;> rename_i e
    · exact h.of_ok e
    · exact (h.of_error e).trans (kept_applyReset _)
    · exact h.of_error e
  · exact .refl s

theorem settleOutcome_lands {o : Host.Outcome State Fault Refusal} (h : Lands s₀.Kept o) : Lands s₀.Kept (settleOutcome o) := by
  cases o with
  | next t => exact State.Kept.trans h State.kept_settle
  | fault f | refused r => trivial

/-- WHAT EVERY STEP KEEPS: the bus unit's memories and buffers, and legal registers. -/
theorem step_lands (s : State) : Lands s.Kept (step s) := by
  unfold step stepMachine
  split
  · exact applyInput_lands _ (.same rfl)
  · split
    · exact .refl s
    · split
      · split
        · exact runRequest_lands _ (.ofBus (.same rfl) rfl)
        · exact settleOutcome_lands (stepClocked_lands (.refl s))
      · exact settleOutcome_lands (stepClocked_lands (.refl s))

theorem step_kept {s t : State} (h : step s = .next t) : s.Kept t := by
  have hl := step_lands s
  rw [h] at hl
  exact hl

theorem State.Kept.bufferInv {s t : State} (h : s.Kept t) (hs : BufferInv s) : BufferInv t :=
  ⟨h.bus.wb hs.1, h.bus.fetchq hs.2⟩

/-- Settles O58: every step keeps the bus unit. -/
theorem storageInvKept : Obligations.StorageInvKept :=
  ⟨fun _ _ hs h => (step_kept h).bus.mem hs, fun _ _ hs h => (step_kept h).bufferInv hs⟩

/-- Settles O59: every step keeps legal registers. -/
theorem regInvKept : Obligations.RegInvKept := fun _ _ hs h => (step_kept h).regs hs

end Sys2Proof.Machine
end

section
/-! SUPPORT. Where parts of registers stand (O11), and the invariants after RESET (O60). -/

namespace Sys2Proof.Machine

/-! ### The parts of registers -/

/-- Where a byte register begins in its general register. -/
def byteLo (hi : Bool) : Nat := if hi then 8 else 0

/-- A doubleword with its first or its second byte replaced. -/
def putByte (x : DWord) (hi : Bool) (v : Byte) : DWord :=
  if hi then x.extractLsb' 16 16 ++ v ++ x.extractLsb' 0 8 else x.extractLsb' 8 24 ++ v

theorem getLsbD_putByte (x : DWord) (hi : Bool) (v : Byte) (i : Nat) :
    (putByte x hi v).getLsbD i = if byteLo hi ≤ i ∧ i < byteLo hi + 8 then v.getLsbD (i - byteLo hi) else x.getLsbD i := by
  have past : 32 ≤ i → x.getLsbD i = false := BitVec.getLsbD_of_ge x i
  cases hi
  · have e : putByte x false v = x.extractLsb' 8 24 ++ v := rfl
    rw [e, BitVec.getLsbD_append]
    simp only [BitVec.getLsbD_extractLsb', byteLo]
    grind
  · have e : putByte x true v = x.extractLsb' 16 16 ++ v ++ x.extractLsb' 0 8 := rfl
    rw [e, BitVec.getLsbD_append, BitVec.getLsbD_append]
    simp only [BitVec.getLsbD_extractLsb', byteLo]
    grind

theorem extract_putByte_self (x : DWord) (hi : Bool) (v : Byte) : (putByte x hi v).extractLsb' (byteLo hi) 8 = v := by
  refine BitVec.eq_of_getLsbD_eq fun i hi' => ?_
  rw [BitVec.getLsbD_extractLsb', getLsbD_putByte]
  simp [hi']

/-- Bits outside the byte written stay. -/
theorem extract_putByte_of_disjoint {lo len : Nat} {hi : Bool} (x : DWord) (v : Byte)
    (h : lo + len ≤ byteLo hi ∨ byteLo hi + 8 ≤ lo) :
    (putByte x hi v).extractLsb' lo len = x.extractLsb' lo len := by
  refine BitVec.eq_of_getLsbD_eq fun i hi' => ?_
  rw [BitVec.getLsbD_extractLsb', BitVec.getLsbD_extractLsb', getLsbD_putByte, if_neg (by omega)]

section
variable (g : Regs)

theorem Regs.set8_eq (r : Reg8) (v : Byte) :
    g.set8 r v = g.set (Reg8.home r).1 (putByte (g.get (Reg8.home r).1) (Reg8.home r).2 v) := rfl

theorem Regs.get8_eq (r : Reg8) : g.get8 r = (g.get (Reg8.home r).1).extractLsb' (byteLo (Reg8.home r).2) 8 := rfl

theorem Regs.get_set8_of_ne {r : Reg8} {q : Reg} (v : Byte) (h : q ≠ (Reg8.home r).1) : (g.set8 r v).get q = g.get q := by
  rw [set8_eq, get_set_ne g _ h]

theorem Regs.get_set8_home (r : Reg8) (v : Byte) :
    (g.set8 r v).get (Reg8.home r).1 = putByte (g.get (Reg8.home r).1) (Reg8.home r).2 v := by
  rw [set8_eq, get_set_eq]

theorem Regs.get8_set8_self (r : Reg8) (v : Byte) : (g.set8 r v).get8 r = v := by
  rw [get8_eq, get_set8_home, extract_putByte_self]

theorem Reg8.home_injective {q r : Reg8} (h : Reg8.home q = Reg8.home r) : q = r := by
  cases q <;> cases r <;> simp [Reg8.home] at h ⊢

theorem Regs.get8_set8_of_ne {q r : Reg8} (v : Byte) (h : q ≠ r) : (g.set8 r v).get8 q = g.get8 q := by
  rw [get8_eq, get8_eq]
  by_cases hr : (Reg8.home q).1 = (Reg8.home r).1
  · have hb : (Reg8.home q).2 ≠ (Reg8.home r).2 := fun hb => h (Reg8.home_injective (Prod.ext hr hb))
    rw [hr, get_set8_home, extract_putByte_of_disjoint]
    revert hb
    cases (Reg8.home q).2 <;> cases (Reg8.home r).2 <;> decide
  · rw [get_set8_of_ne g v hr]

theorem Regs.upper_set8 (r : Reg8) (v : Byte) (q : Reg) :
    ((g.set8 r v).get q).extractLsb' 16 16 = (g.get q).extractLsb' 16 16 := by
  by_cases hq : q = (Reg8.home r).1
  · rw [hq, get_set8_home, extract_putByte_of_disjoint]
    cases (Reg8.home r).2 <;> decide
  · rw [get_set8_of_ne g v hq]

theorem Regs.get_set8_pointer (r : Reg8) (v : Byte) {q : Reg} (h : q ∈ [Reg.esp, .ebp, .esi, .edi]) : (g.set8 r v).get q = g.get q :=
  get_set8_of_ne g v (by rintro rfl; cases r <;> simp [Reg8.home] at h)

end

theorem getLsbD_putFlags (fl : DWord) (f : ArithFlags) {i : Nat} (h : i < 32) :
    (putFlags fl f).getLsbD i =
      if i = 0 then f.cf else if i = 2 then f.pf else if i = 4 then f.af else if i = 6 then f.zf
      else if i = 7 then f.sf else if i = 11 then f.of else fl.getLsbD i := by
  simp only [putFlags, getLsbD_setBit, h, true_and]
  grind

/-- Settles O11: each write to a register is a `Regs.set`, and a byte register is read and written at its place there. -/
theorem registerPlaces : Obligations.RegisterPlaces := by
  refine ⟨fun fl f i h => getLsbD_putFlags fl f h, fun g => ⟨?_, ?_, fun r v => ?_, fun r v => ?_, fun r v => ?_⟩⟩
  · simp [Regs.get8, Reg8.home]
  · simp [Regs.get8, Reg8.home]
  · exact ⟨g.get8_set8_self r v, fun q h => g.get8_set8_of_ne v h, g.upper_set8 r v, fun q h => g.get_set8_pointer r v h⟩
  · exact ⟨g.get_set_eq r _, fun q h => g.get_set_ne _ h⟩
  · exact ⟨g.get_set_eq r v, fun q h => g.get_set_ne v h⟩

/-! ### The invariants after RESET -/

/-- Settles O60: memory and the buffers are empty, and the registers hold fixed legal values. -/
theorem invariantsAtReset : Obligations.InvariantsAtReset :=
  have legal : RegInv State.reset := by
    unfold RegInv RegsLegal
    decide
  ⟨rfl, ⟨Nat.zero_le _, Nat.zero_le _, Nat.zero_le _⟩, legal⟩

end Sys2Proof.Machine
end

section
/-! SUPPORT. A step with nothing before the instruction runs the instruction decoded (O47). -/

namespace Sys2Proof.Machine

variable {s : State}

/-! ### A step that runs an instruction -/

theorem heldFlush_ok (h : s.pins.flush = false) : heldFlush s = .ok () s := by
  unfold heldFlush
  rw [bind_ok (get_run s), h]
  rfl

theorem boundary_runInstr (h : s.NoEvent) : boundary s = runInstr s := by
  unfold boundary
  rcases h with h | ⟨he, hf⟩
  · rw [if_pos h]
  · rw [heldFlush_ok hf]
    dsimp only
    rw [he]
    split <;> rfl

theorem step_runInstr (h : s.Running false) (hn : s.NoEvent) : step s = settleOutcome (runInstr s) := by
  have hc : s.clock = .normal := h.clock.resolve_right (by simp)
  have hp : stepClocked s = runInstr s := by
    unfold stepClocked proceed
    rw [hc]
    dsimp only
    rw [h.serial]
    exact boundary_runInstr hn
  unfold step stepMachine
  rw [h.inputs]
  dsimp only
  rw [h.alone, h.queue, if_neg Bool.false_ne_true, hp]

theorem runInstr_decoded {t : State} {i : Instr} {rest : List Byte} {n : Nat} (h : fetchDecode 15 [] s.begin = .ok (.ok i rest, n) t) :
    runInstr s = exec i (t.advance n) := by
  unfold runInstr
  rw [h]
  rfl

/-- Only the bus unit differs. -/
def State.ButBus (s t : State) : Prop := ∃ b, t = { s with bus := b }

theorem bus_butBus {α : Type} (x : MemCtx → BM α) : Keeps s.ButBus (bus x) := ⟨fun t ht => by
  obtain ⟨b, rfl⟩ := ht
  cases e : bus x { s with bus := b } with
  | ok a u =>
    obtain ⟨b', -, rfl⟩ := bus_eq_ok e
    exact ⟨b', rfl⟩
  | error r u =>
    obtain ⟨b', rfl⟩ := bus_eq_error e
    exact ⟨b', rfl⟩⟩

theorem codeByte_butBus (off : DWord) : Keeps s.ButBus (codeByte off) :=
  .get fun _ _ => .check .throw fun _ => bus_butBus _

theorem fetchDecode_butBus (n : Nat) (got : List Byte) : Keeps s.ButBus (fetchDecode n got) := by
  induction n generalizing got with
  | zero => exact .throw
  | succ n ih =>
    refine .get fun t _ => .check .throw fun _ => .bind (codeByte_butBus _) fun b => ?_
    dsimp only
    split
    · exact ih _
    · exact .pure

/-- Settles O47: nothing comes before the instruction, and fetching it works on the bus unit alone. -/
theorem stepRunsDecoded : Obligations.StepRunsDecoded := fun s _t _i _rest _n hr hn h =>
  ⟨by rw [step_runInstr hr hn, runInstr_decoded h], ((fetchDecode_butBus 15 []).run s.begin ⟨_, rfl⟩).of_ok h⟩

end Sys2Proof.Machine
end

section
/-! SUPPORT. A line of code, read with the cache disabled. -/

namespace Sys2Proof.Machine

variable {c : MemCtx} {b b' : Bus}

/-! ### The doublewords of a line -/

/-- Two doublewords of one line differ in the order of the fill only. -/
theorem exists_fillAddr {d e : BitVec 30} (h : e.extractLsb' 2 28 = d.extractLsb' 2 28) :
    e = fillAddr d 0 ∨ e = fillAddr d 1 ∨ e = fillAddr d 2 ∨ e = fillAddr d 3 := by
  have hx : (d ^^^ e).extractLsb' 2 28 = 0#28 := by rw [BitVec.extractLsb'_xor, h, BitVec.xor_self]
  have hlt := (d ^^^ e).isLt
  have hn := congrArg BitVec.toNat hx
  rw [BitVec.extractLsb'_toNat, Nat.shiftRight_eq_div_pow] at hn
  have hk : (d ^^^ e).toNat < 4 := by
    simp only [BitVec.toNat_ofNat] at hn
    omega
  have he : e = d ^^^ BitVec.ofNat 30 (d ^^^ e).toNat := by
    rw [BitVec.ofNat_toNat, BitVec.setWidth_eq, ← BitVec.xor_assoc, BitVec.xor_self, BitVec.zero_xor]
  generalize (d ^^^ e).toNat = k at hk he
  interval_cases k
  · exact .inl he
  · exact .inr (.inl he)
  · exact .inr (.inr (.inl he))
  · exact .inr (.inr (.inr he))

theorem extract_memDword (x : Addr) : (x.extractLsb' 2 30).extractLsb' 2 28 = x.extractLsb' 4 28 := by
  refine BitVec.eq_of_getLsbD_eq fun i hi => ?_
  simp only [BitVec.getLsbD_extractLsb', ← Nat.add_assoc]
  simp [show 2 + i < 30 by omega]

theorem mem_lineParts {a x : Addr} (h : x.extractLsb' 4 28 = a.extractLsb' 4 28) :
    ⟨x.extractLsb' 2 30, 0xF, 0, 0⟩ ∈ lineParts (a.extractLsb' 2 30) := by
  have he : (x.extractLsb' 2 30).extractLsb' 2 28 = (a.extractLsb' 2 30).extractLsb' 2 28 := by
    rw [extract_memDword, extract_memDword, h]
  unfold lineParts
  rcases exists_fillAddr he with e | e | e | e <;> rw [e] <;> simp

theorem whole_of_mem_lineParts {d : BitVec 30} {p : BusPart} (h : p ∈ lineParts d) : p = ⟨p.addr, 0xF, 0, 0⟩ := by
  simp only [lineParts, List.mem_cons, List.not_mem_nil, or_false] at h
  rcases h with rfl | rfl | rfl | rfl <;> rfl

/-- A lane of what the line-fill buffer keeps of a whole doubleword. -/
theorem kept_whole (b : Bus) (c : MemCtx) (x : Addr) :
    laneByte (b.kept c ⟨x.extractLsb' 2 30, 0xF, 0, 0⟩).got (x.extractLsb' 0 2) = b.physByte c x := by
  refine (laneByte_mergeLanes ..).trans ((if_pos ?_).trans ?_)
  · show (0xF#4).getLsbD (x.extractLsb' 0 2).toNat = true
    rcases lane_cases (x.extractLsb' 0 2) with h | h | h | h <;> rw [h] <;> decide
  · rw [laneByte_physDword, laneAddr_self]

/-- A byte of a line in the line-fill buffer that holds the line. -/
theorem partByte_line {a x : Addr} (h : x.extractLsb' 4 28 = a.extractLsb' 4 28) :
    partByte ((lineParts (a.extractLsb' 2 30)).map (b.kept c)).reverse x = b.physByte c x := by
  refine partByte_eq ⟨_, List.mem_reverse.2 (List.mem_map_of_mem (mem_lineParts h)), rfl⟩ fun p hp he => ?_
  obtain ⟨q, hq, rfl⟩ := List.mem_map.1 (List.mem_reverse.1 hp)
  rw [whole_of_mem_lineParts hq, show q.addr = x.extractLsb' 2 30 from he]
  exact kept_whole b c x

theorem lineBase_toNat (a : Addr) : (lineBase a).toNat = a.toNat / 16 * 16 := by
  have := a.isLt
  unfold lineBase
  rw [BitVec.toNat_append, BitVec.extractLsb'_toNat, Nat.shiftRight_eq_div_pow]
  simp [Nat.shiftLeft_eq]
  omega

theorem line_of_lineBase (a : Addr) {i : Nat} (hi : i < 16) :
    (lineBase a + BitVec.ofNat 32 i).extractLsb' 4 28 = a.extractLsb' 4 28 := by
  rw [line_eq_iff, BitVec.toNat_add, lineBase_toNat]
  have := a.isLt
  simp
  omega

theorem byteOf_lineBase (a : Addr) {i : Nat} (hi : i < 16) : (byteOf (lineBase a + BitVec.ofNat 32 i)).toNat = i := by
  rw [byteOf_toNat, BitVec.toNat_add, lineBase_toNat]
  have := a.isLt
  simp
  omega

theorem lineBase_add_byteOf (a : Addr) : lineBase a + BitVec.ofNat 32 (byteOf a).toNat = a := by
  apply BitVec.eq_of_toNat_eq
  rw [BitVec.toNat_add, lineBase_toNat, byteOf_toNat]
  have := a.isLt
  simp
  omega

/-! ### Reading a line of code -/

theorem Bus.span_line (b : Bus) (c : MemCtx) (a : Addr) {f : Addr → Byte}
    (h : ∀ x : Addr, x.extractLsb' 4 28 = a.extractLsb' 4 28 → f x = b.view c x) :
    ((List.range 16).map fun i => f (lineBase a + BitVec.ofNat 32 i)) = b.span c (lineBase a) 16 :=
  List.map_congr_left fun _ hi => h _ (line_of_lineBase a (List.mem_range.1 hi))

/-- A line held by the cache, as the processor sees it. -/
theorem line_toList {a : Addr} {w : BitVec 2} (h : b.cache.lookup c.big a = some w) :
    ((b.cache.entry (setOf c.big a)).way w).data.toList = b.span c (lineBase a) 16 := by
  apply List.ext_getElem
  · simp [Bus.span]
  · intro i h1 _
    have hi : i < 16 := by simpa using h1
    have hline := line_of_lineBase a hi
    simp only [Bus.span, List.getElem_map, List.getElem_range]
    rw [view_of_lookup (w := w) (by rw [lookup_line hline, h]), (set_tag_of_line hline c.big).1, byteOf_lineBase a hi,
      List.getD_eq_getElem]

/-- One read that fills no line brings its doublewords, and nothing else changes but data latch, PCHK# and the record of cycles. -/
theorem transact_read {x : Xfer} (hs : b.script = []) (hk : x.kind = .memRead ∨ x.kind = .codeRead) (hw : x.want = false)
    (hf : x.fill = false) :
    ∃ b', transact c false [x] b = .ok () b' ∧ Bus.SameButRead b b' ∧ b'.fillBuf = (x.parts.map (b.kept c)).reverse := by
  have hr : [x].any (·.kind.isRead) = true := by
    rcases hk with h | h <;> simp [h, CycleKind.isRead]
  have e : Bus.SameButRead b { b with fillBuf := [], pchk := false } := by constructor <;> rfl
  obtain ⟨g1, g2⟩ := Bus.finish_read { b with fillBuf := [], pchk := false } c hk hw hf
  refine ⟨_, (transact_ok false [x] hs).trans (by rw [if_pos hr]; rfl), e.trans g1, ?_⟩
  rw [g2, List.append_nil]
  exact congrArg List.reverse (List.map_congr_left fun p _ => Bus.kept_congr e c p)

/-- READING A LINE OF CODE with the cache disabled: its bytes as the processor sees them; nothing else changes that the processor
could see. -/
theorem readCodeLine_spec {ph : Phys} (hb : b.memWf = true) (hfree : c.busFree = true) (hs : b.script = []) (hcd : c.cd = true) :
    ∃ b', readCodeLine c ph b = .ok (b.span c (lineBase ph.pa) 16) b' ∧ Bus.Quiet c b b' := by
  unfold readCodeLine
  rw [bind_ok (get_run b)]
  generalize ph.pa = a
  cases hl : b.cache.lookup c.big a with
  | some w =>
    dsimp only
    rw [bind_ok (set_run _ b), pure_run, line_toList hl]
    refine ⟨_, rfl, ⟨id, by constructor <;> rfl, fun x => ?_⟩⟩
    rw [Bus.view_memView, Bus.view_memView]
    show ((b.cache.touchAt c.big a w).byteAt c.big x).getD (b.memView c x) = _
    rw [Cache.byteAt_touchAt]
  | none =>
    dsimp only
    obtain ⟨b1, h1, h2, h3, h4, h5⟩ := orderRead_spec (c := c) (a := a) hb hfree hs
    obtain ⟨b2, r2, e2, f2⟩ := transact_read (c := c) (b := b1)
      (x := readXfer c .codeRead ⟨a, 16, ph.pcd, ph.pwt⟩ b1.operandBegun (lineParts (a.extractLsb' 2 30)))
      (h3.script.trans hs) (.inr rfl) (by simp [readXfer, hcd]) rfl
    rw [bind_ok h1, bind_ok (get_run _), bind_ok r2, bind_ok (get_run _), pure_run]
    refine ⟨_, congrArg (EStateM.Result.ok · b2) ?_, ⟨fun _ => e2.memWf.trans h2, h3.control.trans e2.control, fun y => ?_⟩⟩
    · unfold Bus.readBytes
      rw [f2]
      refine b.span_line c a fun y hy => ?_
      have hmiss : b.cache.byteAt c.big y = none := by
        unfold Cache.byteAt
        rw [lookup_line hy, hl]
        rfl
      refine (partByte_line hy).trans ?_
      rw [h5 y hy, Bus.view_memView, hmiss]
      rfl
    · rw [e2.view, Bus.view_memView, Bus.view_memView, h4, h3.cache]

end Sys2Proof.Machine
end

section
/-! SUPPORT. A step runs the instruction whose bytes stand at CS:EIP (O48). -/

namespace Sys2Proof.Machine

variable {c : MemCtx} {b b' b'' : Bus}

/-! ### Fetching a code byte -/

/-- The code bytes read ahead are what the processor sees. -/
def Bus.Fresh (c : MemCtx) (b : Bus) : Prop := ∀ q ∈ b.fetchq.bytes, q.byte = b.view c q.addr

/-- Only reads of code happened: nothing but the prefetch queue differs to the processor, and it is fresh. -/
structure Bus.ReadsCode (c : MemCtx) (b b' : Bus) : Prop where
  quiet : Bus.Quiet c b { b' with fetchq := b.fetchq }
  fresh : b'.Fresh c

theorem Bus.ReadsCode.refl (h : b.Fresh c) : Bus.ReadsCode c b b := ⟨.refl c b, h⟩

theorem Bus.Quiet.withQueue (h : Bus.Quiet c b b') (q : FetchQueue) : Bus.Quiet c { b with fetchq := q } { b' with fetchq := q } :=
  ⟨h.wf, ⟨rfl, h.control.tlb, h.control.phase, h.control.cur, h.control.queue, h.control.vector, h.control.ioIn, h.control.script,
    h.control.heldHold, h.control.heldAddr, h.control.draws⟩, h.view⟩

theorem Bus.ReadsCode.trans (h : Bus.ReadsCode c b b') (k : Bus.ReadsCode c b' b'') : Bus.ReadsCode c b b'' :=
  ⟨h.quiet.trans (k.quiet.withQueue b.fetchq), k.fresh⟩

theorem Bus.ReadsCode.view (h : Bus.ReadsCode c b b') (x : Addr) : b'.view c x = b.view c x := h.quiet.view x

theorem Bus.ReadsCode.wf (h : Bus.ReadsCode c b b') (hb : b.memWf = true) : b'.memWf = true := h.quiet.wf hb
theorem Bus.ReadsCode.script (h : Bus.ReadsCode c b b') : b'.script = b.script := h.quiet.control.script

theorem Bus.ReadsCode.fetched (h : Bus.ReadsCode c b b') (hb : b.memWf = true) : Bus.Fetched c b b' :=
  ⟨h.quiet.wf hb, h.quiet.view, h.fresh, h.quiet.control.tlb, h.quiet.control.phase, h.quiet.control.cur, h.quiet.control.queue,
    h.quiet.control.vector, h.quiet.control.ioIn, h.quiet.control.script, h.quiet.control.draws⟩

/-- What enters the prefetch queue of a line, as the processor sees it. -/
theorem byte_of_mem_lineFrom {a : Addr} {q : QByte} (h : q ∈ lineFrom a (b.span c (lineBase a) 16)) : q.byte = b.view c q.addr := by
  obtain ⟨⟨v, i⟩, hx, rfl⟩ := List.mem_map.1 (List.mem_of_mem_drop h)
  have hv := (List.mem_zipIdx' hx).2
  simp only [Bus.span, List.getElem_map, List.getElem_range] at hv
  exact hv

theorem Bus.Fresh.enqueue {a : Addr} (h : b.Fresh c) :
    Bus.Fresh c { b with fetchq :=
      { b.fetchq with queue := lastBytes (b.fetchq.queue ++ lineFrom a (b.span c (lineBase a) 16)) } } := fun q hq => by
  rcases List.mem_append.1 hq with hq | hq
  · exact h q (List.mem_append_left _ hq)
  · rcases List.mem_append.1 (List.mem_of_mem_drop hq) with hq | hq
    · exact h q (List.mem_append_right _ hq)
    · exact byte_of_mem_lineFrom (b := b) hq

theorem span_getD (b : Bus) (c : MemCtx) (a : Addr) {n i : Nat} (h : i < n) :
    (b.span c a n).getD i 0 = b.view c (a + BitVec.ofNat 32 i) := by
  rw [List.getD_eq_getElem (hn := by simpa [Bus.span] using h)]
  simp [Bus.span]

theorem translate_flat {p : PageCtx} (h : p.pg = false) (lin : Addr) (write : Bool) :
    translate c p lin write b = .ok (flatPhys p lin) b := by
  unfold translate
  rw [if_pos (by simp [h])]
  rfl

/-- A code byte that has not been read ahead: its line is read and enters the prefetch queue. -/
theorem fetchLine_spec {ph : Phys} (hb : b.memWf = true) (hfree : c.busFree = true) (hs : b.script = []) (hcd : c.cd = true)
    (hf : b.Fresh c) :
    ∃ b', (do
        let bs ← readCodeLine c ph
        enqueueLine ph.pa bs
        return bs.getD (byteOf ph.pa).toNat 0 : BM Byte) b = .ok (b.view c ph.pa) b' ∧ Bus.ReadsCode c b b' := by
  obtain ⟨b1, r1, q1⟩ := readCodeLine_spec (ph := ph) hb hfree hs hcd
  have hf1 : b1.Fresh c := fun q hq => (hf q (q1.control.fetchq ▸ hq)).trans (q1.view _).symm
  have hspan : b.span c (lineBase ph.pa) 16 = b1.span c (lineBase ph.pa) 16 := List.map_congr_left fun i _ => (q1.view _).symm
  rw [hspan] at r1
  rw [bind_ok r1]
  refine ⟨_, congrArg (EStateM.Result.ok · _) ?_, ⟨?_, hf1.enqueue⟩⟩
  · rw [span_getD b1 c _ (byteOf ph.pa).isLt, lineBase_add_byteOf, q1.view]
  · exact q1.withQueue b.fetchq

/-- FETCHING A CODE BYTE with paging off and the cache disabled, where what is read ahead is fresh: it is the byte that the processor
sees. -/
theorem fetchByte_spec {p : PageCtx} {lin : Addr} (hp : p.pg = false) (hb : b.memWf = true) (hfree : c.busFree = true)
    (hs : b.script = []) (hcd : c.cd = true) (hf : b.Fresh c) :
    ∃ b', fetchByte c p lin b = .ok (b.view c (maskA20 c lin)) b' ∧ Bus.ReadsCode c b b' := by
  unfold fetchByte
  rw [bind_ok (translate_flat hp lin false), bind_ok (get_run b)]
  cases hq : queuedByte (maskA20 c (flatPhys p lin).pa) b.fetchq.bytes with
  | some q =>
    have ha : q.addr = maskA20 c lin := by simpa [flatPhys] using List.find?_some hq
    have hv : q.byte = b.view c (maskA20 c lin) := (hf q (List.mem_of_find?_eq_some hq)).trans (by rw [ha])
    dsimp only
    rw [if_pos (by simp [hv, flatPhys]), hv]
    exact ⟨b, rfl, .refl hf⟩
  | none => exact fetchLine_spec (ph := { flatPhys p lin with pa := maskA20 c lin }) hb hfree hs hcd hf

/-! ### Fetching an instruction -/

section
variable {s : State} {i : Instr} {bs : List Byte}

/-- A byte that does not complete the instruction. -/
theorem fetchDecode_more {t : State} {got : List Byte} {v : Byte} (n : Nat) (hc : ¬15 ≤ s.dec.count + got.length)
    (hv : codeByte (s.byteOffset got.length) s = .ok v t) (hd : decode s.decodeCtx (got ++ [v]) = .more) :
    fetchDecode (n + 1) got s = fetchDecode n (got ++ [v]) t := by
  rw [fetchDecode, bind_ok (get_run s), if_neg hc]
  refine (bind_ok hv).trans ?_
  rw [hd]

/-- The last byte of the instruction. -/
theorem fetchDecode_last {t : State} {got rest : List Byte} {v : Byte} (n : Nat) (hc : ¬15 ≤ s.dec.count + got.length)
    (hv : codeByte (s.byteOffset got.length) s = .ok v t) (hd : decode s.decodeCtx (got ++ [v]) = .ok i rest) :
    fetchDecode (n + 1) got s = .ok (.ok i rest, (got ++ [v]).length) t := by
  rw [fetchDecode, bind_ok (get_run s), if_neg hc]
  refine (bind_ok hv).trans ?_
  rw [hd]
  rfl

/-- The bytes of an instruction where the next one is fetched, as `Obligations.StepRunsBytes` supposes them. -/
structure State.Holds (s : State) (i : Instr) (bs : List Byte) : Prop where
  flat : s.Flat
  cd : s.cd = true
  whole : decode s.begin.decodeCtx bs = .ok i []
  less : ∀ k, k < bs.length → decode s.begin.decodeCtx (bs.take k) = .more
  fits : s.begin.dec.count + bs.length ≤ 15
  bytes : ∀ k, k < bs.length → s.segs.cs.inLimit false (s.codeOffset k) 1 = true ∧ s.view (s.codeAddr k) = bs.getD k 0

/-- A state of the fetch: only code has been read. -/
def State.fetching (s : State) (b : Bus) : State := { s.begin with bus := b }

theorem State.begin_memCtx (s : State) : s.begin.memCtx = s.memCtx := by
  unfold State.begin
  split <;> rfl

/-- Accesses find the bus as free after a read of code as before it. -/
theorem State.busFree_of_readsCode {b : Bus} (h : Bus.ReadsCode c s.bus b) : { s with bus := b }.busFree = s.busFree := by
  have hp : b.phase = s.bus.phase := h.quiet.control.phase
  have hc : b.cur = s.bus.cur := h.quiet.control.cur
  have hs : b.script = s.bus.script := h.quiet.control.script
  have hh : b.heldHold = s.bus.heldHold := h.quiet.control.heldHold
  have ha : b.heldAddr = s.bus.heldAddr := h.quiet.control.heldAddr
  simp only [State.busFree, Bus.held, hp, hc, hs, hh, ha]

theorem State.memCtx_of_readsCode {b : Bus} (h : Bus.ReadsCode c s.bus b) : { s with bus := b }.memCtx = s.memCtx := by
  unfold State.memCtx
  rw [State.busFree_of_readsCode h]
  rfl

theorem State.memCtx_fetching {b : Bus} (h : Bus.ReadsCode c s.bus b) : (s.fetching b).memCtx = s.memCtx :=
  (State.memCtx_of_readsCode (s := s.begin) (by rwa [State.begin_bus])).trans s.begin_memCtx

/-- One byte of the instruction. -/
theorem State.Holds.codeByte {b : Bus} {k : Nat} (h : s.Holds i bs) (hb : Bus.ReadsCode s.memCtx s.bus b) (hk : k < bs.length) :
    ∃ b', Machine.codeByte (s.codeOffset k) (s.fetching b) = .ok (bs.getD k 0) (s.fetching b')
      ∧ Bus.ReadsCode s.memCtx s.bus b' := by
  obtain ⟨hlim, hval⟩ := h.bytes k hk
  obtain ⟨hfree, hscript, hwf⟩ := h.flat.ready
  have hpg : s.begin.pg = false := by
    unfold State.pg
    rw [State.begin_cr0]
    exact h.flat.pg
  obtain ⟨b', r, hr⟩ := fetchByte_spec (p := s.begin.pageCtx (s.begin.level == 3)) (lin := s.begin.segs.cs.base + s.codeOffset k)
    (c := s.memCtx) (b := b) hpg (hb.wf hwf) hfree (hb.script.trans hscript) h.cd hb.fresh
  rw [hb.view, State.begin_segs] at r
  refine ⟨b', ?_, hb.trans hr⟩
  unfold Machine.codeByte
  rw [bind_ok (get_run _), if_neg (by simp [State.fetching, hlim]), ← hval]
  refine bus_ok ?_
  rw [State.memCtx_fetching hb, show (s.fetching b).segs = s.segs from s.begin_segs]
  exact r

/-- The bytes after the first `k`: the fetch takes them one by one until they decode. -/
theorem State.Holds.fetchDecode (h : s.Holds i bs) {n k : Nat} {b : Bus} (hb : Bus.ReadsCode s.memCtx s.bus b) (hk : k < bs.length)
    (hn : bs.length ≤ k + n) :
    ∃ b', Machine.fetchDecode n (bs.take k) (s.fetching b) = .ok (.ok i [], bs.length) (s.fetching b')
      ∧ Bus.ReadsCode s.memCtx s.bus b' := by
  induction n generalizing k b with
  | zero => omega
  | succ n ih =>
    have hlen : (bs.take k).length = k := List.length_take_of_le (by omega)
    have hfits := h.fits
    obtain ⟨b1, r1, h1⟩ := h.codeByte hb hk
    have htake : bs.take k ++ [bs.getD k 0] = bs.take (k + 1) := by
      rw [List.take_add_one, List.getD_eq_getElem?_getD, List.getElem?_eq_getElem hk]
      rfl
    have hcount : ¬15 ≤ (s.fetching b).dec.count + (bs.take k).length := by
      rw [hlen]
      show ¬15 ≤ s.begin.dec.count + k
      omega
    have hoff : (s.fetching b).byteOffset (bs.take k).length = s.codeOffset k := by
      rw [hlen]
      rfl
    rw [← hoff] at r1
    rcases Nat.lt_or_ge (k + 1) bs.length with hlt | hge
    · rw [fetchDecode_more n hcount r1 (htake ▸ h.less _ hlt), htake]
      exact ih h1 hlt (by omega)
    · have hall : bs.take (k + 1) = bs := List.take_of_length_le hge
      rw [hall] at htake
      rw [fetchDecode_last n hcount r1 (htake ▸ h.whole), htake]
      exact ⟨b1, rfl, h1⟩

theorem State.Holds.length_pos (h : s.Holds i bs) : 0 < bs.length := by
  cases bs with
  | nil => exact absurd h.whole (by rw [show decode s.begin.decodeCtx [] = .more from rfl]; simp)
  | cons _ _ => exact Nat.succ_pos _

/-- Settles O48: the fetch finds the bytes one by one as the processor sees them, and runs the instruction they decode to. -/
theorem stepRunsBytes : Obligations.StepRunsBytes := fun s i bs hr hn hflat hcd hfresh hwhole hless hfits hbytes => by
  have h : s.Holds i bs := ⟨hflat, hcd, hwhole, hless, hfits, hbytes⟩
  obtain ⟨b, r, hb⟩ := h.fetchDecode (n := 15) (.refl hfresh) h.length_pos (by omega)
  have hs : s.fetching s.bus = s.begin := by
    unfold State.fetching
    rw [← s.begin_bus]
  rw [hs, List.take_zero] at r
  exact ⟨b, hb.fetched hflat.ready.wf, by rw [step_runInstr hr hn, runInstr_decoded r]; rfl⟩

end

end Sys2Proof.Machine
end

section
/-! SUPPORT. Accesses that the segment or the alignment check refuses (O35). -/

namespace Sys2Proof.Machine

variable {s : State} {seg : SegReg} {off : DWord} {lin : Addr} {n : Nat} {write : Bool} {bs : List Byte} {e : Exc}

/-! ### The checks -/

/-- Without the right, or outside the limit. -/
theorem segLinear_refused (h : ¬s.segAdmits seg off n write) :
    segLinear (s.segs.get seg) e off n write s = .error (.exc e) s := by
  unfold segLinear segLinearIn
  rw [bind_ok (get_run s)]
  by_cases hr : (s.prot && !(s.segs.get seg).rightsAllow write) = true
  · rw [if_pos hr]
    rfl
  · have hl : (!(s.segs.get seg).inLimit s.prot off n) = true := by
      by_contra hl
      exact h ⟨by simpa using hr, by simpa using hl⟩
    rw [if_neg hr, if_pos hl]
    rfl

theorem checkAlign_refused (h : ¬s.aligned lin n) : checkAlign lin n s = .error (.exc alignmentCheck) s := by
  unfold checkAlign
  rw [bind_ok (get_run s), if_pos]
  · rfl
  · simp only [State.aligned, Classical.not_imp] at h
    obtain ⟨ham, hac, hlevel, hn, hmod⟩ := h
    simpa [ham, hac, hlevel, hmod, or_assoc] using hn

/-! ### Reads and writes -/

theorem readMem_refused (h : ¬s.segAdmits seg off n false) : readMem seg off n s = .error (.exc (segFault seg)) s := by
  unfold readMem
  rw [bind_ok (get_run s), bind_error (segLinear_refused h)]

theorem readMem_misaligned (h : s.segAdmits seg off n false) (ha : ¬s.aligned ((s.segs.get seg).base + off) n) :
    readMem seg off n s = .error (.exc alignmentCheck) s := by
  unfold readMem
  rw [bind_ok (get_run s), bind_ok (segLinear_ok h), bind_error (checkAlign_refused ha)]

theorem writeMem_refused (h : ¬s.segAdmits seg off bs.length true) : writeMem seg off bs s = .error (.exc (segFault seg)) s := by
  unfold writeMem
  rw [bind_ok (get_run s), bind_error (segLinear_refused h)]

theorem writeMem_misaligned (h : s.segAdmits seg off bs.length true)
    (ha : ¬s.aligned ((s.segs.get seg).base + off) bs.length) :
    writeMem seg off bs s = .error (.exc alignmentCheck) s := by
  unfold writeMem
  rw [bind_ok (get_run s), bind_ok (segLinear_ok h), bind_error (checkAlign_refused ha)]

/-! ### MOV -/

variable {os : OpSize} {r : Reg} {m : MemOp}

/-- A load ends in the exception of its read, with nothing done. -/
theorem movRRm_mem_except (hl : s.noLock) (h : readMem m.seg (eaOffset s.regs m.ea) (OpSize.bytes os) s = .error (.exc e) s) :
    exec (.movRRm os r (.mem m)) s = except s e s := by
  have hr : readRm os (.mem m) s = .error (.exc e) s := by
    unfold readRm
    rw [bind_ok (get_run s)]
    exact bind_error h
  refine run_exc ?_
  rw [bind_ok (lockable_ok (by simp [show s.dec.lock = false from hl])), bind_error hr]

/-- A store ends in the exception of its write, with nothing done. -/
theorem movRmR_mem_except (hl : s.noLock)
    (h : writeMem m.seg (eaOffset s.regs m.ea) (toBytes (OpSize.bytes os) (s.regs.getSz os r)) s = .error (.exc e) s) :
    exec (.movRmR os (.mem m) r) s = except s e s := by
  have hw : writeRm os (.mem m) (s.regs.getSz os r) s = .error (.exc e) s := by
    unfold writeRm
    rw [bind_ok (get_run s)]
    exact h
  refine run_exc ?_
  rw [bind_ok (lockable_ok (by simp [show s.dec.lock = false from hl])), hw]

/-- Settles O35: each check refuses before anything of the access is done, and MOV takes the exception in the state it began in. -/
theorem accessTraps : Obligations.AccessTraps := by
  intro os r m s hl
  have hlen : (toBytes (OpSize.bytes os) (s.regs.getSz os r)).length = OpSize.bytes os := toBytes_length ..
  refine ⟨fun h => movRRm_mem_except hl (readMem_refused h), fun h => movRmR_mem_except hl (writeMem_refused ?_),
    fun h ha => movRRm_mem_except hl (readMem_misaligned h ha), fun h ha => movRmR_mem_except hl (writeMem_misaligned ?_ ?_)⟩ <;>
    rwa [hlen]

end Sys2Proof.Machine
end

section
/-! SUPPORT. The TLB, and translation through it (O55). -/

namespace Sys2Proof.Machine

variable {t : Tlb} {lin : Addr} {w : BitVec 2}

/-! ### Entries -/

/-- The TLB is searched way by way. -/
theorem tlbFind_eq_find? (t : Tlb) (lin : Addr) : tlbFind t lin = [0#2, 1#2, 2#2, 3#2].find? (tlbMatches t lin) := by
  unfold tlbFind
  split_ifs <;> simp_all

/-- The entry found is valid and the page's. -/
theorem tlbAt_of_find (h : tlbFind t lin = some w) :
    (tlbAt t (tlbIndex (tlbSet lin) w)).valid = true ∧ (tlbAt t (tlbIndex (tlbSet lin) w)).page = lin.extractLsb' 12 20 := by
  rw [tlbFind_eq_find?] at h
  simpa [tlbMatches] using List.find?_some h

theorem tlbAt_put (t : Tlb) (i j : BitVec 5) (e : TlbEntry) : tlbAt (tlbPut t i e) j = if j = i then e else tlbAt t j := by
  unfold tlbAt tlbPut
  rw [Vector.getElem_set]
  by_cases h : j = i
  · subst h; simp
  · have hn : i.toNat ≠ j.toNat := fun e => h (BitVec.eq_of_toNat_eq e.symm)
    simp [h, hn]

theorem tlbIndex_inj {s : BitVec 3} {v w : BitVec 2} : tlbIndex s v = tlbIndex s w ↔ v = w := by
  revert s v w
  decide

/-- A search that has found nothing, or one element, finds that element when it is made to match. -/
theorem find?_or_eq {α : Type} [DecidableEq α] {f : α → Bool} {x : α} {l : List α} (hx : x ∈ l)
    (h : l.find? f = none ∨ l.find? f = some x) : l.find? (fun y => decide (y = x) || f y) = some x := by
  induction l with
  | nil => exact absurd hx List.not_mem_nil
  | cons y l ih =>
    by_cases hy : y = x
    · simp [hy]
    · have hf : f y = false := by
        rw [← Bool.not_eq_true]
        intro hf
        simp [hf, hy] at h
      simp only [List.find?_cons, hf, hy, decide_false, Bool.or_false] at h ⊢
      exact ih ((List.mem_cons.1 hx).resolve_left (Ne.symm hy)) h

/-- The entry put for a page is found: it takes the place of the one found before, or there was none. -/
theorem tlbFind_put {e : TlbEntry} (hv : e.valid = true) (hp : e.page = lin.extractLsb' 12 20)
    (h : tlbFind t lin = none ∨ tlbFind t lin = some w) :
    tlbFind (tlbPut t (tlbIndex (tlbSet lin) w) e) lin = some w := by
  have hm : tlbMatches (tlbPut t (tlbIndex (tlbSet lin) w) e) lin = fun v => decide (v = w) || tlbMatches t lin v := by
    funext v
    by_cases hvw : v = w <;> simp [tlbMatches, tlbAt_put, tlbIndex_inj, hvw, hv, hp]
  rw [tlbFind_eq_find?] at h ⊢
  rw [hm]
  refine find?_or_eq ?_ h
  rcases lane_cases w with rfl | rfl | rfl | rfl <;> decide

/-! ### Page rights and the code of a page fault -/

variable {c : MemCtx} {p : PageCtx} {b : Bus} {write : Bool}

theorem pageAllows_eq_false (p : PageCtx) (write writable user : Bool) :
    pageAllows p write writable user = false ↔
      (p.user = true ∧ user = false) ∨ (p.user = true ∧ write = true ∧ writable = false)
        ∨ (p.user = false ∧ write = true ∧ writable = false ∧ p.wp = true) := by
  unfold pageAllows
  generalize p.user = u, p.wp = wp
  revert u wp write writable user
  decide

theorem pageFaultCode_bits (p : PageCtx) (present write : Bool) :
    (pageFaultCode p present write).getLsbD 0 = present ∧ (pageFaultCode p present write).getLsbD 1 = write
      ∧ (pageFaultCode p present write).getLsbD 2 = p.user ∧ pageFaultCode p present write &&& 0xFFFFFFF8#32 = 0 := by
  unfold pageFaultCode
  generalize p.user = u
  revert u present write
  decide

/-! ### Translation -/

/-- A translation by a walk of the tables, which enters it in the TLB. -/
def translateByWalk (c : MemCtx) (p : PageCtx) (lin : Addr) (write : Bool) : BM Phys := do
  let wk ← walk c p lin write
  commitWalk c lin write wk
  return TlbEntry.phys wk.entry lin

theorem translate_miss (hp : p.pg = true) (h : tlbFind b.tlb lin = none) :
    translate c p lin write b = translateByWalk c p lin write b := by
  unfold translate
  rw [if_neg (by simp [hp]), bind_ok (get_run b), h]
  rfl

section
variable (hp : p.pg = true) (h : tlbFind b.tlb lin = some w)
include hp h

theorem translate_hit_allowed
    (ha : pageAllows p write (tlbAt b.tlb (tlbIndex (tlbSet lin) w)).writable (tlbAt b.tlb (tlbIndex (tlbSet lin) w)).user = true)
    (hd : write = true → (tlbAt b.tlb (tlbIndex (tlbSet lin) w)).dirty = true) :
    translate c p lin write b = .ok (TlbEntry.phys (tlbAt b.tlb (tlbIndex (tlbSet lin) w)) lin) b := by
  have hclean : ¬(write && !(tlbAt b.tlb (tlbIndex (tlbSet lin) w)).dirty) = true := by simpa using hd
  unfold translate
  rw [if_neg (by simp [hp]), bind_ok (get_run b), h]
  dsimp only
  rw [if_neg (by simp [ha]), if_neg hclean]
  rfl

theorem translate_hit_denied
    (ha : pageAllows p write (tlbAt b.tlb (tlbIndex (tlbSet lin) w)).writable (tlbAt b.tlb (tlbIndex (tlbSet lin) w)).user = false) :
    translate c p lin write b = .error (.pageFault lin (pageFaultCode p true write)) b := by
  unfold translate
  rw [if_neg (by simp [hp]), bind_ok (get_run b), h]
  dsimp only
  rw [if_pos (by simp [ha])]
  rfl

/-- The first write through an entry walks the tables again (log 44). -/
theorem translate_hit_clean (hw : write = true)
    (ha : pageAllows p write (tlbAt b.tlb (tlbIndex (tlbSet lin) w)).writable (tlbAt b.tlb (tlbIndex (tlbSet lin) w)).user = true)
    (hd : (tlbAt b.tlb (tlbIndex (tlbSet lin) w)).dirty = false) :
    translate c p lin write b = translateByWalk c p lin write b := by
  unfold translate
  rw [if_neg (by simp [hp]), bind_ok (get_run b), h]
  dsimp only
  rw [if_neg (by simp [ha]), if_pos (by simp [hw, hd])]
  rfl

end

/-- Settles O55: rights and codes by their cases, a hit by what its entry allows. -/
theorem tlbHitTranslates : Obligations.TlbHitTranslates :=
  ⟨fun _ _ _ _ => ⟨pageAllows_eq_false .., fun _ => pageFaultCode_bits ..⟩,
    fun _ _ _ _ _ _ hp h => ⟨(tlbAt_of_find h).2, translate_hit_allowed hp h, translate_hit_denied hp h⟩⟩

end Sys2Proof.Machine
end

section
/-! SUPPORT. The bus cycles of transfers run whole on a 32-bit bus, and the write buffers drained (O54). -/

namespace Sys2Proof.Machine

variable {c : MemCtx} {b : Bus}

/-! ### What leaves the record of cycles alone -/

@[simp] theorem Bus.trace_setPhysByte (a : Addr) (v : Byte) : (b.setPhysByte c a v).trace = b.trace := by
  unfold Bus.setPhysByte
  split <;> rfl

@[simp] theorem Bus.trace_storeLanes (a : BitVec 30) (lanes : BitVec 4) (d : DWord) :
    (b.storeLanes c a lanes d).trace = b.trace := by
  have lane : ∀ (p : Prop) [Decidable p] (b' : Bus) (x : Addr) (v : Byte),
      (if p then b'.setPhysByte c x v else b').trace = b'.trace := by
    intro p _ b' x v
    split <;> simp
  unfold Bus.storeLanes
  simp only [lane]

@[simp] theorem Bus.trace_moveLanes (kind : CycleKind) (a : BitVec 30) (lanes : BitVec 4) (d : DWord) (bad : BitVec 4) :
    (b.moveLanes c kind a lanes d bad).trace = b.trace := by
  cases kind with
  | memWrite => exact Bus.trace_storeLanes ..
  | _ => rfl

@[simp] theorem Bus.trace_keepPart (kind : CycleKind) (p : BusPart) : (b.keepPart kind p).trace = b.trace := by
  unfold Bus.keepPart
  split <;> rfl

/-! ### One cycle for a doubleword -/

theorem busWidth_mem (h8 : c.plat.bus8 = []) (h16 : c.plat.bus16 = []) {kind : CycleKind}
    (hk : kind = .memRead ∨ kind = .memWrite) (a : BitVec 30) : busWidth c kind a = 32 := by
  rcases hk with rfl | rfl <;> simp [busWidth, inRanges, h8, h16]

theorem busWidth_ioWrite (h8 : c.plat.ioBus8 = []) (h16 : c.plat.ioBus16 = []) (a : BitVec 30) :
    busWidth c .ioWrite a = 32 := by
  simp [busWidth, inRanges, h8, h16]

/-- The pins and the data of the one cycle that a doubleword takes at 32 bits. -/
structure BusCycle.Carries (y : BusCycle) (x : Xfer) (p : BusPart) (d : DWord) : Prop where
  kind : y.kind = x.kind
  lock : y.lock = x.attr.lock
  addr : y.addr = p.addr
  be : y.be = ~~~p.lanes
  data : y.data = d

/-- A transfer of one doubleword that fills no line is one bus cycle where the device is 32 bits wide. -/
theorem Bus.trace_finish_one {x : Xfer} {p : BusPart} (hp : x.parts = [p]) (hw : x.want = false) (hf : x.fill = false)
    (hs : x.size = none) (h32 : busWidth c x.kind p.addr = 32) :
    ∃ y, (b.finish c x).trace = y :: b.trace ∧ BusCycle.Carries y x p (b.answer c x.kind p) := by
  have hwidth : Xfer.width c { x with decided := true } p.addr = 32 := by
    simp [Xfer.width, hs, h32]
  have hlanes : cycleLanes 32 32 p.lanes = [p.lanes] := by simp [cycleLanes, movedLanes]
  have hitem : ∃ y, itemCycles c { x with decided := true } p p.lanes (b.answer c x.kind p) (!x.decided) x.ads false = [y]
      ∧ BusCycle.Carries y x p (b.answer c x.kind p) := by
    unfold itemCycles
    rw [hwidth, h32, ite_self, hlanes]
    exact ⟨_, rfl, rfl, rfl, rfl, rfl, rfl⟩
  obtain ⟨y, hy, hc⟩ := hitem
  refine ⟨y, ?_, hc⟩
  rw [Bus.finish_plain b c hw hf]
  unfold Bus.moveAll
  simp only [hp]
  show (b.movePart c { x with decided := true } p p.lanes (!x.decided) x.ads false).trace = _
  unfold Bus.movePart
  simp only [Bus.trace_keepPart, Bus.trace_moveLanes, hy]
  rfl

/-! ### Buffered writes -/

theorem WbEntry.xfer_kind (e : WbEntry) : e.xfer.kind = if e.io then CycleKind.ioWrite else .memWrite := rfl

section
variable (h8 : c.plat.bus8 = []) (h16 : c.plat.bus16 = []) (hio8 : c.plat.ioBus8 = []) (hio16 : c.plat.ioBus16 = [])
include h8 h16 hio8 hio16

theorem busWidth_entry (e : WbEntry) : busWidth c e.xfer.kind e.addr = 32 := by
  rw [WbEntry.xfer_kind]
  cases e.io
  · exact busWidth_mem h8 h16 (.inr rfl) _
  · exact busWidth_ioWrite hio8 hio16 _

/-- Buffered writes that reach a 32-bit bus are bus cycles in their order, one each. -/
theorem Bus.trace_finishAll_entries (l : List WbEntry) :
    ∀ b : Bus, ∃ cycles : List BusCycle, (b.finishAll c (l.map WbEntry.xfer)).trace = cycles.reverse ++ b.trace
      ∧ cycles.map (fun x => (x.kind, x.addr, x.be, x.data))
          = l.map (fun e => ((if e.io then CycleKind.ioWrite else .memWrite), e.addr, ~~~e.lanes, e.data)) := by
  induction l with
  | nil => exact fun b => ⟨[], rfl, rfl⟩
  | cons e l ih =>
    intro b
    obtain ⟨y, hy, hc⟩ := Bus.trace_finish_one (b := b) (x := e.xfer) (p := ⟨e.addr, e.lanes, e.data, 0⟩) rfl rfl rfl rfl
      (busWidth_entry h8 h16 hio8 hio16 e)
    obtain ⟨ys, hys, hmap⟩ := ih (b.finish c e.xfer)
    refine ⟨y :: ys, ?_, ?_⟩
    · show ((b.finish c e.xfer).finishAll c (l.map WbEntry.xfer)).trace = _
      rw [hys, hy, List.reverse_cons, List.append_assoc]
      rfl
    · have hdata : b.answer c e.xfer.kind ⟨e.addr, e.lanes, e.data, 0⟩ = e.data := by
        rw [WbEntry.xfer_kind]
        cases e.io <;> rfl
      rw [List.map_cons, List.map_cons, hmap, hc.kind, hc.addr, hc.be, hc.data, hdata, WbEntry.xfer_kind]

end

/-- The buffers drained, as a function of the bus unit. -/
theorem drainBuffers_eq (hfree : c.busFree = true) (hs : b.script = []) :
    drainBuffers c b = .ok () (if b.wb.isEmpty then b else b.drain c) := by
  unfold drainBuffers
  by_cases he : b.wb.isEmpty = true
  · rw [if_pos he, if_pos he]
  · rw [if_neg he, if_pos hfree, if_neg he, transact_ok (b := { b with wb := [], readPassed := false }) false _ hs,
      entries_noRead, if_neg Bool.false_ne_true]
    rfl

theorem drainBuffers_empty (hw : b.wb = []) : drainBuffers c b = .ok () b := by
  unfold drainBuffers
  rw [if_pos (List.isEmpty_iff.2 hw)]

/-- DRAINING on a 32-bit bus: the buffered writes are the newest bus cycles, in their order. -/
theorem drainBuffers_cycles {b' : Bus} (hfree : c.busFree = true) (hs : b.script = []) (h : drainBuffers c b = .ok () b')
    (h8 : c.plat.bus8 = []) (h16 : c.plat.bus16 = []) (hio8 : c.plat.ioBus8 = []) (hio16 : c.plat.ioBus16 = []) :
    ∃ cycles : List BusCycle, b'.trace = cycles.reverse ++ b.trace
      ∧ cycles.map (fun x => (x.kind, x.addr, x.be, x.data))
          = b.wb.map (fun e => ((if e.io then CycleKind.ioWrite else .memWrite), e.addr, ~~~e.lanes, e.data)) := by
  rw [drainBuffers_eq hfree hs] at h
  injection h with _ hb
  subst hb
  split
  · rename_i he
    rw [List.isEmpty_iff.1 he]
    exact ⟨[], rfl, rfl⟩
  · exact Bus.trace_finishAll_entries h8 h16 hio8 hio16 b.wb { b with wb := [], readPassed := false }

/-! ### The end of a step -/

/-- With the buffers empty memory holds what it will hold. -/
theorem Bus.memView_empty (h : b.wb = []) (x : Addr) : b.memView c x = b.physByte c x := by
  unfold Bus.memView
  rw [h]
  rfl

/-- What settling does to the buffers: with the bus free and nothing that holds them back they drain, else they stay. -/
theorem settle_cases {s : State} (hw : s.bus.memWf = true) (hs : s.bus.script = []) :
    (∃ b, s.settle = { s with bus := b } ∧ drainBuffers s.memCtx s.bus = .ok () b ∧ s.busFree = true)
      ∨ (s.settle = s ∧ (s.busFree = true → s.platform.lazyBus = false → s.bus.wb = [])) := by
  unfold State.settle
  split
  · rename_i h
    simp only [Bool.and_eq_true] at h
    obtain ⟨⟨⟨⟨hfree, -⟩, -⟩, -⟩, -⟩ := h
    obtain ⟨b, hd, -⟩ := drainBuffers_spec (c := s.memCtx) (b := s.bus) hw hfree hs
    have hdrain : drain s = .ok () { s with bus := b } := bus_ok hd
    exact .inl ⟨b, by rw [hdrain], hd, hfree⟩
  · rename_i h
    refine .inr ⟨rfl, fun hfree hl => ?_⟩
    have hheld : s.bus.heldHold = false ∧ s.bus.heldAddr = false := by
      obtain ⟨-, hfree⟩ := Bool.and_eq_true_iff.1 hfree
      simpa [Bus.held, hs] using hfree
    simpa [hfree, hl, hheld.1, hheld.2] using h

/-- Settles O54: the drained buffers by their transfers in order; settling either drains them or finds a reason not to. -/
theorem buffersInOrder : Obligations.BuffersInOrder := by
  refine ⟨fun c b hb hfree hs => ?_, fun s hb hs => ?_⟩
  · obtain ⟨b', hd, -, -, hwb, hphys, -⟩ := drainBuffers_spec (c := c) hb hfree hs
    exact ⟨b', hd, hwb, hphys, drainBuffers_cycles hfree hs hd⟩
  · rcases settle_cases hb hs with ⟨b, he, hd, hfree⟩ | ⟨he, hwb⟩
    · obtain ⟨b', hd', hwf, -, hwb, hphys, hview⟩ := drainBuffers_spec (c := s.memCtx) (b := s.bus) hb hfree hs
      obtain rfl : b' = b := by
        rw [hd] at hd'
        injection hd' with _ h
        exact h.symm
      exact ⟨b', he, hwf, hview, fun x => (Bus.memView_empty hwb x).trans (hphys x), fun _ _ => hwb⟩
    · exact ⟨s.bus, he, hb, fun _ => rfl, fun _ => rfl, hwb⟩

end Sys2Proof.Machine
end

section
/-! SUPPORT. Page entries: their doublewords read through the cache, and updated by locked read-modify-writes (20_memory.md R161,
R162). -/

namespace Sys2Proof.Machine

variable {c : MemCtx} {b b' b'' : Bus} {a : Addr}

/-! ### The bytes of a doubleword -/

theorem ofBytes_four (v0 v1 v2 v3 : Byte) : ofBytes 32 [v0, v1, v2, v3] = v3 ++ v2 ++ v1 ++ v0 := by
  have h0 := v0.isLt
  have h1 := v1.isLt
  have h2 := v2.isLt
  have h3 := v3.isLt
  apply BitVec.eq_of_toNat_eq
  simp only [ofBytes, natOfBytes, BitVec.toNat_append, BitVec.toNat_ofNat]
  rw [← Nat.shiftLeft_add_eq_or_of_lt h2, ← Nat.shiftLeft_add_eq_or_of_lt h1, ← Nat.shiftLeft_add_eq_or_of_lt h0]
  simp only [Nat.shiftLeft_eq]
  omega

theorem Bus.word_eq_ofBytes (b : Bus) (c : MemCtx) (a : Addr) :
    b.word c a = ofBytes 32 ((List.range 4).map fun i => b.view c (a + BitVec.ofNat 32 i)) := by
  show _ = ofBytes 32 [b.view c (a + 0#32), b.view c (a + 1#32), b.view c (a + 2#32), b.view c (a + 3#32)]
  rw [ofBytes_four, BitVec.add_zero]
  rfl

theorem Bus.word_eq_span (b : Bus) (c : MemCtx) (a : Addr) : b.word c a = ofBytes 32 (b.span c a 4) := b.word_eq_ofBytes c a

theorem ofBytes_toBytes (v : DWord) : ofBytes 32 (toBytes 4 v) = v := by
  have h := v.isLt
  apply BitVec.eq_of_toNat_eq
  simp only [toBytes, bytesOfNat, ofBytes, natOfBytes, BitVec.toNat_ofNat]
  omega

/-- A doubleword whose bytes have been stored. -/
theorem Bus.word_of_bytes {v : DWord} (h : ∀ i, i < 4 → b.view c (a + BitVec.ofNat 32 i) = (toBytes 4 v).getD i 0) :
    b.word c a = v := by
  rw [Bus.word_eq_ofBytes, ← ofBytes_toBytes v]
  congr 1
  apply List.ext_getElem
  · simp
  · intro i h1 h2
    have hi : i < 4 := by simpa using h1
    rw [List.getElem_map, List.getElem_range, h i hi, List.getD_eq_getElem]

theorem Bus.word_congr (h : ∀ i, i < 4 → b'.view c (a + BitVec.ofNat 32 i) = b.view c (a + BitVec.ofNat 32 i)) :
    b'.word c a = b.word c a := by
  rw [Bus.word_eq_ofBytes, Bus.word_eq_ofBytes]
  exact congrArg _ (List.map_congr_left fun i hi => h i (List.mem_range.1 hi))

theorem Bus.Quiet.word (h : Bus.Quiet c b b') (a : Addr) : b'.word c a = b.word c a :=
  Bus.word_congr fun _ _ => h.view _

/-- The four lanes as the four places of a doubleword. -/
theorem forall_lane {P : DWord → Prop} : (∀ k : BitVec 2, P (k.setWidth 32)) ↔ ∀ i, i < 4 → P (BitVec.ofNat 32 i) := by
  have hk : ∀ k : BitVec 2, k.setWidth 32 = BitVec.ofNat 32 k.toNat := fun k => BitVec.eq_of_toNat_eq (by simp)
  constructor
  · intro h i hi
    have := h (BitVec.ofNat 2 i)
    rwa [hk, BitVec.toNat_ofNat, Nat.mod_eq_of_lt hi] at this
  · intro h k
    rw [hk]
    exact h _ k.isLt

/-- Doublewords at different aligned addresses have no byte in common. -/
theorem aligned_bytes_ne {e : Addr} (ha : a.toNat % 4 = 0) (he : e.toNat % 4 = 0) (hne : a ≠ e) {i j : Nat} (hi : i < 4) (hj : j < 4) :
    a + BitVec.ofNat 32 i ≠ e + BitVec.ofNat 32 j := by
  intro h
  have hn : a.toNat ≠ e.toNat := fun h => hne (BitVec.eq_of_toNat_eq h)
  have h' := congrArg BitVec.toNat h
  have hla := a.isLt
  have hle := e.isLt
  simp only [BitVec.toNat_add, BitVec.toNat_ofNat] at h'
  omega

/-! ### What a locked access will find -/

/-- The lines are in the states they were in, and memory will hold of every byte what it would have held. -/
structure Bus.SameBelow (c : MemCtx) (b b' : Bus) : Prop where
  state : ∀ x, Cache.stateAt b'.cache c.big x = Cache.stateAt b.cache c.big x
  memView : ∀ x, b'.memView c x = b.memView c x

theorem Bus.SameBelow.trans (h : Bus.SameBelow c b b') (k : Bus.SameBelow c b' b'') : Bus.SameBelow c b b'' :=
  ⟨fun x => (k.state x).trans (h.state x), fun x => (k.memView x).trans (h.memView x)⟩

theorem Bus.SameBelow.of_eq (hc : b'.cache = b.cache) (hm : ∀ x, b'.memView c x = b.memView c x) : Bus.SameBelow c b b' :=
  ⟨fun x => by rw [hc], hm⟩

theorem cleanByte_iff : b.CleanByte c a ↔ Cache.stateAt b.cache c.big a ≠ some .modified ∧ b.view c a = b.memView c a := by
  unfold Bus.CleanByte Cache.stateAt
  cases b.cache.lookup c.big a <;> simp

theorem Bus.CleanByte.congr (h : b.CleanByte c a) (hs : Bus.SameBelow c b b') (hv : b'.view c a = b.view c a) :
    b'.CleanByte c a := by
  obtain ⟨h1, h2⟩ := cleanByte_iff.1 h
  exact cleanByte_iff.2 ⟨by rwa [hs.state], by rw [hv, h2, hs.memView]⟩

theorem stateAt_congr {k k' : Cache} {big : Bool} (hl : k'.lookup big a = k.lookup big a)
    (hw : ∀ w, ((k'.entry (setOf big a)).way w).st = ((k.entry (setOf big a)).way w).st) :
    Cache.stateAt k' big a = Cache.stateAt k big a := by
  unfold Cache.stateAt
  rw [hl]
  cases k.lookup big a <;> simp [hw]

theorem stateAt_touchAt (k : Cache) (big : Bool) (e x : Addr) (w : BitVec 2) :
    Cache.stateAt (k.touchAt big e w) big x = Cache.stateAt k big x := by
  refine stateAt_congr (Cache.lookup_touchAt ..) fun v => ?_
  unfold Cache.touchAt
  rw [Cache.entry_putSet]
  split
  · rename_i h
    rw [CacheSet.way_touch, h]
  · rfl

/-- A write hit that keeps the state of its line keeps the state of every line. -/
theorem stateAt_writeHit {k : Cache} {big : Bool} {e : Addr} {w : BitVec 2} (bs : List Byte) (hw : k.lookup big e = some w) (x : Addr) :
    Cache.stateAt (k.writeHit big e w ((k.entry (setOf big e)).way w).st bs) big x = Cache.stateAt k big x := by
  refine stateAt_congr (Cache.byteAt_writeHit _ bs hw (state_of_lookup hw) x).1 fun v => ?_
  simp only [Cache.writeHit, Cache.entry_putSet]
  split
  · rename_i h
    rw [CacheSet.way_touch, CacheSet.way_putWay, h]
    split
    · rename_i hv
      rw [hv]
    · rfl
  · rfl

theorem stateAt_storeHits (chs : List PChunk) :
    ∀ (bs : List Byte) (b : Bus) (x : Addr), Cache.stateAt (b.storeHits c chs bs).cache c.big x = Cache.stateAt b.cache c.big x := by
  induction chs with
  | nil => exact fun _ _ _ => rfl
  | cons ch chs ih =>
    intro bs b x
    unfold Bus.storeHits
    rw [ih]
    cases hl : b.cache.lookup c.big (maskA20 c ch.pa) with
    | none => rfl
    | some w => exact stateAt_writeHit _ hl x

/-! ### Reading an entry -/

/-- A read with the cache disabled leaves what a locked access will find. -/
theorem readChunk_sameBelow {kind : CycleKind} {more : Bool} {ch : PChunk} {bs : List Byte} (hb : b.memWf = true)
    (hfree : c.busFree = true) (hs : b.script = []) (hk : kind = .memRead ∨ kind = .codeRead) (hcd : c.cd = true)
    (h : readChunk c kind more ch b = .ok bs b') : Bus.SameBelow c b b' := by
  unfold readChunk at h
  rw [bind_ok (get_run b)] at h
  cases hl : b.cache.lookup c.big (maskA20 c ch.pa) with
  | some w =>
    simp only [hl] at h
    rw [bind_ok (set_run _ b), pure_run] at h
    injection h with _ h
    subst h
    exact ⟨fun x => stateAt_touchAt .., fun _ => rfl⟩
  | none =>
    simp only [hl] at h
    obtain ⟨b1, h1, h2, h3, h4, -⟩ := orderRead_spec (c := c) (a := maskA20 c ch.pa) hb hfree hs
    obtain ⟨b2, r2, e2, -⟩ := transact_read (c := c) (b := b1)
      (x := readXfer c kind ch (more || b1.operandBegun) (readParts (maskA20 c ch.pa) ch.len))
      (h3.script.trans hs) hk (by simp [readXfer, hcd]) rfl
    rw [bind_ok h1, bind_ok (get_run _), bind_ok r2, bind_ok (get_run _), pure_run] at h
    injection h with _ h
    subst h
    refine .of_eq (e2.cache.trans h3.cache) fun x => ?_
    rw [← h4 x]
    unfold Bus.memView
    rw [e2.wb, e2.physByte]

theorem maskA20_off (h : c.a20m = false) (a : Addr) : maskA20 c a = a := by
  simp [maskA20, h]

theorem fits_entry (ha : a.toNat % 4 = 0) : Fits 4 a 4 := by
  unfold Fits
  omega

/-- READING AN ENTRY with the cache disabled: its doubleword as the processor sees it, and nothing changes that it could see. -/
theorem readEntry_spec (hb : b.memWf = true) (hfree : c.busFree = true) (hs : b.script = []) (hcd : c.cd = true)
    (hm : c.a20m = false) (ha : a.toNat % 4 = 0) (pcd pwt : Bool) :
    ∃ b', readEntry c ⟨a, 4, pcd, pwt⟩ b = .ok (b.word c a) b' ∧ Bus.Quiet c b b' ∧ Bus.SameBelow c b b' := by
  have hfits : Fits 4 (maskA20 c a) 4 := by
    rw [maskA20_off hm]
    exact fits_entry ha
  obtain ⟨b', hr, -, hq, -⟩ := readChunk_spec (kind := .memRead) (more := false) (ch := ⟨a, 4, pcd, pwt⟩) hb hfree hs (.inl rfl)
    hfits (.inl hcd)
  refine ⟨b', ?_, hq, readChunk_sameBelow hb hfree hs (.inl rfl) hcd hr⟩
  unfold readEntry
  rw [bind_ok hr, pure_run, Bus.word_eq_span, maskA20_off hm]

/-! ### Locked updates -/

/-- A context with paging off in which an access goes with these levels of PCD and PWT. -/
def attrCtx (pcd pwt : Bool) : PageCtx :=
  { pg := false, wp := false, pse := false, cr3 := (if pcd then 0x10 else 0) ||| (if pwt then 0x8 else 0), user := false
    asPrinted := false, offFromCr3 := true }

/-- An entry is one part of an access, and one doubleword. -/
theorem chunksOf_entry {w : Nat} (hw : w = 2 ∨ w = 4) (ha : a.toNat % 4 = 0) : chunksOf w 5 a 4 = [⟨a, 4⟩] := by
  have hmin : min 4 (2 ^ w - a.toNat % 2 ^ w) = 4 := by
    rcases hw with rfl | rfl <;> omega
  simp only [chunksOf, hmin]
  rfl

theorem flatChunks_entry (ha : a.toNat % 4 = 0) (pcd pwt : Bool) :
    flatChunks (attrCtx pcd pwt) (chunksOf 4 5 a 4) = [⟨a, 4, pcd, pwt⟩] := by
  rw [chunksOf_entry (.inr rfl) ha]
  cases pcd <;> cases pwt <;> rfl

/-- The transfer of the locked read of an entry. -/
def entryRead (a : Addr) (pcd pwt : Bool) : Xfer :=
  Xfer.new .memRead ⟨true, false, pcd, pwt, false⟩ [⟨memDword a, LChunk.lanes ⟨a, 4⟩, 0, 0⟩]

/-- The transfer of the locked write of an entry. -/
def entryWrite (a : Addr) (pcd pwt : Bool) (v : DWord) : Xfer :=
  { Xfer.new .memWrite ⟨true, false, pcd, pwt, false⟩ [⟨memDword a, LChunk.lanes ⟨a, 4⟩, v, 0⟩] with cont := true }

section
variable (hm : c.a20m = false) (ha : a.toNat % 4 = 0) (pcd pwt : Bool)
include hm ha

theorem lockedReads_entry :
    lockedReads c false [⟨a, 4, pcd, pwt⟩] = [entryRead a pcd pwt] := by
  simp only [lockedReads, readParts, dwordsOf, maskA20_off hm, chunksOf_entry (.inl rfl) ha]
  rfl

theorem lockedWrites_entry (bs : List Byte) :
    ∃ v, lockedWrites c false [⟨a, 4, pcd, pwt⟩] bs = [entryWrite a pcd pwt v] := by
  simp only [lockedWrites, dwordsOf, maskA20_off hm, chunksOf_entry (.inl rfl) ha]
  exact ⟨_, rfl⟩

end

/-- A LOCKED READ of an entry: its bytes as the processor sees them; the buffers drain first, and on a 32-bit bus it is the next
cycle. -/
theorem readChunksLocked_entry (hb : b.memWf = true) (hfree : c.busFree = true) (hs : b.script = []) (hm : c.a20m = false)
    (ha : a.toNat % 4 = 0) (hcl : ∀ i, i < 4 → b.CleanByte c (a + BitVec.ofNat 32 i)) (pcd pwt : Bool) :
    ∃ d b', drainBuffers c b = .ok () d
      ∧ readChunksLocked c [⟨a, 4, pcd, pwt⟩] b = .ok ((List.range 4).map fun i => b.view c (a + BitVec.ofNat 32 i)) b'
      ∧ Bus.Quiet c b b' ∧ Bus.SameBelow c b b' ∧ b'.wb = []
      ∧ (c.plat.bus8 = [] → c.plat.bus16 = [] →
        ∃ r, b'.trace = r :: d.trace ∧ (r.kind, r.lock, r.addr) = (.memRead, true, memDword a)) := by
  have hclean : CleanAt c b a 4 := fun i hi => by
    rw [maskA20_off hm]
    exact cleanByte_iff.1 (hcl i hi)
  obtain ⟨b', hr, -, hq, hcache, hwb⟩ := readChunksLocked_spec (p := attrCtx pcd pwt) hfree (by norm_num) hb hs hclean
  simp only [flatChunks_entry ha, maskA20_off hm] at hr
  obtain ⟨d, hd, -, hdw, hdwb, hdphys, -⟩ := drainBuffers_spec (c := c) hb hfree hs
  obtain ⟨e, he⟩ : ∃ e : Bus, e = { d with fillBuf := [], pchk := false } := ⟨_, rfl⟩
  have hde : Bus.SameButRead d e := by
    subst he
    constructor <;> rfl
  have hb' : b' = e.finish c (entryRead a pcd pwt) := by
    have hlines : cleanLines c [⟨a, 4, pcd, pwt⟩] d = .ok () d := by
      refine cleanLines_eq fun ch hch => ?_
      obtain rfl := List.mem_singleton.1 hch
      rw [maskA20_off hm, hdw.cache]
      simpa using (cleanByte_iff.1 (hcl 0 (by norm_num))).1
    have ht := transact_ok (c := c) true [entryRead a pcd pwt] (hdw.script.trans hs)
    rw [if_pos (by rfl), ← he] at ht
    unfold readChunksLocked at hr
    rw [bind_ok (needBus_ok hfree b), bind_ok hd, bind_ok hlines, lockedReads_entry hm ha, bind_ok ht] at hr
    injection hr with _ h
    exact h.symm
  obtain ⟨hsame, -⟩ := Bus.finish_read e c (x := entryRead a pcd pwt) (.inl rfl) rfl rfl
  refine ⟨d, b', hd, hr, hq, .of_eq hcache fun y => ?_, hwb, fun h8 h16 => ?_⟩
  · rw [Bus.memView_empty hwb, hb', (hde.trans hsame).physByte, hdphys]
    rfl
  · obtain ⟨r, htrace, hc⟩ := Bus.trace_finish_one (b := e) (x := entryRead a pcd pwt) rfl rfl rfl rfl
      (busWidth_mem h8 h16 (.inl rfl) _)
    refine ⟨r, ?_, ?_⟩
    · rw [hb', htrace, he]
    · rw [hc.kind, hc.lock, hc.addr]
      rfl

/-- A LOCKED WRITE of an entry, with the buffers empty: the processor sees it, and every byte a locked access can read stays so; on a
32-bit bus it is the next cycle. -/
theorem writeChunksLocked_entry (hb : b.memWf = true) (hs : b.script = []) (hwb : b.wb = []) (hm : c.a20m = false)
    (ha : a.toNat % 4 = 0) (pcd pwt : Bool) {bs : List Byte} (hlen : bs.length = 4) :
    ∃ b', writeChunksLocked c [⟨a, 4, pcd, pwt⟩] bs b = .ok () b'
      ∧ Bus.Stored c b (fun i => a + BitVec.ofNat 32 i) bs b' ∧ b'.wb = [] ∧ (∀ x, b.CleanByte c x → b'.CleanByte c x)
      ∧ (c.plat.bus8 = [] → c.plat.bus16 = [] →
        ∃ w, b'.trace = w :: b.trace ∧ (w.kind, w.lock, w.addr) = (.memWrite, true, memDword a)) := by
  obtain ⟨b', hr, hst⟩ := writeChunksLocked_spec (c := c) (p := attrCtx pcd pwt) (lin := a) (bs := bs) (by omega) hb hs hwb
  obtain ⟨k, hk, -⟩ := storeHits_spec (c := c) (p := attrCtx pcd pwt) 5 a bs b (by omega) (by omega)
  obtain ⟨hreads, -, hunit, hbytes⟩ := lockedWrites_spec (c := c) (p := attrCtx pcd pwt) 5 false a bs { b with cache := k } (by omega)
    (by omega) hb
  simp only [hlen, flatChunks_entry ha, maskA20_off hm] at hr hst hk hreads hunit hbytes
  obtain ⟨v, hv⟩ := lockedWrites_entry hm ha pcd pwt bs
  rw [hv] at hreads hunit hbytes
  have hb' : b' = Bus.finish { b with cache := k } c (entryWrite a pcd pwt v) := by
    have ht := transact_ok (c := c) (b := { b with cache := k }) false [entryWrite a pcd pwt v] hs
    rw [hreads, if_neg Bool.false_ne_true] at ht
    unfold writeChunksLocked at hr
    rw [bind_ok (modify_run _ b), hk, hv, ht] at hr
    injection hr with _ h
    exact h.symm
  have hfinish : Bus.finishAll { b with cache := k } c [entryWrite a pcd pwt v] = b' := hb'.symm
  rw [hfinish] at hunit hbytes
  have hempty : b'.wb = [] := hunit.wb.trans hwb
  refine ⟨b', hr, hst, hempty, fun y hy => ?_, fun h8 h16 => ?_⟩
  · obtain ⟨hstate, hview⟩ := cleanByte_iff.1 hy
    refine cleanByte_iff.2 ⟨?_, ?_⟩
    · rw [hunit.cache]
      have := stateAt_storeHits (c := c) [⟨a, 4, pcd, pwt⟩] bs b y
      rw [hk] at this
      rwa [this]
    · rw [Bus.memView_empty hempty]
      by_cases hin : ∃ i, i < bs.length ∧ y = a + BitVec.ofNat 32 i
      · obtain ⟨i, hi, rfl⟩ := hin
        have hphys := hbytes.1 i hi
        rw [maskA20_off hm] at hphys
        rw [hst.written i hi, hphys]
      · have hout : ∀ i, i < bs.length → y ≠ a + BitVec.ofNat 32 i := fun i hi h => hin ⟨i, hi, h⟩
        rw [hst.others y hout, hview, Bus.memView_empty hwb, hbytes.2 y fun i hi => by rw [maskA20_off hm]; exact hout i hi]
        rfl
  · obtain ⟨w, htrace, hc⟩ := Bus.trace_finish_one (b := { b with cache := k }) (x := entryWrite a pcd pwt v)
      rfl rfl rfl rfl (busWidth_mem h8 h16 (.inr rfl) _)
    refine ⟨w, ?_, ?_⟩
    · rw [hb', htrace]
    · rw [hc.kind, hc.lock, hc.addr]
      rfl

/-! ### Bits of an entry -/

theorem or_eq_of_and_eq {v bits : DWord} (h : v &&& bits = bits) : v ||| bits = v := by
  refine BitVec.eq_of_getLsbD_eq fun i _ => ?_
  have hi := congrArg (fun x => x.getLsbD i) h
  simp only [BitVec.getLsbD_and] at hi
  rw [BitVec.getLsbD_or]
  revert hi
  cases v.getLsbD i <;> cases bits.getLsbD i <;> decide

/-- What setting bits of an entry leaves: the entry with these bits, every other byte as the processor saw it, the control state, and
nothing hidden from a locked access that was not. -/
structure Bus.EntrySet (c : MemCtx) (b : Bus) (a : Addr) (bits : DWord) (b' : Bus) : Prop where
  wf : b'.memWf = true
  control : Bus.SameControl b b'
  word : b'.word c a = b.word c a ||| bits
  others : ∀ x, (∀ i, i < 4 → x ≠ a + BitVec.ofNat 32 i) → b'.view c x = b.view c x
  clean : ∀ x, b.CleanByte c x → b'.CleanByte c x

theorem setEntryBits_set {v bits : DWord} (ch : PChunk) (h : v &&& bits = bits) : setEntryBits c ch v bits b = .ok () b := by
  unfold setEntryBits
  rw [if_pos h]
  rfl

theorem Bus.urgent_congr (h : b'.queue = b.queue) : b'.urgent = b.urgent := by
  unfold Bus.urgent
  rw [h]

/-- The pair of cycles of a locked update on a 32-bit bus comes before those of earlier updates. -/
theorem Bus.lastUpdates_cons {d : BitVec 30} {as : List (BitVec 30)} {r w : BusCycle} (ht : b'.trace = w :: r :: b.trace)
    (hr : (r.kind, r.lock, r.addr) = (.memRead, true, d)) (hw : (w.kind, w.lock, w.addr) = (.memWrite, true, d))
    (h : b.lastUpdates as) : b'.lastUpdates (d :: as) := by
  obtain ⟨cs, older, hb, hmap⟩ := h
  exact ⟨w :: r :: cs, older, by rw [ht, hb]; rfl, by simp [hr, hw, hmap]⟩

theorem Bus.lastUpdates_nil (b : Bus) : b.lastUpdates [] := ⟨[], b.trace, rfl, rfl⟩

/-- A LOCKED UPDATE of an entry. On a 32-bit bus its two cycles come right after those of earlier updates where the buffers were empty. -/
theorem setEntryBits_update {v bits : DWord} (hb : b.memWf = true) (hfree : c.busFree = true) (hs : b.script = [])
    (hm : c.a20m = false) (hu : b.urgent = none) (ha : a.toNat % 4 = 0)
    (hcl : ∀ i, i < 4 → b.CleanByte c (a + BitVec.ofNat 32 i)) (pcd pwt : Bool) (hv : v &&& bits ≠ bits) :
    ∃ b', setEntryBits c ⟨a, 4, pcd, pwt⟩ v bits b = .ok () b' ∧ Bus.EntrySet c b a bits b' ∧ b'.wb = []
      ∧ (c.plat.bus8 = [] → c.plat.bus16 = [] → ∀ as, as = [] ∨ b.wb = [] ∧ b.lastUpdates as → b'.lastUpdates (memDword a :: as)) := by
  obtain ⟨d, b1, hd, hr, hq, hbelow, hwb, hrt⟩ := readChunksLocked_entry hb hfree hs hm ha hcl pcd pwt
  obtain ⟨b2, hw, hst, hwb2, hclean, hwt⟩ := writeChunksLocked_entry (bs := toBytes 4 (b.word c a ||| bits)) (hq.wf hb)
    (hq.control.script.trans hs) hwb hm ha pcd pwt (toBytes_length ..)
  have hcontrol := hq.control.trans hst.control
  refine ⟨b2, ?_, ⟨hst.wf, hcontrol, ?_, fun x hx => ?_, fun x hx => ?_⟩, hwb2, fun h8 h16 as has => ?_⟩
  · unfold setEntryBits
    rw [if_neg hv, bind_ok hr, ← Bus.word_eq_ofBytes, bind_ok hw]
    exact writeBackSnooped_ok ((Bus.urgent_congr hcontrol.queue).trans hu)
  · exact Bus.word_of_bytes fun i hi => hst.written i (by rwa [toBytes_length])
  · rw [hst.others x (by rwa [toBytes_length]), hq.view]
  · exact hclean x (hx.congr hbelow (hq.view x))
  · obtain ⟨r, hrt, hr⟩ := hrt h8 h16
    obtain ⟨w, hwt, hw⟩ := hwt h8 h16
    refine Bus.lastUpdates_cons (b := d) (by rw [hwt, hrt]) hr hw ?_
    rcases has with rfl | ⟨hempty, has⟩
    · exact Bus.lastUpdates_nil d
    · rw [drainBuffers_empty hempty] at hd
      injection hd with _ hd
      exact hd ▸ has

theorem Bus.EntrySet.word_ne {e : Addr} {bits : DWord} (h : Bus.EntrySet c b a bits b') (ha : a.toNat % 4 = 0)
    (he : e.toNat % 4 = 0) (hne : e ≠ a) : b'.word c e = b.word c e :=
  Bus.word_congr fun _ hi => h.others _ fun _ hj => aligned_bytes_ne he ha hne hi hj

/-- SETTING BITS of an entry, of which the processor may have seen an older value: by a locked update unless they are set. -/
theorem setEntryBits_spec {v bits : DWord} (hb : b.memWf = true) (hfree : c.busFree = true) (hs : b.script = [])
    (hm : c.a20m = false) (hu : b.urgent = none) (ha : a.toNat % 4 = 0)
    (hcl : ∀ i, i < 4 → b.CleanByte c (a + BitVec.ofNat 32 i)) (pcd pwt : Bool)
    (hset : v &&& bits = bits → b.word c a ||| bits = b.word c a) :
    ∃ b', setEntryBits c ⟨a, 4, pcd, pwt⟩ v bits b = .ok () b' ∧ Bus.EntrySet c b a bits b'
      ∧ (v &&& bits ≠ bits → b'.wb = [])
      ∧ (c.plat.bus8 = [] → c.plat.bus16 = [] → ∀ as, as = [] ∨ b.wb = [] ∧ b.lastUpdates as →
        b'.lastUpdates ((if v &&& bits = bits then [] else [memDword a]) ++ as)) := by
  by_cases h : v &&& bits = bits
  · refine ⟨b, setEntryBits_set _ h, ⟨hb, .refl b, (hset h).symm, fun _ _ => rfl, fun _ => id⟩, fun hne => absurd h hne,
      fun _ _ as has => ?_⟩
    rw [if_pos h]
    rcases has with rfl | ⟨-, has⟩
    · exact Bus.lastUpdates_nil b
    · exact has
  · obtain ⟨b', hr, he, hwb, ht⟩ := setEntryBits_update hb hfree hs hm hu ha hcl pcd pwt h
    refine ⟨b', hr, he, fun _ => hwb, ?_⟩
    rw [if_neg h]
    exact ht

end Sys2Proof.Machine
end

section
/-! SUPPORT. The walk of the page tables (O56): what it reads and checks, what it sets, and what the TLB then holds. -/

namespace Sys2Proof.Machine

variable {c : MemCtx} {p : PageCtx} {lin : Addr} {write : Bool} {b b' : Bus} {pde pte : DWord}

/-! ### The entries of a walk -/

/-- Where the directory entry for a linear address stands. -/
def pdeAt (p : PageCtx) (lin : Addr) : Addr := p.cr3.extractLsb' 12 20 ++ lin.extractLsb' 22 10 ++ 0#2

/-- Where the table entry stands that a directory entry leads to. -/
def pteAt (pde : DWord) (lin : Addr) : Addr := pde.extractLsb' 12 20 ++ lin.extractLsb' 12 10 ++ 0#2

def pdeChunk (p : PageCtx) (lin : Addr) : PChunk := ⟨pdeAt p lin, 4, p.cr3.getLsbD 4, p.cr3.getLsbD 3⟩
def pteChunk (p : PageCtx) (pde : DWord) (lin : Addr) : PChunk := ⟨pteAt pde lin, 4, pteDisable p pde, pteThrough p pde⟩

theorem pteDisable_eq (p : PageCtx) (e : DWord) : pteDisable p e = e.getLsbD (if p.asPrinted then 3 else 4) := by
  unfold pteDisable
  split <;> rfl

theorem pteThrough_eq (p : PageCtx) (e : DWord) : pteThrough p e = e.getLsbD (if p.asPrinted then 4 else 3) := by
  unfold pteThrough
  split <;> rfl

/-- The directory entry maps a 4MB page. -/
def mapsBig (p : PageCtx) (pde : DWord) : Bool := p.pse && pde.getLsbD 7

/-- Every entry that the walk needs is present. -/
def EntriesPresent (p : PageCtx) (pde pte : DWord) : Prop := pde.getLsbD 0 = true ∧ (mapsBig p pde = true ∨ pte.getLsbD 0 = true)

/-- A bit that both entries must have set, or the directory's alone where it maps a 4MB page. -/
def bothHave (p : PageCtx) (pde pte : DWord) (i : Nat) : Bool := pde.getLsbD i && (mapsBig p pde || pte.getLsbD i)

/-- The last entry of the walk. -/
def lastEntry (p : PageCtx) (pde pte : DWord) : DWord := if mapsBig p pde then pde else pte

/-- The physical address that the entries give. -/
def walkAddr (p : PageCtx) (lin : Addr) (pde pte : DWord) : Addr :=
  if mapsBig p pde then pde.extractLsb' 22 10 ++ lin.extractLsb' 0 22 else pte.extractLsb' 12 20 ++ lin.extractLsb' 0 12

/-- What the TLB will hold. -/
def walkEntry (p : PageCtx) (lin : Addr) (write : Bool) (pde pte : DWord) : TlbEntry :=
  { valid := true, page := lin.extractLsb' 12 20, frame := (walkAddr p lin pde pte).extractLsb' 12 20
    writable := bothHave p pde pte 1, user := bothHave p pde pte 2, dirty := (lastEntry p pde pte).getLsbD 6 || write
    pcd := pteDisable p (lastEntry p pde pte), pwt := pteThrough p (lastEntry p pde pte), big := mapsBig p pde }

/-- What the walk finds. -/
def found (p : PageCtx) (lin : Addr) (write : Bool) (pde pte : DWord) : Walk :=
  ⟨walkEntry p lin write pde pte, pdeChunk p lin, pde, if mapsBig p pde then none else some (pteChunk p pde lin, pte)⟩

theorem aligned_append (x : BitVec 20) (y : BitVec 10) : (x ++ y ++ 0#2 : Addr).toNat % 4 = 0 := by
  rw [BitVec.toNat_append]
  simp [Nat.shiftLeft_eq]

theorem extract_frame_big (x : BitVec 10) (lin : Addr) :
    (x ++ lin.extractLsb' 0 22 : Addr).extractLsb' 12 20 = x ++ lin.extractLsb' 12 10 := by
  refine BitVec.eq_of_getLsbD_eq fun i hi => ?_
  simp only [BitVec.getLsbD_extractLsb', BitVec.getLsbD_append, Nat.zero_add, hi, decide_true, Bool.true_and]
  by_cases h : i < 10
  · simp [h, show 12 + i < 22 by omega]
  · simp [h, show ¬12 + i < 22 by omega, show 12 + i - 22 = i - 10 by omega]

theorem extract_frame (x : BitVec 20) (y : BitVec 12) : (x ++ y : Addr).extractLsb' 12 20 = x := by
  refine BitVec.eq_of_getLsbD_eq fun i hi => ?_
  simp only [BitVec.getLsbD_extractLsb', BitVec.getLsbD_append, hi, decide_true, Bool.true_and]
  rw [if_neg (by omega), Nat.add_sub_cancel_left]

theorem extract_offset_big (x : BitVec 10) (lin : Addr) :
    (x ++ lin.extractLsb' 0 22 : Addr).extractLsb' 0 12 = lin.extractLsb' 0 12 := by
  refine BitVec.eq_of_getLsbD_eq fun i hi => ?_
  simp only [BitVec.getLsbD_extractLsb', BitVec.getLsbD_append, Nat.zero_add, hi, decide_true, Bool.true_and]
  simp [show i < 22 by omega]

theorem extract_offset (x : BitVec 20) (y : BitVec 12) : (x ++ y : Addr).extractLsb' 0 12 = y := by
  refine BitVec.eq_of_getLsbD_eq fun i hi => ?_
  simp only [BitVec.getLsbD_extractLsb', BitVec.getLsbD_append, Nat.zero_add, hi, decide_true, Bool.true_and]
  rw [if_pos trivial]

theorem frame_append_offset (x : Addr) : x.extractLsb' 12 20 ++ x.extractLsb' 0 12 = x := by
  refine BitVec.eq_of_getLsbD_eq fun i hi => ?_
  simp only [BitVec.getLsbD_extractLsb', BitVec.getLsbD_append, Nat.zero_add]
  by_cases h : i < 12
  · simp [h]
  · simp only [if_neg h, show i - 12 < 20 by omega, decide_true, Bool.true_and, show 12 + (i - 12) = i by omega]

theorem walkAddr_offset (p : PageCtx) (lin : Addr) (pde pte : DWord) :
    (walkAddr p lin pde pte).extractLsb' 0 12 = lin.extractLsb' 0 12 := by
  unfold walkAddr
  split
  · exact extract_offset_big ..
  · exact extract_offset ..

/-- Frame and offset are the address. -/
theorem walkEntry_phys (p : PageCtx) (lin : Addr) (write : Bool) (pde pte : DWord) :
    TlbEntry.phys (walkEntry p lin write pde pte) lin
      = ⟨walkAddr p lin pde pte, pteDisable p (lastEntry p pde pte), pteThrough p (lastEntry p pde pte)⟩ := by
  unfold TlbEntry.phys walkEntry
  rw [← walkAddr_offset p lin pde pte, frame_append_offset]

/-! ### What a walk answers -/

/-- What a walk finds in a directory entry that maps a 4MB page. -/
theorem found_big (h : mapsBig p pde = true) :
    found p lin write pde pte = ⟨{
      valid := true, page := lin.extractLsb' 12 20, frame := pde.extractLsb' 22 10 ++ lin.extractLsb' 12 10
      writable := pde.getLsbD 1, user := pde.getLsbD 2, dirty := pde.getLsbD 6 || write
      pcd := pteDisable p pde, pwt := pteThrough p pde, big := true }, pdeChunk p lin, pde, none⟩ := by
  simp [found, walkEntry, walkAddr, lastEntry, bothHave, h, extract_frame_big]

/-- What a walk finds in a directory entry and a table entry. -/
theorem found_table (h : mapsBig p pde = false) :
    found p lin write pde pte = ⟨{
      valid := true, page := lin.extractLsb' 12 20, frame := pte.extractLsb' 12 20
      writable := pde.getLsbD 1 && pte.getLsbD 1, user := pde.getLsbD 2 && pte.getLsbD 2
      dirty := pte.getLsbD 6 || write, pcd := pteDisable p pte, pwt := pteThrough p pte, big := false },
      pdeChunk p lin, pde, some (pteChunk p pde lin, pte)⟩ := by
  simp [found, walkEntry, walkAddr, lastEntry, bothHave, h, extract_frame]

section
variable {b1 b2 : Bus} (hr1 : readEntry c (pdeChunk p lin) b = .ok pde b1)
include hr1

theorem walk_noDirectory (h0 : pde.getLsbD 0 = false) :
    walk c p lin write b = .error (.pageFault lin (pageFaultCode p false write)) b1 := by
  show (readEntry c (pdeChunk p lin) >>= _) b = _
  rw [bind_ok hr1, if_pos (by rw [h0]; rfl)]
  rfl

theorem walk_big (h0 : pde.getLsbD 0 = true) (hbig : mapsBig p pde = true) :
    walk c p lin write b = if pageAllows p write (pde.getLsbD 1) (pde.getLsbD 2) then .ok (found p lin write pde pte) b1
      else .error (.pageFault lin (pageFaultCode p true write)) b1 := by
  show (readEntry c (pdeChunk p lin) >>= _) b = _
  rw [bind_ok hr1, if_neg (by rw [h0]; exact Bool.false_ne_true), if_pos (show (p.pse && pde.getLsbD 7) = true from hbig),
    found_big hbig]
  cases ha : pageAllows p write (pde.getLsbD 1) (pde.getLsbD 2)
  · rw [if_pos (by rw [ha]; rfl)]
    rfl
  · rw [if_neg (by rw [ha]; exact Bool.false_ne_true)]
    rfl

theorem walk_table (hr2 : readEntry c (pteChunk p pde lin) b1 = .ok pte b2) (h0 : pde.getLsbD 0 = true)
    (hbig : mapsBig p pde = false) :
    walk c p lin write b = if pte.getLsbD 0 = false then .error (.pageFault lin (pageFaultCode p false write)) b2
      else if pageAllows p write (pde.getLsbD 1 && pte.getLsbD 1) (pde.getLsbD 2 && pte.getLsbD 2) then
        .ok (found p lin write pde pte) b2
      else .error (.pageFault lin (pageFaultCode p true write)) b2 := by
  show (readEntry c (pdeChunk p lin) >>= _) b = _
  rw [bind_ok hr1, if_neg (by rw [h0]; exact Bool.false_ne_true), 
    if_neg (show ¬(p.pse && pde.getLsbD 7) = true from ne_true_of_eq_false hbig), found_table hbig]
  refine (bind_ok hr2).trans ?_
  cases h0' : pte.getLsbD 0
  · rw [if_pos rfl]
    rfl
  · rw [if_neg (show ¬(!true) = true from Bool.false_ne_true)]
    cases ha : pageAllows p write (pde.getLsbD 1 && pte.getLsbD 1) (pde.getLsbD 2 && pte.getLsbD 2)
    · rw [if_pos (by rw [ha]; rfl)]
      rfl
    · rw [if_neg (by rw [ha]; exact Bool.false_ne_true)]
      rfl

end

section
variable (hb : b.memWf = true) (hfree : c.busFree = true) (hs : b.script = []) (hcd : c.cd = true) (hm : c.a20m = false)
include hb hfree hs hcd hm

/-- A WALK reads the directory entry and, unless that maps a 4MB page, the table entry, changes nothing that the processor or a locked
access could see, and answers by what these entries say. -/
theorem walk_spec (hpde : b.word c (pdeAt p lin) = pde) (hpte : b.word c (pteAt pde lin) = pte) :
    ∃ b', Bus.Quiet c b b' ∧ Bus.SameBelow c b b'
      ∧ (¬EntriesPresent p pde pte → walk c p lin write b = .error (.pageFault lin (pageFaultCode p false write)) b')
      ∧ (EntriesPresent p pde pte → pageAllows p write (bothHave p pde pte 1) (bothHave p pde pte 2) = false →
          walk c p lin write b = .error (.pageFault lin (pageFaultCode p true write)) b')
      ∧ (EntriesPresent p pde pte → pageAllows p write (bothHave p pde pte 1) (bothHave p pde pte 2) = true →
          walk c p lin write b = .ok (found p lin write pde pte) b') := by
  obtain ⟨b1, hr1, hq1, hbelow1⟩ := readEntry_spec hb hfree hs hcd hm (a := pdeAt p lin) (aligned_append ..) (p.cr3.getLsbD 4)
    (p.cr3.getLsbD 3)
  rw [hpde] at hr1
  obtain ⟨b2, hr2, hq2, hbelow2⟩ := readEntry_spec (hq1.wf hb) hfree (hq1.control.script.trans hs) hcd hm (a := pteAt pde lin)
    (aligned_append ..) (pteDisable p pde) (pteThrough p pde)
  rw [hq1.word, hpte] at hr2
  cases h0 : pde.getLsbD 0 with
  | false =>
    have habsent : ¬EntriesPresent p pde pte := fun h => absurd h.1 (by rw [h0]; exact Bool.false_ne_true)
    exact ⟨b1, hq1, hbelow1, fun _ => walk_noDirectory hr1 h0, fun h => absurd h habsent, fun h => absurd h habsent⟩
  | true =>
    cases hbig : mapsBig p pde with
    | true =>
      have hboth : ∀ i, bothHave p pde pte i = pde.getLsbD i := fun i => by rw [bothHave, hbig, Bool.true_or, Bool.and_true]
      rw [hboth, hboth, walk_big (pte := pte) hr1 h0 hbig]
      exact ⟨b1, hq1, hbelow1, fun h => absurd ⟨h0, .inl hbig⟩ h, fun _ ha => if_neg (ne_true_of_eq_false ha), fun _ ha => if_pos ha⟩
    | false =>
      have hboth : ∀ i, bothHave p pde pte i = (pde.getLsbD i && pte.getLsbD i) := fun i => by rw [bothHave, hbig, Bool.false_or]
      have hpresent : EntriesPresent p pde pte ↔ pte.getLsbD 0 = true := by
        rw [EntriesPresent, hbig]
        exact ⟨fun h => h.2.resolve_left Bool.false_ne_true, fun h => ⟨h0, .inr h⟩⟩
      rw [hboth, hboth, hpresent, walk_table hr1 hr2 h0 hbig]
      exact ⟨b2, hq1.trans hq2, hbelow1.trans hbelow2, fun h => if_pos (eq_false_of_ne_true h),
        fun h ha => (if_neg (ne_false_of_eq_true h)).trans (if_neg (ne_true_of_eq_false ha)),
        fun h ha => (if_neg (ne_false_of_eq_true h)).trans (if_pos ha)⟩

end

/-! ### What a walk sets -/

/-- A translation entered in the TLB. -/
def Bus.enterTlb (b : Bus) (lin : Addr) (e : TlbEntry) : Bus :=
  { b with tlb := tlbPut b.tlb (tlbIndex (tlbSet lin) (tlbVictim b.tlb lin b.draws)) e, draws := b.draws + 1 }

/-- The TLB then holds the translation. -/
theorem tlbFind_enterTlb (b : Bus) {e : TlbEntry} (hv : e.valid = true) (hp : e.page = lin.extractLsb' 12 20) :
    ∃ w, tlbFind (b.enterTlb lin e).tlb lin = some w ∧ tlbAt (b.enterTlb lin e).tlb (tlbIndex (tlbSet lin) w) = e := by
  refine ⟨tlbVictim b.tlb lin b.draws, tlbFind_put hv hp ?_, (tlbAt_put ..).trans (if_pos rfl)⟩
  unfold tlbVictim
  cases tlbFind b.tlb lin
  · exact .inl rfl
  · exact .inr rfl

/-- The bits that a walk sets in the last entry: A, and D on a write. -/
def lastBits (write : Bool) : DWord := if write then 0x60#32 else 0x20#32

/-- A set in the directory entry, then A, and D on a write, in the table entry; or all of it in the directory entry of a 4MB page. -/
def setWalkBits (c : MemCtx) (p : PageCtx) (lin : Addr) (write : Bool) (pde pte : DWord) : BM Unit :=
  if mapsBig p pde then setEntryBits c (pdeChunk p lin) pde (lastBits write)
  else do
    setEntryBits c (pdeChunk p lin) pde 0x20#32
    setEntryBits c (pteChunk p pde lin) pte (lastBits write)

/-- The bits of a walk set, and its translation entered. -/
theorem commitWalk_found (h : setWalkBits c p lin write pde pte b = .ok () b') :
    commitWalk c lin write (found p lin write pde pte) b = .ok () (b'.enterTlb lin (walkEntry p lin write pde pte)) := by
  unfold setWalkBits at h
  unfold commitWalk found
  cases hbig : mapsBig p pde with
  | true =>
    rw [hbig, if_pos rfl] at h
    rw [if_pos rfl]
    exact bind_ok h
  | false =>
    rw [hbig, if_neg Bool.false_ne_true] at h
    obtain ⟨⟨⟩, b1, h1, h2⟩ := bind_eq_ok h
    rw [if_neg Bool.false_ne_true]
    exact (bind_ok h1).trans (bind_ok h2)

/-- A translation by a walk that finds the page and sets its bits. -/
theorem translateByWalk_found {b1 b2 : Bus} (hw : walk c p lin write b = .ok (found p lin write pde pte) b1)
    (h : setWalkBits c p lin write pde pte b1 = .ok () b2) :
    translateByWalk c p lin write b
      = .ok ⟨walkAddr p lin pde pte, pteDisable p (lastEntry p pde pte), pteThrough p (lastEntry p pde pte)⟩
          (b2.enterTlb lin (walkEntry p lin write pde pte)) := by
  unfold translateByWalk
  rw [bind_ok hw, bind_ok (commitWalk_found h), pure_run, ← walkEntry_phys p lin write]
  rfl

theorem and_accessed_iff (v : DWord) : v &&& 0x20#32 = 0x20#32 ↔ v.getLsbD 5 = true := by
  rw [show 0x20#32 = BitVec.twoPow 32 5 from rfl, BitVec.and_twoPow]
  cases v.getLsbD 5 <;> decide

/-- With A, and D for a write, set already nothing is done. -/
theorem setWalkBits_set (h5 : pde.getLsbD 5 = true) (hlast : lastEntry p pde pte &&& lastBits write = lastBits write) :
    setWalkBits c p lin write pde pte b = .ok () b := by
  unfold setWalkBits
  unfold lastEntry at hlast
  split at hlast
  · rename_i hbig
    rw [if_pos hbig, setEntryBits_set _ hlast]
  · rename_i hbig
    rw [if_neg hbig, bind_ok (setEntryBits_set _ ((and_accessed_iff pde).2 h5)), setEntryBits_set _ hlast]

/-- Where the last entry of a walk stands. -/
def lastAt (p : PageCtx) (pde : DWord) (lin : Addr) : Addr := if mapsBig p pde then pdeAt p lin else pteAt pde lin

/-- What setting the bits of a walk leaves: the bits in the entries, every other byte as before, and on a 32-bit bus a pair of locked
cycles for each entry that needed it, the directory's first. -/
structure Bus.WalkSet (c : MemCtx) (p : PageCtx) (lin : Addr) (write : Bool) (b : Bus) (pde pte : DWord) (b' : Bus) : Prop where
  last : b'.word c (lastAt p pde lin) = lastEntry p pde pte ||| lastBits write
  directory : pdeAt p lin ≠ lastAt p pde lin → b'.word c (pdeAt p lin) = pde ||| 0x20#32
  others : ∀ x, (∀ i, i < 4 → x ≠ pdeAt p lin + BitVec.ofNat 32 i ∧ x ≠ lastAt p pde lin + BitVec.ofNat 32 i) →
    b'.view c x = b.view c x
  cycles : c.plat.bus8 = [] → c.plat.bus16 = [] →
    b'.lastUpdates ((if lastEntry p pde pte &&& lastBits write = lastBits write then [] else [memDword (lastAt p pde lin)])
      ++ (if mapsBig p pde = false ∧ pde.getLsbD 5 = false then [memDword (pdeAt p lin)] else []))

theorem aligned_pdeAt (p : PageCtx) (lin : Addr) : (pdeAt p lin).toNat % 4 = 0 := aligned_append ..
theorem aligned_pteAt (pde : DWord) (lin : Addr) : (pteAt pde lin).toNat % 4 = 0 := aligned_append ..

theorem accessed_or_lastBits (v : DWord) (write : Bool) : v ||| 0x20#32 ||| lastBits write = v ||| lastBits write := by
  have h : 0x20#32 ||| lastBits write = lastBits write := by cases write <;> rfl
  rw [BitVec.or_assoc, h]

theorem accessed_of_lastBits {v : DWord} (h : v &&& lastBits write = lastBits write) : v &&& 0x20#32 = 0x20#32 := by
  have hbits : lastBits write &&& 0x20#32 = 0x20#32 := by cases write <;> rfl
  calc v &&& 0x20#32 = (v &&& lastBits write) &&& 0x20#32 := by rw [BitVec.and_assoc, hbits]
    _ = 0x20#32 := by rw [h, hbits]

section
variable (hb : b.memWf = true) (hfree : c.busFree = true) (hs : b.script = []) (hm : c.a20m = false) (hu : b.urgent = none)
  (hclean : ∀ i, i < 4 → b.CleanByte c (pdeAt p lin + BitVec.ofNat 32 i))
include hb hfree hs hm hu hclean

/-- The bits of the one entry of a 4MB page. -/
theorem setWalkBits_big (hpde : b.word c (pdeAt p lin) = pde) (hbig : mapsBig p pde = true) :
    ∃ b', setWalkBits c p lin write pde pte b = .ok () b' ∧ Bus.SameControl b b' ∧ Bus.WalkSet c p lin write b pde pte b' := by
  obtain ⟨b', hr, he, -, ht⟩ := setEntryBits_spec (v := pde) (bits := lastBits write) hb hfree hs hm hu (aligned_pdeAt p lin) hclean
    (p.cr3.getLsbD 4) (p.cr3.getLsbD 3) fun h => by rw [hpde, or_eq_of_and_eq h]
  have hat : lastAt p pde lin = pdeAt p lin := if_pos hbig
  have hlast : lastEntry p pde pte = pde := if_pos hbig
  refine ⟨b', ?_, he.control, ?_, fun hne => absurd hat.symm hne, fun x hx => he.others x fun i hi => (hx i hi).1, fun h8 h16 => ?_⟩
  · unfold setWalkBits
    rw [if_pos hbig]
    exact hr
  · rw [hat, hlast, he.word, hpde]
  · rw [hat, hlast, hbig, if_neg (show ¬(true = false ∧ pde.getLsbD 5 = false) from fun h => Bool.false_ne_true h.1.symm)]
    exact ht h8 h16 [] (.inl rfl)

/-- The bits of the directory entry and then those of the table entry, which may be the same doubleword. -/
theorem setWalkBits_table (hpde : b.word c (pdeAt p lin) = pde) (hpte : b.word c (pteAt pde lin) = pte)
    (hbig : mapsBig p pde = false) (hclean' : ∀ i, i < 4 → b.CleanByte c (pteAt pde lin + BitVec.ofNat 32 i)) :
    ∃ b', setWalkBits c p lin write pde pte b = .ok () b' ∧ Bus.SameControl b b' ∧ Bus.WalkSet c p lin write b pde pte b' := by
  obtain ⟨b1, hr1, he1, hwb1, ht1⟩ := setEntryBits_spec (v := pde) (bits := 0x20#32) hb hfree hs hm hu (aligned_pdeAt p lin) hclean
    (p.cr3.getLsbD 4) (p.cr3.getLsbD 3) fun h => by rw [hpde, or_eq_of_and_eq h]
  have hword1 : b1.word c (pteAt pde lin) ||| lastBits write = pte ||| lastBits write := by
    by_cases hat : pteAt pde lin = pdeAt p lin
    · rw [hat, he1.word, accessed_or_lastBits, ← hpte, hat]
    · rw [he1.word_ne (aligned_pdeAt p lin) (aligned_pteAt pde lin) hat, hpte]
  have hsame : pte &&& lastBits write = lastBits write → b1.word c (pteAt pde lin) = pte := by
    intro h
    by_cases hat : pteAt pde lin = pdeAt p lin
    · rw [hat, he1.word, ← hat, hpte, or_eq_of_and_eq (accessed_of_lastBits h)]
    · rw [he1.word_ne (aligned_pdeAt p lin) (aligned_pteAt pde lin) hat, hpte]
  obtain ⟨b2, hr2, he2, -, ht2⟩ := setEntryBits_spec (v := pte) (bits := lastBits write) he1.wf hfree
    (he1.control.script.trans hs) hm ((Bus.urgent_congr he1.control.queue).trans hu) (aligned_pteAt pde lin)
    (fun i hi => he1.clean _ (hclean' i hi)) (pteDisable p pde) (pteThrough p pde)
    fun h => by rw [hsame h, or_eq_of_and_eq h]
  have hat : lastAt p pde lin = pteAt pde lin := if_neg (ne_true_of_eq_false hbig)
  have hlast : lastEntry p pde pte = pte := if_neg (ne_true_of_eq_false hbig)
  refine ⟨b2, ?_, he1.control.trans he2.control, ?_, fun hne => ?_, fun x hx => ?_, fun h8 h16 => ?_⟩
  · unfold setWalkBits
    rw [if_neg (ne_true_of_eq_false hbig)]
    exact (bind_ok hr1).trans hr2
  · rw [hat, hlast, he2.word, hword1]
  · rw [hat] at hne
    rw [he2.word_ne (aligned_pteAt pde lin) (aligned_pdeAt p lin) hne, he1.word, hpde]
  · rw [hat] at hx
    rw [he2.others x fun i hi => (hx i hi).2, he1.others x fun i hi => (hx i hi).1]
  · rw [hat, hlast]
    refine ht2 h8 h16 _ ?_
    have h1 := ht1 h8 h16 [] (.inl rfl)
    cases h5 : pde.getLsbD 5 with
    | true => exact .inl (if_neg fun h => Bool.false_ne_true h.2.symm)
    | false =>
      have hclear : pde &&& 0x20#32 ≠ 0x20#32 := fun h => Bool.false_ne_true (h5.symm.trans ((and_accessed_iff pde).1 h))
      rw [if_neg hclear] at h1
      rw [if_pos ⟨hbig, rfl⟩]
      exact .inr ⟨hwb1 hclear, h1⟩

end

theorem word_lastAt (hpde : b.word c (pdeAt p lin) = pde) (hpte : b.word c (pteAt pde lin) = pte) :
    b.word c (lastAt p pde lin) = lastEntry p pde pte := by
  unfold lastAt lastEntry
  split
  · exact hpde
  · exact hpte

/-- SETTING THE BITS of a walk, where no line hides an entry from the bus and no snooped line waits. -/
theorem setWalkBits_spec (hb : b.memWf = true) (hfree : c.busFree = true) (hs : b.script = []) (hm : c.a20m = false)
    (hu : b.urgent = none) (hpde : b.word c (pdeAt p lin) = pde) (hpte : b.word c (pteAt pde lin) = pte)
    (hclean : ∀ i, i < 4 → b.CleanByte c (pdeAt p lin + BitVec.ofNat 32 i))
    (hclean' : ∀ i, i < 4 → b.CleanByte c (lastAt p pde lin + BitVec.ofNat 32 i)) :
    ∃ b', setWalkBits c p lin write pde pte b = .ok () b' ∧ Bus.SameControl b b' ∧ Bus.WalkSet c p lin write b pde pte b' := by
  cases hbig : mapsBig p pde with
  | true => exact setWalkBits_big hb hfree hs hm hu hclean hpde hbig
  | false =>
    rw [lastAt, if_neg (ne_true_of_eq_false hbig)] at hclean'
    exact setWalkBits_table hb hfree hs hm hu hclean hpde hpte hbig hclean'

/-! ### The translation -/

theorem translateByWalk_error {r : BusStop} (h : walk c p lin write b = .error r b') :
    translateByWalk c p lin write b = .error r b' := bind_error h

/-- Settles O56: the walk answers by the entries that stand in memory, setting their bits changes these entries only, and the TLB then
holds the translation. -/
theorem pageWalk : Obligations.PageWalk := by
  intro c p lin write b hp hhit hcd hfree hb hs hm pdeAt' pde pteAt' pte big entryAt entry present writable user bits pa pcd pwt held
    entered
  have hentry : entry = lastEntry p pde pte := word_lastAt (p := p) rfl rfl
  have hpcd : pcd = pteDisable p (lastEntry p pde pte) := by
    rw [pteDisable_eq, ← hentry]
  have hpwt : pwt = pteThrough p (lastEntry p pde pte) := by
    rw [pteThrough_eq, ← hentry]
  have hheld : held = walkEntry p lin write pde pte := by
    show (⟨true, _, _, writable, user, entry.getLsbD 6 || write, pcd, pwt, big⟩ : TlbEntry) = _
    rw [hpcd, hpwt, hentry]
    rfl
  have htranslate : translate c p lin write b = translateByWalk c p lin write b := by
    rcases hhit with hmiss | ⟨w, hfind, hwrite, hallows, hclean⟩
    · exact translate_miss hp hmiss
    · exact translate_hit_clean hp hfind hwrite (by rw [hwrite]; exact hallows) hclean
  have hentered : ∀ b' : Bus, entered (b'.enterTlb lin (walkEntry p lin write pde pte)).tlb := by
    intro b'
    show ∃ w, _ ∧ _ = held
    rw [hheld]
    exact tlbFind_enterTlb b' rfl rfl
  obtain ⟨b1, hq, hbelow, habsent, hdenied, hfound⟩ := walk_spec (p := p) (lin := lin) (write := write) hb hfree hs hcd hm rfl rfl
  rw [htranslate, hpcd, hpwt, hentry]
  refine ⟨fun h => ⟨b1, hq, translateByWalk_error (habsent h)⟩, fun h ha => ⟨b1, hq, translateByWalk_error (hdenied h ha)⟩,
    fun h ha h5 hset => ?_, fun h ha hu hcl => ?_⟩
  · exact ⟨_, translateByWalk_found (hfound h ha) (setWalkBits_set h5 hset), hq.view, hentered b1⟩
  · have hword : ∀ x, b1.word c x = b.word c x := hq.word
    have hclean : ∀ e : Addr, (∀ k : BitVec 2, b.CleanByte c (e + k.setWidth 32)) →
        ∀ i, i < 4 → b1.CleanByte c (e + BitVec.ofNat 32 i) := fun e h =>
      forall_lane (P := fun k => b1.CleanByte c (e + k)) |>.1 fun k => (h k).congr hbelow (hq.view _)
    obtain ⟨b2, hset, -, hdone⟩ := setWalkBits_spec (write := write) (hq.wf hb) hfree (hq.control.script.trans hs) hm
      ((Bus.urgent_congr hq.control.queue).trans hu) (hword (pdeAt p lin)) (hword (pteAt pde lin))
      (hclean _ fun k => (hcl k).1) (hclean _ fun k => (hcl k).2)
    refine ⟨_, translateByWalk_found (hfound h ha) hset, hentered b2, hdone.last, hdone.directory, fun x hx => ?_, hdone.cycles⟩
    have hx' := forall_lane (P := fun k => x ≠ pdeAt p lin + k ∧ x ≠ lastAt p pde lin + k) |>.1 hx
    exact (hdone.others x hx').trans (hq.view x)

end Sys2Proof.Machine
end

section
/-! SUPPORT. Reading the parts of an instruction: which bytes a reader takes, and what it gives (30_encoding.md R223 to R229). -/

namespace Sys2Proof

/-! ### Readers -/

section
variable {α β : Type} {p : List Byte → Dec α} {q : α → List Byte → Dec β} {f : α → β} {bs bs' : List Byte} {a : α} {b : β}

/-- `p` reads `a` from the bytes `bs`, whatever follows them, and asks for more while they are not all there. -/
structure Reads (p : List Byte → Dec α) (bs : List Byte) (a : α) : Prop where
  whole : ∀ rest, p (bs ++ rest) = .ok a rest
  part : ∀ k, k < bs.length → p (bs.take k) = .more

theorem Reads.nothing : Reads (.ok a) [] a := ⟨fun _ => rfl, nofun⟩

/-- One reader after the other takes the bytes of both. -/
theorem Reads.bind (hp : Reads p bs a) (hq : Reads (q a) bs' b) : Reads (fun l => (p l).bind q) (bs ++ bs') b where
  whole rest := by rw [List.append_assoc, hp.whole]; exact hq.whole rest
  part k hk := by
    rcases Nat.lt_or_ge k bs.length with h | h
    · rw [List.take_append_of_le_length h.le, hp.part k h]; rfl
    · obtain ⟨j, rfl⟩ := Nat.exists_eq_add_of_le h
      rw [List.length_append] at hk
      rw [List.take_length_add_append, hp.whole]
      exact hq.part j (by omega)

theorem Reads.map (hp : Reads p bs a) (e : f a = b) : Reads (fun l => (p l).map f) bs b := by
  subst e
  have h := hp.bind (q := fun a rest => .ok (f a) rest) .nothing
  rwa [List.append_nil] at h

/-! ### What a reader can give -/

/-- Whatever `x` gives has the property `P`. -/
def Dec.All (P : α → Prop) (x : Dec α) : Prop := ∀ a rest, x = .ok a rest → P a

variable {P : α → Prop} {Q : β → Prop} {x : Dec α}

@[simp] theorem Dec.all_ok {rest : List Byte} : (Dec.ok a rest).All P ↔ P a :=
  ⟨fun h => h a rest rfl, fun h _ _ e => by injection e with e; exact e ▸ h⟩

@[simp] theorem Dec.all_illegal : (Dec.illegal : Dec α).All P := nofun
@[simp] theorem Dec.all_base386 {t : Bool} {op : Byte} {m : Option Byte} : (Dec.base386 t op m : Dec α).All P := nofun
@[simp] theorem Dec.all_extra {e : ExtraPrefix} : (Dec.extra e : Dec α).All P := nofun

theorem Dec.All.bind (h : x.All P) (k : ∀ a rest, P a → (q a rest).All Q) : (x.bind q).All Q := by
  cases x with
  | ok a rest => exact k a rest (h a rest rfl)
  | _ => nofun

theorem Dec.All.map (h : x.All P) (k : ∀ a, P a → Q (f a)) : (x.map f).All Q :=
  h.bind fun a _ ha => Dec.all_ok.2 (k a ha)

@[simp] theorem Dec.all_true : x.All fun _ => True := fun _ _ _ => trivial

@[simp] theorem Dec.all_map : (x.map f).All Q ↔ x.All fun a => Q (f a) :=
  ⟨fun h a rest e => h (f a) rest (by rw [e]; rfl), fun h => h.map fun _ ha => ha⟩

end

/-! ### Register numbers and fields -/

@[simp] theorem Reg.ofBits_toBits (r : Reg) : Reg.ofBits r.toBits = r := by cases r <;> rfl
@[simp] theorem Reg8.ofBits_toBits (r : Reg8) : Reg8.ofBits r.toBits = r := by cases r <;> rfl
@[simp] theorem Base16.ofBits_toBits (r : Base16) : Base16.ofBits r.toBits = r := by cases r <;> rfl

@[simp] theorem modField_mkByte (m : BitVec 2) (r b : BitVec 3) : modField (mkByte m r b) = m := by
  revert m r b; decide
@[simp] theorem regField_mkByte (m : BitVec 2) (r b : BitVec 3) : regField (mkByte m r b) = r := by
  revert m r b; decide
@[simp] theorem rmField_mkByte (m : BitVec 2) (r b : BitVec 3) : rmField (mkByte m r b) = b := by
  revert m r b; decide

/-- The opcode's five upper bits, where the lower three are a register number. -/
theorem opcodeRow_mkByte (m : BitVec 2) (r b : BitVec 3) : (mkByte m r b).extractLsb' 3 5 = m ++ r := by
  revert m r b; decide

/-! ### Bytes, words and doublewords -/

theorem reads_dec8 (v : Byte) : Reads dec8 [v] v where
  whole _ := rfl
  part k hk := by obtain rfl : k = 0 := Nat.lt_one_iff.1 hk; rfl

theorem reads_dec16 (v : BitVec 16) : Reads dec16 (enc16 v) v where
  whole rest := by
    have h : v.extractLsb' 8 8 ++ v.extractLsb' 0 8 = v := by
      ext i hi
      simp only [BitVec.getElem_append, BitVec.getElem_extractLsb']
      split <;> rw [BitVec.getLsbD_eq_getElem (by omega)] <;> congr 1 <;> omega
    exact congrArg (Dec.ok · rest) h
  part k hk := by
    match k, hk with
    | 0, _ | 1, _ => rfl

theorem reads_dec32 (v : BitVec 32) : Reads dec32 (enc32 v) v where
  whole rest := by
    have h : v.extractLsb' 24 8 ++ v.extractLsb' 16 8 ++ v.extractLsb' 8 8 ++ v.extractLsb' 0 8 = v := by
      ext i hi
      simp only [BitVec.getElem_append, BitVec.getElem_extractLsb']
      split_ifs <;> rw [BitVec.getLsbD_eq_getElem (by omega)] <;> congr 1 <;> omega
    exact congrArg (Dec.ok · rest) h
  part k hk := by
    match k, hk with
    | 0, _ | 1, _ | 2, _ | 3, _ => rfl

theorem reads_decImm (v : Imm) : Reads (decImm v.size) (encImm v) v := by
  cases v with
  | i16 v => exact (reads_dec16 v).map rfl
  | i32 v => exact (reads_dec32 v).map rfl

theorem reads_decOffset (o : Offset) : Reads (decOffset o.size) (encOffset o) o := by
  cases o with
  | o16 d => exact (reads_dec16 d).map rfl
  | o32 d => exact (reads_dec32 d).map rfl

theorem decImm_size (os : OpSize) (bs : List Byte) : (decImm os bs).All fun v => v.size = os := by
  cases os <;> exact Dec.all_true.map fun _ _ => rfl

theorem decOffset_size (as : AddrSize) (bs : List Byte) : (decOffset as bs).All fun o => o.size = as := by
  cases as <;> exact Dec.all_true.map fun _ _ => rfl

/-! ### Effective addresses -/

theorem reads_decDisp16 (d : Disp 16) : Reads (decDisp16 d.modBits) (encDisp16 d) d := by
  cases d with
  | none => exact .nothing
  | short d => exact (reads_dec8 d).map rfl
  | full d => exact (reads_dec16 d).map rfl

theorem reads_decDisp32 (d : Disp 32) : Reads (decDisp32 d.modBits) (encDisp32 d) d := by
  cases d with
  | none => exact .nothing
  | short d => exact (reads_dec8 d).map rfl
  | full d => exact (reads_dec32 d).map rfl

theorem Disp.modBits_ne_three {n : Nat} (d : Disp n) : d.modBits ≠ 3 := by cases d <;> simp [Disp.modBits]

theorem Disp.modBits_eq_zero {n : Nat} {d : Disp n} : d.modBits = 0 ↔ d = .none := by cases d <;> simp [Disp.modBits]

/-! The base registers whose place in the encoding means something else, and the forms without an encoding. -/

theorem Base16.toBits_eq_six {b : Base16} : b.toBits = 6 ↔ b = .bp := by cases b <;> simp [Base16.toBits]
theorem Reg.toBits_eq_four {b : Reg} : b.toBits = 4 ↔ b = .esp := by cases b <;> simp [Reg.toBits]
theorem Reg.toBits_eq_five {b : Reg} : b.toBits = 5 ↔ b = .ebp := by cases b <;> simp [Reg.toBits]

theorem Base16.ofBits_eq_bp {b : BitVec 3} : Base16.ofBits b = .bp ↔ b = 6 := by revert b; decide
theorem Reg.ofBits_eq_esp {b : BitVec 3} : Reg.ofBits b = .esp ↔ b = 4 := by revert b; decide
theorem Reg.ofBits_eq_ebp {b : BitVec 3} : Reg.ofBits b = .ebp ↔ b = 5 := by revert b; decide

theorem Ea.encodable_base16 {b : Base16} {d : Disp 16} : (Ea.base16 b d).encodable = true ↔ ¬(d = .none ∧ b = .bp) := by
  cases b <;> cases d <;> simp [Ea.encodable]

theorem Ea.encodable_base32 {b : Reg} {d : Disp 32} :
    (Ea.base32 b d).encodable = true ↔ b ≠ .esp ∧ ¬(d = .none ∧ b = .ebp) := by
  cases b <;> cases d <;> simp [Ea.encodable]

theorem Ea.encodable_sib {s : BitVec 2} {i b : Reg} {d : Disp 32} :
    (Ea.sib s i b d).encodable = true ↔ ¬(d = .none ∧ b = .ebp) := by
  cases b <;> cases d <;> simp [Ea.encodable]

/-- mod = 00 without a displacement, any other mod with one. -/
theorem decDisp16_none (md : BitVec 2) (bs : List Byte) : (decDisp16 md bs).All fun d => d = .none → md = 0 := by
  unfold decDisp16
  split_ifs with h0
  · simpa
  · exact Dec.all_true.map fun _ _ => nofun
  · exact Dec.all_true.map fun _ _ => nofun

theorem decDisp32_none (md : BitVec 2) (bs : List Byte) : (decDisp32 md bs).All fun d => d = .none → md = 0 := by
  unfold decDisp32
  split_ifs with h0
  · simpa
  · exact Dec.all_true.map fun _ _ => nofun
  · exact Dec.all_true.map fun _ _ => nofun

/-- The reader of an effective address of a size. -/
def decEa (as : AddrSize) (md : BitVec 2) (rm : BitVec 3) (bs : List Byte) : Dec Ea :=
  match as with
  | .a16 => decEa16 md rm bs
  | .a32 => decEa32 md rm bs

theorem decMem_eq (c : DecodeCtx) (md : BitVec 2) (rm : BitVec 3) (bs : List Byte) :
    decMem c md rm bs = (decEa c.as md rm bs).map fun ea => ⟨c.seg.getD ea.defaultSeg, ea⟩ := by
  unfold decMem decEa
  cases c.as <;> rfl

theorem reads_decEa16_base {b : Base16} {d : Disp 16} (h : (Ea.base16 b d).encodable = true) :
    Reads (decEa16 d.modBits b.toBits) (encDisp16 d) (.base16 b d) := by
  have hne : ¬(d.modBits = 0 ∧ b.toBits = 6) := by
    rw [Disp.modBits_eq_zero, Base16.toBits_eq_six]
    exact Ea.encodable_base16.1 h
  have he : decEa16 d.modBits b.toBits = fun bs => (decDisp16 d.modBits bs).map (.base16 (Base16.ofBits b.toBits)) :=
    funext fun _ => if_neg hne
  rw [he]
  exact (reads_decDisp16 d).map (by rw [b.ofBits_toBits])

theorem reads_decEa32_base {b : Reg} {d : Disp 32} (h : (Ea.base32 b d).encodable = true) :
    Reads (decEa32 d.modBits b.toBits) (encDisp32 d) (.base32 b d) := by
  obtain ⟨hesp, hebp⟩ := Ea.encodable_base32.1 h
  have hsib : b.toBits ≠ 4 := fun hb => hesp (Reg.toBits_eq_four.1 hb)
  have hne : ¬(d.modBits = 0 ∧ b.toBits = 5) := by
    rwa [Disp.modBits_eq_zero, Reg.toBits_eq_five]
  have he : decEa32 d.modBits b.toBits = fun bs => (decDisp32 d.modBits bs).map (.base32 (Reg.ofBits b.toBits)) :=
    funext fun _ => (if_neg hsib).trans (if_neg hne)
  rw [he]
  exact (reads_decDisp32 d).map (by rw [b.ofBits_toBits])

theorem reads_decSib_base {s : BitVec 2} {i b : Reg} {d : Disp 32} (h : (Ea.sib s i b d).encodable = true) :
    Reads (decSib d.modBits) (mkByte s i.toBits b.toBits :: encDisp32 d) (.sib s i b d) := by
  have hne : ¬(d.modBits = 0 ∧ b.toBits = 5) := by
    rw [Disp.modBits_eq_zero, Reg.toBits_eq_five]
    exact Ea.encodable_sib.1 h
  refine (reads_dec8 (mkByte s i.toBits b.toBits)).bind ?_
  simp only [modField_mkByte, regField_mkByte, rmField_mkByte, Reg.ofBits_toBits, if_neg hne]
  exact (reads_decDisp32 d).map rfl

theorem reads_decSib_abs (s : BitVec 2) (i : Reg) (d : BitVec 32) :
    Reads (decSib 0) (mkByte s i.toBits 5 :: enc32 d) (.sibAbs s i d) := by
  refine (reads_dec8 (mkByte s i.toBits 5)).bind ?_
  simp only [modField_mkByte, regField_mkByte, rmField_mkByte, Reg.ofBits_toBits, and_self, if_true]
  exact (reads_dec32 d).map rfl

/-- An effective address is a ModR/M byte, whose mod field is not that of a register, and the bytes it is read from. -/
theorem encEa_reads (r : BitVec 3) {ea : Ea} (h : ea.encodable = true) :
    ∃ md rm bs, encEa r ea = mkByte md r rm :: bs ∧ md ≠ 3 ∧ Reads (decEa ea.size md rm) bs ea := by
  cases ea with
  | base16 b d => exact ⟨_, _, _, rfl, d.modBits_ne_three, reads_decEa16_base h⟩
  | abs16 d => exact ⟨0, 6, _, rfl, by decide, (reads_dec16 d).map rfl⟩
  | base32 b d => exact ⟨_, _, _, rfl, d.modBits_ne_three, reads_decEa32_base h⟩
  | abs32 d => exact ⟨0, 5, _, rfl, by decide, (reads_dec32 d).map rfl⟩
  | sib s i b d => exact ⟨_, 4, _, rfl, d.modBits_ne_three, reads_decSib_base h⟩
  | sibAbs s i d => exact ⟨0, 4, _, rfl, by decide, reads_decSib_abs s i d⟩

theorem decSib_wf (md : BitVec 2) (bs : List Byte) : (decSib md bs).All fun ea => ea.encodable = true ∧ ea.size = .a32 := by
  refine Dec.all_true.bind fun s rest _ => ?_
  split_ifs with h
  · exact Dec.all_true.map fun _ _ => ⟨rfl, rfl⟩
  · exact (decDisp32_none md rest).map fun d hd =>
      ⟨Ea.encodable_sib.2 fun ⟨h0, hb⟩ => h ⟨hd h0, Reg.ofBits_eq_ebp.1 hb⟩, rfl⟩

theorem decEa_wf (as : AddrSize) (md : BitVec 2) (rm : BitVec 3) (bs : List Byte) :
    (decEa as md rm bs).All fun ea => ea.encodable = true ∧ ea.size = as := by
  cases as with
  | a16 =>
    show (decEa16 md rm bs).All _
    unfold decEa16
    split_ifs with h
    · exact Dec.all_true.map fun _ _ => ⟨rfl, rfl⟩
    · exact (decDisp16_none md bs).map fun d hd =>
        ⟨Ea.encodable_base16.2 fun ⟨h0, hb⟩ => h ⟨hd h0, Base16.ofBits_eq_bp.1 hb⟩, rfl⟩
  | a32 =>
    show (decEa32 md rm bs).All _
    unfold decEa32
    split_ifs with hs h
    · exact decSib_wf md bs
    · exact Dec.all_true.map fun _ _ => ⟨rfl, rfl⟩
    · exact (decDisp32_none md bs).map fun d hd =>
        ⟨Ea.encodable_base32.2 ⟨fun hb => hs (Reg.ofBits_eq_esp.1 hb), fun ⟨h0, hb⟩ => h ⟨hd h0, Reg.ofBits_eq_ebp.1 hb⟩⟩, rfl⟩

/-! ### Operands -/

section
variable {c : DecodeCtx}

theorem MemOp.wf_iff {m : MemOp} :
    m.wf c = true ↔ m.ea.encodable = true ∧ m.ea.size = c.as ∧ m.seg = c.seg.getD m.ea.defaultSeg := by
  simp [MemOp.wf, and_assoc]

theorem Moffs.wf_iff {m : Moffs} : m.wf c = true ↔ m.off.size = c.as ∧ m.seg = c.seg.getD .ds := by
  simp [Moffs.wf]

/-- A memory operand is a ModR/M byte of memory and the bytes it is read from. -/
theorem MemOp.reads {m : MemOp} (r : BitVec 3) (h : m.wf c = true) :
    ∃ md rm bs, encEa r m.ea = mkByte md r rm :: bs ∧ md ≠ 3 ∧ Reads (decMem c md rm) bs m := by
  obtain ⟨he, hsize, hseg⟩ := MemOp.wf_iff.1 h
  obtain ⟨md, rm, bs, hbytes, hmd, hr⟩ := encEa_reads r he
  refine ⟨md, rm, bs, hbytes, hmd, ?_⟩
  rw [hsize] at hr
  rw [funext (decMem_eq c md rm)]
  exact hr.map (by rw [← hseg])

theorem decMem_wf (md : BitVec 2) (rm : BitVec 3) (bs : List Byte) : (decMem c md rm bs).All fun m => m.wf c = true := by
  rw [decMem_eq]
  exact Dec.All.map (decEa_wf c.as md rm bs) fun _ ⟨he, hsize⟩ => MemOp.wf_iff.2 ⟨he, hsize, rfl⟩

theorem reads_decModRm {ρ : Type} {bits : ρ → BitVec 3} {reg : BitVec 3 → ρ} (hreg : ∀ q, reg (bits q) = q) (r : BitVec 3)
    {rm : Rm ρ} (h : rm.wf c = true) : Reads (decModRm c reg) (encRm bits r rm) (r, rm) := by
  cases rm with
  | reg q =>
    refine (reads_dec8 (mkByte 3 r (bits q))).bind (bs' := []) ?_
    simp only [modField_mkByte, regField_mkByte, rmField_mkByte, hreg, if_true]
    exact .nothing
  | mem m =>
    obtain ⟨md, b, bs, hbytes, hmd, hr⟩ := m.reads r h
    show Reads _ (encEa r m.ea) _
    rw [hbytes]
    refine (reads_dec8 (mkByte md r b)).bind ?_
    simp only [modField_mkByte, regField_mkByte, rmField_mkByte, if_neg hmd]
    exact hr.map rfl

theorem decModRm_wf {ρ : Type} (reg : BitVec 3 → ρ) (bs : List Byte) : (decModRm c reg bs).All fun p => p.2.wf c = true := by
  refine Dec.all_true.bind fun b rest _ => ?_
  split_ifs
  · exact Dec.all_ok.2 rfl
  · exact Dec.All.map (decMem_wf _ _ rest) fun _ h => h

theorem reads_decMoffs {m : Moffs} (h : m.wf c = true) : Reads (decMoffs c) (encOffset m.off) m := by
  obtain ⟨hsize, hseg⟩ := Moffs.wf_iff.1 h
  have hr := reads_decOffset m.off
  rw [hsize] at hr
  exact hr.map (by rw [← hseg])

theorem decMoffs_wf (bs : List Byte) : (decMoffs c bs).All fun m => m.wf c = true :=
  (decOffset_size c.as bs).map fun _ h => Moffs.wf_iff.2 ⟨h, rfl⟩

end

end Sys2Proof
end

section
/-! SUPPORT. Decoding and encoding agree (O1, O2), and a few words of the opcode table (O3). -/

namespace Sys2Proof

variable {c : DecodeCtx} {op : Byte} {bs : List Byte} {i : Instr}

/-! ### Encoded instructions are read back -/

theorem reads_decode1 (h : Reads (decode1 c op) bs i) : Reads (decode c) (op :: bs) i := (reads_dec8 op).bind h

theorem reads_decode0F (h : Reads (decode0F c op) bs i) : Reads (decode c) (0x0F :: op :: bs) i :=
  reads_decode1 (show Reads (fun l => (dec8 l).bind (decode0F c)) ([op] ++ bs) i from (reads_dec8 op).bind h)

/-! The opcodes with a register number in their lower three bits. -/

theorem decode0F_bswap (r : BitVec 3) : decode0F c (mkByte 3 1 r) = .ok (.bswap c.os (Reg.ofBits r)) := by
  funext bs
  simp [decode0F, opcodeRow_mkByte]

theorem decode1_xchgEaxR (r : BitVec 3) : decode1 c (mkByte 2 2 r) = .ok (.xchgEaxR c.os (Reg.ofBits r)) := by
  funext bs
  simp [decode1, opcodeRow_mkByte]

theorem decode1_movR8Imm8 (r : BitVec 3) :
    decode1 c (mkByte 2 6 r) = fun bs => (dec8 bs).map fun v => .movR8Imm8 (Reg8.ofBits r) v := by
  funext bs
  simp [decode1, opcodeRow_mkByte]

theorem decode1_movRImm (r : BitVec 3) :
    decode1 c (mkByte 2 7 r) = fun bs => (decImm c.os bs).map fun v => .movRImm (Reg.ofBits r) v := by
  funext bs
  simp [decode1, opcodeRow_mkByte]

theorem decode1_esc (op : BitVec 3) :
    decode1 c (mkByte 3 3 op) = fun bs => (decModRm c id bs).map fun p => .esc c.os op p.1 p.2 := by
  funext bs
  simp [decode1, opcodeRow_mkByte]

/-- INVLPG: reg = 7 with a memory operand. -/
theorem reads_invlpg {m : MemOp} (h : m.wf c = true) : Reads (decode0F c 0x01) (encEa 7 m.ea) (.invlpg m) := by
  obtain ⟨md, rm, bs, hbytes, hmd, hr⟩ := m.reads 7 h
  rw [hbytes]
  refine (reads_dec8 (mkByte md 7 rm)).bind ?_
  simp only [modField_mkByte, regField_mkByte, rmField_mkByte, if_neg hmd, if_true]
  exact hr.map rfl

theorem reads_modRm8 (r : Reg8) {rm : Rm Reg8} (h : rm.wf c = true) :
    Reads (decModRm c Reg8.ofBits) (encRm Reg8.toBits r.toBits rm) (r.toBits, rm) :=
  reads_decModRm Reg8.ofBits_toBits _ h

theorem reads_modRm (r : Reg) {rm : Rm Reg} (h : rm.wf c = true) :
    Reads (decModRm c Reg.ofBits) (encRm Reg.toBits r.toBits rm) (r.toBits, rm) :=
  reads_decModRm Reg.ofBits_toBits _ h

/-- A special register move: one ModR/M byte, whose mod field counts for nothing. -/
theorem reads_special {f : Byte → Instr} (n : BitVec 3) (r : Reg) (h : f (mkByte 3 n r.toBits) = i) :
    Reads (fun l => (dec8 l).bind fun b rest => .ok (f b) rest) [mkByte 3 n r.toBits] i :=
  (reads_dec8 _).map h

/-- An instruction that writes its operand size down has that of its context. -/
theorem sized_iff {os : OpSize} {x : Bool} : (os == c.os && x) = true ↔ os = c.os ∧ x = true := by
  rw [Bool.and_eq_true, beq_iff_eq]

/-- EVERY INSTRUCTION IS READ FROM ITS BYTES in a context that it fits. -/
theorem decode_reads (h : i.wf c = true) : Reads (decode c) (encode i) i := by
  cases i with
  | bswap os r =>
    obtain rfl := eq_of_beq h
    refine reads_decode0F ?_
    rw [decode0F_bswap, r.ofBits_toBits]
    exact .nothing
  | xaddRm8R8 rm r => exact reads_decode0F ((reads_modRm8 r h).map (by rw [r.ofBits_toBits]))
  | cmpxchgRm8R8 rm r => exact reads_decode0F ((reads_modRm8 r h).map (by rw [r.ofBits_toBits]))
  | movR8Rm8 r rm | movRm8R8 rm r | xchgRm8R8 rm r =>
    exact reads_decode1 ((reads_modRm8 r h).map (by rw [r.ofBits_toBits]))
  | xaddRmR os rm r | cmpxchgRmR os rm r =>
    obtain ⟨rfl, hrm⟩ := sized_iff.1 h
    exact reads_decode0F ((reads_modRm r hrm).map (by rw [r.ofBits_toBits]))
  | movRRm os r rm | movRmR os rm r | xchgRmR os rm r =>
    obtain ⟨rfl, hrm⟩ := sized_iff.1 h
    exact reads_decode1 ((reads_modRm r hrm).map (by rw [r.ofBits_toBits]))
  | esc os op reg rm =>
    obtain ⟨rfl, hrm⟩ := sized_iff.1 h
    refine reads_decode1 ?_
    rw [decode1_esc]
    exact (reads_decModRm (fun _ => rfl) reg hrm).map rfl
  | invlpg m => exact reads_decode0F (reads_invlpg h)
  | invd | wbinvd | rsm | cpuid => exact reads_decode0F .nothing
  | movRCr r n | movRDr r n | movRTr r n | movCrR n r | movDrR n r | movTrR n r =>
    exact reads_decode0F (reads_special n r (by rw [regField_mkByte, rmField_mkByte, r.ofBits_toBits]))
  | movAlMoffs m | movMoffsAl m => exact reads_decode1 ((reads_decMoffs h).map rfl)
  | movEaxMoffs os m | movMoffsEax os m =>
    obtain ⟨rfl, hm⟩ := sized_iff.1 h
    exact reads_decode1 ((reads_decMoffs hm).map rfl)
  | movR8Imm8 r v =>
    refine reads_decode1 ?_
    rw [decode1_movR8Imm8, r.ofBits_toBits]
    exact (reads_dec8 v).map rfl
  | movRImm r v =>
    refine reads_decode1 ?_
    rw [decode1_movRImm, r.ofBits_toBits, ← eq_of_beq h]
    exact (reads_decImm v).map rfl
  | jmpRel d =>
    refine reads_decode1 (Reads.map (p := decImm c.os) ?_ rfl)
    rw [← eq_of_beq h]
    exact reads_decImm d
  | inAlImm8 v | outImm8Al v | intN v => exact reads_decode1 ((reads_dec8 v).map rfl)
  | inEaxImm8 os v | outImm8Eax os v | jmpRel8 os v =>
    obtain rfl := eq_of_beq h
    exact reads_decode1 ((reads_dec8 v).map rfl)
  | xchgEaxR os r =>
    obtain rfl := eq_of_beq h
    refine reads_decode1 ?_
    rw [decode1_xchgEaxR, r.ofBits_toBits]
    exact .nothing
  | inEaxDx os | outDxEax os | pushf os | popf os =>
    obtain rfl := eq_of_beq h
    exact reads_decode1 .nothing
  | outsb seg as =>
    obtain ⟨hseg, has⟩ := Bool.and_eq_true_iff.1 h
    obtain rfl := eq_of_beq hseg
    obtain rfl := eq_of_beq has
    exact reads_decode1 .nothing
  | outswd os seg as =>
    obtain ⟨h, has⟩ := Bool.and_eq_true_iff.1 h
    obtain ⟨rfl, hseg⟩ := sized_iff.1 h
    obtain rfl := eq_of_beq hseg
    obtain rfl := eq_of_beq has
    exact reads_decode1 .nothing
  | inAlDx | outDxAl | repPrefix | lockPrefix | opSizePrefix | addrSizePrefix | hlt | wait => exact reads_decode1 .nothing
  | intAckCycle | specialCycle | ioReadCycle | ioWriteCycle | codeReadCycle | reservedCycle | memReadCycle | memWriteCycle
  | shutdownCycle | flushCycle | secondFlushAckCycle | haltCycle | stopGrantCycle | firstFlushAckCycle | writeBackCycle =>
    exact absurd h Bool.false_ne_true

/-! ### What the decoder gives fits its context -/

/-- The instruction that `x` gives, if it gives one, fits the context. -/
def Dec.Fits (c : DecodeCtx) (x : Dec Instr) : Prop := x.All fun i => i.wf c = true

@[simp] theorem Dec.fits_ok : (Dec.ok i bs).Fits c ↔ i.wf c = true := Dec.all_ok
@[simp] theorem Dec.fits_illegal : Dec.illegal.Fits c := Dec.all_illegal
@[simp] theorem Dec.fits_base386 {t : Bool} {m : Option Byte} : (Dec.base386 t op m).Fits c := Dec.all_base386
@[simp] theorem Dec.fits_extra {e : ExtraPrefix} : (Dec.extra e).Fits c := Dec.all_extra

@[simp] theorem Dec.fits_map {α : Type} {x : Dec α} {f : α → Instr} :
    (x.map f).Fits c ↔ x.All fun a => (f a).wf c = true := Dec.all_map

theorem Dec.fits_bind {α : Type} {x : Dec α} {q : α → List Byte → Dec Instr} (h : ∀ a rest, (q a rest).Fits c) :
    (x.bind q).Fits c := Dec.all_true.bind fun a rest _ => h a rest

@[simp] theorem Dec.fits_bind_ok {α : Type} {x : Dec α} {f : α → Instr} :
    (x.bind fun a rest => .ok (f a) rest).Fits c ↔ x.All fun a => (f a).wf c = true := Dec.all_map

@[simp] theorem Dec.fits_ite {p : Prop} [Decidable p] {x : Dec Instr} : (if p then x else .illegal).Fits c ↔ (p → x.Fits c) := by
  split_ifs with h <;> simp [h]

@[simp] theorem decodeBase_fits {twoByte : Bool} : (decodeBase twoByte op bs).Fits c := by
  unfold decodeBase
  split_ifs
  · exact Dec.fits_bind fun _ _ => Dec.fits_base386
  · exact Dec.fits_base386

/-- Each row gives its instruction with the sizes of the context and with operands that fit it; INVLPG asks of its ModR/M byte that it
names memory. -/
theorem decode0F_fits (c : DecodeCtx) (op : Byte) (bs : List Byte) : (decode0F c op bs).Fits c := by
  unfold decode0F
  split_ifs
  · simp [Instr.wf]
  split
  · refine Dec.fits_bind fun b rest => ?_
    split_ifs
    · exact Dec.fits_illegal
    · exact Dec.fits_map.2 (decMem_wf _ _ rest)
    · exact Dec.fits_illegal
    · exact Dec.fits_base386
  all_goals simp [Instr.wf, decModRm_wf]

theorem decode1_fits (c : DecodeCtx) (op : Byte) (bs : List Byte) : (decode1 c op bs).Fits c := by
  unfold decode1
  split_ifs
  · simp [Instr.wf]
  · simp [Instr.wf]
  · simp [Instr.wf, decImm_size]
  · simp [Instr.wf, decModRm_wf]
  split
  · exact Dec.fits_bind fun b rest => decode0F_fits c b rest
  all_goals simp [Instr.wf, decModRm_wf, decMoffs_wf, decImm_size]

theorem decode_fits (c : DecodeCtx) (bs : List Byte) : (decode c bs).Fits c := Dec.fits_bind fun op rest => decode1_fits c op rest

/-! ### The statements -/

/-- Settles O1: an encoding is read whole, whatever follows it. -/
theorem decodeEncode : Obligations.DecodeEncode := fun _ _ rest h => (decode_reads h).whole rest

/-- Settles O2: what each reader gives fits the context, and each asks for more before its bytes are all there. -/
theorem decodeExact : Obligations.DecodeExact :=
  ⟨fun c bs rest i h => decode_fits c bs i rest h, fun _ _ k h hk => (decode_reads h).part k hk⟩

/-- Settles O3, by running the decoder on each word. -/
theorem decodeWords : Obligations.DecodeWords := by
  unfold Obligations.DecodeWords
  decide

end Sys2Proof
end

section
/-! SUPPORT. The transfers of the bus-cycle rows: a doubleword into the data latch, an interrupt acknowledge, an I/O write; what the
drain before them leaves. -/

namespace Sys2Proof.Machine

variable {b : Bus} {c : MemCtx}

/-! ### One doubleword -/

theorem Bus.finish_one {x : Xfer} {p : BusPart} (hp : x.parts = [p]) (hw : x.want = false) (hf : x.fill = false) :
    b.finish c x = b.movePart c { x with decided := true } p p.lanes (!x.decided) x.ads false := by
  rw [Bus.finish_plain b c hw hf]
  unfold Bus.moveAll
  simp only [hp]
  rfl

/-- A read into the data latch: its enabled lanes take the data, the others stay. -/
theorem Bus.finish_latch {x : Xfer} {p : BusPart} (hk : x.kind = .memRead ∨ x.kind = .codeRead ∨ x.kind = .ioRead)
    (hp : x.parts = [p]) (hw : x.want = false) (hf : x.fill = false) :
    Bus.SameButRead b (b.finish c x) ∧ (b.finish c x).dataIn = mergeLanes p.lanes b.dataIn (b.answer c x.kind p) := by
  rw [Bus.finish_one hp hw hf]
  unfold Bus.movePart Bus.moveLanes Bus.keepPart
  rcases hk with h | h | h <;> simp only [h] <;> exact ⟨by constructor <;> rfl, rfl⟩

/-- An interrupt acknowledge cycle: the one at address 0 brings the vector. -/
theorem Bus.finish_ack {x : Xfer} {p : BusPart} (hk : x.kind = .intAck) (hp : x.parts = [p]) (hw : x.want = false)
    (hf : x.fill = false) :
    Bus.SameButRead { b with vector := if p.addr = 0 then p.data.setWidth 8 else b.vector } (b.finish c x) := by
  rw [Bus.finish_one hp hw hf]
  unfold Bus.movePart Bus.answer Bus.moveLanes Bus.keepPart
  simp only [hk]
  constructor <;> rfl

/-! ### Lanes -/

/-- The enables are low-active. -/
theorem lanes_enabled (be : BitVec 4) (k : BitVec 2) : (~~~be).getLsbD k.toNat = true ↔ be.getLsbD k.toNat = false := by
  have hk : k.toNat < 4 := k.isLt
  rw [BitVec.getLsbD_not]
  simp [hk]

/-- The lanes that the enables select take the new data. -/
theorem laneByte_latched (be : BitVec 4) (old new : DWord) (k : BitVec 2) :
    laneByte (mergeLanes (~~~be) old new) k = if be.getLsbD k.toNat = false then laneByte new k else laneByte old k := by
  rw [laneByte_mergeLanes]
  exact if_congr (lanes_enabled be k) rfl rfl

/-! ### The items of a doubleword -/

theorem cycleLanes_ne_nil (w w' : Nat) (e : BitVec 4) : cycleLanes w w' e ≠ [] := by
  unfold cycleLanes
  split <;> simp

theorem itemCycles_ne_nil {x : Xfer} {p : BusPart} {driven : BitVec 4} {d : DWord} {first ads more : Bool} :
    itemCycles c x p driven d first ads more ≠ [] := by
  unfold itemCycles
  simp [cycleLanes_ne_nil]

/-- Each item carries the transfer's kind, address and data. -/
theorem mem_itemCycles {x : Xfer} {p : BusPart} {driven : BitVec 4} {d : DWord} {first ads more : Bool} {y : BusCycle}
    (h : y ∈ itemCycles c x p driven d first ads more) : y.kind = x.kind ∧ y.addr = p.addr ∧ y.data = d := by
  unfold itemCycles at h
  obtain ⟨_, -, rfl⟩ := List.mem_map.1 h
  exact ⟨rfl, rfl, rfl⟩

/-- An I/O write of a doubleword: it changes only the record of cycles, in which its last item is the newest; at 32 bits that is its only
one. -/
theorem Bus.finish_ioWrite {x : Xfer} {p : BusPart} (hk : x.kind = .ioWrite) (hp : x.parts = [p]) (hw : x.want = false)
    (hf : x.fill = false) (hs : x.size = none) :
    Bus.SameButRead b (b.finish c x) ∧ ∃ y rest, (b.finish c x).trace = y :: rest ∧ y.kind = .ioWrite ∧ y.addr = p.addr
      ∧ y.data = p.data ∧ (c.plat.ioBus8 = [] → c.plat.ioBus16 = [] → y.be = ~~~p.lanes) := by
  have hrun := Bus.finish_one (b := b) (c := c) hp hw hf
  rw [Bus.movePart_message b c (x := { x with decided := true }) p _ _ _ _ (.inl hk)] at hrun
  set cs := itemCycles c { x with decided := true } p p.lanes p.data (!x.decided) x.ads false
  obtain ⟨y, ys, hrev⟩ := List.exists_cons_of_ne_nil (fun h => itemCycles_ne_nil (List.reverse_eq_nil_iff.1 h) : cs.reverse ≠ [])
  have hy : y ∈ cs := List.mem_reverse.1 (hrev ▸ List.mem_cons_self ..)
  obtain ⟨hkind, haddr, hdata⟩ := mem_itemCycles hy
  have htrace : (b.finish c x).trace = y :: (ys ++ b.trace) := by
    rw [hrun]
    show cs.reverse ++ b.trace = _
    rw [hrev]
    rfl
  refine ⟨by rw [hrun]; constructor <;> rfl, y, _, htrace, hkind.trans hk, haddr, hdata, fun h8 h16 => ?_⟩
  obtain ⟨z, hz, hc⟩ := Bus.trace_finish_one (b := b) (c := c) hp hw hf hs (by rw [hk]; exact busWidth_ioWrite h8 h16 _)
  rw [htrace] at hz
  injection hz with hyz
  exact hyz ▸ hc.be

/-! ### The device's data -/

theorem Bus.deviceData_bus (b : Bus) :
    b.deviceData.2 = { b with ioIn := b.deviceData.2.ioIn, draws := b.deviceData.2.draws } := by
  unfold Bus.deviceData
  split <;> rfl

theorem Bus.deviceData_queued {d : DWord} {rest : List DWord} (h : b.ioIn = d :: rest) :
    b.deviceData = (d, { b with ioIn := rest }) := by
  unfold Bus.deviceData
  rw [h]

/-! ### After the drain -/

/-- The buffers have drained and nothing else has changed. -/
structure Bus.Emptied (c : MemCtx) (b b' : Bus) : Prop where
  wf : b'.memWf = true
  wb : b'.wb = []
  same : Bus.SameButWb b b'
  mem : ∀ a, b'.physByte c a = b.memView c a
  view : ∀ a, b'.view c a = b.view c a

/-- A read or a message after the drain: no debt, whatever has become of the vector and of the device's data. -/
theorem Bus.Emptied.drained {b₁ b₂ : Bus} {v : Byte} {q : List DWord} {n : Nat} (h : Bus.Emptied c b b₁)
    (k : Bus.SameButRead { b₁ with vector := v, ioIn := q, draws := n } b₂) : Bus.Drained c b b₂ where
  wf := k.memWf.trans h.wf
  wb := k.wb.trans h.wb
  mem a := (k.physByte c a).trans (h.mem a)
  view a := (k.view c a).trans (h.view a)
  cache := k.cache.trans h.same.cache
  fetchq := k.fetchq.trans h.same.fetchq
  tlb := k.tlb.trans h.same.tlb
  queue := k.queue.trans h.same.queue
  cur := k.cur.trans h.same.cur
  phase := k.phase.trans h.same.phase
  script := k.script.trans h.same.script

theorem Bus.Emptied.drainedOnly {b₁ b₂ : Bus} (h : Bus.Emptied c b b₁) (k : Bus.SameButRead b₁ b₂) : Bus.DrainedOnly c b b₂ :=
  ⟨h.drained k, h.same.control.trans k.control⟩

theorem Bus.SameButRead.withVector {b b' : Bus} (h : Bus.SameButRead b b') (v : Byte) :
    Bus.SameButRead { b with vector := v } { b' with vector := v } := { h with vector := rfl }

theorem Bus.SameControl.withVector {b b' : Bus} (h : Bus.SameControl b b') (v : Byte) :
    Bus.SameControl { b with vector := v } { b' with vector := v } := { h with vector := rfl }

theorem Bus.SameControl.withDevice {b b' : Bus} (h : Bus.SameControl b b') (q : List DWord) (n : Nat) :
    Bus.SameControl { b with ioIn := q, draws := n } { b' with ioIn := q, draws := n } := { h with ioIn := rfl, draws := rfl }

end Sys2Proof.Machine
end

section
/-! SUPPORT. The bus-cycle rows of the opcode table, run and refused (O40, O41, O42), and the rows of prefixes (O24). -/

namespace Sys2Proof.Machine

variable {s t : State} {b : Bus} {c : MemCtx} {m : M Unit}

/-! ### A request of the bus unit -/

theorem runRow_ok (h : m s = .ok () t) : runRow m s = .next t := by
  unfold runRow; rw [h]

/-- A request that waits leaves the state as it was. -/
theorem runRow_stall (h : m s = .error .stall t) : runRow m s = .next s := by
  unfold runRow; rw [h]

theorem needBus_stall (h : c.busFree = false) : needBus c b = .error .stall b := by
  unfold needBus
  rw [h]
  rfl

/-- An access that needs the bus waits without it. -/
theorem bus_stall {α : Type} {x : MemCtx → BM α} (h : s.busFree = false) :
    bus (fun c => needBus c >>= fun _ => x c) s = .error .stall s := by
  have hx : (needBus s.memCtx >>= fun _ => x s.memCtx) s.bus = .error .stall s.bus := bind_error (needBus_stall h)
  unfold bus
  dsimp only
  rw [hx]

theorem specialCycle_stall (be : BitVec 4) (a : DWord) (h : s.busFree = false) : specialCycle be a s = .error .stall s := bus_stall h

theorem runTransfers_stall (i : Instr) (h : s.busFree = false) : runTransfers i s = .error .stall s := bus_stall h

/-! A row that only some members run. -/

theorem runRow_onlyIf_refuse {k : Bool} (h : k = false) (s : State) :
    runRow (do
      if !k then refuse .cycleNotOnMember
      m) s = .refused .cycleNotOnMember := by
  subst h
  rfl

theorem runRow_onlyIf {k : Bool} (h : k = true) (s : State) :
    runRow (do
      if !k then refuse .cycleNotOnMember
      m) s = runRow m s := by
  subst h
  rfl

/-! ### Messages -/

theorem extract_append_zero (a : BitVec 30) : (a ++ 0#2 : Addr).extractLsb' 2 30 = a := (extract_laneAddr a 0).1

/-- A special cycle run as a request: the buffers drain, then the cycle is the newest, and nothing else changes. -/
theorem runRow_special (be : BitVec 4) (a : DWord) (hs : s.BusReady) :
    ∃ b, runRow (specialCycle be a) s = .next { s with bus := b } ∧ Bus.DrainedOnly s.memCtx s.bus b
      ∧ b.lastSpecial be (a.extractLsb' 2 30) := by
  obtain ⟨b, hrun, hd, hc, hlast⟩ := specialCycle_spec be a hs
  exact ⟨b, runRow_ok hrun, ⟨hd, hc⟩, hlast⟩

/-- The same for a row that only some members run, on one of these. -/
theorem runRow_onlyIf_special {k : Bool} (h : k = true) (be : BitVec 4) (a : DWord) (hs : s.BusReady) :
    ∃ b, runRow (do
        if !k then refuse .cycleNotOnMember
        specialCycle be a) s = .next { s with bus := b }
      ∧ Bus.DrainedOnly s.memCtx s.bus b ∧ b.lastSpecial be (a.extractLsb' 2 30) := by
  rw [runRow_onlyIf h]
  exact runRow_special be a hs

theorem enterShutdown_spec (hs : s.BusReady) :
    ∃ b, enterShutdown s = .ok () { s with bus := b }.shutDown ∧ Bus.DrainedOnly s.memCtx s.bus b ∧ b.lastSpecial 0xE#4 0 := by
  obtain ⟨b, hrun, hd, hc, hlast⟩ := specialCycle_spec 0xE#4 0 hs
  exact ⟨b, bind_ok (x := shutdownSpecial) hrun, ⟨hd, hc⟩, hlast⟩

/-! ### Transfers -/

theorem Bus.rowXfers_script (i : Instr) : (b.rowXfers c i).2.script = b.script := by
  cases i with
  | ioReadCycle op =>
    show b.deviceData.2.script = _
    rw [b.deviceData_bus]
  | _ => rfl

/-- THE TRANSFERS OF A ROW with the bus free: they run whole after the buffers have drained. -/
theorem runTransfers_spec (i : Instr) (hs : s.BusReady) :
    ∃ b, Bus.Emptied s.memCtx s.bus b
      ∧ runTransfers i s = .ok () { s with bus :=
          (if (b.rowXfers s.memCtx i).1.any (·.kind.isRead) then { (b.rowXfers s.memCtx i).2 with fillBuf := [], pchk := false }
            else (b.rowXfers s.memCtx i).2).finishAll s.memCtx (b.rowXfers s.memCtx i).1 } := by
  obtain ⟨b, hdrain, hwf, hsame, hwb, hmem, hview⟩ := drainBuffers_spec (c := s.memCtx) (b := s.bus) hs.wf hs.bus hs.script
  refine ⟨b, ⟨hwf, hwb, hsame, hmem, hview⟩, ?_⟩
  have hscript : (b.rowXfers s.memCtx i).2.script = [] :=
    (Bus.rowXfers_script i).trans (hsame.script.trans hs.script)
  unfold runTransfers
  refine bus_ok ?_
  rw [bind_ok (needBus_ok hs.bus _), bind_ok hdrain, bind_ok (get_run _)]
  dsimp only
  rw [bind_ok (set_run _ _)]
  exact transact_ok false _ hscript

/-! ### The rows that run -/

/-- A row of one read into the latch: what a memory or code read and an I/O read have in common. -/
theorem runTransfers_latch {i : Instr} {op : BusOp} {kind : CycleKind} {d : Bus → DWord} {b' : Bus → Bus}
    (hk : kind = .memRead ∨ kind = .codeRead ∨ kind = .ioRead)
    (hi : ∀ b : Bus, b.rowXfers s.memCtx i = ([plainXfer kind op (d b)], b' b)) (hs : s.BusReady) :
    ∃ b b₂, Bus.Emptied s.memCtx s.bus b ∧ runTransfers i s = .ok () { s with bus := b₂ } ∧ Bus.SameButRead (b' b) b₂
      ∧ b₂.dataIn = mergeLanes (~~~op.be) (b' b).dataIn ((b' b).answer s.memCtx kind ⟨op.addr, ~~~op.be, d b, 0⟩) := by
  obtain ⟨b, he, hrun⟩ := runTransfers_spec i hs
  have hread : [plainXfer kind op (d b)].any (·.kind.isRead) = true := by
    rcases hk with rfl | rfl | rfl <;> rfl
  rw [hi b] at hrun
  dsimp only at hrun
  rw [if_pos hread] at hrun
  have k₀ : Bus.SameButRead (b' b) { b' b with fillBuf := [], pchk := false } := by constructor <;> rfl
  obtain ⟨k₁, hdata⟩ := Bus.finish_latch (b := { b' b with fillBuf := [], pchk := false }) (c := s.memCtx)
    (x := plainXfer kind op (d b)) hk rfl rfl rfl
  exact ⟨b, _, he, hrun, k₀.trans k₁, hdata⟩

/-- A memory or code read latches what memory holds once the buffers have drained. -/
theorem runRow_memRead {i : Instr} {op : BusOp} {kind : CycleKind} (hk : kind = .memRead ∨ kind = .codeRead)
    (hi : ∀ b : Bus, b.rowXfers s.memCtx i = ([plainXfer kind op 0], b)) (hs : s.BusReady) :
    ∃ b, runRow (runTransfers i) s = .next { s with bus := b } ∧ Bus.DrainedOnly s.memCtx s.bus b
      ∧ ∀ k, laneByte b.dataIn k
          = if op.be.getLsbD k.toNat = false then s.bus.memView s.memCtx (laneAddr op.addr k) else laneByte s.bus.dataIn k := by
  obtain ⟨b, b₂, he, hrun, k₂, hdata⟩ := runTransfers_latch (d := fun _ => 0) (b' := fun b => b)
    (hk.imp_right Or.inl) hi hs
  have hans : b.answer s.memCtx kind ⟨op.addr, ~~~op.be, 0, 0⟩ = b.physDword s.memCtx op.addr := by
    rcases hk with rfl | rfl <;> rfl
  refine ⟨b₂, runRow_ok hrun, he.drainedOnly k₂, fun k => ?_⟩
  rw [hdata, hans, laneByte_latched, laneByte_physDword, he.mem, he.same.dataIn]

/-- An I/O read latches the device's data, the queued one first. -/
theorem runRow_ioRead (op : BusOp) (hs : s.BusReady) :
    ∃ b, runRow (runTransfers (.ioReadCycle op)) s = .next { s with bus := b } ∧ Bus.Drained s.memCtx s.bus b
      ∧ Bus.SameControl { s.bus with ioIn := b.ioIn, draws := b.draws } b
      ∧ ∀ d rest, s.bus.ioIn = d :: rest →
          (∀ k, laneByte b.dataIn k = if op.be.getLsbD k.toNat = false then laneByte d k else laneByte s.bus.dataIn k)
            ∧ b.ioIn = rest := by
  obtain ⟨b, b₂, he, hrun, k₂, hdata⟩ := runTransfers_latch (i := .ioReadCycle op) (d := fun b => b.deviceData.1)
    (b' := fun b => b.deviceData.2) (.inr (.inr rfl)) (fun _ => rfl) hs
  have h₂ := k₂
  rw [b.deviceData_bus] at h₂
  have hctl : Bus.SameControl { s.bus with ioIn := b₂.ioIn, draws := b₂.draws } b₂ := by
    rw [h₂.ioIn, h₂.draws]
    exact (he.same.control.withDevice _ _).trans h₂.control
  refine ⟨b₂, runRow_ok hrun, he.drained h₂, hctl, fun d rest hq => ?_⟩
  have hdev := Bus.deviceData_queued (he.same.ioIn.trans hq)
  rw [hdev] at k₂ hdata
  refine ⟨fun k => ?_, k₂.ioIn⟩
  rw [hdata, laneByte_latched]
  exact if_congr Iff.rfl rfl (by rw [he.same.dataIn])

/-- An I/O write is the newest bus cycle. -/
theorem runRow_ioWrite (op : BusOp) (hs : s.BusReady) :
    ∃ b, runRow (runTransfers (.ioWriteCycle op)) s = .next { s with bus := b } ∧ Bus.DrainedOnly s.memCtx s.bus b
      ∧ ∃ c rest, b.trace = c :: rest ∧ c.kind = .ioWrite ∧ c.addr = op.addr ∧ c.data = op.data
        ∧ (s.platform.ioBus8 = [] → s.platform.ioBus16 = [] → c.be = op.be) := by
  obtain ⟨b, he, hrun⟩ := runTransfers_spec (.ioWriteCycle op) hs
  obtain ⟨k, y, rest, ht, hkind, haddr, hdata, hbe⟩ := Bus.finish_ioWrite (b := b) (c := s.memCtx)
    (x := plainXfer .ioWrite op op.data) rfl rfl rfl rfl rfl
  exact ⟨_, runRow_ok hrun, he.drainedOnly k, y, rest, ht, hkind, haddr, hdata,
    fun h8 h16 => (hbe h8 h16).trans (BitVec.not_not ..)⟩

/-- A memory write changes the enabled bytes of its doubleword. -/
theorem runRow_memWrite (op : BusOp) (hs : s.BusReady) :
    ∃ b, runRow (runTransfers (.memWriteCycle op)) s = .next { s with bus := b } ∧ b.memWf = true ∧ b.wb = []
      ∧ Bus.SameControl s.bus b ∧ b.cache = s.bus.cache
      ∧ ∀ a : Addr, b.physByte s.memCtx a
          = if a.extractLsb' 2 30 = op.addr ∧ op.be.getLsbD (a.extractLsb' 0 2).toNat = false
            then laneByte op.data (a.extractLsb' 0 2)
            else s.bus.memView s.memCtx a := by
  obtain ⟨b, he, hrun⟩ := runTransfers_spec (.memWriteCycle op) hs
  obtain ⟨hwf, hsame, hphys⟩ := Bus.finish_write b s.memCtx (x := plainXfer .memWrite op op.data) rfl rfl rfl rfl he.wf
  refine ⟨_, runRow_ok hrun, hwf, hsame.wb.trans he.wb, he.same.control.trans hsame.control, hsame.cache.trans he.same.cache,
    fun a => ?_⟩
  refine (hphys a).trans ?_
  rw [he.mem]
  exact if_congr (and_congr_right fun _ => lanes_enabled op.be _) rfl rfl

/-- Interrupt acknowledge: two locked cycles, of which the second brings the vector. -/
theorem runRow_ack (op : BusOp) (hs : s.BusReady) :
    ∃ b, runRow (runTransfers (.intAckCycle op)) s = .next { s with bus := b } ∧ Bus.Drained s.memCtx s.bus b
      ∧ Bus.SameControl { s.bus with vector := s.pins.intVector } b
      ∧ ∃ a2 a1 rest, b.trace = a2 :: a1 :: rest ∧ a1.kind = .intAck ∧ a1.lock = true ∧ a1.addr = 1 ∧ a1.be = 0xE#4
        ∧ a2.kind = .intAck ∧ a2.lock = true ∧ a2.addr = 0 ∧ a2.be = 0xE#4 := by
  obtain ⟨b, he, hrun⟩ := runTransfers_spec (.intAckCycle op) hs
  set x₁ : Xfer := Xfer.new .intAck ⟨true, false, false, false, false⟩ [⟨1, 1, 0, 0⟩]
  set x₂ : Xfer := { Xfer.new .intAck ⟨true, false, false, false, false⟩ [⟨0, 1, s.pins.intVector.setWidth 32, 0⟩] with
    idle := 4, cont := true }
  set b₀ : Bus := { b with fillBuf := [], pchk := false }
  have k₀ : Bus.SameButRead b b₀ := by constructor <;> rfl
  have k₁ := Bus.finish_ack (b := b₀) (c := s.memCtx) (x := x₁) rfl rfl rfl rfl
  have k₂ := Bus.finish_ack (b := b₀.finish s.memCtx x₁) (c := s.memCtx) (x := x₂) rfl rfl rfl rfl
  obtain ⟨y₁, ht₁, hy₁⟩ := Bus.trace_finish_one (b := b₀) (c := s.memCtx) (x := x₁) rfl rfl rfl rfl rfl
  obtain ⟨y₂, ht₂, hy₂⟩ := Bus.trace_finish_one (b := b₀.finish s.memCtx x₁) (c := s.memCtx) (x := x₂) rfl rfl rfl rfl rfl
  have hbe : ~~~(1#4) = 0xE#4 := by decide
  have hv : (s.pins.intVector.setWidth 32).setWidth 8 = s.pins.intVector := by simp
  rw [if_neg (by decide)] at k₁
  rw [if_pos rfl, hv] at k₂
  have k := ((k₀.trans k₁).withVector s.pins.intVector).trans k₂
  exact ⟨_, runRow_ok hrun, he.drained k, (he.same.control.withVector _).trans k.control, y₂, y₁, _, ht₂.trans (congrArg _ ht₁),
    hy₁.kind, hy₁.lock, hy₁.addr, hy₁.be.trans hbe, hy₂.kind, hy₂.lock, hy₂.addr, hy₂.be.trans hbe⟩

/-! ### The statements -/

/-- Settles O41: each row is one transfer after the drain. -/
theorem transferRows : Obligations.TransferRows := by
  intro op s hs latched
  refine ⟨fun i hi => ?_, runRow_ioRead op hs, runRow_ioWrite op hs, ?_⟩
  · rcases hi with rfl | rfl
    · exact runRow_memRead (i := .memReadCycle op) (.inl rfl) (fun _ => rfl) hs
    · exact runRow_memRead (i := .codeReadCycle op) (.inr rfl) (fun _ => rfl) hs
  · obtain ⟨b, hrun, hwf, hwb, hctl, hcache, hphys⟩ := runRow_memWrite op hs
    refine ⟨b, hrun, hwf, hwb, hctl, hcache, fun k hk => ?_, fun a ha => ?_⟩
    · obtain ⟨haddr, hlane⟩ := extract_laneAddr op.addr k
      refine (hphys (laneAddr op.addr k)).trans ?_
      rw [haddr, hlane, if_pos ⟨rfl, hk⟩]
      rfl
    · rw [hphys, if_neg]
      rintro ⟨haddr, hbe⟩
      exact Bool.false_ne_true (hbe.symm.trans (ha haddr))

/-- Settles O24: each row sets its marks in `dec` and does nothing else. -/
theorem prefixesMark : Obligations.PrefixesMark := fun _ => ⟨rfl, rfl, rfl, rfl⟩

/-- Settles O40: the interrupt acknowledge row, and the others as special cycles. -/
theorem messageRows : Obligations.MessageRows := by
  intro s hs
  refine ⟨fun op => runRow_ack op hs, fun op => ?_, ?_, runRow_special 0xD#4 0 hs, runRow_special 0xB#4 0 hs,
    runRow_special 0x7#4 0 hs, fun hsl => runRow_onlyIf_special hsl 0xB#4 0x10 hs,
    fun hwb => ⟨runRow_onlyIf_special hwb 0x7#4 s.part.flushAckAddress hs, runRow_onlyIf_special hwb 0xD#4 s.part.flushAckAddress hs⟩⟩
  · have h := runRow_special op.be (op.addr ++ 0#2) hs
    rwa [extract_append_zero] at h
  · obtain ⟨b, hrun, hd, hlast⟩ := enterShutdown_spec hs
    exact ⟨b, runRow_ok hrun, hd, hlast⟩

/-- A row of the opcode table that is not refused waits while the bus is not free, before anything else of it is done. -/
theorem exec_busCycle_waits {i : Instr} (hi : i.isBusCycle = true) (hres : i ≠ .reservedCycle) (hfree : s.busFree = false)
    (hsl : s.part.hasSL = true ∨ i ≠ .stopGrantCycle)
    (hwb : s.wbMode = true ∨ (i ≠ .firstFlushAckCycle ∧ i ≠ .secondFlushAckCycle)) : exec i s = .next s := by
  have special (be : BitVec 4) (a : DWord) : runRow (specialCycle be a) s = .next s := runRow_stall (specialCycle_stall be a hfree)
  cases i with
  | intAckCycle | ioReadCycle | ioWriteCycle | codeReadCycle | memReadCycle | memWriteCycle =>
    exact runRow_stall (runTransfers_stall _ hfree)
  | specialCycle | flushCycle | haltCycle | writeBackCycle => exact special _ _
  | reservedCycle => exact absurd rfl hres
  | shutdownCycle => exact runRow_stall (bind_error (x := shutdownSpecial) (specialCycle_stall _ _ hfree))
  | stopGrantCycle => exact (runRow_onlyIf (hsl.resolve_right fun h => h rfl) s).trans (special _ _)
  | firstFlushAckCycle => exact (runRow_onlyIf (hwb.resolve_right fun h => h.1 rfl) s).trans (special _ _)
  | secondFlushAckCycle => exact (runRow_onlyIf (hwb.resolve_right fun h => h.2 rfl) s).trans (special _ _)
  | _ => exact absurd hi Bool.false_ne_true

/-- Settles O42: the refusals come first, and every other row waits. -/
theorem rowsRefusedOrWaiting : Obligations.RowsRefusedOrWaiting := fun s =>
  ⟨rfl, fun h => runRow_onlyIf_refuse h s, fun h => ⟨runRow_onlyIf_refuse h s, runRow_onlyIf_refuse h s⟩,
    fun _ => exec_busCycle_waits⟩

end Sys2Proof.Machine
end

section
/-! SUPPORT. The way that a line fill replaces (O52), and what a snoop does (O53). -/

namespace Sys2Proof
open Machine

/-! ### The way to replace (41_cache_operations.md R365) -/

/-- The lowest invalid way is the victim. -/
theorem CacheSet.victim_eq {e : CacheSet} {w : BitVec 2} (hw : (e.way w).valid = false)
    (hbelow : ∀ v, v < w → (e.way v).valid = true) : e.victim = w := by
  unfold CacheSet.victim
  rcases lane_cases w with rfl | rfl | rfl | rfl
  · rw [hw]
    rfl
  · rw [hbelow 0 (by decide), hw]
    rfl
  · rw [hbelow 0 (by decide), hbelow 1 (by decide), hw]
    rfl
  · rw [hbelow 0 (by decide), hbelow 1 (by decide), hbelow 2 (by decide), hw]
    rfl

theorem CacheSet.victim_of_invalid {e : CacheSet} (h : ∃ w, (e.way w).valid = false) :
    (e.way e.victim).valid = false ∧ ∀ w, w < e.victim → (e.way w).valid = true := by
  obtain ⟨w, hw, hleast⟩ := (InvImage.wf (BitVec.toNat (w := 2)) wellFounded_lt).has_min {w | (e.way w).valid = false} h
  have hbelow (v : BitVec 2) (hv : v < w) : (e.way v).valid = true :=
    Bool.ne_false_iff.1 fun hf => hleast v hf hv
  rw [CacheSet.victim_eq hw hbelow]
  exact ⟨hw, hbelow⟩

/-- The pseudo-LRU choice: B0 names the pair, B1 or B2 the way in it. -/
def lruVictim (lru : BitVec 3) : BitVec 2 :=
  if lru.getLsbD 0 then (if lru.getLsbD 2 then 3 else 2) else (if lru.getLsbD 1 then 1 else 0)

theorem CacheSet.victim_of_full {e : CacheSet} (h : ∀ w, (e.way w).valid = true) : e.victim = lruVictim e.lru := by
  simp [CacheSet.victim, lruVictim, h]

/-- An access turns the LRU bits away from the way accessed. -/
theorem lruVictim_touchLru_ne (lru : BitVec 3) (w : BitVec 2) : lruVictim (touchLru lru w) ≠ w := by
  rcases lane_cases w with rfl | rfl | rfl | rfl <;> revert lru <;> decide

theorem lruVictim_table (lru : BitVec 3) :
    (lru, lruVictim lru) ∈ [(0#3, 0#2), (1#3, 2#2), (2#3, 1#2), (3#3, 2#2), (4#3, 0#2), (5#3, 3#2), (6#3, 1#2), (7#3, 3#2)] := by
  revert lru
  decide

theorem getLsbD_touchLru (lru : BitVec 3) (w : BitVec 2) {i : Nat} (hi : i < 3) : (touchLru lru w).getLsbD i =
    if i = 0 then decide (w = 0 ∨ w = 1)
    else if i = 1 ∧ (w = 0 ∨ w = 1) then decide (w = 0)
    else if i = 2 ∧ (w = 2 ∨ w = 3) then decide (w = 2)
    else lru.getLsbD i := by
  rcases lane_cases w with rfl | rfl | rfl | rfl <;> interval_cases i <;> revert lru <;> decide

/-! ### A new state for a line -/

/-- A new state for one way: every way holds its line with its tag and bytes, that one in the new state. -/
theorem Cache.way_setState (k : Cache) (big : Bool) (a : Addr) (w v : BitVec 2) (st : Mesi) (s : BitVec 8) :
    ((k.setState big a w st).entry s).way v
      = if s = setOf big a ∧ v = w then { (k.entry s).way v with st := st } else (k.entry s).way v := by
  unfold Cache.setState
  rw [Cache.entry_putSet]
  by_cases hs : s = setOf big a
  · subst hs
    by_cases hv : v = w <;> simp [CacheSet.way_putWay, hv]
  · simp [hs]

end Sys2Proof

namespace Sys2Proof.Machine

/-- Settles O52: with all ways valid the LRU bits choose, as their table has it. -/
theorem victimChosen : Obligations.VictimChosen := by
  refine ⟨fun e => CacheSet.victim_of_invalid, fun e hfull => ⟨fun w => ?_, ?_⟩, fun e w i => getLsbD_touchLru e.lru w⟩
  · have hv : (e.touch w).victim = lruVictim (touchLru e.lru w) := CacheSet.victim_of_full (e := e.touch w) hfull
    exact hv ▸ lruVictim_touchLru_ne e.lru w
  · rw [CacheSet.victim_of_full hfull]
    exact lruVictim_table ..

/-! ### Snoops (41_cache_operations.md R376, R385; 45_family_variants.md R586, R587) -/

section
variable {b : Bus} {c : MemCtx} {line : BitVec 28} {inv : Bool}

@[simp] theorem Xfer.snooped_parts (x : Xfer) (line : BitVec 28) (i : Bool) : (x.snooped line i).parts = x.parts := by
  unfold Xfer.snooped
  split <;> rfl

/-- A transfer about another line takes no notice of a snoop. -/
theorem Xfer.snooped_other {x : Xfer} (h : x.line ≠ line) (i : Bool) : x.snooped line i = x := if_neg h

/-- A fill of the line that a snoop invalidates will not make it valid. -/
theorem Xfer.snooped_stale {x : Xfer} (h : x.line = line) (hf : x.fill = true) : (x.snooped line true).stale = true := by
  unfold Xfer.snooped
  simp [h, hf]

/-- A SNOOP is noted in the transfers in progress, and beyond that only the cache and the queue can change. -/
theorem Bus.snoop_eq (b : Bus) (c : MemCtx) (line : BitVec 28) (inv : Bool) :
    b.snoop c line inv = { b with cur := b.cur.map fun x => x.snooped line (!c.wb || inv)
                                  cache := (b.snoop c line inv).cache, queue := (b.snoop c line inv).queue } := by
  unfold Bus.snoop
  dsimp only
  split
  · rfl
  · split_ifs <;> rfl

/-- On a miss neither of them does. -/
theorem Bus.snoop_miss (h : b.cache.lookup c.big (line ++ 0#4) = none) :
    b.snoop c line inv = { b with cur := b.cur.map fun x => x.snooped line (!c.wb || inv) } := by
  unfold Bus.snoop
  simp only [h]

/-- The state that a hit leaves the line in. -/
def snoopState (c : MemCtx) (inv : Bool) (st : Mesi) : Mesi :=
  if c.wb then (if inv then .invalid else if st = .modified then .exclusive else st)
  else if c.cd && c.nw then st else .invalid

/-- What a hit on a modified line with the bytes `d` makes of the queue. -/
def Bus.askWriteBack (b : Bus) (line : BitVec 28) (d : Vector Byte 16) : List BusReq :=
  if b.ownWriteBack line then b.queue else scheduleWriteBack (.writeBack line d) b.queue

section
variable {w : BitVec 2} (h : b.cache.lookup c.big (line ++ 0#4) = some w)
include h

/-- A HIT changes the state of the line it hits, and nothing else in the cache. -/
theorem Bus.way_snoop (s : BitVec 8) (v : BitVec 2) : ((b.snoop c line inv).cache.entry s).way v =
    if s = setOf c.big (line ++ 0#4) ∧ v = w then
      { (b.cache.entry s).way v with st := snoopState c inv ((b.cache.entry s).way v).st }
    else (b.cache.entry s).way v := by
  unfold Bus.snoop snoopState
  simp only [h]
  by_cases hline : s = setOf c.big (line ++ 0#4) ∧ v = w
  · obtain ⟨rfl, rfl⟩ := hline
    split_ifs <;> simp_all [Cache.way_setState]
  · split_ifs <;> simp only [Cache.way_setState, if_neg hline]

/-- A HIT on a modified line of a write-back cache asks for its write-back; no other hit changes the queue. -/
theorem Bus.queue_snoop : (b.snoop c line inv).queue =
    if c.wb = true ∧ ((b.cache.entry (setOf c.big (line ++ 0#4))).way w).st = .modified then
      b.askWriteBack line ((b.cache.entry (setOf c.big (line ++ 0#4))).way w).data
    else b.queue := by
  unfold Bus.snoop Bus.askWriteBack
  simp only [h]
  split_ifs <;> simp_all

end

/-- A write-back of the line that no snoop has asked for is on the bus, or none is. -/
theorem Bus.ownWriteBack_iff : b.ownWriteBack line = true ↔ ∃ x ∈ b.cur, x.writesBack line = true ∧ x.hitm = false := by
  simp [Bus.ownWriteBack]

/-- A write-back asked for goes behind the write-backs that wait already and before the rest. -/
theorem Bus.askWriteBack_spec (d : Vector Byte 16) (h : ∀ x ∈ b.cur, x.writesBack line = true → x.hitm = true) :
    ∃ pre post, b.queue = pre ++ post ∧ (∀ q ∈ pre, q.isWriteBack = true) ∧ (∀ q ∈ post.head?, q.isWriteBack = false)
      ∧ b.askWriteBack line d = pre ++ .writeBack line d :: post := by
  have hown : ¬ b.ownWriteBack line = true := by
    rw [Bus.ownWriteBack_iff]
    rintro ⟨x, hx, hwb, hhitm⟩
    exact Bool.false_ne_true (hhitm.symm.trans (h x hx hwb))
  unfold Bus.askWriteBack
  rw [if_neg hown]
  exact scheduleWriteBack_spec ..

end

/-- Settles O53: the transfers in progress by `Xfer.snooped`, a hit by the state and the queue it leaves. -/
theorem snoopTransitions : Obligations.SnoopTransitions := by
  intro b c line inv
  dsimp only
  have hcur : (b.snoop c line inv).cur = b.cur.map fun x => x.snooped line (!c.wb || inv) := by rw [Bus.snoop_eq]
  refine ⟨fun hmiss => ?_, by rw [Bus.snoop_eq], by rw [Bus.snoop_eq], by rw [Bus.snoop_eq], ?_, fun i x y hx hy => ?_,
    fun w hw => ?_⟩
  · rw [Bus.snoop_miss hmiss]
  · rw [hcur, List.map_map]
    exact List.map_congr_left fun x _ => x.snooped_parts line _
  · rw [hcur, List.getElem?_map, hx] at hy
    obtain rfl : x.snooped line (!c.wb || inv) = y := Option.some.inj hy
    refine ⟨fun hne => Xfer.snooped_other hne _, fun hline hfill hinv => ?_⟩
    have hgone : (!c.wb || inv) = true := by simpa using hinv
    rw [hgone]
    exact Xfer.snooped_stale hline hfill
  · have hway := Bus.way_snoop (inv := inv) hw
    have hqueue := Bus.queue_snoop (inv := inv) hw
    have hnew := (hway (setOf c.big (line ++ 0#4)) w).trans (if_pos ⟨rfl, rfl⟩)
    generalize (b.cache.entry (setOf c.big (line ++ 0#4))).way w = old at hqueue hnew
    rw [hnew]
    refine ⟨rfl, rfl, fun x v hne => (hway x v).trans (if_neg (not_and_or.2 hne)), fun hwt hoff => ⟨?_, ?_⟩,
      fun hwt hcd hnw => ⟨?_, ?_⟩, fun hwb hmod => ⟨?_, fun hasked => ?_, fun hown => ?_⟩, fun hwb hmod => ⟨?_, ?_⟩⟩
    all_goals simp only [hqueue, snoopState]
    · rcases hoff with hcd | hnw <;> simp [*]
    · simp [hwt]
    · simp [hwt, hcd, hnw]
    · simp [hwt]
    · simp [hwb, hmod]
    · rw [if_pos ⟨hwb, hmod⟩]
      exact Bus.askWriteBack_spec _ hasked
    · rw [if_pos ⟨hwb, hmod⟩]
      exact if_pos (Bus.ownWriteBack_iff.2 hown)
    · simp [hwb, hmod]
    · simp [hmod]

end Sys2Proof.Machine
end

section
/-! SUPPORT. What the writes of one part do to the cache and to memory (O49, O50). -/

namespace Sys2Proof.Machine

/-! ### The bytes of a part, and where they go -/

section
variable {c : MemCtx} {follows more : Bool} {ch : PChunk} {bs : List Byte} {b : Bus}

/-- A write that misses goes to memory as it is. -/
theorem writeChunk_miss (h : b.cache.lookup c.big (maskA20 c ch.pa) = none) : writeChunk c follows more ch bs b =
    postWrites c (writeEntries false false ch.pcd ch.pwt follows more memDword (dwordsOf (maskA20 c ch.pa) ch.len) bs) b := by
  unfold writeChunk
  rw [bind_ok (get_run b)]
  simp only [h]

/-- The state that a write hit leaves its line in. -/
def writtenState (c : MemCtx) (st : Mesi) : Mesi := if c.wb && st == .exclusive then .modified else st

/-- A write that hits changes its line, and goes to memory too unless it stays in the cache. -/
theorem writeChunk_hit {w : BitVec 2} {st : Mesi} (h : b.cache.lookup c.big (maskA20 c ch.pa) = some w)
    (hst : ((b.cache.entry (setOf c.big (maskA20 c ch.pa))).way w).st = st) : writeChunk c follows more ch bs b =
    (if keepsWrite c st then pure ()
      else postWrites c (writeEntries false true ch.pcd ch.pwt follows more memDword (dwordsOf (maskA20 c ch.pa) ch.len) bs))
      { b with cache := b.cache.writeHit c.big (maskA20 c ch.pa) w (writtenState c st) bs } := by
  unfold writeChunk
  rw [bind_ok (get_run b)]
  simp only [h, hst]
  rw [bind_ok (set_run _ b)]
  rfl

/-- Memory will hold the bytes of a part, and of every other byte what it would have held. -/
def PostsChunk (c : MemCtx) (a : Addr) (bs : List Byte) (b b' : Bus) : Prop :=
  (∀ x, Covers a bs.length x → b'.memView c x = chunkByte a bs x) ∧ ∀ x, ¬Covers a bs.length x → b'.memView c x = b.memView c x

/-- The bytes of a part posted: memory will hold them, and the cache stays. -/
theorem postChunk_spec {a : Addr} {n : Nat} (hit pcd pwt : Bool) (hb : b.memWf = true) (hfree : c.busFree = true)
    (hs : b.script = []) (hlen : bs.length = n) (hn : n ≤ 16) :
    ∃ b', postWrites c (writeEntries false hit pcd pwt follows more memDword (dwordsOf a n) bs) b = .ok () b'
      ∧ b'.memWf = true ∧ b'.cache = b.cache ∧ PostsChunk c a bs b b' := by
  obtain ⟨b', hrun, hwf, hsame, hin, hout⟩ := postWrites_spec (c := c) (hit := hit) (pcd := pcd) (pwt := pwt) (more := more) hfree
    (n + 1) follows a bs b (by omega) (by omega) hb hs
  rw [hlen] at hrun
  exact ⟨b', hrun, hwf, hsame.cache, hin, hout⟩

/-- The bytes of a part, one by one. -/
theorem forall_covers {a : Addr} {f : Addr → Byte} (hn : bs.length ≤ 16) :
    (∀ x, Covers a bs.length x → f x = chunkByte a bs x) ↔ ∀ i, i < bs.length → f (a + BitVec.ofNat 32 i) = bs.getD i 0 := by
  constructor
  · intro h i hi
    rw [h _ (covers_add hi (by omega)), chunkByte, sub_add a (by omega)]
  · intro h x hx
    have hbyte := h (x - a).toNat hx
    rwa [← covers_eq] at hbyte

theorem not_covers {a x : Addr} {n : Nat} (h : ∀ i, i < n → x ≠ a + BitVec.ofNat 32 i) : ¬Covers a n x :=
  fun hx => h _ hx covers_eq

/-- The line found again after a write hit is in the state that the hit leaves it in. -/
theorem stateAt_writeHit_self {k : Cache} {big : Bool} {a : Addr} {w : BitVec 2} {st : Mesi} (hw : k.lookup big a = some w)
    (hst : st ≠ .invalid) : Cache.stateAt (k.writeHit big a w st bs) big a = some st := by
  unfold Cache.stateAt
  rw [(Cache.byteAt_writeHit st bs hw hst a).1, hw, Option.map_some]
  simp only [Cache.writeHit, Cache.entry_putSet, if_true, CacheSet.way_touch, CacheSet.way_putWay]

end

/-- Settles O49: the bytes are posted, and the cache is not touched. -/
theorem writeMiss : Obligations.WriteMiss := by
  intro c follows more ch bs b hb hfree hs hlen hfits hmiss
  obtain ⟨b', hrun, hwf, hcache, hin, hout⟩ := postChunk_spec (follows := follows) (more := more) (a := maskA20 c ch.pa) false ch.pcd
    ch.pwt hb hfree hs hlen (by omega)
  refine ⟨b', (writeChunk_miss hmiss).trans hrun, hcache, hwf, ?_, fun x hx => hout x (not_covers (hlen ▸ hx))⟩
  rw [← hlen]
  exact (forall_covers (by omega)).1 hin

theorem writtenState_ne_invalid {c : MemCtx} {st : Mesi} (h : st ≠ .invalid) : writtenState c st ≠ .invalid := by
  unfold writtenState
  split
  · exact Mesi.noConfusion
  · exact h

theorem writtenState_eq (c : MemCtx) (st : Mesi) :
    writtenState c st = if c.wb = true ∧ st = .exclusive then .modified else st := by
  simp [writtenState]

theorem keepsWrite_iff {c : MemCtx} {st : Mesi} :
    keepsWrite c st = true ↔ (c.wb = true ∧ (st = .modified ∨ st = .exclusive)) ∨ (c.cd = true ∧ c.nw = true) := by
  simp [keepsWrite]

/-- WRITING A PART THAT HITS: its line changes as `Cache.writeHit` says, and memory takes the bytes unless they stay in the cache. -/
theorem writeChunk_hit_spec {c : MemCtx} {follows more : Bool} {ch : PChunk} {bs : List Byte} {b : Bus} {w : BitVec 2} {st : Mesi}
    (hb : b.memWf = true) (hfree : c.busFree = true) (hs : b.script = []) (hlen : bs.length = ch.len) (hn : ch.len ≤ 16)
    (hw : b.cache.lookup c.big (maskA20 c ch.pa) = some w)
    (hst : ((b.cache.entry (setOf c.big (maskA20 c ch.pa))).way w).st = st) :
    ∃ b', writeChunk c follows more ch bs b = .ok () b' ∧ b'.memWf = true
      ∧ b'.cache = b.cache.writeHit c.big (maskA20 c ch.pa) w (writtenState c st) bs
      ∧ (keepsWrite c st = true → ∀ x, b'.memView c x = b.memView c x)
      ∧ (keepsWrite c st = false → PostsChunk c (maskA20 c ch.pa) bs b b') := by
  rw [writeChunk_hit hw hst]
  generalize b.cache.writeHit c.big (maskA20 c ch.pa) w (writtenState c st) bs = k
  cases hk : keepsWrite c st with
  | true => exact ⟨_, rfl, hb, rfl, fun _ _ => rfl, fun h => absurd h.symm Bool.false_ne_true⟩
  | false =>
    obtain ⟨b', hrun, hwf, hcache, hposts⟩ := postChunk_spec (b := { b with cache := k }) (follows := follows) (more := more)
      (a := maskA20 c ch.pa) true ch.pcd ch.pwt hb hfree hs hlen hn
    exact ⟨b', hrun, hwf, hcache, fun h => absurd h Bool.false_ne_true, fun _ => hposts⟩

/-- Settles O50: the line takes the bytes and its new state; whether memory takes them too is `keepsWrite`. -/
theorem writeHit : Obligations.WriteHit := by
  intro c follows more ch bs b st hb hfree hs hlen hfits _ hstate
  obtain ⟨w, hw, hst⟩ := Option.map_eq_some_iff.1 hstate
  obtain ⟨b', hrun, hwf, hcache, hkept, hposted⟩ := writeChunk_hit_spec (follows := follows) (more := more) hb hfree hs hlen (by omega)
    hw hst
  have hne : writtenState c st ≠ .invalid := writtenState_ne_invalid (hst ▸ state_of_lookup hw)
  have hline : Fits 4 (maskA20 c ch.pa) bs.length := by
    rw [byteOf_toNat] at hfits
    rw [hlen]
    exact hfits
  obtain ⟨hin, hout⟩ := byteAt_writeHit_chunk hw hne hline
  rw [← hcache] at hin hout
  have hother (x : Addr) (hx : ¬Covers (maskA20 c ch.pa) bs.length x) : b'.memView c x = b.memView c x := by
    cases hk : keepsWrite c st with
    | true => exact hkept hk x
    | false => exact (hposted hk).2 x hx
  refine ⟨b', hrun, hwf, ?_, ?_, fun x hx => ?_, ?_⟩
  · rw [hcache, stateAt_writeHit_self hw hne, writtenState_eq]
  · rw [← hlen]
    exact (forall_covers (by omega)).1 (view_of_hit hin hout hother).1
  · have hx' : ¬Covers (maskA20 c ch.pa) bs.length x := not_covers (hlen ▸ hx)
    exact ⟨(view_of_hit hin hout hother).2 x hx', hother x hx'⟩
  · intro i hi
    cases hk : keepsWrite c st with
    | true => rw [if_pos (keepsWrite_iff.1 hk), hkept hk]
    | false =>
      rw [if_neg fun h => Bool.false_ne_true (hk.symm.trans (keepsWrite_iff.2 h))]
      exact (forall_covers (by omega)).1 (hposted hk).1 i (hlen ▸ hi)

end Sys2Proof.Machine
end

section
/-! SUPPORT. Transfers of several doublewords run whole: their bus cycles, and the write-back of a line. -/

namespace Sys2Proof.Machine

variable {b : Bus} {c : MemCtx}

/-! ### The bus cycles of a transfer -/

section
variable (h8 : c.plat.bus8 = []) (h16 : c.plat.bus16 = [])
include h8 h16

/-- On a 32-bit bus a doubleword moves in one cycle, whatever size the burst it belongs to has sampled. -/
theorem Bus.trace_movePart {x : Xfer} (p : BusPart) (driven : BitVec 4) (first ads more : Bool)
    (hk : x.kind = .memRead ∨ x.kind = .memWrite) (hs : x.size.getD 32 = 32) :
    ∃ y, (b.movePart c x p driven first ads more).trace = y :: b.trace
      ∧ (y.kind, y.be, y.addr) = (x.kind, ~~~driven, p.addr) := by
  have h32 : busWidth c x.kind p.addr = 32 := busWidth_mem h8 h16 hk p.addr
  have hwidth : x.width c p.addr = 32 := by rw [Xfer.width, h32, hs]
  obtain ⟨y, hy, hkind, hbe, haddr⟩ := itemCycles_one driven (b.answer c x.kind p) first ads more hwidth h32
  refine ⟨y, ?_, by rw [hkind, hbe, haddr]⟩
  unfold Bus.movePart
  simp only [Bus.trace_keepPart, Bus.trace_moveLanes, hy]
  rfl

theorem Bus.trace_moveRest {x : Xfer} (hk : x.kind = .memRead ∨ x.kind = .memWrite) (hs : x.size.getD 32 = 32) (ps : List BusPart) :
    ∀ b : Bus, ∃ cycles : List BusCycle, (Bus.moveRest c x ps b).trace = cycles.reverse ++ b.trace
      ∧ cycles.map (fun y => (y.kind, y.be, y.addr)) = ps.map fun p => (x.kind, ~~~p.lanes, p.addr) := by
  induction ps with
  | nil => exact fun b => ⟨[], rfl, rfl⟩
  | cons p ps ih =>
    intro b
    obtain ⟨y, hy, hyp⟩ := Bus.trace_movePart (b := b) h8 h16 p p.lanes false (!c.plat.burst) (!ps.isEmpty) hk hs
    obtain ⟨ys, hys, hmap⟩ := ih (b.movePart c x p p.lanes false (!c.plat.burst) (!ps.isEmpty))
    refine ⟨y :: ys, ?_, by rw [List.map_cons, List.map_cons, hmap, hyp]⟩
    show (Bus.moveRest c x ps _).trace = _
    rw [hys, hy, List.reverse_cons, List.append_assoc]
    rfl

/-- On a 32-bit bus the doublewords of a transfer are one cycle each, in their order. -/
theorem Bus.trace_moveAll {x : Xfer} {p : BusPart} {ps : List BusPart} (driven : BitVec 4) (first : Bool)
    (hk : x.kind = .memRead ∨ x.kind = .memWrite) (hp : x.parts = p :: ps) (hs : x.size = none) :
    ∃ cycles : List BusCycle, (b.moveAll c x driven first).trace = cycles.reverse ++ b.trace
      ∧ cycles.map (fun y => (y.kind, y.be, y.addr)) = (x.kind, ~~~driven, p.addr) :: ps.map fun q => (x.kind, ~~~q.lanes, q.addr) := by
  have hsize : (x.onward c).size.getD 32 = 32 := by
    unfold Xfer.onward
    cases c.plat.burst <;> simp [hp, Xfer.width, hs, busWidth_mem h8 h16 hk]
  obtain ⟨y, hy, hyp⟩ := Bus.trace_movePart (b := b) h8 h16 p driven first x.ads (!ps.isEmpty) hk (by rw [hs]; rfl)
  obtain ⟨ys, hys, hmap⟩ := Bus.trace_moveRest (x := x.onward c) h8 h16 hk hsize ps (b.movePart c x p driven first x.ads (!ps.isEmpty))
  refine ⟨y :: ys, ?_, by rw [List.map_cons, hmap, hyp]; rfl⟩
  unfold Bus.moveAll
  simp only [hp]
  rw [hys, hy, List.reverse_cons, List.append_assoc]
  rfl

end

/-! ### What a transfer moves -/

/-- The doublewords of a read enter the line-fill buffer, and nothing else changes but data latch, PCHK# and the record of cycles. -/
theorem Bus.moveAll_read {x : Xfer} (hk : x.kind = .memRead ∨ x.kind = .codeRead) (driven : BitVec 4) (first : Bool) :
    Bus.SameButRead b (b.moveAll c x driven first)
      ∧ (b.moveAll c x driven first).fillBuf = (x.parts.map (b.kept c)).reverse ++ b.fillBuf := by
  unfold Bus.moveAll
  cases x.parts with
  | nil => exact ⟨.refl b, rfl⟩
  | cons p ps =>
    obtain ⟨hp, hpbuf⟩ := Bus.movePart_read b c p driven first x.ads (!ps.isEmpty) hk
    obtain ⟨hps, hpsbuf⟩ := Bus.moveRest_read c (x := x.onward c) hk ps (b.movePart c x p driven first x.ads (!ps.isEmpty))
    refine ⟨hp.trans hps, hpsbuf.trans ?_⟩
    rw [hpbuf, List.map_cons, List.reverse_cons, List.append_assoc]
    congr 2
    exact List.map_congr_left fun q _ => Bus.kept_congr hp c q

/-- Memory after whole doublewords have been written: their bytes where one of them has the address, the old one elsewhere. -/
structure Bus.WroteParts (c : MemCtx) (ps : List BusPart) (b b' : Bus) : Prop where
  wf : b'.memWf = true
  unit : Bus.SameUnit b b'
  others : ∀ y : Addr, (∀ p ∈ ps, p.addr ≠ y.extractLsb' 2 30) → b'.physByte c y = b.physByte c y
  written : ∀ (y : Addr) (v : Byte), (∃ p ∈ ps, p.addr = y.extractLsb' 2 30) →
    (∀ p ∈ ps, p.addr = y.extractLsb' 2 30 → laneByte p.data (y.extractLsb' 0 2) = v) → b'.physByte c y = v

theorem Bus.WroteParts.cons {x : Xfer} {p : BusPart} {ps : List BusPart} {b' : Bus} {driven : BitVec 4} {first ads more : Bool}
    (hk : x.kind = .memWrite) (hl : p.lanes = 0xF#4) (hb : b.memWf = true)
    (h : Bus.WroteParts c ps (b.movePart c x p driven first ads more) b') : Bus.WroteParts c (p :: ps) b b' := by
  obtain ⟨-, hsame, hbyte⟩ := Bus.movePart_write b c p driven first ads more hk hb
  have hlane (y : Addr) : p.lanes.getLsbD (y.extractLsb' 0 2).toNat = true := by
    rw [hl]
    rcases lane_cases (y.extractLsb' 0 2) with h | h | h | h <;> rw [h] <;> decide
  refine ⟨h.wf, hsame.trans h.unit, fun y hy => ?_, fun y v hex hv => ?_⟩
  · rw [h.others y fun q hq => hy q (List.mem_cons_of_mem _ hq), hbyte,
      if_neg fun e => hy p (List.mem_cons_self ..) e.1.symm]
  · by_cases hps : ∃ q ∈ ps, q.addr = y.extractLsb' 2 30
    · exact h.written y v hps fun q hq => hv q (List.mem_cons_of_mem _ hq)
    · push Not at hps
      obtain ⟨q, hq, he⟩ := hex
      obtain rfl : q = p := (List.mem_cons.1 hq).resolve_right fun hmem => hps q hmem he
      rw [h.others y hps, hbyte, if_pos ⟨he.symm, hlane y⟩]
      exact hv q (List.mem_cons_self ..) he

theorem Bus.moveRest_write {x : Xfer} (hk : x.kind = .memWrite) (ps : List BusPart) :
    ∀ b : Bus, b.memWf = true → (∀ p ∈ ps, p.lanes = 0xF#4) → Bus.WroteParts c ps b (Bus.moveRest c x ps b) := by
  induction ps with
  | nil => exact fun b hb _ => ⟨hb, .refl b, fun _ _ => rfl, fun _ _ ⟨_, hp, _⟩ => absurd hp List.not_mem_nil⟩
  | cons p ps ih =>
    intro b hb hl
    have hwf := (Bus.movePart_write b c p p.lanes false (!c.plat.burst) (!ps.isEmpty) hk hb).1
    exact .cons hk (hl p (List.mem_cons_self ..)) hb (ih _ hwf fun q hq => hl q (List.mem_cons_of_mem _ hq))

theorem Bus.moveAll_write {x : Xfer} {p : BusPart} {ps : List BusPart} (hk : x.kind = .memWrite) (hp : x.parts = p :: ps)
    (hl : ∀ q ∈ p :: ps, q.lanes = 0xF#4) (hb : b.memWf = true) (driven : BitVec 4) (first : Bool) :
    Bus.WroteParts c (p :: ps) b (b.moveAll c x driven first) := by
  have hwf := (Bus.movePart_write b c p driven first x.ads (!ps.isEmpty) hk hb).1
  unfold Bus.moveAll
  simp only [hp]
  exact .cons hk (hl p (List.mem_cons_self ..)) hb
    (Bus.moveRest_write (x := x.onward c) hk ps _ hwf fun q hq => hl q (List.mem_cons_of_mem _ hq))

/-! ### The write-back of a line (45_family_variants.md R584) -/

/-- The doubleword `k` of the write-back of a line. -/
def lineDword (line : BitVec 28) (d : Vector Byte 16) (k : BitVec 2) : BusPart :=
  ⟨line ++ k, 0xF, ofBytes 32 (lineBytes d (k ++ 0#2) 4), 0⟩

theorem writeBackXfer_parts (line : BitVec 28) (d : Vector Byte 16) (hitm : Bool) :
    (writeBackXfer line d hitm).parts = [0, 1, 2, 3].map (lineDword line d) := rfl

theorem mem_places (k : BitVec 2) : k ∈ [0#2, 1, 2, 3] := by
  revert k
  decide

/-- A lane of bytes joined to a doubleword. -/
theorem laneByte_ofBytes (bs : List Byte) (k : BitVec 2) : laneByte (ofBytes 32 bs) k = bs.getD k.toNat 0 := by
  have h := laneByte_laneData (off := 0) (bs := bs) (k := k) (Nat.zero_le _)
  simpa [laneData, ofBytes] using h

/-- The doubleword of an address is its line and its place in the line. -/
theorem memDword_eq_append (y : Addr) : y.extractLsb' 2 30 = y.extractLsb' 4 28 ++ y.extractLsb' 2 2 := by
  refine BitVec.eq_of_getLsbD_eq fun i hi => ?_
  rw [BitVec.getLsbD_append]
  simp only [BitVec.getLsbD_extractLsb']
  split
  · simp [*]
  · rw [show 4 + (i - 2) = 2 + i by omega]
    simp [hi, show i - 2 < 28 by omega]

theorem append_place_inj {l m : BitVec 28} {j k : BitVec 2} : l ++ j = m ++ k ↔ l = m ∧ j = k := by
  refine ⟨fun h => ?_, fun ⟨hl, hj⟩ => by rw [hl, hj]⟩
  have hn := congrArg BitVec.toNat h
  rw [BitVec.toNat_append, BitVec.toNat_append, ← Nat.shiftLeft_add_eq_or_of_lt j.isLt, ← Nat.shiftLeft_add_eq_or_of_lt k.isLt,
    Nat.shiftLeft_eq, Nat.shiftLeft_eq] at hn
  exact ⟨BitVec.eq_of_toNat_eq (by omega), BitVec.eq_of_toNat_eq (by omega)⟩

/-- The byte of an address in its line, by doubleword and lane. -/
theorem byteOf_eq_lane (y : Addr) :
    (byteOf y).toNat = (y.extractLsb' 2 2 ++ 0#2 : BitVec 4).toNat + (y.extractLsb' 0 2).toNat := by
  have hplace (k : BitVec 2) : (k ++ 0#2 : BitVec 4).toNat = 4 * k.toNat := by
    revert k
    decide
  rw [hplace, byteOf_toNat, lane_toNat, BitVec.extractLsb'_toNat, Nat.shiftRight_eq_div_pow]
  omega

/-- Each lane of a doubleword of a line's write-back is the byte of the line there. -/
theorem laneByte_lineDword (line : BitVec 28) (d : Vector Byte 16) (y : Addr) :
    laneByte (lineDword line d (y.extractLsb' 2 2)).data (y.extractLsb' 0 2) = d[(byteOf y).toNat]'(byteOf y).isLt := by
  have hlane := (y.extractLsb' 0 2).isLt
  have hplace := (byteOf y).isLt
  have hbyte := byteOf_eq_lane y
  have hlt : (y.extractLsb' 0 2).toNat < (lineBytes d (y.extractLsb' 2 2 ++ 0#2) 4).length := by
    simp only [lineBytes, List.length_take, List.length_drop, Vector.length_toList]
    omega
  show laneByte (ofBytes 32 _) _ = _
  rw [laneByte_ofBytes, List.getD_eq_getElem _ _ hlt]
  simp only [lineBytes, List.getElem_take, List.getElem_drop, Vector.getElem_toList, hbyte]

/-- THE WRITE-BACK OF A LINE brings its bytes to memory, and changes nothing else but the record of cycles. -/
theorem Bus.moveAll_writeBack {line : BitVec 28} {d : Vector Byte 16} {hitm : Bool} (hb : b.memWf = true) :
    let b' := b.moveAll c (writeBackXfer line d hitm) 0xF true
    b'.memWf = true ∧ Bus.SameUnit b b' ∧ ∀ y : Addr, b'.physByte c y =
      if y.extractLsb' 4 28 = line then d[(byteOf y).toNat]'(byteOf y).isLt else b.physByte c y := by
  have h : Bus.WroteParts c ([0, 1, 2, 3].map (lineDword line d)) b _ :=
    Bus.moveAll_write (x := writeBackXfer line d hitm) rfl (writeBackXfer_parts line d hitm)
    (by simp [lineDword]) hb 0xF true
  have haddr (y : Addr) (k : BitVec 2) :
      (lineDword line d k).addr = y.extractLsb' 2 30 ↔ y.extractLsb' 4 28 = line ∧ y.extractLsb' 2 2 = k := by
    rw [memDword_eq_append, eq_comm]
    exact append_place_inj
  refine ⟨h.wf, h.unit, fun y => ?_⟩
  split_ifs with hy
  · refine h.written y _ ⟨_, List.mem_map_of_mem (mem_places _), (haddr y _).2 ⟨hy, rfl⟩⟩ fun p hp he => ?_
    obtain ⟨k, -, rfl⟩ := List.mem_map.1 hp
    obtain ⟨-, rfl⟩ := (haddr y k).1 he
    exact laneByte_lineDword ..
  · refine h.others y fun p hp he => ?_
    obtain ⟨k, -, rfl⟩ := List.mem_map.1 hp
    exact hy ((haddr y k).1 he).1

/-- The four doubleword writes of a line on a 32-bit bus, rising. -/
theorem Bus.trace_writeBack (h8 : c.plat.bus8 = []) (h16 : c.plat.bus16 = []) {line : BitVec 28} {d : Vector Byte 16} {hitm : Bool} :
    ∃ cycles : List BusCycle, (b.moveAll c (writeBackXfer line d hitm) 0xF true).trace = cycles.reverse ++ b.trace
      ∧ cycles.map (fun y => (y.kind, y.be, y.addr)) = [0#2, 1, 2, 3].map fun k => (.memWrite, 0#4, line ++ k) := by
  obtain ⟨cycles, htrace, hmap⟩ := Bus.trace_moveAll (b := b) h8 h16 0xF true (.inr rfl) (writeBackXfer_parts line d hitm) rfl
  exact ⟨cycles, htrace, hmap.trans (by simp [lineDword, writeBackXfer, Xfer.new])⟩

end Sys2Proof.Machine
end

section
/-! SUPPORT. Line fills: the line installed in the cache, what it replaces, and the processor's view (O51). -/

namespace Sys2Proof
open Machine

/-! ### The ways of a set that hold a tag -/

section
variable {e : CacheSet} {t : BitVec 21} {v : BitVec 2}

theorem CacheSet.matches_iff : e.matches t v = true ↔ (e.way v).valid = true ∧ (e.way v).tag = t := by
  simp [CacheSet.matches]

/-- A way found is one that holds the tag. -/
theorem CacheSet.matches_of_find (h : e.find t = some v) : e.matches t v = true := matches_iff.2 (find_some h)

/-- Nothing is found where no way holds the tag. -/
theorem CacheSet.find_eq_none_iff : e.find t = none ↔ ∀ v, e.matches t v = false := by
  constructor
  · intro h v
    unfold CacheSet.find at h
    split_ifs at h with h0 h1 h2 h3
    rcases lane_cases v with rfl | rfl | rfl | rfl <;> exact Bool.eq_false_iff.2 ‹_›
  · intro h
    simp [CacheSet.find, h]

/-- The only way that holds the tag is found. -/
theorem CacheSet.find_eq_some (h : e.matches t v = true) (honly : ∀ u, e.matches t u = true → u = v) : e.find t = some v := by
  cases hf : e.find t with
  | none => exact absurd ((find_eq_none_iff.1 hf v).symm.trans h) Bool.false_ne_true
  | some u => rw [honly u (matches_of_find hf)]

/-- No two valid ways of a set hold the same tag. -/
def CacheSet.Distinct (e : CacheSet) : Prop :=
  ∀ v w, v ≠ w → (e.way v).valid = true → (e.way w).valid = true → (e.way v).tag ≠ (e.way w).tag

theorem CacheSet.Distinct.find (hd : e.Distinct) (hv : (e.way v).valid = true) : e.find (e.way v).tag = some v := by
  refine find_eq_some (matches_iff.2 ⟨hv, rfl⟩) fun u hu => ?_
  obtain ⟨hval, htag⟩ := matches_iff.1 hu
  by_contra hne
  exact hd u v hne hval hv htag

end

/-! ### A line installed (41_cache_operations.md R366) -/

section
variable {k : Cache} {big : Bool} {a x : Addr} {w v : BitVec 2} {s : BitVec 8} {st : Mesi} {d : Vector Byte 16}

theorem Cache.way_install : ((k.install big a w st d).entry s).way v =
    if s = setOf big a ∧ v = w then ⟨tagOf big a, st, d⟩ else (k.entry s).way v := by
  unfold Cache.install
  rw [Cache.entry_putSet]
  by_cases hs : s = setOf big a
  · subst hs
    by_cases hv : v = w <;> simp [CacheSet.way_putWay, hv]
  · simp [hs]

theorem Cache.matches_install (hst : st ≠ .invalid) (t : BitVec 21) : ((k.install big a w st d).entry s).matches t v =
    if s = setOf big a ∧ v = w then tagOf big a == t else (k.entry s).matches t v := by
  unfold CacheSet.matches
  rw [Cache.way_install]
  split_ifs <;> simp [Line.valid, hst]

/-- The addresses of the line installed find it, where none was found before. -/
theorem Cache.lookup_install_line (hst : st ≠ .invalid) (hmiss : k.lookup big a = none)
    (hx : x.extractLsb' 4 28 = a.extractLsb' 4 28) : (k.install big a w st d).lookup big x = some w := by
  obtain ⟨hset, htag⟩ := set_tag_of_line hx big
  unfold Cache.lookup
  rw [hset, htag]
  refine CacheSet.find_eq_some (by simp [Cache.matches_install hst]) fun u hu => ?_
  by_contra hne
  rw [Cache.matches_install hst, if_neg fun h => hne h.2, CacheSet.find_eq_none_iff.1 hmiss u] at hu
  exact Bool.false_ne_true hu

/-- The addresses of the line replaced find nothing any more. -/
theorem Cache.lookup_install_replaced (hst : st ≠ .invalid) (hmiss : k.lookup big a = none)
    (hd : (k.entry (setOf big a)).Distinct) (hold : ((k.entry (setOf big a)).way w).valid = true)
    (hset : setOf big x = setOf big a) (htag : tagOf big x = ((k.entry (setOf big a)).way w).tag) :
    (k.install big a w st d).lookup big x = none := by
  have hfound := hd.find hold
  unfold Cache.lookup
  rw [hset, htag, CacheSet.find_eq_none_iff]
  intro v
  rw [Cache.matches_install hst]
  split_ifs with hv
  · refine beq_false_of_ne fun h => ?_
    rw [← h] at hfound
    exact absurd (hmiss.symm.trans hfound) (Option.some_ne_none w).symm
  · refine Bool.eq_false_iff.2 fun hm => hv ⟨rfl, ?_⟩
    obtain ⟨hval, htag'⟩ := CacheSet.matches_iff.1 hm
    by_contra hne
    exact hd v w hne hval hold htag'

/-- Of every address outside both lines the cache holds what it held. -/
theorem Cache.byteAt_install_other (hst : st ≠ .invalid)
    (hx : setOf big x = setOf big a → tagOf big x ≠ tagOf big a
      ∧ (((k.entry (setOf big a)).way w).valid = true → tagOf big x ≠ ((k.entry (setOf big a)).way w).tag)) :
    (k.install big a w st d).byteAt big x = k.byteAt big x := by
  have hmatches (v : BitVec 2) : ((k.install big a w st d).entry (setOf big x)).matches (tagOf big x) v
      = (k.entry (setOf big x)).matches (tagOf big x) v := by
    rw [Cache.matches_install hst]
    split_ifs with h
    · obtain ⟨hset, rfl⟩ := h
      obtain ⟨hnew, hold⟩ := hx hset
      rw [hset, beq_false_of_ne hnew.symm, eq_comm, Bool.eq_false_iff]
      intro hm
      obtain ⟨hval, htag⟩ := CacheSet.matches_iff.1 hm
      exact hold hval htag.symm
    · rfl
  have hlook : (k.install big a w st d).lookup big x = k.lookup big x := by
    unfold Cache.lookup CacheSet.find
    simp only [hmatches]
  unfold Cache.byteAt
  rw [hlook]
  cases hl : k.lookup big x with
  | none => rfl
  | some v =>
    have hway : ((k.install big a w st d).entry (setOf big x)).way v = (k.entry (setOf big x)).way v := by
      rw [Cache.way_install, if_neg]
      rintro ⟨hset, rfl⟩
      obtain ⟨hval, htag⟩ := CacheSet.find_some hl
      rw [hset] at hval htag
      exact (hx hset).2 hval htag.symm
    simp only [Option.map_some, hway]

end

end Sys2Proof
end

section
/-! SUPPORT. A read miss that fills a line: its transfers, and what the processor and memory hold after it (O51). -/

namespace Sys2Proof.Machine

variable {b b' : Bus} {c : MemCtx} {x : Xfer} {a : Addr}

/-! ### The transfer becomes a line fill (41_cache_operations.md R350 to R352) -/

/-- A read about to start at the doubleword of an address, which the processor would cache. -/
structure Xfer.ReadsAt (x : Xfer) (a : Addr) : Prop where
  kind : x.kind = .memRead
  want : x.want = true
  undecided : x.decided = false
  fresh : x.stale = false
  size : x.size = none
  addr : ∃ p ps, x.parts = p :: ps ∧ p.addr = a.extractLsb' 2 30

/-- The environment lets the line of an address be cached: KEN# in the first sample and in the last (41_cache_operations.md R352). -/
structure Cacheable (c : MemCtx) (a : Addr) : Prop where
  ken : inRanges c.plat.nonCacheable (lineBase a).toNat = false
  validated : c.plat.kenAbort = false

/-- A line of a write-back cache filled with WB/WT# high is exclusive (45_family_variants.md R583). -/
def fillState (c : MemCtx) (a : Addr) : Mesi :=
  if c.wb && !inRanges c.plat.writeThrough (lineBase a).toNat then .exclusive else .shared

theorem fillState_ne_invalid : fillState c a ≠ .invalid := by
  unfold fillState
  split <;> exact Mesi.noConfusion

/-- The fill that the read becomes at its first ready. -/
def Xfer.asFill (c : MemCtx) (x : Xfer) (a : Addr) : Xfer :=
  { x with decided := true, fill := true, wbwt := !inRanges c.plat.writeThrough (lineBase a).toNat, parts := lineParts (a.extractLsb' 2 30) }

theorem Xfer.ReadsAt.line (h : x.ReadsAt a) : x.line = a.extractLsb' 4 28 := by
  obtain ⟨p, ps, hparts, haddr⟩ := h.addr
  simp only [Xfer.line, hparts, haddr]
  exact extract_memDword a

theorem Xfer.ReadsAt.answered (h : x.ReadsAt a) (hc : Cacheable c a) : x.answered c = x.asFill c a := by
  have hbase : (x.line ++ 0#4 : Addr) = lineBase a := by rw [h.line]; rfl
  obtain ⟨p, ps, hparts, haddr⟩ := h.addr
  unfold Xfer.answered Xfer.decide
  rw [hbase, Xfer.kenSampled_none c h.size, Option.getD_none, hc.ken]
  rw [if_neg (by simp [h.undecided])]
  simp only [hparts, haddr]
  exact if_pos (by simp [h.want])

theorem Xfer.asFill_line : (x.asFill c a).line = a.extractLsb' 4 28 := by
  show (fillAddr (a.extractLsb' 2 30) 0).extractLsb' 2 28 = _
  rw [show fillAddr (a.extractLsb' 2 30) 0 = a.extractLsb' 2 30 from BitVec.xor_zero]
  exact extract_memDword a

theorem Xfer.asFill_wbwt : (x.asFill c a).wbwt = !inRanges c.plat.writeThrough (lineBase a).toNat := rfl

/-! ### The three parts of a fill -/

/-- The line of an address read. -/
def Bus.lineRead (b : Bus) (c : MemCtx) (x : Xfer) (a : Addr) : Bus :=
  b.moveAll c (x.asFill c a) (x.parts.headD ⟨0, 0, 0, 0⟩).lanes true

/-- The way that the line of an address goes to, and the line that stands there. -/
def Bus.victimWay (b : Bus) (c : MemCtx) (a : Addr) : BitVec 2 := (b.cache.entry (setOf c.big a)).victim
def Bus.victimLine (b : Bus) (c : MemCtx) (a : Addr) : Line := (b.cache.entry (setOf c.big a)).way (b.victimWay c a)
def Bus.victimBase (b : Bus) (c : MemCtx) (a : Addr) : Addr := lineAddr c.big (b.victimLine c a).tag (setOf c.big a)

/-- The line read, installed. -/
def Bus.lineKept (b : Bus) (c : MemCtx) (a : Addr) : Bus :=
  { b with cache := b.cache.install c.big a (b.victimWay c a) (fillState c a) (lineOfBytes (b.readBytes (lineBase a) 16)) }

/-- The line `old` with this base address written back where it is modified. -/
def Bus.modifiedWritten (b : Bus) (c : MemCtx) (old : Line) (base : Addr) : Bus :=
  if old.st = .modified then b.moveAll c (writeBackXfer (base.extractLsb' 4 28) old.data false) 0xF true else b

theorem Cache.install_congr {k : Cache} {big : Bool} {y : Addr} (h : y.extractLsb' 4 28 = a.extractLsb' 4 28) (w : BitVec 2) (st : Mesi)
    (d : Vector Byte 16) : k.install big y w st d = k.install big a w st d := by
  obtain ⟨hset, htag⟩ := set_tag_of_line h big
  unfold Cache.install
  rw [hset, htag]

theorem line_lineBase (a : Addr) : (lineBase a).extractLsb' 4 28 = a.extractLsb' 4 28 := by
  simpa using line_of_lineBase a (i := 0) (by omega)

/-- Installing a line leaves the write-back of the one it replaces to be run. -/
theorem Bus.installLine_eq (b : Bus) (c : MemCtx) (a : Addr) :
    b.installLine c (a.extractLsb' 4 28) (!inRanges c.plat.writeThrough (lineBase a).toNat) = (b.lineKept c a,
      if (b.victimLine c a).st = .modified then
        some (writeBackXfer ((b.victimBase c a).extractLsb' 4 28) (b.victimLine c a).data false)
      else none) := by
  have hset : setOf c.big (lineBase a) = setOf c.big a := (set_tag_of_line (line_lineBase a) c.big).1
  unfold Bus.installLine Bus.lineKept Bus.victimBase Bus.victimLine Bus.victimWay
  rw [show (a.extractLsb' 4 28 ++ 0#4 : Addr) = lineBase a from rfl]
  dsimp only
  rw [hset, Cache.install_congr (line_lineBase a)]
  rfl

/-- A FILL RUN WHOLE: the line is read and installed, and the modified line it replaces is written back. -/
theorem Bus.finish_fill (h : x.ReadsAt a) (hc : Cacheable c a) :
    b.finish c x = ((b.lineRead c x a).lineKept c a).modifiedWritten c ((b.lineRead c x a).victimLine c a)
      ((b.lineRead c x a).victimBase c a) := by
  have hval : (x.asFill c a).validated c = true := by
    show (!c.plat.kenAbort) = true
    rw [hc.validated]
    rfl
  have hgo : ((x.asFill c a).fill && !(x.asFill c a).stale && (x.asFill c a).validated c) = true := by
    rw [hval, show (x.asFill c a).stale = false from h.fresh]
    rfl
  have hread : b.moveAll c (x.asFill c a) (x.parts.headD ⟨0, 0, 0, 0⟩).lanes true = b.lineRead c x a := rfl
  unfold Bus.finish
  simp only [h.answered hc, h.undecided, hgo, if_true, Bool.not_false, hread, Xfer.asFill_line, Xfer.asFill_wbwt, Bus.installLine_eq]
  unfold Bus.modifiedWritten
  by_cases hm : ((b.lineRead c x a).victimLine c a).st = .modified
  · simp only [hm, if_true]
  · simp only [if_neg hm]

/-! ### The line read -/

/-- A line-fill buffer that holds the line of an address as memory had it. -/
def Bus.HoldsLine (b : Bus) (c : MemCtx) (a : Addr) (b₀ : Bus) : Prop :=
  b.fillBuf = ((lineParts (a.extractLsb' 2 30)).map (b₀.kept c)).reverse

variable {b₀ : Bus}

theorem Bus.lineRead_spec (h : x.ReadsAt a) (hbuf : b.fillBuf = []) : Bus.SameButRead b (b.lineRead c x a)
    ∧ (b.lineRead c x a).HoldsLine c a b := by
  obtain ⟨hsame, hfill⟩ := Bus.moveAll_read (b := b) (c := c) (x := x.asFill c a) (.inl h.kind) (x.parts.headD ⟨0, 0, 0, 0⟩).lanes true
  rw [hbuf, List.append_nil] at hfill
  exact ⟨hsame, hfill⟩

theorem Bus.HoldsLine.readBytes (h : b.HoldsLine c a b₀) {n : Nat} (hf : Fits 4 a n) :
    b.readBytes a n = (List.range n).map fun i => b₀.physByte c (a + BitVec.ofNat 32 i) := by
  have hn : n ≤ 2 ^ 20 := by
    unfold Fits at hf
    omega
  refine List.map_congr_left fun i hi => ?_
  rw [h]
  exact partByte_line ((covers_line hf).1 (covers_add (List.mem_range.1 hi) hn)).1

theorem lineOfBytes_get {bs : List Byte} (hlen : bs.length = 16) {i : Nat} (hi : i < 16) : (lineOfBytes bs)[i] = bs.getD i 0 := by
  unfold lineOfBytes
  rw [lineWrite_get, if_pos ⟨Nat.zero_le i, by omega⟩, Nat.sub_zero]

/-- The line installed holds memory's sixteen bytes. -/
theorem Bus.HoldsLine.line (h : b.HoldsLine c a b₀) {y : Addr} (hy : y.extractLsb' 4 28 = a.extractLsb' 4 28) :
    (lineOfBytes (b.readBytes (lineBase a) 16))[(byteOf y).toNat]'(byteOf y).isLt = b₀.physByte c y := by
  have hbase : lineBase a = lineBase y := congrArg (· ++ 0#4) hy.symm
  rw [lineOfBytes_get (by simp [Bus.readBytes]) (byteOf y).isLt, Bus.readBytes, List.getD_eq_getElem _ _ (by simpa using (byteOf y).isLt),
    List.getElem_map, List.getElem_range, hbase, lineBase_add_byteOf, h]
  exact partByte_line hy

/-! ### The line written back -/

/-- After the write-back memory holds the modified line, and all else stays but the record of cycles. -/
theorem Bus.modifiedWritten_spec {old : Line} {base : Addr} (hb : b.memWf = true) :
    (b.modifiedWritten c old base).memWf = true ∧ Bus.SameUnit b (b.modifiedWritten c old base)
      ∧ ∀ y : Addr, (b.modifiedWritten c old base).physByte c y =
        if old.st = .modified ∧ y.extractLsb' 4 28 = base.extractLsb' 4 28 then old.data[(byteOf y).toNat]'(byteOf y).isLt
        else b.physByte c y := by
  unfold Bus.modifiedWritten
  by_cases hm : old.st = .modified
  · simp only [hm, if_true, true_and]
    exact Bus.moveAll_writeBack hb
  · simp only [if_neg hm]
    exact ⟨hb, .refl b, fun y => (if_neg fun h => hm h.1).symm⟩

/-! ### What a fill leaves -/

/-- The line of an address has been filled from memory, and the modified line it replaces is in memory. -/
structure Bus.LineFilled (c : MemCtx) (b : Bus) (a : Addr) (b' : Bus) : Prop where
  wf : b'.memWf = true
  wb : b'.wb = b.wb
  fillBuf : b'.HoldsLine c a b
  cache : ∃ d : Vector Byte 16, b'.cache = b.cache.install c.big a (b.victimWay c a) (fillState c a) d
    ∧ ∀ y : Addr, y.extractLsb' 4 28 = a.extractLsb' 4 28 → d[(byteOf y).toNat]'(byteOf y).isLt = b.physByte c y
  phys : ∀ y : Addr, b'.physByte c y =
    if (b.victimLine c a).st = .modified ∧ y.extractLsb' 4 28 = (b.victimBase c a).extractLsb' 4 28 then
      (b.victimLine c a).data[(byteOf y).toNat]'(byteOf y).isLt
    else b.physByte c y

/-- The line replaced is that of the cache before the read. -/
theorem Bus.SameButRead.victim (h : Bus.SameButRead b b') : b'.victimWay c a = b.victimWay c a
    ∧ b'.victimLine c a = b.victimLine c a ∧ b'.victimBase c a = b.victimBase c a := by
  unfold Bus.victimBase Bus.victimLine Bus.victimWay
  simp only [h.cache, and_self]

theorem Bus.finish_fill_spec (h : x.ReadsAt a) (hc : Cacheable c a) (hb : b.memWf = true) (hbuf : b.fillBuf = []) :
    Bus.LineFilled c b a (b.finish c x) := by
  obtain ⟨hsame, hholds⟩ := Bus.lineRead_spec (c := c) h hbuf
  obtain ⟨hway, hline, hbase⟩ := hsame.victim (c := c) (a := a)
  obtain ⟨hwf, hunit, hphys⟩ := Bus.modifiedWritten_spec (b := (b.lineRead c x a).lineKept c a) (c := c) (old := b.victimLine c a)
    (base := b.victimBase c a) (hsame.memWf.trans hb)
  rw [Bus.finish_fill h hc, hline, hbase]
  refine ⟨hwf, hunit.wb.trans hsame.wb, hunit.fillBuf.trans hholds, ⟨_, ?_, fun y hy => hholds.line hy⟩, fun y => ?_⟩
  · rw [hunit.cache, ← hway, ← hsame.cache]
    rfl
  · rw [hphys y]
    exact if_congr Iff.rfl rfl (hsame.physByte c y)

/-! ### What the processor sees of a fill -/

theorem lineBase_append (line : BitVec 28) : lineBase (line ++ 0#4 : Addr) = line ++ 0#4 := by
  have h : (line ++ 0#4 : BitVec (28 + 4)).toNat = line.toNat * 16 := by
    rw [BitVec.toNat_append, ← Nat.shiftLeft_add_eq_or_of_lt (0#4).isLt, Nat.shiftLeft_eq]
    rfl
  apply BitVec.eq_of_toNat_eq
  rw [lineBase_toNat]
  exact h ▸ by omega

theorem lineBase_lineAddr (big : Bool) (t : BitVec 21) (s : BitVec 8) : lineBase (lineAddr big t s) = lineAddr big t s := by
  cases big with
  | false => exact lineBase_append (t ++ (s.setWidth 7 : BitVec 7))
  | true => exact lineBase_append ((t.setWidth 20 : BitVec 20) ++ s)

/-- The addresses of a line, by its base address. -/
theorem lineBase_eq_iff {y base : Addr} (h : lineBase base = base) : lineBase y = base ↔ y.extractLsb' 4 28 = base.extractLsb' 4 28 := by
  constructor
  · rintro rfl
    exact (line_lineBase y).symm
  · intro hy
    rw [← h]
    exact congrArg (· ++ 0#4) hy

/-- In the set of the line of an address no two valid ways hold the same tag; the line it is to replace stands, where it is valid, where
its tag says, and equals memory unless it is modified. -/
structure Bus.VictimSound (c : MemCtx) (b : Bus) (a : Addr) : Prop where
  distinct : (b.cache.entry (setOf c.big a)).Distinct
  placed : (b.victimLine c a).valid = true →
    setOf c.big (b.victimBase c a) = setOf c.big a ∧ tagOf c.big (b.victimBase c a) = (b.victimLine c a).tag
  same : (b.victimLine c a).valid = true → (b.victimLine c a).st ≠ .modified →
    ∀ y, lineBase y = b.victimBase c a → b.view c y = b.physByte c y

theorem Line.valid_of_modified {l : Line} (h : l.st = .modified) : l.valid = true := by
  simp [Line.valid, h]

/-- Which line an address belongs to: the one filled, the one replaced, or another. -/
theorem Bus.VictimSound.line_cases (hv : Bus.VictimSound c b a) (y : Addr) :
    y.extractLsb' 4 28 = a.extractLsb' 4 28
    ∨ ((b.victimLine c a).valid = true ∧ y.extractLsb' 4 28 = (b.victimBase c a).extractLsb' 4 28)
    ∨ (¬((b.victimLine c a).st = .modified ∧ y.extractLsb' 4 28 = (b.victimBase c a).extractLsb' 4 28)
      ∧ (setOf c.big y = setOf c.big a → tagOf c.big y ≠ tagOf c.big a
        ∧ ((b.victimLine c a).valid = true → tagOf c.big y ≠ (b.victimLine c a).tag))) := by
  by_cases hnew : y.extractLsb' 4 28 = a.extractLsb' 4 28
  · exact .inl hnew
  · by_cases hold : (b.victimLine c a).valid = true ∧ y.extractLsb' 4 28 = (b.victimBase c a).extractLsb' 4 28
    · exact .inr (.inl hold)
    · refine .inr (.inr ⟨fun h => hold ⟨Line.valid_of_modified h.1, h.2⟩, fun hset => ⟨fun htag => hnew (line_of_set_tag hset htag),
        fun hval htag => hold ⟨hval, ?_⟩⟩⟩)
      obtain ⟨hbset, hbtag⟩ := hv.placed hval
      exact line_of_set_tag (hset.trans hbset.symm) (htag.trans hbtag.symm)

/-- AFTER A FILL the processor sees every byte as before. -/
theorem Bus.LineFilled.view (hf : Bus.LineFilled c b a b') (hwb : b.wb = []) (hmiss : b.cache.lookup c.big a = none)
    (hv : Bus.VictimSound c b a) (y : Addr) : b'.view c y = b.view c y := by
  obtain ⟨d, hcache, hdata⟩ := hf.cache
  have hview' : b'.view c y = (b'.cache.byteAt c.big y).getD (b'.physByte c y) := by
    rw [Bus.view_memView, Bus.memView_empty (hf.wb.trans hwb)]
  have hview : b.view c y = (b.cache.byteAt c.big y).getD (b.physByte c y) := by
    rw [Bus.view_memView, Bus.memView_empty hwb]
  rcases hv.line_cases y with hnew | ⟨hval, hold⟩ | ⟨hmem, hother⟩
  · have hlook : b'.cache.lookup c.big y = some (b.victimWay c a) := by
      rw [hcache]
      exact Cache.lookup_install_line fillState_ne_invalid hmiss hnew
    have hnone : b.cache.byteAt c.big y = none := by
      unfold Cache.byteAt
      rw [lookup_line hnew, hmiss]
      rfl
    have hin : b'.cache.byteAt c.big y = some (b.physByte c y) := by
      unfold Cache.byteAt
      rw [hlook, Option.map_some, ← hdata y hnew]
      simp only [hcache, Cache.way_install, (set_tag_of_line hnew c.big).1, and_self, if_true]
    rw [hview', hview, hin, hnone]
    rfl
  · obtain ⟨hbset, hbtag⟩ := hv.placed hval
    obtain ⟨hset, htag⟩ := set_tag_of_line hold c.big
    have hnone : b'.cache.byteAt c.big y = none := by
      unfold Cache.byteAt
      rw [hcache, Cache.lookup_install_replaced fillState_ne_invalid hmiss hv.distinct hval (hset.trans hbset) (htag.trans hbtag)]
      rfl
    rw [hview', hnone, Option.getD_none, hf.phys]
    by_cases hm : (b.victimLine c a).st = .modified
    · have hlook : b.cache.lookup c.big y = some (b.victimWay c a) := by
        unfold Cache.lookup
        rw [hset.trans hbset, htag.trans hbtag]
        exact hv.distinct.find hval
      rw [if_pos ⟨hm, hold⟩, hview]
      unfold Cache.byteAt
      rw [hlook]
      simp only [hset.trans hbset]
      rfl
    · rw [if_neg fun h => hm h.1]
      exact (hv.same hval hm y ((lineBase_eq_iff (lineBase_lineAddr ..)).2 hold)).symm
  · rw [hview', hview, hf.phys, if_neg hmem, hcache, Cache.byteAt_install_other fillState_ne_invalid hother]

/-! ### What the cache and memory hold of a fill -/

theorem fillState_eq (c : MemCtx) (a : Addr) :
    fillState c a = if c.wb = true ∧ inRanges c.plat.writeThrough (lineBase a).toNat = false then .exclusive else .shared := by
  simp [fillState]

/-- The line filled is valid, in the state that WB/WT# gives it. -/
theorem Bus.LineFilled.stateAt (hf : Bus.LineFilled c b a b') (hmiss : b.cache.lookup c.big a = none) :
    Cache.stateAt b'.cache c.big a = some (fillState c a) := by
  obtain ⟨d, hcache, -⟩ := hf.cache
  unfold Cache.stateAt
  rw [hcache, Cache.lookup_install_line fillState_ne_invalid hmiss rfl, Option.map_some, Cache.way_install, if_pos ⟨rfl, rfl⟩]

theorem Bus.LineFilled.replaced (hf : Bus.LineFilled c b a b') (hm : (b.victimLine c a).st = .modified) {i : Nat} (hi : i < 16) :
    b'.physByte c (b.victimBase c a + BitVec.ofNat 32 i) = (b.victimLine c a).data[i] := by
  have hbase : lineBase (b.victimBase c a) = b.victimBase c a := lineBase_lineAddr ..
  have hline := line_of_lineBase (b.victimBase c a) hi
  have hbyte := byteOf_lineBase (b.victimBase c a) hi
  rw [hbase] at hline hbyte
  rw [hf.phys, if_pos ⟨hm, hline⟩]
  simp only [hbyte]

theorem Bus.LineFilled.others (hf : Bus.LineFilled c b a b') {y : Addr}
    (hy : (b.victimLine c a).st ≠ .modified ∨ lineBase y ≠ b.victimBase c a) : b'.physByte c y = b.physByte c y := by
  rw [hf.phys, if_neg]
  rintro ⟨hm, hline⟩
  exact hy.elim (fun h => h hm) fun h => h ((lineBase_eq_iff (lineBase_lineAddr ..)).2 hline)

/-! ### The bus cycles of a fill (41_cache_operations.md R356; 45_family_variants.md R585) -/

/-- The place of a doubleword of a line, as the address has it. -/
theorem memDword_or {base : Addr} (h : lineBase base = base) (k : BitVec 2) :
    base.extractLsb' 2 30 ||| k.setWidth 30 = base.extractLsb' 4 28 ++ k := by
  have hplace : base.extractLsb' 2 2 = 0#2 := by
    have hn := congrArg BitVec.toNat h
    rw [lineBase_toNat] at hn
    apply BitVec.eq_of_toNat_eq
    rw [BitVec.extractLsb'_toNat, Nat.shiftRight_eq_div_pow, BitVec.toNat_ofNat]
    omega
  rw [memDword_eq_append, hplace]
  refine BitVec.eq_of_getLsbD_eq fun i hi => ?_
  rw [BitVec.getLsbD_or, BitVec.getLsbD_append, BitVec.getLsbD_append]
  split
  · simp [hi]
  · simp [BitVec.getLsbD_of_ge k i (by omega)]

section
variable (h8 : c.plat.bus8 = []) (h16 : c.plat.bus16 = [])
include h8 h16

/-- The line is read by four doubleword reads, the one asked for first. -/
theorem Bus.trace_lineRead (h : x.ReadsAt a) : ∃ c4 c3 c2 c1, (b.lineRead c x a).trace = c4 :: c3 :: c2 :: c1 :: b.trace
    ∧ [c1, c2, c3, c4].map (·.addr) = [0, 1, 2, 3].map (fun k => a.extractLsb' 2 30 ^^^ k)
    ∧ ∀ y ∈ [c1, c2, c3, c4], y.kind = .memRead := by
  obtain ⟨cycles, htrace, hmap⟩ := Bus.trace_moveAll (b := b) (x := x.asFill c a) h8 h16 (x.parts.headD ⟨0, 0, 0, 0⟩).lanes true
    (.inl h.kind) rfl h.size
  have hkind : (x.asFill c a).kind = .memRead := h.kind
  simp only [hkind, List.map_cons, List.map_nil, List.map_eq_cons_iff, List.map_eq_nil_iff, Prod.mk.injEq] at hmap
  obtain ⟨c1, _, rfl, ⟨k1, -, a1⟩, c2, _, rfl, ⟨k2, -, a2⟩, c3, _, rfl, ⟨k3, -, a3⟩, c4, _, rfl, ⟨k4, -, a4⟩, rfl⟩ := hmap
  refine ⟨c4, c3, c2, c1, htrace, ?_, by simp [k1, k2, k3, k4]⟩
  simp only [List.map_cons, a1, a2, a3, a4]
  rfl

/-- The modified line is written by four doubleword writes, rising; another line by none. -/
theorem Bus.trace_modifiedWritten {old : Line} {base : Addr} (hbase : lineBase base = base) :
    ∃ back, (b.modifiedWritten c old base).trace = back ++ b.trace
      ∧ back.reverse.map (fun y => (y.kind, y.be, y.addr)) =
        if old.st = .modified then [0, 1, 2, 3].map fun k => (.memWrite, 0#4, base.extractLsb' 2 30 ||| k) else [] := by
  unfold Bus.modifiedWritten
  by_cases hm : old.st = .modified
  · obtain ⟨cycles, htrace, hmap⟩ := Bus.trace_writeBack (b := b) h8 h16 (line := base.extractLsb' 4 28) (d := old.data) (hitm := false)
    refine ⟨cycles.reverse, by rw [if_pos hm, htrace], ?_⟩
    rw [List.reverse_reverse, hmap, if_pos hm]
    simp only [← memDword_or hbase]
    rfl
  · exact ⟨[], by rw [if_neg hm]; rfl, by rw [if_neg hm]; rfl⟩

/-- THE CYCLES OF A FILL: the four reads of the line, and right after them the writes of the modified line it replaces. -/
theorem Bus.trace_finish_fill (h : x.ReadsAt a) (hc : Cacheable c a) :
    ∃ c4 c3 c2 c1 back, (b.finish c x).trace = back ++ c4 :: c3 :: c2 :: c1 :: b.trace
      ∧ [c1, c2, c3, c4].map (·.addr) = [0, 1, 2, 3].map (fun k => a.extractLsb' 2 30 ^^^ k)
      ∧ (∀ y ∈ [c1, c2, c3, c4], y.kind = .memRead)
      ∧ back.reverse.map (fun y => (y.kind, y.be, y.addr)) = if (b.victimLine c a).st = .modified then
          [0, 1, 2, 3].map fun k => (.memWrite, 0#4, (b.victimBase c a).extractLsb' 2 30 ||| k) else [] := by
  have hsame : Bus.SameButRead b (b.lineRead c x a) := (Bus.moveAll_read (x := x.asFill c a) (.inl h.kind) _ true).1
  obtain ⟨-, hline, hbase⟩ := hsame.victim (c := c) (a := a)
  obtain ⟨c4, c3, c2, c1, hreads, haddr, hkind⟩ := Bus.trace_lineRead (b := b) h8 h16 h
  obtain ⟨back, hback, hmap⟩ := Bus.trace_modifiedWritten (b := (b.lineRead c x a).lineKept c a) (old := b.victimLine c a)
    (base := b.victimBase c a) h8 h16 (lineBase_lineAddr ..)
  refine ⟨c4, c3, c2, c1, back, ?_, haddr, hkind, hmap⟩
  rw [Bus.finish_fill h hc, hline, hbase, hback]
  exact congrArg (back ++ ·) hreads

end

/-! ### The read of one part that misses -/

/-- A read that misses with the write buffers empty is one transfer. -/
theorem readChunk_miss {more : Bool} {ch : PChunk} (hfree : c.busFree = true) (hs : b.script = []) (hwb : b.wb = [])
    (hmiss : b.cache.lookup c.big (maskA20 c ch.pa) = none) :
    ∃ more' b', b' = Bus.finish { b with fillBuf := [], pchk := false } c
        (readXfer c .memRead ch more' (readParts (maskA20 c ch.pa) ch.len))
      ∧ readChunk c .memRead more ch b = .ok (b'.readBytes (maskA20 c ch.pa) ch.len) b' := by
  have horder : orderRead c (maskA20 c ch.pa) b = .ok () b := by
    unfold orderRead
    rw [if_neg (by simp [hfree]), if_neg (by simp [hwb])]
    exact drainBuffers_empty hwb
  refine ⟨more || b.operandBegun, _, rfl, ?_⟩
  have ht := transact_ok (c := c) false [readXfer c .memRead ch (more || b.operandBegun) (readParts (maskA20 c ch.pa) ch.len)] hs
  rw [if_pos (by rfl)] at ht
  unfold readChunk
  rw [bind_ok (get_run b)]
  simp only [hmiss]
  rw [bind_ok horder, bind_ok (get_run b), bind_ok ht, bind_ok (get_run _)]
  rfl

/-- The doublewords of a read begin with the one of its address. -/
theorem readXfer_readsAt {ch : PChunk} {more : Bool} {n : Nat} (hn : 0 < n) (hcd : c.cd = false) (hpcd : ch.pcd = false) :
    (readXfer c .memRead ch more (readParts a n)).ReadsAt a := by
  obtain ⟨k, -, -, -, -, hparts⟩ := chunksOf_cons 2 n a n hn
  exact ⟨rfl, by simp [readXfer, hcd, hpcd], rfl, rfl, rfl, ⟨a.extractLsb' 2 30, LChunk.lanes ⟨a, k⟩, 0, 0⟩, _,
    congrArg (List.map _) hparts, rfl⟩

/-- Settles O51: the read becomes a fill, whose three parts are the line read, installed, and the modified line written back. -/
theorem readMissFills : Obligations.ReadMissFills := by
  intro c more ch b
  dsimp only
  intro hb hfree hs hwb hpos hfits hmiss hcd hpcd hken habort h8 h16 hdistinct hold
  have hsound : Bus.VictimSound c b (maskA20 c ch.pa) :=
    ⟨hdistinct, fun h => ⟨(hold h).1, (hold h).2.1⟩, fun h => (hold h).2.2⟩
  have hc : Cacheable c (maskA20 c ch.pa) := ⟨hken, habort⟩
  obtain ⟨more', b', hb', hrun⟩ := readChunk_miss (more := more) hfree hs hwb hmiss
  have hreads : (readXfer c .memRead ch more' (readParts (maskA20 c ch.pa) ch.len)).ReadsAt (maskA20 c ch.pa) :=
    readXfer_readsAt hpos hcd hpcd
  have hfilled := Bus.finish_fill_spec (b := { b with fillBuf := [], pchk := false }) hreads hc hb rfl
  have htrace := Bus.trace_finish_fill (b := { b with fillBuf := [], pchk := false }) h8 h16 hreads hc
  rw [← hb'] at hfilled htrace
  have hf : Bus.LineFilled c b (maskA20 c ch.pa) b' := ⟨hfilled.wf, hfilled.wb, hfilled.fillBuf, hfilled.cache, hfilled.phys⟩
  refine ⟨b', ?_, ?_, hf.wf, hf.wb.trans hwb, hf.view hwb hmiss hsound, fun i hi hm => hf.replaced hm hi, fun y hy => hf.others hy,
    htrace⟩
  · rw [hrun, hf.fillBuf.readBytes (by rwa [byteOf_toNat] at hfits)]
  · rw [hf.stateAt hmiss, fillState_eq]

end Sys2Proof.Machine
end

section
/-! SUPPORT. One clock of the bus unit: the states it goes through (O43). -/

namespace Sys2Proof.Machine

variable {b : Bus} {c : MemCtx} {own keep : Bool} {k : ClockIn}

/-! ### Nothing transferred -/

/-- No bus cycle is recorded, and every transfer in progress has the doublewords still to move that it had. -/
def Bus.NothingMoved (b t : Bus) : Prop := t.trace = b.trace ∧ t.cur.map (·.parts) = b.cur.map (·.parts)

theorem Bus.NothingMoved.trans {b₁ b₂ b₃ : Bus} (h : b₁.NothingMoved b₂) (h' : b₂.NothingMoved b₃) : b₁.NothingMoved b₃ :=
  ⟨h'.1.trans h.1, h'.2.trans h.2⟩

theorem Bus.NothingMoved.cur_ne_nil {t : Bus} (h : b.NothingMoved t) (hb : b.cur ≠ []) : t.cur ≠ [] := fun ht =>
  hb (List.map_eq_nil_iff.1 (h.2.symm.trans (congrArg _ ht)))

theorem Bus.nothingMoved_snoop (line : BitVec 28) (inv : Bool) : b.NothingMoved (b.snoop c line inv) := by
  rw [Bus.snoop_eq]
  exact ⟨rfl, by simp⟩

/-! ### A clock, by the state it begins in (42_bus_transactions.md R460, R461) -/

/-- A clock goes by its pins from where another master's write and a snoop have left the bus unit, with nothing moved. -/
theorem Bus.clock_spec (b : Bus) (c : MemCtx) (own keep : Bool) (k : ClockIn) : ∃ s : Bus, b.NothingMoved s
    ∧ (b.phase = .ti → b.clock c own keep k = (if k.boff || k.ahold then s else s.idled).startNext c own keep k)
    ∧ (b.phase = .tb → b.clock c own keep k = if k.boff then { s with phase := .tb } else
        { (if k.ahold || k.hold then s else s.urgentFirst) with phase := .t1b })
    ∧ ∀ x xs, s.cur = x :: xs →
      (b.phase = .t1 ∨ b.phase = .t1b → b.clock c own keep k = if k.boff then { s with phase := .tb } else
        { s with phase := .t2
                 cur := { x with size := some (k.size x.kind), ken := k.ken, ads := true, spent := x.spent + 1 } :: xs })
      ∧ (b.phase = .t2 → s.phase = .t2 ∧ b.clock c own keep k = if k.boff then { s with phase := .tb } else
          if k.rdy || k.brdy then s.ready c own keep k x xs else { s with cur := { x with ken := k.ken, spent := x.spent + 1 } :: xs }) := by
  unfold Bus.clock
  extract_lets b₁ b₂ b₃
  have written : b₁.phase = b.phase ∧ b.NothingMoved b₁ := by
    unfold b₁
    split <;> exact ⟨rfl, rfl, rfl⟩
  have snooped : b₂.phase = b₁.phase ∧ b₁.NothingMoved b₂ := by
    unfold b₂
    split
    · split
      · exact ⟨by rw [Bus.snoop_eq], Bus.nothingMoved_snoop ..⟩
      · exact ⟨rfl, rfl, rfl⟩
    · exact ⟨rfl, rfl, rfl⟩
  have hphase : b₃.phase = b.phase := snooped.1.trans written.1
  have hmoved : b.NothingMoved b₃ := written.2.trans snooped.2
  clear_value b₃
  refine ⟨b₃, hmoved, fun h => ?_, fun h => ?_, fun x xs hcur => ⟨?_, fun h => ⟨hphase.trans h, ?_⟩⟩⟩
  · simp only [hphase, h]
  · simp only [hphase, h]
    split
    · rw [← h, ← hphase]
    · rfl
  · rintro (h | h) <;> simp only [hphase, h, hcur]
  · simp only [hphase, h, hcur]

/-! ### What starts a cycle (42_bus_transactions.md R440, R455) -/

/-- The pins let the unit `t` start a cycle; HOLD does not count where LOCK# stays asserted. -/
def ClockIn.LetsStart (k : ClockIn) (t : Bus) : Prop :=
  k.ahold = false ∧ k.boff = false ∧ (k.hold = false ∨ ∃ x xs, t.cur = x :: xs ∧ x.cont = true)

theorem Bus.startCur_phase (b : Bus) : b.startCur.phase = .ti ∨ b.startCur.phase = .t1 := by
  unfold Bus.startCur
  split
  · exact .inl rfl
  · dsimp only
    split
    · exact .inr rfl
    · exact .inl rfl

theorem Bus.startCur_cur (b : Bus) : b.startCur.cur = b.cur := by
  unfold Bus.startCur
  split <;> rfl

theorem Bus.startNext_phase (b : Bus) (c : MemCtx) (own keep : Bool) (k : ClockIn) :
    (b.startNext c own keep k).phase = .ti ∨ (b.startNext c own keep k).phase = .t1 := by
  unfold Bus.startNext
  dsimp only
  split
  · exact .inl rfl
  · split
    · exact Bus.startCur_phase _
    · split
      · exact .inr rfl
      · split <;> exact Bus.startCur_phase _

/-- From Ti or at the end of a cycle, a cycle starts only as the pins let it. -/
theorem Bus.startNext_starts (b : Bus) (c : MemCtx) (own keep : Bool) (k : ClockIn) :
    (b.startNext c own keep k).phase = .ti
      ∨ ((b.startNext c own keep k).phase = .t1 ∧ k.LetsStart (b.startNext c own keep k)) := by
  refine (Bus.startNext_phase ..).imp_right fun ht => ⟨ht, ?_⟩
  unfold Bus.startNext at ht ⊢
  dsimp only at ht ⊢
  split at ht
  · cases ht
  next hpins =>
    rw [if_neg hpins]
    simp only [Bool.or_eq_true, Bool.and_eq_true, Bool.not_eq_true', not_or, not_and, Bool.not_eq_true, Bool.not_eq_false] at hpins
    obtain ⟨⟨⟨hboff, hahold⟩, hhold⟩, -⟩ := hpins
    refine ⟨hahold, hboff, ?_⟩
    cases hk : k.hold with
    | false => exact .inl rfl
    | true =>
      have hcont := hhold hk
      rw [if_pos (by simp only [hcont, Bool.true_or]), Bus.startCur_cur]
      cases hcur : b.cur with
      | nil =>
        rw [hcur] at hcont
        cases hcont
      | cons x xs =>
        rw [hcur] at hcont
        exact .inr ⟨x, xs, rfl, hcont⟩

/-! ### A ready -/

theorem Bus.sameUnit_storeLanes (b : Bus) (c : MemCtx) (a : BitVec 30) (lanes : BitVec 4) (d : DWord) :
    Bus.SameUnit b (b.storeLanes c a lanes d) := by
  have lane (b : Bus) (i : Nat) : Bus.SameUnit b
      (if lanes.getLsbD i then b.setPhysByte c (laneAddr a (BitVec.ofNat 2 i)) (d.extractLsb' (8 * i) 8) else b) := by
    split
    · exact Bus.sameUnit_setPhysByte ..
    · constructor <;> rfl
  exact (((lane _ 0).trans (lane _ 1)).trans (lane _ 2)).trans (lane _ 3)

@[simp] theorem Bus.phase_moveLanes (kind : CycleKind) (a : BitVec 30) (lanes : BitVec 4) (d : DWord) (bad : BitVec 4) :
    (b.moveLanes c kind a lanes d bad).phase = b.phase := by
  cases kind with
  | memWrite => exact (Bus.sameUnit_storeLanes ..).phase
  | _ => rfl

@[simp] theorem Bus.phase_keepPart (kind : CycleKind) (p : BusPart) : (b.keepPart kind p).phase = b.phase := by
  unfold Bus.keepPart
  split <;> rfl

/-- A ready leaves the bus unit in T2, where a burst goes on, or ends the cycle. -/
theorem Bus.ready_starts (h : b.phase = .t2) (x : Xfer) (xs : List Xfer) :
    (b.ready c own keep k x xs).phase = .t2 ∨ (b.ready c own keep k x xs).phase = .ti
      ∨ ((b.ready c own keep k x xs).phase = .t1 ∧ k.LetsStart (b.ready c own keep k x xs)) := by
  unfold Bus.ready
  extract_lets y
  split
  · exact .inr (Bus.startNext_starts ..)
  · extract_lets moved d left t cycle b₁ p' rest b₂ b₃
    have h₁ : b₁.phase = .t2 := (Bus.phase_moveLanes ..).trans h
    have h₂ : b₂.phase = .t2 := by
      unfold b₂
      split
      · exact (Bus.phase_keepPart ..).trans h₁
      · exact h₁
    split
    · split <;> exact .inr (Bus.startNext_starts ..)
    · split
      · exact .inr (Bus.startNext_starts ..)
      · exact .inl h₂

/-! ### BOFF# released (42_bus_transactions.md R450; 92_eei_decisions.md D18) -/

/-- The transfers in progress stay, behind the write-back of a snooped line or behind nothing. -/
theorem Bus.urgentFirst_cur (b : Bus) : b.urgentFirst.trace = b.trace
    ∧ (b.urgentFirst.cur = b.cur ∨ ∃ line d, b.urgentFirst.cur = writeBackXfer line d true :: b.cur) := by
  unfold Bus.urgentFirst
  split
  · split
    · exact ⟨rfl, .inl rfl⟩
    · exact ⟨rfl, .inr ⟨_, _, rfl⟩⟩
  · exact ⟨rfl, .inl rfl⟩

/-- Settles O43: each clause is the part of `Bus.clock_spec` for the state the clock begins in. -/
theorem busStates : Obligations.BusStates := by
  intro b c own keep k
  dsimp only
  obtain ⟨s, hs, hti, htb, hcycle⟩ := Bus.clock_spec b c own keep k
  refine ⟨fun h => ?_, fun h => ?_, fun hb => ?_⟩
  · rw [hti h]
    exact Bus.startNext_starts ..
  · rw [htb h]
    cases hboff : k.boff with
    | true => exact ⟨rfl, hs.1, .inl hs⟩
    | false =>
      obtain ⟨htrace, hcur⟩ := s.urgentFirst_cur
      cases hpins : k.ahold || k.hold with
      | true => exact ⟨rfl, hs.1, .inl hs⟩
      | false =>
        obtain ⟨hahold, hhold⟩ := Bool.or_eq_false_iff.1 hpins
        refine ⟨rfl, htrace.trans hs.1, hcur.imp (fun hc => ?_) fun ⟨line, d, hc⟩ => ?_⟩
        · exact ⟨htrace.trans hs.1, (congrArg _ hc).trans hs.2⟩
        · exact ⟨rfl, hahold, hhold, line, d, s.cur, hc, hs.2⟩
  · obtain ⟨x, xs, hcur⟩ := List.exists_cons_of_ne_nil (hs.cur_ne_nil hb)
    obtain ⟨ht1, ht2⟩ := hcycle x xs hcur
    have hparts : (x :: xs).map (·.parts) = b.cur.map (·.parts) := hcur ▸ hs.2
    refine ⟨fun h => ?_, fun h hboff => ?_, fun h hboff hrdy hbrdy => ?_, fun h hboff => ?_⟩
    · rw [ht1 h]
      cases k.boff
      · exact ⟨rfl, hs.1, hparts⟩
      · exact ⟨rfl, hs⟩
    · rw [(ht2 h).2, hboff]
      exact ⟨rfl, hs⟩
    · obtain ⟨hphase, hclock⟩ := ht2 h
      rw [hclock, hboff, hrdy, hbrdy]
      exact ⟨hphase, hs.1, hparts⟩
    · obtain ⟨hphase, hclock⟩ := ht2 h
      have hnext : (b.clock c own keep k).phase = .t2 ∨ (b.clock c own keep k).phase = .ti
          ∨ ((b.clock c own keep k).phase = .t1 ∧ k.LetsStart (b.clock c own keep k)) := by
        rw [hclock, hboff]
        split
        · cases ‹false = true›
        · split
          · exact Bus.ready_starts hphase x xs
          · exact .inl hphase
      rcases hnext with hn | hn | ⟨hn, hstarts⟩ <;> rw [hn]
      · exact ⟨nofun, nofun, nofun⟩
      · exact ⟨nofun, nofun, nofun⟩
      · exact ⟨nofun, nofun, fun _ => hstarts⟩

end Sys2Proof.Machine
end

section
/-! SUPPORT. The instructions the 80486 adds that work on registers or on an operand in memory, and the arithmetic flags
(O4 to O10). -/

namespace Sys2Proof.Machine

/-! ### The status flags of an addition and of a comparison (10_state.md R43) -/

section
variable {n : Nat} (a b : BitVec n)

/-- The exclusive or of bits is their number modulo 2. -/
theorem foldl_xor_eq_countP {α : Type} (f : α → Bool) (l : List α) :
    ∀ x : Bool, l.foldl (fun x i => xor x (f i)) x = xor x (decide (l.countP f % 2 = 1)) := by
  induction l with
  | nil => simp
  | cons i l ih =>
    intro x
    rw [List.foldl_cons, ih, List.countP_cons]
    cases hi : f i
    · simp
    · have hflip : decide ((l.countP f + 1) % 2 = 1) = !decide (l.countP f % 2 = 1) := by
        rw [← decide_not]
        exact decide_eq_decide.2 (by omega)
      simp [hflip]

theorem parityEven_iff (v : BitVec n) : parityEven v = true ↔ (List.range 8).countP (fun i => v.getLsbD i) % 2 = 0 := by
  unfold parityEven
  rw [foldl_xor_eq_countP]
  simp

theorem saddOverflow_iff : a.saddOverflow b = true ↔ (a + b).toInt ≠ a.toInt + b.toInt := by
  refine ⟨fun h he => ?_, fun h => by_contra fun ho => h (BitVec.toInt_add_of_not_saddOverflow ho)⟩
  have hlt := (a + b).toInt_lt
  have hle := (a + b).le_toInt
  simp only [BitVec.saddOverflow, Bool.or_eq_true, decide_eq_true_eq] at h
  omega

theorem ssubOverflow_iff : a.ssubOverflow b = true ↔ (a - b).toInt ≠ a.toInt - b.toInt := by
  refine ⟨fun h he => ?_, fun h => by_contra fun ho => h (BitVec.toInt_sub_of_not_ssubOverflow ho)⟩
  have hlt := (a - b).toInt_lt
  have hle := (a - b).le_toInt
  simp only [BitVec.ssubOverflow, Bool.or_eq_true, decide_eq_true_eq] at h
  omega

theorem addFlags_of : (addFlags a b).of = a.saddOverflow b := (BitVec.saddOverflow_eq a b).symm

theorem subFlags_of : (subFlags a b).of = a.ssubOverflow b := by
  rw [BitVec.ssubOverflow_eq]
  show (a.msb != b.msb && (a - b).msb != a.msb) = _
  cases a.msb <;> cases b.msb <;> simp

theorem addFlags_cf_iff : (addFlags a b).cf = true ↔ (a + b).toNat ≠ a.toNat + b.toNat := by
  show decide (2 ^ n ≤ a.toNat + b.toNat) = true ↔ _
  rw [decide_eq_true_eq, BitVec.toNat_add, ne_eq, Nat.mod_eq_iff_lt (Nat.two_pow_pos n).ne', not_lt]

theorem addFlags_af_iff (hn : 16 ∣ 2 ^ n) :
    (addFlags a b).af = true ↔ (a + b).toNat % 16 ≠ a.toNat % 16 + b.toNat % 16 := by
  show decide (16 ≤ a.toNat % 16 + b.toNat % 16) = true ↔ _
  rw [decide_eq_true_eq, BitVec.toNat_add, Nat.mod_mod_of_dvd _ hn]
  omega

end

/-- Settles O10: AF of an addition needs that 16 divides 2 ^ n, the other flags mean the same at every width. -/
theorem arithFlagsMeaning : Obligations.ArithFlagsMeaning := by
  intro n a b hn
  have h16 : 16 ∣ 2 ^ n := by rcases hn with rfl | rfl | rfl <;> decide
  have sign (v : BitVec n) : v.msb = true ↔ v.toInt < 0 := by rw [BitVec.msb_eq_toInt, decide_eq_true_eq]
  refine ⟨⟨addFlags_cf_iff a b, addFlags_af_iff a b h16, parityEven_iff _, beq_iff_eq, sign _, ?_⟩,
    ⟨decide_eq_true_iff, decide_eq_true_iff, parityEven_iff _, beq_iff_eq.trans sub_eq_zero, sign _, ?_⟩⟩
  · rw [addFlags_of, saddOverflow_iff]
  · rw [subFlags_of, ssubOverflow_iff]

/-! ### Registers written with what they hold (10_state.md R41) -/

theorem Regs.set_get (g : Regs) (r : Reg) : g.set r (g.get r) = g := by cases r <;> rfl

theorem putByte_extract (x : DWord) (hi : Bool) : putByte x hi (x.extractLsb' (byteLo hi) 8) = x := by
  ext i h
  simp only [← BitVec.getLsbD_eq_getElem, getLsbD_putByte, BitVec.getLsbD_extractLsb']
  split
  · next hin => rw [decide_eq_true (by omega), Bool.true_and, show byteLo hi + (i - byteLo hi) = i by omega]
  · rfl

theorem Regs.set8_get8 (g : Regs) (r : Reg8) : g.set8 r (g.get8 r) = g := by
  rw [Regs.set8_eq, Regs.get8_eq, putByte_extract, Regs.set_get]

theorem low16_self (x : DWord) : low16 x (x.setWidth 16) = x := by
  unfold low16
  ext i h
  simp only [← BitVec.getLsbD_eq_getElem, BitVec.getLsbD_append, BitVec.getLsbD_extractLsb', BitVec.getLsbD_setWidth]
  split
  · next hlo => simp [hlo]
  · next hlo => rw [decide_eq_true (by omega), Bool.true_and, show 16 + (i - 16) = i by omega]

theorem Regs.setSz_getSz (g : Regs) (os : OpSize) (r : Reg) : g.setSz os r (g.getSz os r) = g := by
  cases os with
  | w16 => exact (congrArg (g.set r) (low16_self _)).trans (g.set_get r)
  | w32 => exact (congrArg (g.set r) (BitVec.setWidth_eq _)).trans (g.set_get r)

theorem Regs.getSz_setSz_of_ne (g : Regs) (os : OpSize) {r q : Reg} (v : BitVec os.bits) (h : q ≠ r) :
    (g.setSz os r v).getSz os q = g.getSz os q := by
  cases os <;> exact congrArg (BitVec.setWidth _) (g.get_set_ne _ h)

/-- Another byte register written leaves nothing to write back. -/
theorem Regs.set8_set8_get8 (g : Regs) {r q : Reg8} (v : Byte) (h : q ≠ r) : (g.set8 r v).set8 q (g.get8 q) = g.set8 r v := by
  rw [← Regs.get8_set8_of_ne g v h, Regs.set8_get8]

theorem Regs.setSz_setSz_getSz (g : Regs) (os : OpSize) {r q : Reg} (v : BitVec os.bits) (h : q ≠ r) :
    (g.setSz os r v).setSz os q (g.getSz os q) = g.setSz os r v := by
  rw [← Regs.getSz_setSz_of_ne g os v h, Regs.setSz_getSz]

/-! ### BSWAP, XADD and CMPXCHG on registers (43_instructions_new.md R481, R483, R497, R498) -/

variable {s : State}

theorem lockable_noLock (h : s.noLock) (ok : Bool) : lockable ok s = .ok () s :=
  lockable_ok fun hl => Bool.noConfusion (hl.symm.trans h)

/-- Settles O4: the model's `swapBytes` is the reversal that the statement writes out. -/
theorem bswap32 : Obligations.Bswap32 := fun r s h => run_ok (by
  rw [bind_ok (lockable_noLock h _)]
  rfl)

/-- Settles O5: the low half is that of the value drawn. -/
theorem bswap16 : Obligations.Bswap16 := fun r s h => ⟨(Config.freeDWord s.bus.draws).setWidth 16, run_ok (by
  rw [bind_ok (lockable_noLock h _)]
  rfl)⟩

/-- A read-modify-write of a byte register: the rest is done first, then the new byte is written. -/
theorem modifyRm8_reg {r : Reg8} {lock : Bool} {f : Byte → Byte} {other : Byte → M Unit} {t : State}
    (h : other (s.regs.get8 r) s = .ok () t) :
    modifyRm8 (.reg r) lock f other s = .ok () { t with regs := t.regs.set8 r (f (s.regs.get8 r)) } := by
  unfold modifyRm8
  rw [bind_ok (get_run s)]
  exact bind_ok h

theorem modifyRm_reg {os : OpSize} {r : Reg} {lock : Bool} {f : BitVec os.bits → BitVec os.bits}
    {other : BitVec os.bits → M Unit} {t : State} (h : other (s.regs.getSz os r) s = .ok () t) :
    modifyRm os (.reg r) lock f other s = .ok () { t with regs := t.regs.setSz os r (f (s.regs.getSz os r)) } := by
  unfold modifyRm
  rw [bind_ok (get_run s)]
  exact bind_ok h

/-- What XADD does beside the destination: the source takes the old value, and the flags are those of the addition. -/
theorem xadd8_rest (r : Reg8) (old src : Byte) (s : State) :
    (do
      setReg8 r old
      setArith (addFlags old src) : M Unit) s
    = .ok () { s with regs := s.regs.set8 r old, eflags := putFlags s.eflags (addFlags old src) } := rfl

theorem xadd_rest (os : OpSize) (r : Reg) (old src : BitVec os.bits) (s : State) :
    (do
      setRegSz os r old
      setArith (addFlags old src) : M Unit) s
    = .ok () { s with regs := s.regs.setSz os r old, eflags := putFlags s.eflags (addFlags old src) } := rfl

/-- Settles O6: the old value goes to the source before the sum is written. -/
theorem xaddRegister : Obligations.XaddRegister := by
  refine ⟨fun d r s h => (run_ok ?_ : execXaddRm8R8 .. = _), fun os d r s h => (run_ok ?_ : execXaddRmR .. = _)⟩
  · rw [bind_ok (lockable_noLock h _), modifyRm8_reg (xadd8_rest ..)]
  · rw [bind_ok (lockable_noLock h _), modifyRm_reg (xadd_rest os ..)]

/-- What CMPXCHG does beside the destination: the accumulator takes the old value where they differ, and the flags are those of
the comparison. -/
theorem cmpxchg8_rest (acc old : Byte) (s : State) :
    (do
      if acc = old then pure () else setReg8 .al old
      setArith (subFlags acc old) : M Unit) s
    = .ok () { s with
        regs := if acc = old then s.regs else s.regs.set8 .al old
        eflags := putFlags s.eflags (subFlags acc old) } := by
  split <;> rfl

theorem cmpxchg_rest (os : OpSize) (acc old : BitVec os.bits) (s : State) :
    (do
      if acc = old then pure () else setRegSz os .eax old
      setArith (subFlags acc old) : M Unit) s
    = .ok () { s with
        regs := if acc = old then s.regs else s.regs.setSz os .eax old
        eflags := putFlags s.eflags (subFlags acc old) } := by
  split <;> rfl

/-- Settles O8: where the accumulator differs from the destination they are two registers, and the destination is written with
what it holds. -/
theorem cmpxchgRegister : Obligations.CmpxchgRegister := by
  refine ⟨fun d r s h => (run_ok ?_ : execCmpxchgRm8R8 .. = _), fun os d r s h => (run_ok ?_ : execCmpxchgRmR .. = _)⟩
  · rw [bind_ok (lockable_noLock h _), modifyRm8_reg (cmpxchg8_rest ..)]
    split
    · rfl
    · next hne => rw [Regs.set8_set8_get8 _ _ fun hd => hne (by rw [hd])]
  · rw [bind_ok (lockable_noLock h _), modifyRm_reg (cmpxchg_rest os ..)]
    split
    · rfl
    · next hne => rw [Regs.setSz_setSz_getSz _ os _ fun hd => hne (by rw [hd])]

/-! ### XADD and CMPXCHG on memory (43_instructions_new.md R481 to R484) -/

theorem lockable_mem {ρ : Type} (m : MemOp) (s : State) : lockable (Rm.isMem (.mem m : Rm ρ)) s = .ok () s := lockable_ok fun _ => rfl

/-- Settles O7: the read-modify-write stores the sum, and the rest touches nothing of the bus unit. -/
theorem xaddMemory : Obligations.XaddMemory := by
  refine ⟨fun m r s hs ha hr => ?_, fun os m r s hs ha hr => ?_⟩
  · obtain ⟨b, hb, h⟩ := modifyRm8_mem (f := (· + s.regs.get8 r)) hs ha hr
    refine ⟨b, hb, (run_ok ?_ : execXaddRm8R8 .. = _)⟩
    rw [bind_ok (lockable_mem m s), h, xadd8_rest]
  · obtain ⟨b, hb, h⟩ := modifyRm_mem (f := (· + s.regs.getSz os r)) hs ha hr
    refine ⟨b, hb, (run_ok ?_ : execXaddRmR .. = _)⟩
    rw [bind_ok (lockable_mem m s), h, xadd_rest os]

/-- Settles O9: in both outcomes the read-modify-write stores a value, the source or the old one. -/
theorem cmpxchgMemory : Obligations.CmpxchgMemory := by
  refine ⟨fun m r s hs ha hr => ?_, fun os m r s hs ha hr => ?_⟩
  · obtain ⟨b, hb, h⟩ := modifyRm8_mem (f := fun old => if s.regs.get8 .al = old then s.regs.get8 r else old) hs ha hr
    refine ⟨b, hb, (run_ok ?_ : execCmpxchgRm8R8 .. = _)⟩
    rw [bind_ok (lockable_mem m s), h, cmpxchg8_rest]
  · obtain ⟨b, hb, h⟩ := modifyRm_mem (f := fun old => if s.regs.getSz os .eax = old then s.regs.getSz os r else old) hs ha hr
    refine ⟨b, hb, (run_ok ?_ : execCmpxchgRmR .. = _)⟩
    rw [bind_ok (lockable_mem m s), h, cmpxchg_rest os]

end Sys2Proof.Machine
end

section
/-! SUPPORT. The cache flushed, and its modified lines. -/

namespace Sys2Proof
open Machine

/-! ### A cache flushed (41_cache_operations.md R382) -/

theorem Cache.way_flush (k : Cache) (s : BitVec 8) (w : BitVec 2) : (k.flush.entry s).way w = ((k.entry s).way w).invalidate := by
  simp only [Cache.flush, Cache.entry, CacheSet.way, Vector.getElem_map]

theorem Cache.lookup_flush (k : Cache) (big : Bool) (a : Addr) : k.flush.lookup big a = none := by
  refine CacheSet.find_eq_none_iff.2 fun w => ?_
  unfold CacheSet.matches
  rw [Cache.way_flush]
  rfl

/-! ### Modified lines -/

/-- A slot's line, with the address it stands for. -/
def Cache.slotLine (k : Cache) (big : Bool) (x : BitVec 8 × BitVec 2) : Addr × Vector Byte 16 :=
  (k.slotAddr big x.1 x.2, ((k.entry x.1).way x.2).data)

/-- A line written back keeps its address and its bytes. -/
theorem Cache.slotLine_cleanWay (k : Cache) (s : BitVec 8) (w : BitVec 2) (big : Bool) :
    (k.cleanWay s w).slotLine big = k.slotLine big := by
  funext x
  unfold Cache.slotLine Cache.slotAddr
  rw [Cache.way_cleanWay]
  split <;> simp

end Sys2Proof
end

section
/-! SUPPORT. The instructions the 80486 adds that work on the cache and the TLB, and CPUID (O12, O13, O14, O15). -/

namespace Sys2Proof.Machine

variable {b b' : Bus} {c : MemCtx} {s : State}

/-! ### A cache flushed (41_cache_operations.md R382) -/

/-- Every line is invalid and the buffered writes have reached memory, with nothing else that the bus unit controls changed. -/
structure Bus.Flushed (c : MemCtx) (b b' : Bus) : Prop where
  lookup : ∀ a, b'.cache.lookup c.big a = none
  wb : b'.wb = []
  mem : ∀ a, b'.physByte c a = b.memView c a
  control : Bus.SameControl b b'
  wf : b'.memWf = true

/-- The buffers drained after the flush. -/
theorem Bus.Drained.flushed (h : Bus.Drained c { b with cache := b.cache.flush } b')
    (hc : Bus.SameControl { b with cache := b.cache.flush } b') : Bus.Flushed c b b' where
  lookup a := by rw [h.cache, Cache.lookup_flush]
  wb := h.wb
  mem := h.mem
  control := { hc with }
  wf := h.wf

/-! ### Special cycles (30_encoding.md R231) -/

/-- The processor finds the bus ready after an access as before it. -/
theorem State.BusReady.after (hs : s.BusReady) (h : Bus.SameControl s.bus b) (hb : b.memWf = true) :
    { s with bus := b }.BusReady where
  bus := (congrArg MemCtx.busFree (memCtx_bus h)).trans hs.bus
  script := h.script.trans hs.script
  wf := hb

theorem State.BusReady.flushed (hs : s.BusReady) : { s with bus := { s.bus with cache := s.bus.cache.flush } }.BusReady :=
  hs.after (by constructor <;> rfl) hs.wf

/-- With the buffers empty a special cycle only enters the record of cycles. -/
theorem specialCycle_empty (be : BitVec 4) (a : DWord) (hs : s.BusReady) (hw : s.bus.wb = []) :
    ∃ y, specialCycle be a s = .ok () { s with bus := s.bus.record [y] } ∧ y.kind = .special ∧ y.be = be
      ∧ y.addr = a.extractLsb' 2 30 := by
  set x := specialXfer be (a.extractLsb' 2 30)
  obtain ⟨y, hy, hkind, hbe, haddr⟩ := itemCycles_one (c := s.memCtx) (x := { x with decided := true })
    (p := ⟨a.extractLsb' 2 30, ~~~be, 0, 0⟩) (~~~be) 0 true true false rfl rfl
  refine ⟨y, bus_ok ?_, hkind, hbe.trans (BitVec.not_not ..), haddr⟩
  have hmove : s.bus.finishAll s.memCtx [x] = s.bus.record [y] := by
    rw [← hy]
    exact (Bus.finish_one (x := x) rfl rfl rfl).trans (Bus.movePart_message _ _ _ _ _ _ _ (.inr rfl))
  rw [bind_ok (needBus_ok hs.bus _), bind_ok (drainBuffers_empty hw), transact_ok false _ hs.script, ← hmove]
  rfl

/-- The two newest bus cycles are the write-back special cycle and, after it, the flush special cycle. -/
def Bus.lastWriteBackFlush (b : Bus) : Prop :=
  ∃ c d rest, b.trace = c :: d :: rest ∧ c.kind = .special ∧ c.be = 0xD#4 ∧ c.addr = 0
    ∧ d.kind = .special ∧ d.be = 0x7#4 ∧ d.addr = 0

/-- The end of WBINVD in both modes (43_instructions_new.md R489). -/
theorem flushCache_specials (hs : s.BusReady) :
    ∃ b, (do
        flushCache
        writeBackSpecial
        flushSpecial : M Unit) s = .ok () { s with bus := b }
      ∧ Bus.Flushed s.memCtx s.bus b ∧ b.lastWriteBackFlush := by
  obtain ⟨b₁, h₁, hd, hc, d, rest, htrace, hkind, hbe, haddr⟩ := specialCycle_spec 0x7#4 0 hs.flushed
  obtain ⟨y, h₂, hkind', hbe', haddr'⟩ := specialCycle_empty (s := { s with bus := b₁ }) 0xD#4 0 (hs.flushed.after hc hd.wf) hd.wb
  have hf := hd.flushed hc
  refine ⟨b₁.record [y], ?_, ⟨hf.lookup, hf.wb, hf.mem, { hf.control with }, hf.wf⟩, y, d, rest,
    congrArg (y :: ·) htrace, hkind', hbe', haddr', hkind, hbe, haddr⟩
  rw [bind_ok (show flushCache s = .ok () { s with bus := { s.bus with cache := s.bus.cache.flush } } from rfl)]
  exact (bind_ok h₁).trans h₂

/-- Settles O12: the lines become invalid before the cycles, which drain the buffers. -/
theorem cacheFlushed : Obligations.CacheFlushed := by
  intro s hl hlevel hs
  refine ⟨?_, fun hmode => ?_⟩
  · obtain ⟨b, h, hd, hc, hlast⟩ := specialCycle_spec 0xD#4 0 hs.flushed
    obtain ⟨hlookup, hwb, hmem, hcontrol, hwf⟩ := hd.flushed hc
    refine ⟨b, (run_ok ?_ : execInvd s = _), ⟨hlookup, hwb, hmem, hcontrol, hwf⟩, hlast⟩
    rw [bind_ok (lockable_noLock hl _), bind_ok (privileged_ok hlevel)]
    exact h
  · obtain ⟨b, h, ⟨hlookup, hwb, hmem, hcontrol, hwf⟩, hlast⟩ := flushCache_specials hs
    refine ⟨b, (run_ok ?_ : execWbinvd s = _), ⟨hlookup, hwb, hmem, hcontrol, hwf⟩, hlast⟩
    rw [bind_ok (lockable_noLock hl _), bind_ok (privileged_ok hlevel), hmode]
    exact h

/-! ### Modified lines written back (45_family_variants.md R584) -/

/-- Memory holds the bytes of these lines, and outside them what it held; the write buffers and the control state stay. -/
structure Bus.LinesWritten (c : MemCtx) (ls : List (Addr × Vector Byte 16)) (b b' : Bus) : Prop where
  wf : b'.memWf = true
  wb : b'.wb = b.wb
  control : Bus.SameControl b b'
  written : ∀ l ∈ ls, ∀ y, lineBase y = l.1 → b'.physByte c y = l.2[(byteOf y).toNat]'(byteOf y).isLt
  others : ∀ y, (∀ l ∈ ls, lineBase y ≠ l.1) → b'.physByte c y = b.physByte c y

theorem Bus.LinesWritten.nil (hb : b.memWf = true) : Bus.LinesWritten c [] b b := ⟨hb, rfl, .refl b, nofun, fun _ _ => rfl⟩

/-- One line, then others that are not it. -/
theorem Bus.LinesWritten.cons {l : Addr × Vector Byte 16} {ls : List (Addr × Vector Byte 16)} {b₁ b₂ : Bus}
    (h₁ : Bus.LinesWritten c [l] b b₁) (h₂ : Bus.LinesWritten c ls b₁ b₂) (hl : l.1 ∉ ls.map Prod.fst) :
    Bus.LinesWritten c (l :: ls) b b₂ where
  wf := h₂.wf
  wb := h₂.wb.trans h₁.wb
  control := h₁.control.trans h₂.control
  written m hm y hy := by
    rcases List.mem_cons.1 hm with rfl | hm
    · rw [h₂.others y fun m' hm' he => hl (List.mem_map.2 ⟨m', hm', he.symm.trans hy⟩)]
      exact h₁.written m (List.mem_singleton_self m) y hy
    · exact h₂.written m hm y hy
  others y hy := by
    rw [h₂.others y fun m hm => hy m (List.mem_cons_of_mem l hm)]
    exact h₁.others y fun m hm => hy m (List.mem_singleton.1 hm ▸ List.mem_cons_self ..)

/-- Whether a transfer's first ready has come changes none of what it moves. -/
theorem Bus.moveRest_decided (x : Xfer) (ps : List BusPart) :
    ∀ b, Bus.moveRest c { x with decided := true } ps b = Bus.moveRest c x ps b := by
  induction ps with
  | nil => exact fun _ => rfl
  | cons p ps ih => exact fun b => ih _

theorem Bus.moveAll_decided (x : Xfer) (driven : BitVec 4) (first : Bool) :
    b.moveAll c { x with decided := true } driven first = b.moveAll c x driven first := by
  unfold Bus.moveAll
  dsimp only
  split
  · rfl
  · exact Bus.moveRest_decided (x.onward c) ..

theorem Bus.finish_writeBack (b : Bus) (c : MemCtx) (line : BitVec 28) (d : Vector Byte 16) :
    b.finish c (writeBackXfer line d false) = b.moveAll c (writeBackXfer line d false) 0xF true :=
  (Bus.finish_plain b c rfl rfl).trans (Bus.moveAll_decided ..)

/-- A modified line written back. -/
theorem writeBackSlot_spec {x : BitVec 8 × BitVec 2} (hs : b.script = []) (hb : b.memWf = true)
    (hm : ((b.cache.entry x.1).way x.2).st = .modified) :
    ∃ b', writeBackSlot c x.1 x.2 b = .ok () b' ∧ b'.cache = b.cache.cleanWay x.1 x.2
      ∧ Bus.LinesWritten c [b.cache.slotLine c.big x] b b' := by
  set d := ((b.cache.entry x.1).way x.2).data
  set base := b.cache.slotAddr c.big x.1 x.2
  obtain ⟨hwf, hunit, hphys⟩ := Bus.moveAll_writeBack (b := b) (c := c) (line := base.extractLsb' 4 28) (d := d) (hitm := false) hb
  have hline (y : Addr) : lineBase y = base ↔ y.extractLsb' 4 28 = base.extractLsb' 4 28 := lineBase_eq_iff (lineBase_lineAddr ..)
  have hslot := writeBackSlot_ok hs c x.1 x.2
  rw [if_pos hm, Bus.finish_writeBack] at hslot
  refine ⟨_, hslot, congrArg (Cache.cleanWay · x.1 x.2) hunit.cache, hwf, hunit.wb, { hunit.control with }, fun l hl y hy => ?_,
    fun y hy => (hphys y).trans ?_⟩
  · obtain rfl := List.mem_singleton.1 hl
    exact (hphys y).trans (if_pos ((hline y).1 hy))
  · exact if_neg fun h => hy _ (List.mem_singleton_self _) ((hline y).2 h)

/-- MODIFIED LINES WRITTEN BACK one after the other: cleaning one leaves the others modified. -/
theorem writeBackSlots_spec (xs : List (BitVec 8 × BitVec 2)) :
    ∀ b : Bus, b.script = [] → b.memWf = true → (∀ x ∈ xs, ((b.cache.entry x.1).way x.2).st = .modified) →
      ((xs.map (b.cache.slotLine c.big)).map Prod.fst).Nodup →
      ∃ b', writeBackSlots c xs b = .ok () b' ∧ Bus.LinesWritten c (xs.map (b.cache.slotLine c.big)) b b' := by
  induction xs with
  | nil => exact fun b _ hb _ _ => ⟨b, rfl, .nil hb⟩
  | cons x xs ih =>
    intro b hs hb hm hnodup
    obtain ⟨hx, hxs⟩ := List.nodup_cons.1 hnodup
    obtain ⟨b₁, h₁, hcache, hw₁⟩ := writeBackSlot_spec (c := c) hs hb (hm x (List.mem_cons_self ..))
    have hlines : b₁.cache.slotLine c.big = b.cache.slotLine c.big := by rw [hcache, Cache.slotLine_cleanWay]
    have hm₁ : ∀ y ∈ xs, ((b₁.cache.entry y.1).way y.2).st = .modified := fun y hy => by
      have hne : ¬(y.1 = x.1 ∧ y.2 = x.2) := fun h =>
        hx (Prod.ext h.1 h.2 ▸ List.mem_map_of_mem (List.mem_map_of_mem hy))
      rw [hcache, Cache.way_cleanWay, if_neg hne]
      exact hm y (List.mem_cons_of_mem x hy)
    obtain ⟨b₂, h₂, hw₂⟩ := ih b₁ (hw₁.control.script.trans hs) hw₁.wf hm₁ (by rwa [hlines])
    rw [hlines] at hw₂
    refine ⟨b₂, ?_, hw₁.cons hw₂ hx⟩
    unfold writeBackSlots
    rw [bind_ok h₁, h₂]

/-- The first part of WBINVD in write-back mode: the buffered writes, then every modified line. -/
theorem writeBackModified_spec (hs : s.BusReady) (hnodup : ((s.bus.cache.modified s.part.bigCache).map Prod.fst).Nodup) :
    ∃ b₀ b, writeBackModified s = .ok () { s with bus := b } ∧ Bus.SameButWb s.bus b₀ ∧ b₀.wb = []
      ∧ (∀ y, b₀.physByte s.memCtx y = s.bus.memView s.memCtx y)
      ∧ Bus.LinesWritten s.memCtx (s.bus.cache.modified s.part.bigCache) b₀ b := by
  obtain ⟨b₀, h₀, hwf, hsame, hwb, hphys, -⟩ := drainBuffers_spec (c := s.memCtx) (b := s.bus) hs.wf hs.bus hs.script
  rw [← hsame.cache] at hnodup ⊢
  obtain ⟨b, h, hw⟩ := writeBackSlots_spec (c := s.memCtx) b₀.cache.modifiedSlots b₀ (hsame.script.trans hs.script) hwf
    (fun x hx => (b₀.cache.mem_modifiedSlots x.1 x.2).1 hx) hnodup
  refine ⟨b₀, b, bus_ok ?_, hsame, hwb, hphys, hw⟩
  rw [bind_ok (needBus_ok hs.bus _), bind_ok h₀]
  exact h

/-- The bytes of a line, from its base address. -/
theorem lineBase_add {base : Addr} (h : lineBase base = base) {i : Nat} (hi : i < 16) :
    lineBase (base + BitVec.ofNat 32 i) = base ∧ (byteOf (base + BitVec.ofNat 32 i)).toNat = i := by
  have hline := line_of_lineBase base hi
  have hbyte := byteOf_lineBase base hi
  rw [h] at hline hbyte
  exact ⟨(lineBase_eq_iff h).2 hline, hbyte⟩

/-- Settles O13: the lines are in memory before they become invalid, and after that nothing writes memory. -/
theorem wbinvdWritesBack : Obligations.WbinvdWritesBack := by
  intro s hl hlevel hs hmode hnodup
  obtain ⟨b₀, b₁, h₁, hsame, hwb₀, hphys, hw⟩ := writeBackModified_spec hs hnodup
  have hcontrol := hsame.control.trans hw.control
  obtain ⟨b, h, hf, hlast⟩ := flushCache_specials (hs.after hcontrol hw.wf)
  rw [memCtx_bus hcontrol] at hf
  have hmem (y : Addr) : b.physByte s.memCtx y = b₁.physByte s.memCtx y :=
    (hf.mem y).trans (Bus.memView_empty (hw.wb.trans hwb₀) y)
  refine ⟨b, (run_ok ?_ : execWbinvd s = _), hf.lookup, hf.wb, hcontrol.trans hf.control, hf.wf, fun l hl i hi => ?_,
    fun y hy => ?_, hlast⟩
  · rw [bind_ok (lockable_noLock hl _), bind_ok (privileged_ok hlevel), hmode]
    exact (bind_ok h₁).trans h
  · obtain ⟨x, -, rfl⟩ := List.mem_map.1 hl
    obtain ⟨hline, hbyte⟩ := lineBase_add (lineBase_lineAddr s.part.bigCache ((s.bus.cache.entry x.1).way x.2).tag x.1) hi
    exact ((hmem _).trans (hw.written _ hl _ hline)).trans (getElem_congr_idx hbyte)
  · rw [hmem, hw.others y hy, hphys]

/-! ### INVLPG (43_instructions_new.md R491) -/

/-- An entry belongs to the page of a linear address, or maps part of the 4MB page around it. -/
def InPages (e : TlbEntry) (lin : Addr) : Prop :=
  e.page = lin.extractLsb' 12 20 ∨ (e.big = true ∧ e.page.extractLsb' 10 10 = lin.extractLsb' 22 10)

variable {t : Tlb} {lin : Addr}

/-- Exactly the entries of the page and of the 4MB page around it are marked. -/
theorem tlbAt_invalidate (t : Tlb) (lin : Addr) (i : BitVec 5) :
    (InPages (tlbAt t i) lin → tlbAt (tlbInvalidate t lin) i = { tlbAt t i with valid := false })
      ∧ (¬InPages (tlbAt t i) lin → tlbAt (tlbInvalidate t lin) i = tlbAt t i) := by
  unfold tlbInvalidate tlbAt InPages
  rw [Vector.getElem_map]
  split <;> simp_all

/-- An entry still valid belongs to neither page. -/
theorem not_inPages_of_valid {i : BitVec 5} (h : (tlbAt (tlbInvalidate t lin) i).valid = true) :
    tlbAt (tlbInvalidate t lin) i = tlbAt t i ∧ ¬InPages (tlbAt t i) lin := by
  obtain ⟨hmarked, hkept⟩ := tlbAt_invalidate t lin i
  by_cases hc : InPages (tlbAt t i) lin
  · rw [hmarked hc] at h
    cases h
  · exact ⟨hkept hc, hc⟩

theorem tlbFind_invalidate (t : Tlb) (lin : Addr) : tlbFind (tlbInvalidate t lin) lin = none := by
  rw [tlbFind_eq_find?, List.find?_eq_none]
  intro w _ hm
  obtain ⟨hvalid, hpage⟩ := Bool.and_eq_true_iff.1 hm
  obtain ⟨hsame, hc⟩ := not_inPages_of_valid hvalid
  exact hc (.inl (hsame ▸ beq_iff_eq.1 hpage))

/-- Settles O14: an entry marked belongs to one of the two pages, and one left valid to neither. -/
theorem invlpgInvalidates : Obligations.InvlpgInvalidates := by
  intro m s hl hlevel lin
  refine ⟨tlbInvalidate s.bus.tlb lin, (run_ok ?_ : execInvlpg m s = _), tlbFind_invalidate .., fun i hvalid hbig hpage => ?_,
    fun i => ?_⟩
  · rw [bind_ok (lockable_noLock hl _), bind_ok (privileged_ok hlevel)]
    rfl
  · obtain ⟨hsame, hc⟩ := not_inPages_of_valid hvalid
    rw [hsame] at hbig hpage
    exact hc (.inr ⟨hbig, hpage⟩)
  · obtain ⟨hmarked, hkept⟩ := tlbAt_invalidate s.bus.tlb lin i
    by_cases hc : InPages (tlbAt s.bus.tlb i) lin
    · exact .inr ⟨hmarked hc, hc⟩
    · exact .inl (hkept hc)

/-! ### CPUID (43_instructions_new.md R495) -/

/-- With the extensions CPUID drains the buffers, empties the prefetch queue and answers. -/
theorem cpuid_spec (hl : s.noLock) (hext : s.part.hasExt = true) (hs : s.BusReady) :
    let v := s.part.cpuidValue s.regs.eax
    ∃ b, exec .cpuid s = .next ({ s with
        regs := { s.regs with eax := v.eax, ebx := v.ebx, ecx := v.ecx, edx := v.edx }
        bus := b }.complete none)
      ∧ Bus.SameControl { s.bus with fetchq := .empty } b ∧ b.wb = [] ∧ b.memWf = true ∧ b.cache = s.bus.cache
      ∧ (∀ a, b.physByte s.memCtx a = s.bus.memView s.memCtx a) ∧ ∀ a, b.view s.memCtx a = s.bus.view s.memCtx a := by
  obtain ⟨b, h, hwf, hsame, hwb, hphys, hview⟩ := drainBuffers_spec (c := s.memCtx) (b := s.bus) hs.wf hs.bus hs.script
  refine ⟨{ b with fetchq := .empty }, (run_ok ?_ : execCpuid s = _), { hsame.control with fetchq := rfl }, hwb, hwf, hsame.cache,
    hphys, hview⟩
  rw [bind_ok (lockable_noLock hl _), hext]
  exact bind_ok (show drain s = .ok () { s with bus := b } from bus_ok h)

/-- The default part's answers: it lists input 0 only. -/
theorem cpuidValue_default (v : Variant) :
    let p := { defaultPart with variant := v }
    p.cpuidValue 0 = ⟨1, 0x756E6547#32, 0x6C65746E#32, 0x49656E69#32⟩
      ∧ ∀ n : DWord, n ≠ 0 → p.cpuidValue n = ⟨0x410#32, 0, 0, if p.hasFPU then 3#32 else 2#32⟩ := by
  intro p
  have hfeatures : p.cpuidFeatures = ⟨0x410#32, 0, 0, if p.hasFPU then 3#32 else 2#32⟩ := by
    show (⟨0x410#32, 0, 0, if p.hasFPU then 3#32 else 3#32 &&& 0xFFFFFFFE#32⟩ : CpuidRegs) = _
    rw [show 3#32 &&& 0xFFFFFFFE#32 = 2#32 from rfl]
  refine ⟨rfl, fun n hn => ?_⟩
  unfold Part.cpuidValue
  split
  · exact hfeatures
  · have hnone : p.cpuid.find? (fun e => e.1 == n) = none := by simpa [p, defaultPart] using Ne.symm hn
    rw [hnone]
    exact hfeatures

theorem cpuidValue_one_noFpu {p : Part} (h : p.hasFPU = false) : (p.cpuidValue 1).edx = p.cpuidOne.edx &&& 0xFFFFFFFE#32 := by
  show p.cpuidFeatures.edx = _
  simp [Part.cpuidFeatures, h]

/-- Settles O15: the instruction, the default part's answers and the feature bit, each by its lemma. -/
theorem cpuidIdentifies : Obligations.CpuidIdentifies :=
  ⟨fun _ hl hext hs => cpuid_spec hl hext hs, cpuidValue_default, fun _ h => cpuidValue_one_noFpu h⟩

end Sys2Proof.Machine
end

section
/-! SUPPORT. MOV and XCHG (O16 to O19). -/

namespace Sys2Proof.Machine

variable {s t : State} {m : M Unit} {ok : Bool}

/-! ### Instructions without LOCK -/

/-- An instruction without LOCK does what follows the check. -/
theorem runWith_unlocked {fin : State → State} (hl : s.noLock) (h : m s = .ok () t) :
    runWith (do
      lockable ok
      m) fin s = .next (fin t) :=
  runWith_ok ((bind_ok (lockable_noLock hl ok)).trans h)

theorem run_unlocked (hl : s.noLock) (h : m s = .ok () t) :
    run (do
      lockable ok
      m) s = .next (t.complete none) :=
  runWith_unlocked hl h

theorem run_unlocked_exc {e : Exc} (hl : s.noLock) (h : m s = .error (.exc e) t) :
    run (do
      lockable ok
      m) s = except s e t :=
  run_exc ((bind_ok (lockable_noLock hl ok)).trans h)

/-! ### Registers (44_instructions_referenced.md R521 to R523, R534) -/

theorem setReg8_run (r : Reg8) (v : Byte) (s : State) : setReg8 r v s = .ok () { s with regs := s.regs.set8 r v } := rfl

theorem setRegSz_run (os : OpSize) (r : Reg) (v : BitVec os.bits) (s : State) :
    setRegSz os r v s = .ok () { s with regs := s.regs.setSz os r v } := rfl

/-- Settles O16: MOV writes what it reads, and XCHG writes the source before the destination. -/
theorem registerMoves : Obligations.RegisterMoves := by
  refine fun s hl => ⟨fun d r => ⟨?_, ?_, ?_⟩, fun os d r => ⟨?_, ?_, ?_⟩, fun os r => ?_⟩
  · exact run_unlocked hl (bind_ok (readRm8_reg r s))
  · exact run_unlocked hl (setReg8_run ..)
  · exact (run_unlocked hl (modifyRm8_reg (setReg8_run ..)) : execXchgRm8R8 (.reg d) r s = _)
  · exact run_unlocked hl (bind_ok (readRm_reg os r s))
  · exact run_unlocked hl (setRegSz_run ..)
  · exact (run_unlocked hl (modifyRm_reg (setRegSz_run ..)) : execXchgRmR os (.reg d) r s = _)
  · exact run_unlocked hl ((bind_ok (setRegSz_run ..)).trans (setRegSz_run ..))

/-- Settles O17: each form writes its register and does nothing else. -/
theorem movImmediate : Obligations.MovImmediate := fun _ hl =>
  ⟨fun _ _ => run_unlocked hl (setReg8_run ..), fun _ _ => run_unlocked hl (setRegSz_run ..),
    fun _ _ => run_unlocked hl (setRegSz_run ..)⟩

/-! ### Memory (44_instructions_referenced.md R521, R522) -/

/-- Settles O18: the read is quiet and gives the operand's bytes, which the register takes. -/
theorem movLoad : Obligations.MovLoad := by
  refine ⟨fun r m s hl hs ha hf => ?_, fun os r m s hl hs ha hf => ?_, fun m s hl hs ha hf => ?_, fun os m s hl hs ha hf => ?_⟩
  · obtain ⟨b, h, hq⟩ := readRm8_mem hs ha hf
    exact ⟨b, hq, run_unlocked hl (bind_ok h)⟩
  · obtain ⟨b, h, hq⟩ := readRm_mem hs ha hf
    exact ⟨b, hq, run_unlocked hl (bind_ok h)⟩
  · obtain ⟨b, h, -, hq, -⟩ := readMem_spec hs ha hf
    exact ⟨b, hq, run_unlocked hl (bind_ok h)⟩
  · obtain ⟨b, h, -, hq, -⟩ := readMem_spec hs ha hf
    exact ⟨b, hq, run_unlocked hl (bind_ok h)⟩

/-- A value of `k` bytes written to memory that faults on nothing. -/
theorem writeMem_toBytes {n k : Nat} {seg : SegReg} {off : DWord} (v : BitVec n) (hs : s.Flat) (ha : s.Admits seg off k true)
    (hk : k ≤ 2 ^ 20) :
    ∃ b, writeMem seg off (toBytes k v) s = .ok () { s with bus := b }
      ∧ Bus.Stored s.memCtx s.bus (s.dataAddr seg off) (toBytes k v) b := by
  obtain ⟨b, h, hb, -⟩ := writeMem_spec (bs := toBytes k v) hs (by rwa [toBytes_length]) (by rwa [toBytes_length])
  exact ⟨b, h, hb⟩

/-- Settles O19: the write stores the register's bytes and no others. -/
theorem movStore : Obligations.MovStore := by
  refine ⟨fun m r s hl hs ha => ?_, fun os m r s hl hs ha => ?_, fun m s hl hs ha => ?_, fun os m s hl hs ha => ?_⟩
  · obtain ⟨b, h, hb⟩ := writeRm8_mem (s.regs.get8 r) hs ha
    exact ⟨b, hb, run_unlocked hl h⟩
  · obtain ⟨b, h, hb⟩ := writeRm_mem (s.regs.getSz os r) hs ha
    exact ⟨b, hb, run_unlocked hl h⟩
  · obtain ⟨b, h, hb⟩ := writeMem_toBytes (s.regs.get8 .al) hs ha (by decide)
    exact ⟨b, hb, run_unlocked hl h⟩
  · obtain ⟨b, h, hb⟩ := writeMem_toBytes (s.regs.getSz os .eax) hs ha (by have := OpSize.bytes_le os; omega)
    exact ⟨b, hb, run_unlocked hl h⟩

end Sys2Proof.Machine
end

section
/-! SUPPORT. HLT and relative JMP (O25, O26), and the checks before every instruction (O33). -/

namespace Sys2Proof.Machine

variable {s t : State} {m : M Unit} {fin : State → State} {ok : Bool} {os : OpSize} {d : DWord}

/-! ### The checks (44_instructions_referenced.md R536; 60_exceptions.md R632, R649) -/

/-- LOCK where it is not accepted: nothing of the instruction is done. -/
theorem runWith_locked (hl : s.dec.lock = true) :
    runWith (do
      lockable false
      m) fin s = except s invalidOpcode s :=
  runWith_exc (bind_error (lockable_error hl))

/-- A privileged instruction at level 0 does what follows the check. -/
theorem run_privileged (hl : s.noLock) (h0 : s.level = 0) (h : m s = .ok () t) :
    run (do
      lockable ok
      privileged
      m) s = .next (t.complete none) :=
  run_unlocked hl ((bind_ok (privileged_ok h0)).trans h)

theorem run_privileged_exc {e : Exc} (hl : s.noLock) (h0 : s.level = 0) (h : m s = .error (.exc e) t) :
    run (do
      lockable ok
      privileged
      m) s = except s e t :=
  run_unlocked_exc hl ((bind_ok (privileged_ok h0)).trans h)

theorem run_unprivileged (hl : s.noLock) (h0 : s.level ≠ 0) :
    run (do
      lockable ok
      privileged
      m) s = except s (generalProtection 0) s :=
  run_unlocked_exc hl (bind_error (privileged_error h0))

/-- In virtual-8086 mode with IOPL below 3 and without the extension INT n, PUSHF and POPF fault. -/
theorem ioplCheck_error (hv : s.v86 = true) (hvme : s.vme = false) (hi : s.iopl ≠ 3) :
    (do
      if s.v86 && s.vme then refuse .vmeUndisclosed
      if s.v86 && s.iopl != 3 then raise (generalProtection 0)
      m : M Unit) s = .error (.exc (generalProtection 0)) s := by
  rw [hv, hvme, Bool.true_and, Bool.true_and, if_neg Bool.false_ne_true, if_pos (bne_iff_ne.2 hi)]
  exact bind_error (raise_run ..)

theorem outsRep_locked {n : Nat} {seg : SegReg} {as : AddrSize} (hl : s.dec.lock = true) :
    outsRep n seg as s = except s invalidOpcode s := by
  unfold outsRep
  split
  · exact run_exc (lockable_error hl)
  · exact runWith_locked hl

/-- Every instruction that refuses LOCK begins with the check. -/
theorem exec_locked {i : Instr} (hi : i.refusesLock = true) (hl : s.dec.lock = true) : exec i s = except s invalidOpcode s := by
  cases i with
  | xaddRm8R8 rm | xaddRmR _ rm | cmpxchgRm8R8 rm | cmpxchgRmR _ rm | xchgRm8R8 rm | xchgRmR _ rm =>
    cases rm with
    | reg => exact runWith_locked hl
    | mem => exact absurd hi Bool.false_ne_true
  | jmpRel d => cases d <;> exact runWith_locked hl
  | outsb | outswd =>
    refine (ite_eq_iff.2 ?_ : ite (s.dec.rep || s.dec.repne) _ _ = _)
    by_cases hr : (s.dec.rep || s.dec.repne) = true
    · exact .inl ⟨hr, outsRep_locked hl⟩
    · exact .inr ⟨hr, runWith_locked hl⟩
  | lockPrefix | repPrefix | opSizePrefix | addrSizePrefix => exact absurd hi Bool.false_ne_true
  | intAckCycle | specialCycle | ioReadCycle | ioWriteCycle | codeReadCycle | reservedCycle | memReadCycle | memWriteCycle
  | shutdownCycle | flushCycle | secondFlushAckCycle | haltCycle | stopGrantCycle | firstFlushAckCycle | writeBackCycle =>
    exact absurd hi Bool.false_ne_true
  | _ => exact runWith_locked hl

/-- Settles O33: LOCK is checked first, then the level, in virtual-8086 mode IOPL. -/
theorem instructionsChecked : Obligations.InstructionsChecked := by
  refine fun i s => ⟨exec_locked, fun hp hl h0 => ?_, fun hi hl hv hvme hiopl => ?_⟩
  · cases i with
    | invd | wbinvd | invlpg | hlt | movRCr | movCrR | movRDr | movDrR | movRTr | movTrR => exact run_unprivileged hl h0
    | _ => exact absurd hp Bool.false_ne_true
  · cases i with
    | intN => exact run_unlocked_exc hl ((bind_ok (get_run s)).trans (ioplCheck_error hv hvme hiopl))
    | pushf | popf => exact run_unlocked_exc hl (ioplCheck_error hv hvme hiopl)
    | _ => exact absurd hi Bool.false_ne_true

/-! ### HLT (44_instructions_referenced.md R538) -/

/-- Settles O25: the special cycle drains the buffers and comes after them. -/
theorem hltHalts : Obligations.HltHalts := by
  intro s hl h0 hs
  obtain ⟨b, h, hd, hc, hlast⟩ := specialCycle_spec 0xB#4 0 hs
  exact ⟨b, run_privileged hl h0 ((bind_ok (x := haltSpecial) h).trans rfl), ⟨hd, hc⟩, hlast⟩

/-! ### Relative JMP (44_instructions_referenced.md R543) -/

/-- The target in the code segment. -/
theorem run_jumpRelative (hl : s.noLock) (h : s.segs.cs.inLimit false (jumpTarget os s.nextPc d) 1 = true) :
    run (jumpRelative os d) s
      = .next ({ s with eip := jumpTarget os s.nextPc d, bus := { s.bus with fetchq := .empty } }.complete none) :=
  run_unlocked hl (by
    rw [bind_ok (get_run s)]
    simp only [h]
    rfl)

/-- The target outside it. -/
theorem run_jumpRelative_outside (hl : s.noLock) (h : s.segs.cs.inLimit false (jumpTarget os s.nextPc d) 1 = false) :
    run (jumpRelative os d) s = except s (generalProtection 0) s :=
  run_unlocked_exc hl (by
    rw [bind_ok (get_run s)]
    simp only [h]
    rfl)

/-- Settles O26: the target within the limit or outside it, for each form. -/
theorem jmpRelative : Obligations.JmpRelative := by
  refine ⟨fun d s hl => ⟨?_, ?_, ?_, ?_⟩, fun s hl => ⟨fun d => ⟨?_, ?_⟩, fun d => ⟨?_, ?_⟩⟩⟩
  · exact run_jumpRelative (os := .w16) hl
  · exact run_jumpRelative (os := .w32) hl
  · exact run_jumpRelative_outside (os := .w16) hl
  · exact run_jumpRelative_outside (os := .w32) hl
  · exact run_jumpRelative (os := .w16) hl
  · exact run_jumpRelative_outside (os := .w16) hl
  · exact run_jumpRelative (os := .w32) hl
  · exact run_jumpRelative_outside (os := .w32) hl

end Sys2Proof.Machine
end

section
/-! SUPPORT. MOV to and from control, debug and test registers (O37, O38, O39). -/

namespace Sys2Proof.Machine

variable {s t : State} {k : M Unit} {n : BitVec 3} {v : DWord}

/-! ### The free status flags (44_instructions_referenced.md R545) -/

theorem sameOtherFlags_mergeBits (old new : DWord) : sameOtherFlags (mergeBits statusMask old new) old := by
  refine BitVec.eq_of_getLsbD_eq fun i _ => ?_
  rw [BitVec.getLsbD_and, BitVec.getLsbD_and, BitVec.getLsbD_not, getLsbD_mergeBits]
  cases statusMask.getLsbD i <;> simp

/-- A privileged instruction that ends with free status flags, `t` being the state before these. -/
theorem run_freeStatus (hl : s.noLock) (h0 : s.level = 0) (h : k s = freeStatus t) :
    ∃ fl, sameOtherFlags fl t.eflags
      ∧ run (do
          lockable false
          privileged
          k) s = .next ({ t with eflags := fl, bus := t.bus.drawn }.complete none) :=
  ⟨mergeBits statusMask t.eflags (Config.freeDWord t.bus.draws), sameOtherFlags_mergeBits .., run_privileged hl h0 (h.trans rfl)⟩

/-- The same where a write has left the state `t`. -/
theorem run_writeFree {x : M Unit} (hl : s.noLock) (h0 : s.level = 0) (h : x s = .ok () t) :
    ∃ fl, sameOtherFlags fl t.eflags
      ∧ run (do
          lockable false
          privileged
          x
          freeStatus) s = .next ({ t with eflags := fl, bus := t.bus.drawn }.complete none) :=
  run_freeStatus hl h0 (bind_ok h)

/-! ### Reads -/

theorem debugProtected_ok (h : s.dr7.getLsbD 13 = false) : debugProtected s = .ok () s := by
  unfold debugProtected
  rw [bind_ok (get_run s), h]
  rfl

theorem debugProtected_error (h : s.dr7.getLsbD 13 = true) : debugProtected s = .error (.exc (debugFault 0x2000#32)) s := by
  unfold debugProtected
  rw [bind_ok (get_run s), h]
  rfl

/-- The control registers that exist. -/
theorem readCr_ok (h : (n = 0 ∧ v = s.cr0) ∨ (n = 2 ∧ v = s.cr2) ∨ (n = 3 ∧ v = s.cr3) ∨ (n = 4 ∧ v = s.cr4 ∧ s.part.hasExt = true)) :
    readCr n s = .ok v s := by
  rcases h with ⟨rfl, rfl⟩ | ⟨rfl, rfl⟩ | ⟨rfl, rfl⟩ | ⟨rfl, rfl, hext⟩
  · rfl
  · rfl
  · rfl
  · unfold readCr
    rw [bind_ok (get_run s), hext]
    rfl

theorem State.dr_eq (h : (n = 0 ∧ v = s.dr0) ∨ (n = 1 ∧ v = s.dr1) ∨ (n = 2 ∧ v = s.dr2) ∨ (n = 3 ∧ v = s.dr3)
    ∨ ((n = 4 ∨ n = 6) ∧ v = s.dr6) ∨ ((n = 5 ∨ n = 7) ∧ v = s.dr7)) : s.dr n = v := by
  rcases h with ⟨rfl, rfl⟩ | ⟨rfl, rfl⟩ | ⟨rfl, rfl⟩ | ⟨rfl, rfl⟩ | ⟨rfl | rfl, rfl⟩ | ⟨rfl | rfl, rfl⟩ <;> rfl

/-- The test registers have the numbers from 3 on. -/
theorem State.testReg_eq (h : (n = 3 ∧ v = s.tr3) ∨ (n = 4 ∧ v = s.tr4) ∨ (n = 5 ∧ v = s.tr5) ∨ (n = 6 ∧ v = s.tr6)
    ∨ (n = 7 ∧ v = s.tr7)) : s.testReg n = v ∧ ¬n.toNat < 3 := by
  rcases h with ⟨rfl, rfl⟩ | ⟨rfl, rfl⟩ | ⟨rfl, rfl⟩ | ⟨rfl, rfl⟩ | ⟨rfl, rfl⟩ <;> exact ⟨rfl, by decide⟩

/-- Settles O37: each read gives the register's value, and the status flags are drawn after it. -/
theorem movFromSpecial : Obligations.MovFromSpecial := by
  refine fun r n s hl h0 => ⟨fun v hv => ?_, fun hp => ?_, fun hp v hv => ?_, fun v hv => ?_⟩
  · exact run_freeStatus (t := { s with regs := s.regs.set r v }) hl h0 ((bind_ok (readCr_ok hv)).trans rfl)
  · exact run_privileged_exc hl h0 (bind_error (debugProtected_error hp))
  · rw [← State.dr_eq hv]
    exact run_freeStatus (t := { s with regs := s.regs.set r (s.dr n) }) hl h0 ((bind_ok (debugProtected_ok hp)).trans rfl)
  · obtain ⟨rfl, hn⟩ := State.testReg_eq hv
    exact run_freeStatus (t := { s with regs := s.regs.set r (s.testReg n) }) hl h0 ((congrFun (if_neg hn) s).trans rfl)

/-! ### Writes of control registers (10_state.md R48, R54; 20_memory.md R156, R185) -/

theorem tlbFind_flush (t : Tlb) (lin : Addr) : tlbFind (tlbFlush t) lin = none := by
  rw [tlbFind_eq_find?, List.find?_eq_none]
  intro w _
  simp [tlbMatches, tlbFlush, tlbAt]

/-- PG, PE and WP as they were. -/
theorem keepsPaging_iff (a b : DWord) :
    (a ^^^ b) &&& 0x80010001#32 = 0 ↔ b.getLsbD 31 = a.getLsbD 31 ∧ b.getLsbD 0 = a.getLsbD 0 ∧ b.getLsbD 16 = a.getLsbD 16 := by
  have place : ∀ i < 32, (0x80010001#32).getLsbD i = true → i = 31 ∨ i = 0 ∨ i = 16 := by decide
  constructor
  · intro h
    have bit (i : Nat) (hi : (0x80010001#32).getLsbD i = true) : a.getLsbD i = b.getLsbD i := by
      have hz : (a.getLsbD i ^^ b.getLsbD i) = false := by simpa [hi] using congrArg (·.getLsbD i) h
      simpa using hz
    exact ⟨(bit 31 rfl).symm, (bit 0 rfl).symm, (bit 16 rfl).symm⟩
  · rintro ⟨h31, h0, h16⟩
    refine BitVec.eq_of_getLsbD_eq fun i hi => ?_
    cases hm : (0x80010001#32).getLsbD i
    · simp [hm]
    · rcases place i hi hm with rfl | rfl | rfl <;> simp_all

/-- A value that CR0 accepts. -/
theorem cr0Illegal_eq_false (hpg : v.getLsbD 31 = true → v.getLsbD 0 = true) (hnw : v.getLsbD 29 = true → v.getLsbD 30 = true) :
    cr0Illegal v = false := by
  unfold cr0Illegal
  grind

/-- Clearing PE gives the segments the limit of real mode. -/
theorem State.setCr0_eq (s : State) (v : DWord) :
    s.setCr0 v = { s with
      cr0 := v
      segs := if s.pe = true ∧ v.getLsbD 0 = false then s.segs.withLimit (if s.inSMM then 0xFFFFFFFF#32 else 0xFFFF#32) else s.segs } := by
  unfold State.setCr0
  congr 1
  cases hp : v.getLsbD 0 <;> cases hs : s.pe <;> simp [State.realLimit, State.pe, hp, -BitVec.getLsbD_eq_getElem]

/-- CR0 written with a value that it accepts: no translation stays where PG, PE or WP changes. -/
theorem writeCr_zero (h : cr0Illegal v = false) :
    ∃ tlb, writeCr 0 v s = .ok () { s.setCr0 (normCr0 v) with bus := { s.bus with tlb := tlb } }
      ∧ if (normCr0 v).getLsbD 31 = s.pg ∧ (normCr0 v).getLsbD 0 = s.pe ∧ (normCr0 v).getLsbD 16 = s.wp then tlb = s.bus.tlb
        else ∀ lin, tlbFind tlb lin = none := by
  have hrun : writeCr 0 v s
      = (if (s.cr0 ^^^ normCr0 v) &&& 0x80010001#32 = 0 then pure () else flushTlb : M Unit) (s.setCr0 (normCr0 v)) := by
    unfold writeCr
    rw [bind_ok (get_run s), h]
    rfl
  by_cases hp : (s.cr0 ^^^ normCr0 v) &&& 0x80010001#32 = 0
  · rw [if_pos hp] at hrun
    exact ⟨s.bus.tlb, hrun, (if_pos ((keepsPaging_iff ..).1 hp)).mpr rfl⟩
  · rw [if_neg hp] at hrun
    exact ⟨tlbFlush s.bus.tlb, hrun, (if_neg fun hk => hp ((keepsPaging_iff ..).2 hk)).mpr (tlbFind_flush _)⟩

theorem writeCr_four (hext : s.part.hasExt = true) (hv : v &&& cr4Reserved = 0) : writeCr 4 v s = .ok () { s with cr4 := v } := by
  unfold writeCr
  rw [bind_ok (get_run s), hext]
  show (if v &&& cr4Reserved = 0 then modify fun t => { t with cr4 := v } else raise (generalProtection 0) : M Unit) s = _
  rw [if_pos hv]
  rfl

/-- Settles O38: each register takes the value it can hold, and the TLB is flushed or not. -/
theorem movToControl : Obligations.MovToControl := by
  intro r s hl h0 v new
  refine ⟨fun hpg hnw => ?_, ?_, ?_, fun hext hv => ?_⟩
  · obtain ⟨tlb, hw, htlb⟩ := writeCr_zero (s := s) (cr0Illegal_eq_false hpg hnw)
    rw [State.setCr0_eq] at hw
    obtain ⟨fl, hfl, h⟩ := run_writeFree hl h0 hw
    exact ⟨fl, tlb, hfl, h, htlb⟩
  · exact run_writeFree (x := writeCr 2 v) (t := { s with cr2 := v }) hl h0 rfl
  · obtain ⟨fl, hfl, h⟩ := run_writeFree (x := writeCr 3 v)
      (t := { s with cr3 := normCr3 v, bus := { s.bus with tlb := tlbFlush s.bus.tlb } }) hl h0 rfl
    exact ⟨fl, _, hfl, tlbFind_flush s.bus.tlb, h⟩
  · exact run_writeFree hl h0 (writeCr_four hext hv)

/-! ### Writes of debug and test registers (10_state.md R69) -/

/-- A debug register written. -/
theorem movDrR_spec (r : Reg) (n : BitVec 3) (hl : s.noLock) (h0 : s.level = 0) (hp : s.dr7.getLsbD 13 = false) :
    let t := s.setDr n (s.regs.get r)
    ∃ fl, sameOtherFlags fl t.eflags ∧ exec (.movDrR n r) s = .next ({ t with eflags := fl, bus := t.bus.drawn }.complete none) :=
  run_freeStatus hl h0 ((bind_ok (debugProtected_ok hp)).trans rfl)

/-- A test register written, `b` being what becomes of the bus unit. -/
theorem movTrR_spec {b : Bus} (r : Reg) (hl : s.noLock) (h0 : s.level = 0) (hn : ¬n.toNat < 3)
    (hb : (if n.toNat < 6 then { s.bus with cache := Config.cacheAfterTest n.toNat (s.regs.get r) s.bus.cache }
      else { s.bus with tlb := Config.tlbAfterTest n.toNat (s.regs.get r) s.bus.tlb }) = b) :
    let t := { s.setTestReg n (s.regs.get r) with bus := b }
    ∃ fl, sameOtherFlags fl t.eflags ∧ exec (.movTrR n r) s = .next ({ t with eflags := fl, bus := t.bus.drawn }.complete none) := by
  subst hb
  exact run_freeStatus hl h0 ((congrFun (if_neg hn) s).trans rfl)

/-- TR3 to TR5 written: the cache becomes a free value. -/
theorem movTrR_cache (r : Reg) (n : BitVec 3) (hl : s.noLock) (h0 : s.level = 0) (hn : ¬n.toNat < 3) (h6 : n.toNat < 6) :
    let t := s.setTestReg n (s.regs.get r)
    ∃ fl cache, sameOtherFlags fl t.eflags
      ∧ exec (.movTrR n r) s = .next ({ t with eflags := fl, bus := { s.bus.drawn with cache := cache } }.complete none) := by
  obtain ⟨fl, hfl, h⟩ := movTrR_spec r hl h0 hn (if_pos h6)
  exact ⟨fl, _, hfl, h⟩

/-- TR6 and TR7 written: the TLB becomes a free value. -/
theorem movTrR_tlb (r : Reg) (n : BitVec 3) (hl : s.noLock) (h0 : s.level = 0) (hn : ¬n.toNat < 3) (h6 : ¬n.toNat < 6) :
    let t := s.setTestReg n (s.regs.get r)
    ∃ fl tlb, sameOtherFlags fl t.eflags
      ∧ exec (.movTrR n r) s = .next ({ t with eflags := fl, bus := { s.bus.drawn with tlb := tlb } }.complete none) := by
  obtain ⟨fl, hfl, h⟩ := movTrR_spec r hl h0 hn (if_neg h6)
  exact ⟨fl, _, hfl, h⟩

/-- Settles O39: each register takes the value it can hold, and a test register leaves the cache or the TLB free. -/
theorem movToDebugAndTest : Obligations.MovToDebugAndTest := by
  intro r s hl h0 v d6 d7 debug cacheTest tlbTest
  have dr (hp : s.dr7.getLsbD 13 = false) (n : BitVec 3) := movDrR_spec r n hl h0 hp
  have cache (n : BitVec 3) := movTrR_cache r n hl h0
  have tlb (n : BitVec 3) := movTrR_tlb r n hl h0
  exact ⟨fun hp n => run_privileged_exc hl h0 (bind_error (debugProtected_error hp)),
    fun hp => ⟨dr hp 0, dr hp 1, dr hp 2, dr hp 3, dr hp 4, dr hp 5, dr hp 6, dr hp 7⟩,
    cache 3 (by decide) (by decide), cache 4 (by decide) (by decide), cache 5 (by decide) (by decide),
    tlb 6 (by decide) (by decide), tlb 7 (by decide) (by decide)⟩

end Sys2Proof.Machine
end

section
/-! SUPPORT. PUSHF and POPF (O27). -/

namespace Sys2Proof.Machine

variable {s t : State} {m : M Unit} {os : OpSize}

/-! ### The check before them (44_instructions_referenced.md R550) -/

theorem ioplCheck_ok (h : s.flagsMove) :
    (do
      if s.v86 && s.vme then refuse .vmeUndisclosed
      if s.v86 && s.iopl != 3 then raise (generalProtection 0)
      m : M Unit) s = m s := by
  cases hv : s.v86 with
  | false => rfl
  | true =>
    obtain ⟨hvme, hi⟩ := h hv
    rw [hvme, hi]
    rfl

/-! ### PUSHF -/

theorem stackDown_eq (wide : Bool) (sp : DWord) (n : Nat) :
    stackDown wide sp n = (if wide then sp - BitVec.ofNat 32 n else (sp.setWidth 16 - BitVec.ofNat 16 n).setWidth 32,
      if wide then sp - BitVec.ofNat 32 n else sp.extractLsb' 16 16 ++ (sp.setWidth 16 - BitVec.ofNat 16 n)) := by
  cases wide <;> rfl

/-- A push with paging off that faults on nothing: its bytes go below the stack pointer, which moves down. -/
theorem push_spec (v : DWord) (hs : s.Flat)
    (ha : s.Admits .ss (stackDown s.stack32 s.regs.esp (OpSize.bytes os)).1 (OpSize.bytes os) true) :
    ∃ b, push os v s
        = .ok () { s with regs := { s.regs with esp := (stackDown s.stack32 s.regs.esp (OpSize.bytes os)).2 }, bus := b }
      ∧ Bus.Stored s.memCtx s.bus (s.dataAddr .ss (stackDown s.stack32 s.regs.esp (OpSize.bytes os)).1)
          (toBytes (OpSize.bytes os) v) b := by
  have hlen : (toBytes (OpSize.bytes os) v).length = OpSize.bytes os := toBytes_length ..
  have hle := OpSize.bytes_le os
  rw [← hlen] at ha
  obtain ⟨b, h, hb⟩ := pushOn_spec (k := s.stack) hs (by omega) ha.segment.1 ha.segment.2 (fun _ => ha.align) ha.unwatched
  rw [hlen] at h hb
  refine ⟨b, ?_, hb⟩
  unfold push
  rw [bind_ok (get_run s)]
  cases os <;> exact (bind_ok h).trans rfl

/-! ### POPF -/

/-- A value of `k` bytes popped with paging off that faults on nothing and fills no line. -/
theorem peek_spec {k n : Nat} (hs : s.Flat) (ha : s.Admits .ss (stackOff s.stack32 s.regs.esp k) n false)
    (hf : s.NoFill .ss (stackOff s.stack32 s.regs.esp k) n) :
    ∃ b, peek k n s = .ok (ofBytes 32 (s.seenBytes .ss (stackOff s.stack32 s.regs.esp k) n)) { s with bus := b }
      ∧ Bus.Quiet s.memCtx s.bus b := by
  obtain ⟨b, h, -, hq, -⟩ := readMem_spec hs ha hf
  refine ⟨b, ?_, hq⟩
  unfold peek
  rw [bind_ok (get_run s), bind_ok h]
  rfl

theorem stackOff_zero (wide : Bool) (sp : DWord) : stackOff wide sp 0 = if wide then sp else (sp.setWidth 16).setWidth 32 := by
  simp [stackOff]

theorem stackUp_eq (wide : Bool) (sp : DWord) (n : Nat) :
    stackUp wide sp n = if wide then sp + BitVec.ofNat 32 n else sp.extractLsb' 16 16 ++ (sp.setWidth 16 + BitVec.ofNat 16 n) := rfl

/-- Flags merged into legal ones: those that exist and are in the mask take the new value. -/
theorem normFlags_mergeBits_bit {p : Part} {fl : DWord} (hfl : fl = normFlags p fl) (mask v : DWord) (i : Nat) :
    (normFlags p (mergeBits mask fl v)).getLsbD i = if (flagBits p &&& mask).getLsbD i then v.getLsbD i else fl.getLsbD i := by
  have hold : fl.getLsbD i = (fl.getLsbD i && (flagBits p).getLsbD i || (2#32).getLsbD i) := by
    conv_lhs => rw [hfl]
    simp [normFlags]
  have hone : ((flagBits p).getLsbD i && (2#32).getLsbD i) = false := by
    rw [← BitVec.getLsbD_and]
    unfold flagBits
    cases p.hasExt <;> simp
  rw [normFlags, BitVec.getLsbD_or, BitVec.getLsbD_and, getLsbD_mergeBits, BitVec.getLsbD_and]
  grind

/-- The bits that an operand size reaches. -/
def sizeMask (os : OpSize) : DWord := match os with | .w16 => 0xFFFF#32 | .w32 => 0xFFFFFFFF#32

theorem sizeMask_bit (os : OpSize) {i : Nat} (hi : i < 32) : (sizeMask os).getLsbD i = decide (i < 8 * OpSize.bytes os) := by
  cases os <;> revert i <;> decide

/-- The flags that POPF moves: the part says which exist, the level which may change. -/
theorem popMask_bit (p : Part) (lvl iopl : BitVec 2) {i : Nat} (hi : i < 32) :
    (flagBits p &&& popMask lvl iopl).getLsbD i = true ↔
      i ∈ [0, 2, 4, 6, 7, 8, 10, 11, 14, 18] ∨ (i ∈ [12, 13] ∧ lvl = 0) ∨ (i = 9 ∧ lvl ≤ iopl)
        ∨ (i ∈ [19, 20, 21] ∧ p.hasExt = true) := by
  have bits : ∀ ext zero below : Bool, ∀ i < 32,
      ((if ext then 0x003F7FD5#32 else 0x00077FD5#32)
        &&& (0x003C4DD5#32 ||| (if zero then 0x3000#32 else 0) ||| (if below then 0x200#32 else 0))).getLsbD i = true ↔
      i ∈ [0, 2, 4, 6, 7, 8, 10, 11, 14, 18] ∨ (i ∈ [12, 13] ∧ zero = true) ∨ (i = 9 ∧ below = true)
        ∨ (i ∈ [19, 20, 21] ∧ ext = true) := by
    intro ext zero below
    cases ext <;> cases zero <;> cases below <;> decide
  have h := bits p.hasExt (decide (lvl = 0)) (decide (lvl ≤ iopl)) i hi
  simp only [decide_eq_true_eq] at h
  exact h

/-! ### The statement -/

/-- Settles O27: PUSHF is a push, and POPF a read at the top of the stack whose bits replace the flags that it moves. -/
theorem flagsOnStack : Obligations.FlagsOnStack := by
  unfold Obligations.FlagsOnStack
  refine ⟨?_, ?_⟩
  · intro os s hl hf hs n down ha
    have hd := stackDown_eq s.stack32 s.regs.esp n
    obtain ⟨b, h, hb⟩ := push_spec (os := os) (s.eflags &&& 0xFFFCFFFF#32) hs (by rw [hd]; exact ha)
    rw [hd] at h hb
    exact ⟨b, hb, run_unlocked hl ((ioplCheck_ok hf).trans h)⟩
  · intro os s hl hf hs hfl n top ha hfill v
    have htop : stackOff s.stack32 s.regs.esp 0 = top := stackOff_zero ..
    obtain ⟨b, h, hq⟩ := peek_spec (k := 0) hs (by rwa [htop]) (by rwa [htop])
    rw [htop] at h
    refine ⟨b, _, hq, run_unlocked hl ((ioplCheck_ok hf).trans ((bind_ok h).trans rfl)), fun i hi => ?_⟩
    refine (normFlags_mergeBits_bit hfl (popMask s.level s.iopl &&& sizeMask os) v i).trans (if_congr ?_ rfl rfl)
    rw [← BitVec.and_assoc, BitVec.getLsbD_and, Bool.and_eq_true, and_comm, sizeMask_bit os hi, decide_eq_true_eq,
      popMask_bit s.part s.level s.iopl hi]

end Sys2Proof.Machine
end

section
/-! SUPPORT. The floating-point escapes (O28, O29). -/

namespace Sys2Proof.Machine

variable {s t : State} {os : OpSize} {op reg r : BitVec 3} {m : MemOp} {rm : Rm (BitVec 3)} {f : Fpu} {b : Bus}

/-! ### The gate and the end of every escape (44_instructions_referenced.md R540; 10_state.md R66) -/

theorem fpErrorCheck_ok (h : s.fpErrorPending = false ∨ (s.ne = false ∧ s.pins.ignne = true)) : fpErrorCheck s = .ok () s := by
  unfold fpErrorCheck
  rw [bind_ok (get_run s)]
  rcases h with hp | ⟨hne, hi⟩
  · rw [State.ferr, hp, Bool.and_false, if_neg Bool.false_ne_true]
    rfl
  · rw [hne, hi]
    cases s.ferr <;> rfl

theorem escGate_ok {noWait : Bool} (h : s.FpuReady noWait) : escGate noWait s = .ok () s := by
  obtain ⟨hfpu, hem, hts, herr⟩ := h
  unfold escGate
  rw [bind_ok (get_run s), hfpu, hem, hts]
  cases noWait with
  | true => rfl
  | false => exact fpErrorCheck_ok (herr.resolve_left Bool.false_ne_true)

/-- An escape whose effect gives the registers `f`: they get this instruction's pointers. -/
theorem exec_esc (hl : s.noLock) (hr : s.FpuReady (fpuOp op reg rm).noWait) (h : escEffect os op reg rm s = .ok f t) :
    exec (.esc os op reg rm) s = .next ((t.withFpu (fpuOp op reg rm) (recordPointers op reg rm s f)).complete none) :=
  run_unlocked hl ((bind_ok (escGate_ok hr)).trans (bind_ok h))

theorem fpuOp_reg_ne_storeState (op reg r : BitVec 3) : fpuOp op reg (.reg r) ≠ .storeState := by
  unfold fpuOp
  dsimp only
  split_ifs <;> exact nofun

/-- With a register operand an escape leaves what `escReg` says. -/
theorem withFpu_reg (s : State) (op reg r : BitVec 3) (f : Fpu) :
    s.withFpu (fpuOp op reg (.reg r)) (recordPointers op reg (.reg r) s f) = s.escReg op reg r f := by
  unfold State.withFpu escPending
  rw [bne_iff_ne.2 (fpuOp_reg_ne_storeState op reg r), Bool.true_and]
  rfl

/-- With a memory operand it leaves what `escMem` says, the storing of the environment or of the state apart. -/
theorem withFpu_mem (s : State) (h : fpuOp op reg (.mem m) ≠ .storeState) (f : Fpu) (b : Bus) :
    ({ s with bus := b } : State).withFpu (fpuOp op reg (.mem m)) (recordPointers op reg (.mem m) s f)
      = { s.escMem op reg m f with bus := b } := by
  unfold State.withFpu escPending
  rw [bne_iff_ne.2 h, Bool.true_and]
  rfl

theorem State.escDone_withBus (s : State) (op reg : BitVec 3) (m : MemOp) (res : FpuResult) :
    { s.escDone op reg m res with bus := s.bus } = s.escDone op reg m res := by
  unfold State.escDone
  split <;> rfl

theorem withFpu_escDone (s : State) (op reg : BitVec 3) (m : MemOp) (res : FpuResult) (b : Bus) :
    ({ s with bus := b } : State).withFpu (fpuOp op reg (.mem m)) (recordPointers op reg (.mem m) s res.fpu)
      = { s.escDone op reg m res with bus := b } := by
  unfold State.escDone
  by_cases h : fpuOp op reg (.mem m) = .storeState
  · rw [if_pos h, h]
    rfl
  · rw [if_neg h, withFpu_mem s h]

/-! ### The control instructions (60_exceptions.md R635; log 8) -/

/-- With every exception flag clear no error is pending. -/
theorem escReg_notPending (h : f.status.extractLsb' 0 6 = 0) : (s.escReg op reg r f).fpErrorPending = false := by
  show (f.status.extractLsb' 0 6 &&& ~~~(f.control.extractLsb' 0 6) != 0) = false
  rw [h, BitVec.ofNat_eq_ofNat, BitVec.zero_and]
  rfl

/-- A control instruction that writes two bytes. -/
theorem exec_esc_store {v : Word} (hl : s.noLock) (hr : s.FpuReady (fpuOp op reg (.mem m)).noWait) (hs : s.Flat)
    (hop : fpuOp op reg (.mem m) ≠ .storeState)
    (he : escEffect os op reg (.mem m) s = (writeMem m.seg (eaOffset s.regs m.ea) (toBytes 2 v) >>= fun _ => pure s.fpu) s)
    (ha : s.Admits m.seg (eaOffset s.regs m.ea) 2 true) :
    ∃ b, Bus.Stored s.memCtx s.bus (s.dataAddr m.seg (eaOffset s.regs m.ea)) (toBytes 2 v) b
      ∧ exec (.esc os op reg (.mem m)) s = .next ({ s.escMem op reg m s.fpu with bus := b }.complete none) := by
  obtain ⟨b, h, hb⟩ := writeMem_toBytes v hs ha (by decide)
  refine ⟨b, hb, ?_⟩
  rw [exec_esc hl hr (he.trans (bind_ok h)), withFpu_mem s hop]

/-- FLDCW reads the two bytes that the control register takes. -/
theorem exec_fldcw (hl : s.noLock) (hr : s.FpuReady false) (hs : s.Flat) (ha : s.Admits m.seg (eaOffset s.regs m.ea) 2 false)
    (hf : s.NoFill m.seg (eaOffset s.regs m.ea) 2) :
    ∃ b, Bus.Quiet s.memCtx s.bus b ∧ exec (.esc os 1 5 (.mem m)) s = .next ({ s.escMem 1 5 m
      { s.fpu with control := ofBytes 16 (s.seenBytes m.seg (eaOffset s.regs m.ea) 2) } with bus := b }.complete none) := by
  obtain ⟨b, h, -, hq, -⟩ := readMem_spec hs ha hf
  have he : escEffect os 1 5 (.mem m) s
      = .ok { s.fpu with control := ofBytes 16 (s.seenBytes m.seg (eaOffset s.regs m.ea) 2) } { s with bus := b } :=
    (bind_ok h).trans rfl
  refine ⟨b, hq, ?_⟩
  rw [exec_esc (op := 1) (reg := 5) (rm := .mem m) hl hr he,
    withFpu_mem (op := 1) (reg := 5) (m := m) s (nofun : FpuOp.fldcw ≠ .storeState)]

/-- Settles O28: each by what its effect gives, the two stores by one lemma. -/
theorem escControl : Obligations.EscControl := by
  intro os s hl hr initial
  have reg {op reg r : BitVec 3} {f : Fpu} (hr : s.FpuReady (fpuOp op reg (.reg r)).noWait)
      (h : escEffect os op reg (.reg r) s = .ok f s) : exec (.esc os op reg (.reg r)) s = .next ((s.escReg op reg r f).complete none) :=
    withFpu_reg s op reg r f ▸ exec_esc hl hr h
  refine ⟨reg hr rfl, escReg_notPending rfl, reg hr rfl, escReg_notPending ?_,
    exec_esc (op := 7) (reg := 4) (rm := .reg 0) hl hr rfl,
    fun m hs => ⟨fun ha => ⟨?_, ?_⟩, fun hr ha hf => exec_fldcw hl hr hs ha hf⟩⟩
  · show (s.fpu.status &&& 0x7F00#16).extractLsb' 0 6 = 0
    rw [BitVec.extractLsb'_and]
    exact BitVec.and_zero
  · exact exec_esc_store hl hr hs (nofun : FpuOp.fnstcw ≠ .storeState) rfl ha
  · exact exec_esc_store hl hr hs (nofun : FpuOp.fnstswMem ≠ .storeState) rfl ha

/-! ### The others (10_state.md R65; 20_memory.md R151) -/

/-- The bytes an operand has. -/
def FpuOperand.total : FpuOperand → Nat
  | .none => 0
  | .read ns | .write ns => ns.sum

theorem fpuOperand_total_le (os : OpSize) (op reg : BitVec 3) : (fpuOperand os op reg).total ≤ 108 := by
  cases os <;> revert op reg <;> decide

theorem fitBytes_length (n : Nat) (bs : List Byte) : (fitBytes n bs).length = n := by
  simp [fitBytes]

theorem escEffect_reg_other (h : fpuOp op reg (.reg r) = .other) :
    escEffect os op reg (.reg r) s = .ok (s.fpuResult os op reg (some r) []).fpu s := by
  unfold escEffect
  rw [bind_ok (get_run s), h]
  rfl

theorem escEffect_mem_other
    (h : fpuOp op reg (.mem m) = .other ∨ fpuOp op reg (.mem m) = .storeState ∨ fpuOp op reg (.mem m) = .loadState) :
    escEffect os op reg (.mem m) s = (escExecute os op reg (.mem m) >>= fun res => pure res.fpu) s := by
  unfold escEffect
  rw [bind_ok (get_run s)]
  rcases h with h | h | h <;> rw [h]

/-- The effect of an escape with a memory operand that `Fpu387` executes. -/
theorem exec_esc_mem {res : FpuResult} (hl : s.noLock)
    (hop : fpuOp op reg (.mem m) = .other ∨ fpuOp op reg (.mem m) = .storeState ∨ fpuOp op reg (.mem m) = .loadState)
    (hr : s.FpuReady (fpuOp op reg (.mem m)).noWait) (h : escExecute os op reg (.mem m) s = .ok res { s with bus := b }) :
    exec (.esc os op reg (.mem m)) s = .next ({ s.escDone op reg m res with bus := b }.complete none) := by
  rw [exec_esc hl hr ((escEffect_mem_other hop).trans (bind_ok h)), withFpu_escDone]

/-- An escape without a memory operand's bytes to move. -/
theorem escExecute_none (h : fpuOperand os op reg = .none) :
    escExecute os op reg (.mem m) s = .ok (s.fpuResult os op reg none []) s := by
  unfold escExecute
  rw [bind_ok (get_run s), h]
  rfl

theorem escExecute_read {ns : List Nat} (h : fpuOperand os op reg = .read ns) (hs : s.Flat)
    (ha : s.AdmitsPieces m.seg (eaOffset s.regs m.ea) ns false) (hf : s.NoFill m.seg (eaOffset s.regs m.ea) ns.sum) :
    ∃ b, Bus.Quiet s.memCtx s.bus b ∧ escExecute os op reg (.mem m) s
      = .ok (s.fpuResult os op reg none (s.seenBytes m.seg (eaOffset s.regs m.ea) ns.sum)) { s with bus := b } := by
  obtain ⟨b, hread, -, hq⟩ := readPieces_spec hs ha hf
  refine ⟨b, hq, ?_⟩
  unfold escExecute
  rw [bind_ok (get_run s), h]
  exact (bind_ok hread).trans rfl

/-- An escape that stores: what `Fpu387` gives is written, or only the checks of the write are made. -/
theorem escExecute_write {ns : List Nat} (h : fpuOperand os op reg = .write ns) (hs : s.Flat)
    (ha : s.AdmitsPieces m.seg (eaOffset s.regs m.ea) ns true) :
    let res := s.fpuResult os op reg none []
    ∃ b, (∀ bs, res.store = some bs → Bus.Stored s.memCtx s.bus (s.dataAddr m.seg (eaOffset s.regs m.ea)) (fitBytes ns.sum bs) b)
      ∧ (res.store = none → b = s.bus) ∧ escExecute os op reg (.mem m) s = .ok res { s with bus := b } := by
  intro res
  have hle : ns.sum ≤ 108 := by
    have := fpuOperand_total_le os op reg
    rwa [h] at this
  have hrun : escExecute os op reg (.mem m) s
      = (res.store.elim (checkPieces m.seg (eaOffset s.regs m.ea) ns)
          (fun bs => writePieces m.seg (eaOffset s.regs m.ea) ns (fitBytes ns.sum bs)) >>= fun _ => pure res) s := by
    unfold escExecute
    rw [bind_ok (get_run s), h]
    show (match res.store with | some bs => _ | none => _ : M FpuResult) s = _
    cases res.store <;> rfl
  cases hst : res.store with
  | none =>
    rw [hst] at hrun
    exact ⟨s.bus, nofun, fun _ => rfl, hrun.trans ((bind_ok (checkPieces_spec hs ha)).trans rfl)⟩
  | some bs =>
    have hlen := fitBytes_length ns.sum bs
    obtain ⟨b, hw, hb⟩ := writePieces_spec hs ha hlen (by omega)
    rw [hst] at hrun
    refine ⟨b, fun bs' he => ?_, nofun, hrun.trans ((bind_ok hw).trans rfl)⟩
    obtain rfl := Option.some.inj he
    exact hb

/-- Settles O29: by the operand's direction. -/
theorem escExecutes : Obligations.EscExecutes := by
  refine ⟨fun os op reg r s hl hr hop => ?_, ?_⟩
  · have h := exec_esc (os := os) (op := op) (reg := reg) (rm := .reg r) hl (by rwa [hop]) (escEffect_reg_other hop)
    rwa [withFpu_reg] at h
  · intro os op reg m s hl hs hop hr off
    refine ⟨fun h => ?_, fun ns h ha hf => ?_, fun ns h ha => ?_⟩
    · rw [exec_esc_mem (b := s.bus) hl hop hr (escExecute_none h), State.escDone_withBus]
    · obtain ⟨b, hq, he⟩ := escExecute_read h hs ha hf
      exact ⟨b, hq, exec_esc_mem hl hop hr he⟩
    · obtain ⟨b, hstored, hnone, he⟩ := escExecute_write h hs ha
      exact ⟨b, hstored, hnone, exec_esc_mem hl hop hr he⟩

end Sys2Proof.Machine
end

section
/-! SUPPORT. XCHG with memory (O20). -/

namespace Sys2Proof.Machine

variable {s : State} {c : MemCtx} {b : Bus} {a : Addr} {m : MemOp} {r : Reg}

/-! ### The exchange (44_instructions_referenced.md R534) -/

theorem exec_xchgRm8R8_mem {r : Reg8} (hs : s.Flat) (ha : s.Admits m.seg (eaOffset s.regs m.ea) 1 true)
    (hc : s.Clean m.seg (eaOffset s.regs m.ea) 1) :
    ∃ b, Bus.Stored s.memCtx s.bus (s.dataAddr m.seg (eaOffset s.regs m.ea)) (toBytes 1 (s.regs.get8 r)) b
      ∧ exec (.xchgRm8R8 (.mem m) r) s = .next ({ s with
        regs := s.regs.set8 r (ofBytes 8 (s.seenBytes m.seg (eaOffset s.regs m.ea) 1)), bus := b }.complete none) := by
  obtain ⟨b, hb, h⟩ := modifyRm8_mem (lock := true) (f := fun _ => s.regs.get8 r) (other := fun old => setReg8 r old) hs ha hc
  exact ⟨b, hb, (run_ok ((bind_ok (lockable_mem m s)).trans (h.trans (setReg8_run ..))) : execXchgRm8R8 (.mem m) r s = _)⟩

theorem exec_xchgRmR_mem {os : OpSize} (hs : s.Flat) (ha : s.Admits m.seg (eaOffset s.regs m.ea) (OpSize.bytes os) true)
    (hc : s.Clean m.seg (eaOffset s.regs m.ea) (OpSize.bytes os)) :
    ∃ b, Bus.Stored s.memCtx s.bus (s.dataAddr m.seg (eaOffset s.regs m.ea)) (toBytes (OpSize.bytes os) (s.regs.getSz os r)) b
      ∧ exec (.xchgRmR os (.mem m) r) s = .next ({ s with
        regs := s.regs.setSz os r (ofBytes os.bits (s.seenBytes m.seg (eaOffset s.regs m.ea) (OpSize.bytes os)))
        bus := b }.complete none) := by
  obtain ⟨b, hb, h⟩ := modifyRm_mem (lock := true) (f := fun _ => s.regs.getSz os r) (other := fun old => setRegSz os r old) hs ha hc
  exact ⟨b, hb, (run_ok ((bind_ok (lockable_mem m s)).trans (h.trans (setRegSz_run ..))) : execXchgRmR os (.mem m) r s = _)⟩

/-! ### One aligned doubleword, locked (42_bus_transactions.md R440) -/

section
variable (ha : a.toNat % 4 = 0) (pcd pwt : Bool)
include ha

theorem maskA20_aligned : (maskA20 c a).toNat % 4 = 0 := by
  have := maskA20_place c a
  omega

/-- All four enables go with an aligned doubleword. -/
theorem entryEnables : ~~~LChunk.lanes ⟨a, 4⟩ = 0#4 := by
  have h : a.extractLsb' 0 2 = 0 := BitVec.eq_of_toNat_eq ((lane_toNat a).trans ha)
  unfold LChunk.lanes
  rw [h]
  show ~~~laneMask 0 4 = 0#4
  decide

theorem lockedReads_aligned : lockedReads c false [⟨a, 4, pcd, pwt⟩] = [entryRead (maskA20 c a) pcd pwt] := by
  simp only [lockedReads, readParts, dwordsOf, chunksOf_entry (.inl rfl) (maskA20_aligned ha)]
  rfl

theorem laneData_aligned (v : DWord) : laneData (a.extractLsb' 0 2) (toBytes 4 v) = v := by
  unfold laneData
  rw [lane_toNat, ha, Nat.mul_zero, BitVec.shiftLeft_zero]
  exact ofBytes_toBytes v

theorem lockedWrites_aligned (v : DWord) :
    lockedWrites c false [⟨a, 4, pcd, pwt⟩] (toBytes 4 v) = [entryWrite (maskA20 c a) pcd pwt v] := by
  have hdata := laneData_aligned (maskA20_aligned (c := c) ha) v
  simp only [lockedWrites, dwordsOf, chunksOf_entry (.inl rfl) (maskA20_aligned ha), writeEntries,
    List.take_of_length_le (toBytes_length 4 v).le, hdata]
  rfl

end

/-- The lines that a locked write changes are all that it changes before its cycles. -/
theorem Bus.storeHits_eq (chs : List PChunk) :
    ∀ (bs : List Byte) (b : Bus), ∃ k, b.storeHits c chs bs = { b with cache := k } := by
  induction chs with
  | nil => exact fun _ b => ⟨b.cache, rfl⟩
  | cons ch chs ih =>
    intro bs b
    unfold Bus.storeHits
    dsimp only
    split <;> exact ih ..

section
variable (ha : a.toNat % 4 = 0) (h8 : c.plat.bus8 = []) (h16 : c.plat.bus16 = []) (hs : b.script = []) (pcd pwt : Bool)
include ha h8 h16 hs

/-- With the buffers empty the locked read of an aligned doubleword is one cycle. -/
theorem readChunksLocked_aligned (hfree : c.busFree = true) (hw : b.wb = [])
    (hcl : Cache.stateAt b.cache c.big (maskA20 c a) ≠ some .modified) :
    ∃ bs b' d, readChunksLocked c [⟨a, 4, pcd, pwt⟩] b = .ok bs b' ∧ Bus.SameButRead b b' ∧ b'.trace = d :: b.trace
      ∧ d.kind = .memRead ∧ d.lock = true ∧ d.be = 0 ∧ d.addr = memDword (maskA20 c a) := by
  set x := entryRead (maskA20 c a) pcd pwt
  set e : Bus := { b with fillBuf := [], pchk := false }
  have he : Bus.SameButRead b e := by constructor <;> rfl
  have ht := transact_ok (c := c) true [x] hs
  rw [if_pos (by rfl)] at ht
  obtain ⟨d, htrace, hd⟩ := Bus.trace_finish_one (b := e) (x := x) rfl rfl rfl rfl (busWidth_mem h8 h16 (.inl rfl) _)
  refine ⟨([⟨a, 4, pcd, pwt⟩] : List PChunk).flatMap fun ch => (e.finish c x).readBytes (maskA20 c ch.pa) ch.len, e.finish c x, d, ?_,
    he.trans (Bus.finish_read e c (.inl rfl) rfl rfl).1, htrace, hd.kind, hd.lock,
    hd.be.trans (entryEnables (maskA20_aligned ha)), hd.addr⟩
  unfold readChunksLocked
  rw [bind_ok (needBus_ok hfree b), bind_ok (drainBuffers_empty hw),
    bind_ok (cleanLines_eq fun ch hch => List.mem_singleton.1 hch ▸ hcl), lockedReads_aligned ha, bind_ok ht]
  rfl

/-- The locked write of an aligned doubleword is one cycle. -/
theorem writeChunksLocked_aligned (v : DWord) :
    ∃ b' w, writeChunksLocked c [⟨a, 4, pcd, pwt⟩] (toBytes 4 v) b = .ok () b' ∧ b'.trace = w :: b.trace
      ∧ w.kind = .memWrite ∧ w.lock = true ∧ w.be = 0 ∧ w.data = v ∧ w.addr = memDword (maskA20 c a) := by
  set x := entryWrite (maskA20 c a) pcd pwt v
  obtain ⟨k, hk⟩ := Bus.storeHits_eq (c := c) [⟨a, 4, pcd, pwt⟩] (toBytes 4 v) b
  obtain ⟨w, htrace, hw⟩ := Bus.trace_finish_one (b := { b with cache := k }) (x := x) rfl rfl rfl rfl
    (busWidth_mem h8 h16 (.inr rfl) _)
  refine ⟨Bus.finish { b with cache := k } c x, w, ?_, htrace, hw.kind, hw.lock,
    hw.be.trans (entryEnables (maskA20_aligned ha)), hw.data, hw.addr⟩
  unfold writeChunksLocked
  rw [bind_ok (modify_run _ b), hk, lockedWrites_aligned ha]
  exact transact_ok (b := { b with cache := k }) false [x] hs

end

/-- The locked read half of a read-modify-write with paging off. -/
theorem rmwRead_locked {seg : SegReg} {off : DWord} {n : Nat} {bs : List Byte} (hs : s.Flat) (ha : s.Admits seg off n true)
    (h : readChunksLocked s.memCtx (flatChunks (s.pageCtx (s.level == 3)) (chunksOf 4 (n + 1) ((s.segs.get seg).base + off) n)) s.bus
      = .ok bs b) :
    rmwRead seg off n true s = .ok (flatChunks (s.pageCtx (s.level == 3)) (chunksOf 4 (n + 1) ((s.segs.get seg).base + off) n), bs)
      { s with bus := b } := by
  unfold rmwRead
  rw [bind_ok (get_run s), bind_ok (segLinear_ok ha.segment), bind_ok (checkAlign_ok ha.align), bind_ok (watch_ok ha.unwatched)]
  refine bus_ok ?_
  rw [bind_ok (translateRange_flat hs.pg _ n s.bus), if_pos rfl, bind_ok h]
  rfl

/-- XCHG with an aligned doubleword: the two newest cycles are its locked read and write. -/
theorem exec_xchg_cycles (hs : s.Flat) (ha : s.Admits m.seg (eaOffset s.regs m.ea) 4 true) (hc : s.Clean m.seg (eaOffset s.regs m.ea) 4)
    (hw : s.bus.wb = []) (h8 : s.platform.bus8 = []) (h16 : s.platform.bus16 = [])
    (hlane : (s.dataAddr m.seg (eaOffset s.regs m.ea) 0).extractLsb' 0 2 = 0) :
    ∃ t w d, exec (.xchgRmR .w32 (.mem m) r) s = .next t ∧ t.bus.trace = w :: d :: s.bus.trace
      ∧ w.kind = .memWrite ∧ w.lock = true ∧ w.be = 0 ∧ w.data = s.regs.get r
      ∧ w.addr = (s.dataAddr m.seg (eaOffset s.regs m.ea) 0).extractLsb' 2 30
      ∧ d.kind = .memRead ∧ d.lock = true ∧ d.be = 0 ∧ d.addr = w.addr := by
  set lin := (s.segs.get m.seg).base + eaOffset s.regs m.ea
  set p := s.pageCtx (s.level == 3)
  have haddr : s.dataAddr m.seg (eaOffset s.regs m.ea) 0 = maskA20 s.memCtx lin := congrArg (maskA20 s.memCtx) (BitVec.add_zero lin)
  have halign : lin.toNat % 4 = 0 := by
    have h0 : (maskA20 s.memCtx lin).toNat % 4 = 0 := (lane_toNat _).symm.trans (congrArg BitVec.toNat (haddr ▸ hlane))
    have := maskA20_place s.memCtx lin
    omega
  have hchunks : flatChunks p (chunksOf 4 5 lin 4) = [⟨lin, 4, (flatPhys p lin).pcd, (flatPhys p lin).pwt⟩] := by
    rw [chunksOf_entry (.inr rfl) halign]
    rfl
  obtain ⟨bs, b₁, d, hread, hsame, htrace₁, hkind, hlock, hbe, hd⟩ := readChunksLocked_aligned (c := s.memCtx) (b := s.bus) halign h8 h16
    hs.ready.script (flatPhys p lin).pcd (flatPhys p lin).pwt hs.ready.bus hw (haddr ▸ (hc 0 (by norm_num)).1)
  obtain ⟨b₂, w, hwrite, htrace₂, hkind', hlock', hbe', hdata', hw'⟩ := writeChunksLocked_aligned (c := s.memCtx) (b := b₁) halign h8 h16
    (hsame.control.script.trans hs.ready.script) (flatPhys p lin).pcd (flatPhys p lin).pwt (s.regs.getSz .w32 r)
  rw [← hchunks] at hread hwrite
  have hput : rmwWrite (flatChunks p (chunksOf 4 5 lin 4)) (toBytes 4 (s.regs.getSz .w32 r)) true { s with bus := b₁ }
      = .ok () { s with bus := b₂ } := by
    refine bus_ok (s := { s with bus := b₁ }) (b := b₂) ?_
    rw [memCtx_bus hsame.control, if_pos rfl]
    exact hwrite
  have hrun : modifyRm .w32 (.mem m) true (fun _ => s.regs.getSz .w32 r) (fun old => setRegSz .w32 r old) s
      = setRegSz .w32 r (ofBytes 32 bs) { s with bus := b₂ } := by
    unfold modifyRm
    rw [bind_ok (get_run s)]
    exact (bind_ok (rmwRead_locked hs ha hread)).trans (bind_ok hput)
  refine ⟨_, w, d, (run_ok ((bind_ok (lockable_mem m s)).trans (hrun.trans (setRegSz_run ..))) : execXchgRmR .w32 (.mem m) r s = _),
    htrace₂.trans (congrArg _ htrace₁), hkind', hlock', hbe', hdata'.trans (BitVec.setWidth_eq _), ?_, hkind, hlock, hbe, hd.trans hw'.symm⟩
  rw [hw', haddr]
  rfl

/-- Settles O20: the exchange as a read-modify-write, and its two cycles. -/
theorem xchgMemory : Obligations.XchgMemory :=
  ⟨⟨fun _ _ _ => exec_xchgRm8R8_mem, fun _ _ _ _ => exec_xchgRmR_mem⟩, fun _ _ _ => exec_xchg_cycles⟩

end Sys2Proof.Machine
end

section
/-! SUPPORT. Ports: the permission check, the doublewords of an access, and what I/O writes do (44_instructions_referenced.md R525,
R527; 42_bus_transactions.md R422). -/

namespace Sys2Proof.Machine

variable {s : State} {c : MemCtx} {b : Bus} {port : Word} {bs : List Byte} {n : Nat}

/-! ### Permission -/

theorem ioPermission_ok (h : s.ioPermitted) : ioPermission port n s = .ok () s := by
  unfold ioPermission
  rw [bind_ok (get_run s), if_neg]
  · rfl
  · rcases h with h | h | ⟨hlevel, hvm⟩
    · simp [h]
    · simp [h]
    · simp [hvm, BitVec.not_lt.2 hlevel]

/-! ### Where a port stands -/

theorem portAddr_port (port : Word) : portAddr (port.setWidth 32) = (port.extractLsb' 2 14).setWidth 30 := by
  unfold portAddr
  congr 1

theorem lane_port (port : Word) : ((port.setWidth 32 : Addr).extractLsb' 0 2).toNat = portLane port := by
  rw [lane_toNat, BitVec.toNat_setWidth_of_le (by decide), portLane]

theorem laneMask_port (port : Word) (n : Nat) :
    laneMask ((port.setWidth 32 : Addr).extractLsb' 0 2) n = BitVec.ofNat 4 (2 ^ n - 1) <<< portLane port := by
  unfold laneMask
  rw [lane_port]

theorem chunksOf_nothing (w fuel : Nat) (a : Addr) : chunksOf w fuel a 0 = [] := by
  cases fuel <;> rfl

/-- An access that one block takes whole has one part. -/
theorem chunksOf_one {w : Nat} {a : Addr} (hn : 0 < n) (hf : a.toNat % 2 ^ w + n ≤ 2 ^ w) : chunksOf w (n + 1) a n = [⟨a, n⟩] := by
  have hmin : min n (2 ^ w - a.toNat % 2 ^ w) = n := by omega
  rw [chunksOf, if_neg (by omega), hmin]
  dsimp only
  rw [Nat.sub_self, chunksOf_nothing]

/-- A port's bytes in one doubleword. -/
theorem dwordsOf_port (hn : 0 < n) (hp : portLane port + n ≤ 4) : dwordsOf (port.setWidth 32) n = [⟨port.setWidth 32, n⟩] := by
  refine chunksOf_one hn ?_
  rwa [BitVec.toNat_setWidth_of_le (by decide)]

/-! ### The writes of an access -/

/-- Bytes on the lanes from `k` on, taken off them. -/
theorem extract_laneData {off : BitVec 2} (h : off.toNat + bs.length ≤ 4) :
    (laneData off bs).extractLsb' (8 * off.toNat) (8 * bs.length) = ofBytes (8 * bs.length) bs := by
  refine BitVec.eq_of_getLsbD_eq fun i hi => ?_
  unfold laneData ofBytes
  rw [BitVec.getLsbD_extractLsb', BitVec.getLsbD_shiftLeft, BitVec.getLsbD_ofNat, BitVec.getLsbD_ofNat]
  have h32 : 8 * off.toNat + i < 32 := by omega
  simp [hi, h32]
  omega

/-- The write of an operand that lies in one doubleword. -/
theorem portWrites_one (hn : 0 < bs.length) (hp : portLane port + bs.length ≤ 4) :
    ∃ e, portWrites port bs = [e] ∧ e.io = true ∧ isIoWrite port bs e.addr e.lanes e.data := by
  refine ⟨_, by rw [portWrites, dwordsOf_port hn hp]; rfl, rfl, portAddr_port port, laneMask_port port bs.length, ?_⟩
  have h := extract_laneData (off := (port.setWidth 32 : Addr).extractLsb' 0 2) (bs := bs) (by rwa [lane_port])
  rw [lane_port] at h
  simpa using h

theorem portWrites_io {e : WbEntry} (h : e ∈ portWrites port bs) : e.io = true := writeEntries_mem _ _ _ e h

/-- An I/O write from the buffers, or past them, changes only the record of cycles; on a 32-bit device it is the newest one. -/
theorem Bus.finish_ioEntry {e : WbEntry} (he : e.io = true) :
    Bus.SameButRead b (b.finish c e.xfer)
      ∧ (c.plat.ioBus8 = [] → c.plat.ioBus16 = [] → isIoWrite port bs e.addr e.lanes e.data → (b.finish c e.xfer).lastIoWrite port bs) := by
  have hk : e.xfer.kind = .ioWrite := by rw [WbEntry.xfer_kind, he, if_pos rfl]
  obtain ⟨hsame, y, rest, htrace, hkind, haddr, hdata, hbe⟩ := Bus.finish_ioWrite (b := b) (c := c) hk rfl rfl rfl rfl
  refine ⟨hsame, fun h8 h16 hw => ⟨y, rest, htrace, hkind, ?_⟩⟩
  rw [haddr, hdata, hbe h8 h16, BitVec.not_not]
  exact hw

theorem Bus.finishAll_ioEntries (l : List WbEntry) :
    ∀ b : Bus, (∀ e ∈ l, e.io = true) → Bus.SameButRead b (b.finishAll c (l.map WbEntry.xfer)) := by
  induction l with
  | nil => exact fun b _ => .refl b
  | cons e l ih =>
    intro b h
    exact (Bus.finish_ioEntry (port := 0) (bs := []) (h e (List.mem_cons_self ..))).1.trans
      (ih _ fun e' he => h e' (List.mem_cons_of_mem _ he))

/-- AN UNBUFFERED I/O WRITE with the bus free: the buffers drain, then it runs. -/
theorem ioWrite_spec (hs : s.BusReady) (port : Word) (bs : List Byte) :
    ∃ b, ioWrite port bs s = .ok () { s with bus := b } ∧ Bus.DrainedOnly s.memCtx s.bus b
      ∧ (0 < bs.length → s.platform.ioBus8 = [] → s.platform.ioBus16 = [] → portLane port + bs.length ≤ 4 → b.lastIoWrite port bs) := by
  obtain ⟨b, hdrain, hwf, hsame, hwb, hmem, hview⟩ := drainBuffers_spec (c := s.memCtx) (b := s.bus) hs.wf hs.bus hs.script
  refine ⟨b.finishAll s.memCtx ((portWrites port bs).map WbEntry.xfer), bus_ok ?_,
    Bus.Emptied.drainedOnly ⟨hwf, hwb, hsame, hmem, hview⟩ (Bus.finishAll_ioEntries _ b fun _ => portWrites_io), fun hn h8 h16 hp => ?_⟩
  · rw [bind_ok (needBus_ok hs.bus _), bind_ok hdrain, transact_ok false _ (hsame.script.trans hs.script), entries_noRead]
    rfl
  · obtain ⟨e, he, hio, hw⟩ := portWrites_one hn hp
    rw [he]
    exact (Bus.finish_ioEntry hio).2 h8 h16 hw

/-! ### OUT (44_instructions_referenced.md R527) -/

theorem runIo_out (hl : s.noLock) (hp : s.ioPermitted) (hs : s.BusReady) (port : Word) (bs : List Byte) :
    ∃ b, runIo (outBytes port bs) s = .next ({ s with bus := b }.complete (some ⟨s.eip - s.dec.start, none⟩))
      ∧ Bus.DrainedOnly s.memCtx s.bus b
      ∧ (0 < bs.length → s.platform.ioBus8 = [] → s.platform.ioBus16 = [] → portLane port + bs.length ≤ 4 → b.lastIoWrite port bs) := by
  obtain ⟨b, h, hd, hlast⟩ := ioWrite_spec hs port bs
  exact ⟨b, runWith_unlocked hl ((bind_ok (ioPermission_ok hp)).trans h), hd, hlast⟩

theorem natOfBytes_bytesOfNat (k : Nat) : ∀ x, natOfBytes (bytesOfNat k x) = x % 256 ^ k := by
  induction k with
  | zero => exact fun x => (Nat.mod_one x).symm
  | succ k ih =>
    intro x
    rw [bytesOfNat, natOfBytes, ih, pow_succ', Nat.mod_mul, BitVec.toNat_ofNat]

/-- A value of whole bytes from its bytes. -/
theorem ofBytes_toBytes_eq {w k : Nat} (hw : w = 8 * k) (v : BitVec w) : ofBytes w (toBytes k v) = v := by
  subst hw
  have hv : v.toNat < 256 ^ k := lt_of_lt_of_eq v.isLt (Nat.pow_mul 2 8 k)
  refine BitVec.eq_of_toNat_eq ?_
  rw [ofBytes, toBytes, natOfBytes_bytesOfNat, BitVec.toNat_ofNat, Nat.mod_eq_of_lt hv, Nat.mod_eq_of_lt v.isLt]

/-- The I/O write of a value of `k` bytes. -/
theorem Bus.lastIoWrite_value {w k : Nat} {v : BitVec w} (h : b.lastIoWrite port (toBytes k v)) (hw : w = 8 * k) :
    ∃ y rest, b.trace = y :: rest ∧ y.kind = .ioWrite ∧ y.addr = (port.extractLsb' 2 14).setWidth 30
      ∧ y.data.extractLsb' (8 * portLane port) w = v ∧ y.be = ~~~(BitVec.ofNat 4 (2 ^ k - 1) <<< portLane port) := by
  obtain ⟨y, rest, htrace, hkind, haddr, hlanes, hdata⟩ := h
  subst hw
  rw [toBytes_length] at hlanes hdata
  exact ⟨y, rest, htrace, hkind, haddr, hdata.trans (ofBytes_toBytes_eq rfl v), BitVec.not_eq_comm.1 hlanes⟩

theorem portLane_lt (port : Word) : portLane port < 4 := Nat.mod_lt _ (by decide)

theorem OpSize.bits_eq (os : OpSize) : os.bits = 8 * OpSize.bytes os := by cases os <;> rfl

theorem OpSize.bytes_pos (os : OpSize) : 0 < OpSize.bytes os := by cases os <;> decide

/-- Settles O22: the accumulator's bytes as an I/O write, at the port that each form gives. -/
theorem outWrites : Obligations.OutWrites := by
  refine ⟨fun i port s hl hp hs hi => ?_, fun i os port s hl hp hs hi => ?_⟩
  · have hrun : exec i s = runIo (outBytes port (toBytes 1 (s.regs.get8 .al))) s := by
      rcases hi with ⟨p, rfl, rfl⟩ | ⟨rfl, rfl⟩ <;> rfl
    obtain ⟨b, h, hd, hlast⟩ := runIo_out hl hp hs port (toBytes 1 (s.regs.get8 .al))
    rw [toBytes_length] at hlast
    exact ⟨b, hrun.trans h, hd, fun h8 h16 => by simpa using Bus.lastIoWrite_value (hlast (by decide) h8 h16 (portLane_lt port)) rfl⟩
  · have hrun : exec i s = runIo (outBytes port (toBytes (OpSize.bytes os) (s.regs.getSz os .eax))) s := by
      rcases hi with ⟨p, rfl, rfl⟩ | ⟨rfl, rfl⟩ <;> rfl
    obtain ⟨b, h, hd, hlast⟩ := runIo_out hl hp hs port (toBytes (OpSize.bytes os) (s.regs.getSz os .eax))
    rw [toBytes_length] at hlast
    exact ⟨b, hrun.trans h, hd, fun h8 h16 hle => Bus.lastIoWrite_value (hlast (OpSize.bytes_pos os) h8 h16 hle) (OpSize.bits_eq os)⟩

end Sys2Proof.Machine
end

section
/-! SUPPORT. IN: the I/O reads of an access, the value they bring (44_instructions_referenced.md R525; 20_memory.md R147, R174). -/

namespace Sys2Proof.Machine

variable {s : State} {c : MemCtx} {b : Bus} {port : Word} {n : Nat}

/-! ### One transfer of I/O reads -/

theorem Bus.movePart_ioRead (b : Bus) (c : MemCtx) {x : Xfer} (p : BusPart) (driven : BitVec 4) (first ads more : Bool)
    (hk : x.kind = .ioRead) :
    Bus.SameButRead b (b.movePart c x p driven first ads more)
      ∧ (b.movePart c x p driven first ads more).fillBuf = { p with lanes := 0, got := mergeLanes p.lanes p.got p.data } :: b.fillBuf := by
  unfold Bus.movePart Bus.answer Bus.moveLanes Bus.keepPart
  simp only [hk]
  exact ⟨by constructor <;> rfl, rfl⟩

theorem Bus.moveRest_ioRead (c : MemCtx) {x : Xfer} (hk : x.kind = .ioRead) (ps : List BusPart) :
    ∀ b : Bus, Bus.SameButRead b (Bus.moveRest c x ps b) := by
  induction ps with
  | nil => exact fun b => .refl b
  | cons p ps ih => exact fun b => (Bus.movePart_ioRead b c p _ _ _ _ hk).1.trans (ih _)

/-- An I/O read changes what reads change, however many doublewords it has. -/
theorem Bus.finish_ioRead {x : Xfer} (hk : x.kind = .ioRead) (hw : x.want = false) (hf : x.fill = false) :
    Bus.SameButRead b (b.finish c x) := by
  rw [Bus.finish_plain b c hw hf]
  unfold Bus.moveAll
  dsimp only
  split
  · exact .refl b
  · exact (Bus.movePart_ioRead b c _ _ _ _ _ hk).1.trans (Bus.moveRest_ioRead c (x := Xfer.onward c { x with decided := true }) hk _ _)

theorem transact_ioRead {x : Xfer} (hs : b.script = []) (hk : x.kind = .ioRead) :
    transact c false [x] b = .ok () ({ b with fillBuf := [], pchk := false }.finish c x) := by
  have hread : [x].any (·.kind.isRead) = true := by simp [hk, CycleKind.isRead]
  rw [transact_ok false [x] hs, if_pos hread]
  rfl

/-! ### The device's data -/

theorem Bus.SameButRead.withDevice {b b' : Bus} (h : Bus.SameButRead b b') (q : List DWord) (n : Nat) :
    Bus.SameButRead { b with ioIn := q, draws := n } { b' with ioIn := q, draws := n } := { h with ioIn := rfl, draws := rfl }

/-- Taking the device's data changes nothing else. -/
theorem Bus.portParts_bus (ls : List LChunk) : ∀ b : Bus, ∃ q n, (b.portParts ls).2 = { b with ioIn := q, draws := n } := by
  induction ls with
  | nil => exact fun b => ⟨b.ioIn, b.draws, rfl⟩
  | cons l ls ih =>
    intro b
    obtain ⟨q, n, h⟩ := ih b.deviceData.2
    refine ⟨q, n, h.trans ?_⟩
    rw [Bus.deviceData_bus b]

/-- What an I/O read changes: what reads change, and the device's data. -/
def Bus.IoRead (b b' : Bus) : Prop := Bus.SameButRead { b with ioIn := b'.ioIn, draws := b'.draws } b'

theorem Bus.IoRead.refl (b : Bus) : Bus.IoRead b b := Bus.SameButRead.refl b

theorem Bus.IoRead.trans {b b₁ b₂ : Bus} (h : Bus.IoRead b b₁) (k : Bus.IoRead b₁ b₂) : Bus.IoRead b b₂ :=
  (h.withDevice b₂.ioIn b₂.draws).trans k

/-- The data taken, then the transfer that brings it. -/
theorem Bus.ioRead_transfer {x : Xfer} (ls : List LChunk) (hk : x.kind = .ioRead) (hw : x.want = false) (hf : x.fill = false) :
    Bus.IoRead b (({ (b.portParts ls).2 with fillBuf := [], pchk := false } : Bus).finish c x) := by
  have hrun := Bus.finish_ioRead (b := { (b.portParts ls).2 with fillBuf := [], pchk := false }) (c := c) hk hw hf
  unfold Bus.IoRead
  rw [hrun.ioIn, hrun.draws]
  refine Bus.SameButRead.trans ?_ hrun
  obtain ⟨q, n, hparts⟩ := Bus.portParts_bus ls b
  rw [hparts]
  constructor <;> rfl

/-- READING THE DOUBLEWORDS OF AN I/O ACCESS. -/
theorem readPortLines_spec (c : MemCtx) (ls : List LChunk) :
    ∀ b : Bus, b.script = [] → ∃ bs b', readPortLines c ls b = .ok bs b' ∧ Bus.IoRead b b' := by
  induction ls with
  | nil => exact fun b _ => ⟨[], b, rfl, .refl b⟩
  | cons l ls ih =>
    intro b hs
    obtain ⟨q, n, hparts⟩ := Bus.portParts_bus (dwordsOf l.lin l.len) b
    have hscript : (b.portParts (dwordsOf l.lin l.len)).2.script = [] := (congrArg Bus.script hparts).trans hs
    have hone := Bus.ioRead_transfer (b := b) (c := c) (dwordsOf l.lin l.len)
      (x := Xfer.new .ioRead ⟨false, !ls.isEmpty, false, false, false⟩ (b.portParts (dwordsOf l.lin l.len)).1) rfl rfl rfl
    obtain ⟨bs, b', hrest, hsame⟩ := ih _ (hone.script.trans hs)
    unfold readPortLines
    rw [bind_ok (get_run b), bind_ok (set_run _ b), bind_ok (transact_ioRead hscript rfl), bind_ok (get_run _), bind_ok hrest]
    exact ⟨_, b', rfl, hone.trans hsame⟩

/-! ### One doubleword -/

/-- The number that the bytes of a number stand for. -/
theorem natOfBytes_places (n : Nat) : ∀ x, natOfBytes ((List.range n).map fun i => BitVec.ofNat 8 (x / 256 ^ i)) = x % 256 ^ n := by
  induction n with
  | zero => exact fun x => (Nat.mod_one x).symm
  | succ n ih =>
    intro x
    have htail : ((fun i => BitVec.ofNat 8 (x / 256 ^ i)) ∘ Nat.succ) = fun i => BitVec.ofNat 8 (x / 256 / 256 ^ i) := by
      funext i
      rw [Function.comp, Nat.div_div_eq_div_mul, ← pow_succ']
    rw [List.range_succ_eq_map, List.map_cons, List.map_map, htail, natOfBytes, ih, pow_succ', Nat.mod_mul, BitVec.toNat_ofNat]
    simp

/-- The value on the lanes from `k` on, from their bytes. -/
theorem ofBytes_lanes {w : Nat} (d : DWord) (k n : Nat) (hw : w = 8 * n) :
    ofBytes w ((List.range n).map fun i => d.extractLsb' (8 * (k + i)) 8) = d.extractLsb' (8 * k) w := by
  subst hw
  have hbyte : (fun i => d.extractLsb' (8 * (k + i)) 8) = fun i => BitVec.ofNat 8 (d.toNat / 256 ^ k / 256 ^ i) := by
    funext i
    refine BitVec.eq_of_toNat_eq ?_
    rw [BitVec.extractLsb'_toNat, BitVec.toNat_ofNat, Nat.shiftRight_eq_div_pow, Nat.pow_mul, pow_add, Nat.div_div_eq_div_mul]
  refine BitVec.eq_of_toNat_eq ?_
  rw [ofBytes, hbyte, natOfBytes_places, BitVec.toNat_ofNat, BitVec.extractLsb'_toNat, Nat.shiftRight_eq_div_pow, Nat.pow_mul 2 8 k,
    Nat.pow_mul 2 8 n]
  exact Nat.mod_mod _ _

/-- The bytes of one doubleword read whole. -/
theorem Bus.readBytes_one {a : Addr} {d : DWord} (hn : n ≤ 2 ^ 20) (hfit : Fits 2 a n)
    (hbuf : b.fillBuf = [⟨a.extractLsb' 2 30, 0, d, mergeLanes (laneMask (a.extractLsb' 0 2) n) 0 d⟩]) :
    b.readBytes a n = (List.range n).map fun i => d.extractLsb' (8 * ((a.extractLsb' 0 2).toNat + i)) 8 := by
  unfold Bus.readBytes
  refine List.map_congr_left fun i hi => ?_
  have hcov : Covers a n (a + BitVec.ofNat 32 i) := covers_add (List.mem_range.1 hi) hn
  obtain ⟨haddr, hlane⟩ := (covers_lanes hfit).1 hcov
  obtain ⟨hle, hsub⟩ := lane_sub hfit hcov
  rw [sub_add a (lt_of_lt_of_le (List.mem_range.1 hi) hn)] at hsub
  have hplace : (a.extractLsb' 0 2).toNat + i = ((a + BitVec.ofNat 32 i).extractLsb' 0 2).toNat := by omega
  rw [hbuf, hplace]
  refine partByte_eq ⟨_, List.mem_singleton_self _, haddr.symm⟩ fun p hp _ => ?_
  rw [List.mem_singleton.1 hp, laneByte_mergeLanes, if_pos hlane]
  rfl

/-- A port's address on the bus. -/
def portPlace (port : Word) : Addr := portAddr (port.setWidth 32) ++ (port.setWidth 32 : Addr).extractLsb' 0 2

theorem portPlace_split (port : Word) : (portPlace port).extractLsb' 2 30 = portAddr (port.setWidth 32)
    ∧ (portPlace port).extractLsb' 0 2 = (port.setWidth 32 : Addr).extractLsb' 0 2 :=
  extract_laneAddr (portAddr (port.setWidth 32)) ((port.setWidth 32 : Addr).extractLsb' 0 2)

theorem portPlace_fits (hp : portLane port + n ≤ 4) : Fits 2 (portPlace port) n := by
  unfold Fits
  show (portPlace port).toNat % 4 + n ≤ 4
  rwa [← lane_toNat, (portPlace_split port).2, lane_port]

/-- An operand in one doubleword is one block of ports. -/
theorem portLines_one (hn : 0 < n) (hp : portLane port + n ≤ 4) : chunksOf 4 (n + 1) (port.setWidth 32) n = [⟨port.setWidth 32, n⟩] := by
  refine chunksOf_one hn ?_
  rw [BitVec.toNat_setWidth_of_le (by decide)]
  unfold portLane at hp
  omega

theorem busWidth_ioRead (h8 : c.plat.ioBus8 = []) (h16 : c.plat.ioBus16 = []) (a : BitVec 30) : busWidth c .ioRead a = 32 := by
  simp [busWidth, inRanges, h8, h16]

/-- The newest bus cycle is the I/O read of `n` bytes at a port. -/
def Bus.lastIoRead (b : Bus) (port : Word) (n : Nat) : Prop :=
  ∃ y rest, b.trace = y :: rest ∧ y.kind = .ioRead ∧ y.addr = (port.extractLsb' 2 14).setWidth 30
    ∧ y.be = ~~~(BitVec.ofNat 4 (2 ^ n - 1) <<< portLane port)

/-- The transfer that reads `n` bytes at a port, in one doubleword, where the device returns `d`. -/
def portXfer (port : Word) (n : Nat) (d : DWord) : Xfer :=
  Xfer.new .ioRead ⟨false, false, false, false, false⟩
    [⟨portAddr (port.setWidth 32), laneMask ((port.setWidth 32 : Addr).extractLsb' 0 2) n, d, 0⟩]

theorem Bus.readBytes_portXfer {d : DWord} (hp : portLane port + n ≤ 4) (hbuf : b.fillBuf = []) :
    (b.finish c (portXfer port n d)).readBytes (portPlace port) n
      = (List.range n).map fun i => d.extractLsb' (8 * (portLane port + i)) 8 := by
  have hone := Bus.finish_one (b := b) (c := c) (x := portXfer port n d) rfl rfl rfl
  obtain ⟨-, hfill⟩ := Bus.movePart_ioRead b c (x := { portXfer port n d with decided := true })
    ⟨portAddr (port.setWidth 32), laneMask ((port.setWidth 32 : Addr).extractLsb' 0 2) n, d, 0⟩
    (laneMask ((port.setWidth 32 : Addr).extractLsb' 0 2) n) (!(portXfer port n d).decided) (portXfer port n d).ads false rfl
  rw [← hone, hbuf] at hfill
  have h := Bus.readBytes_one (d := d) (by omega) (portPlace_fits hp)
    (by rw [(portPlace_split port).1, (portPlace_split port).2]; exact hfill)
  rwa [(portPlace_split port).2, lane_port] at h

theorem Bus.portXfer_cycle {d : DWord} (h8 : c.plat.ioBus8 = []) (h16 : c.plat.ioBus16 = []) :
    (b.finish c (portXfer port n d)).lastIoRead port n := by
  obtain ⟨y, hy, hc⟩ := Bus.trace_finish_one (b := b) (c := c) (x := portXfer port n d) rfl rfl rfl rfl (busWidth_ioRead h8 h16 _)
  exact ⟨y, _, hy, hc.kind, hc.addr.trans (portAddr_port port), hc.be.trans (congrArg (~~~·) (laneMask_port port n))⟩

/-- READING AN OPERAND THAT LIES IN ONE DOUBLEWORD: the device's data on its lanes, in one bus cycle on a 32-bit device. -/
theorem readPortLines_one (hs : b.script = []) (hn : 0 < n) (hp : portLane port + n ≤ 4) :
    ∃ b', readPortLines c (chunksOf 4 (n + 1) (port.setWidth 32) n) b
        = .ok ((List.range n).map fun i => b.deviceData.1.extractLsb' (8 * (portLane port + i)) 8) b'
      ∧ Bus.IoRead b b' ∧ b'.ioIn = b.deviceData.2.ioIn
      ∧ (c.plat.ioBus8 = [] → c.plat.ioBus16 = [] → b'.lastIoRead port n) := by
  have hdword := dwordsOf_port hn hp
  have hscript : b.deviceData.2.script = [] := by rw [Bus.deviceData_bus]; exact hs
  have hread := Bus.ioRead_transfer (b := b) (c := c) (dwordsOf (port.setWidth 32) n) (x := portXfer port n b.deviceData.1) rfl rfl rfl
  have hsame := Bus.finish_ioRead (b := { b.deviceData.2 with fillBuf := [], pchk := false }) (c := c)
    (x := portXfer port n b.deviceData.1) rfl rfl rfl
  rw [hdword] at hread
  refine ⟨_, ?_, hread, hsame.ioIn, Bus.portXfer_cycle⟩
  rw [portLines_one hn hp, readPortLines, bind_ok (get_run b)]
  dsimp only
  rw [hdword]
  refine (bind_ok (set_run _ b)).trans ((bind_ok (transact_ioRead (x := portXfer port n b.deviceData.1) hscript rfl)).trans ?_)
  refine congrArg (EStateM.Result.ok · _) ?_
  rw [List.flatMap_cons, List.flatMap_nil, List.append_nil, List.append_nil]
  exact Bus.readBytes_portXfer hp rfl

/-! ### IN (44_instructions_referenced.md R525) -/

/-- What IN's read does to the bus unit, and the value of `w` bits that it brings. -/
structure Bus.PortRead (s : State) (port : Word) (n w : Nat) (v : BitVec w) (b : Bus) : Prop where
  drained : Bus.Drained s.memCtx s.bus b
  control : Bus.SameControl { s.bus with ioIn := b.ioIn, draws := b.draws } b
  value : ∀ d rest, s.bus.ioIn = d :: rest → portLane port + n ≤ 4 → v = d.extractLsb' (8 * portLane port) w ∧ b.ioIn = rest
  cycle : s.platform.ioBus8 = [] → s.platform.ioBus16 = [] → portLane port + n ≤ 4 → b.lastIoRead port n

/-- AN I/O READ with the bus free: the buffers drain, then it runs. -/
theorem ioRead_spec {w : Nat} (hs : s.BusReady) (port : Word) (hn : 0 < n) (hw : w = 8 * n) :
    ∃ bs b, ioRead port n s = .ok bs { s with bus := b } ∧ Bus.PortRead s port n w (ofBytes w bs) b := by
  obtain ⟨b, hdrain, hwf, hsame, hwb, hmem, hview⟩ := drainBuffers_spec (c := s.memCtx) (b := s.bus) hs.wf hs.bus hs.script
  have hempty : Bus.Emptied s.memCtx s.bus b := ⟨hwf, hwb, hsame, hmem, hview⟩
  have hscript : b.script = [] := hsame.script.trans hs.script
  have hrun : ∀ {bs b'}, readPortLines s.memCtx (chunksOf 4 (n + 1) (port.setWidth 32) n) b = .ok bs b' →
      ioRead port n s = .ok bs { s with bus := b' } := fun h =>
    bus_ok (by rw [bind_ok (needBus_ok hs.bus _), bind_ok hdrain, h])
  have hframe : ∀ {b'}, Bus.IoRead b b' → Bus.Drained s.memCtx s.bus b'
      ∧ Bus.SameControl { s.bus with ioIn := b'.ioIn, draws := b'.draws } b' := fun h =>
    ⟨hempty.drained (v := b.vector) h, (hsame.control.withDevice _ _).trans h.control⟩
  by_cases hp : portLane port + n ≤ 4
  · obtain ⟨b', h, hread, hin, hcycle⟩ := readPortLines_one (c := s.memCtx) hscript hn hp
    obtain ⟨hd, hc⟩ := hframe hread
    refine ⟨_, b', hrun h, hd, hc, fun d rest hq _ => ?_, fun h8 h16 _ => hcycle h8 h16⟩
    have hdata := Bus.deviceData_queued (hsame.ioIn.trans hq)
    rw [ofBytes_lanes _ _ _ hw, hin, hdata]
    exact ⟨rfl, rfl⟩
  · obtain ⟨bs, b', h, hread⟩ := readPortLines_spec s.memCtx (chunksOf 4 (n + 1) (port.setWidth 32) n) b hscript
    obtain ⟨hd, hc⟩ := hframe hread
    exact ⟨bs, b', hrun h, hd, hc, fun _ _ _ h => absurd h hp, fun _ _ h => absurd h hp⟩

theorem runIo_inByte (hl : s.noLock) (hp : s.ioPermitted) (hs : s.BusReady) (port : Word) :
    ∃ v b, runIo (inByte port) s = .next ({ s with regs := s.regs.set8 .al v, bus := b }.complete (some ⟨s.eip - s.dec.start, none⟩))
      ∧ Bus.PortRead s port 1 8 v b := by
  obtain ⟨bs, b, h, hread⟩ := ioRead_spec (w := 8) hs port (n := 1) (by decide) rfl
  exact ⟨_, b, runWith_unlocked hl ((bind_ok (ioPermission_ok hp)).trans ((bind_ok h).trans (setReg8_run ..))), hread⟩

theorem runIo_inSized (hl : s.noLock) (hp : s.ioPermitted) (hs : s.BusReady) (os : OpSize) (port : Word) :
    ∃ v b, runIo (inSized os port) s
        = .next ({ s with regs := s.regs.setSz os .eax v, bus := b }.complete (some ⟨s.eip - s.dec.start, none⟩))
      ∧ Bus.PortRead s port (OpSize.bytes os) os.bits v b := by
  obtain ⟨bs, b, h, hread⟩ := ioRead_spec hs port (OpSize.bytes_pos os) (OpSize.bits_eq os)
  exact ⟨_, b, runWith_unlocked hl ((bind_ok (ioPermission_ok hp)).trans ((bind_ok h).trans (setRegSz_run ..))), hread⟩

/-- Settles O21: the accumulator takes what the I/O read brings, at the port that each form gives. -/
theorem inReads : Obligations.InReads := by
  refine ⟨fun i port s hl hp hs hi => ?_, fun i os port s hl hp hs hi => ?_⟩
  · have hrun : exec i s = runIo (inByte port) s := by
      rcases hi with ⟨p, rfl, rfl⟩ | ⟨rfl, rfl⟩ <;> rfl
    obtain ⟨v, b, h, hd, hc, hvalue, hcycle⟩ := runIo_inByte hl hp hs port
    exact ⟨v, b, hrun.trans h, hd, hc, fun d rest hq => hvalue d rest hq (portLane_lt port),
      fun h8 h16 => hcycle h8 h16 (portLane_lt port)⟩
  · have hrun : exec i s = runIo (inSized os port) s := by
      rcases hi with ⟨p, rfl, rfl⟩ | ⟨rfl, rfl⟩ <;> rfl
    obtain ⟨v, b, h, hd, hc, hvalue, hcycle⟩ := runIo_inSized hl hp hs os port
    exact ⟨v, b, hrun.trans h, hd, hc, hvalue, hcycle⟩

end Sys2Proof.Machine
end

section
/-! SUPPORT. OUTS: the buffered I/O write, the registers of a string instruction (44_instructions_referenced.md R530, R531;
20_memory.md R176). -/

namespace Sys2Proof.Machine

variable {s : State} {c : MemCtx} {b : Bus} {port : Word} {bs : List Byte} {n : Nat} {seg : SegReg} {as : AddrSize}

/-! ### Buffered I/O writes -/

/-- Posting an I/O write changes no byte that the processor sees. -/
theorem postWrite_io {e : WbEntry} (he : e.io = true) (hb : b.memWf = true) (hf : c.busFree = true) (hs : b.script = []) :
    ∃ b', postWrite c e b = .ok () b' ∧ b'.memWf = true ∧ Bus.Quiet c b b' := by
  obtain ⟨b', h, hwf, hsame, hmem⟩ := postWrite_spec c e b hb hf hs
  refine ⟨b', h, hwf, fun _ => hwf, hsame.control, fun x => ?_⟩
  have hnone : e.byteAt x = none := by simp [WbEntry.byteAt, he]
  rw [Bus.view_memView, Bus.view_memView, Bus.memView, Bus.memView, hmem, hnone, hsame.cache]
  rfl

/-- An I/O write posted is the newest bus cycle, with no write waiting, or the newest buffered write. -/
theorem postWrite_out {b' : Bus} {e : WbEntry} (he : e.io = true) (hs : b.script = []) (h8 : c.plat.ioBus8 = [])
    (h16 : c.plat.ioBus16 = []) (hw : isIoWrite port bs e.addr e.lanes e.data) (h : postWrite c e b = .ok () b') :
    (b'.wb = [] ∧ b'.lastIoWrite port bs) ∨ b'.lastBufferedOut port bs := by
  unfold postWrite at h
  split_ifs at h with hdirect hroom
  · have hempty : b.wb = [] := by
      simp only [Bool.and_eq_true, List.isEmpty_iff] at hdirect
      exact hdirect.1.1.1.1
    obtain ⟨hsame, hlast⟩ := Bus.finish_ioEntry (b := b) (c := c) (port := port) (bs := bs) he
    have hrun : transact c false [e.xfer] b = .ok () (b.finish c e.xfer) := by
      rw [transact_ok false _ hs, show ([e.xfer].any (·.kind.isRead)) = false from entries_noRead [e]]
      rfl
    injection hrun.symm.trans h with _ hb'
    rw [← hb']
    exact .inl ⟨hsame.wb.trans hempty, hlast h8 h16 hw⟩
  · injection h with _ hb'
    exact .inr ⟨b.wb, e, hb' ▸ rfl, he, hw⟩
  · split at h
    · next b₁ _ =>
      injection h with _ hb'
      exact .inr ⟨b₁.wb, e, hb' ▸ rfl, he, hw⟩
    · cases h

theorem postWrites_io (hf : c.busFree = true) (es : List WbEntry) : ∀ b : Bus, b.memWf = true → b.script = [] →
    (∀ e ∈ es, e.io = true) → ∃ b', postWrites c es b = .ok () b' ∧ Bus.Quiet c b b' := by
  induction es with
  | nil => exact fun b _ _ _ => ⟨b, rfl, .refl c b⟩
  | cons e es ih =>
    intro b hb hs he
    obtain ⟨b₁, h₁, hwf, hq₁⟩ := postWrite_io (he e (List.mem_cons_self ..)) hb hf hs
    obtain ⟨b₂, h₂, hq₂⟩ := ih b₁ hwf (hq₁.control.script.trans hs) fun e' he' => he e' (List.mem_cons_of_mem _ he')
    exact ⟨b₂, (bind_ok h₁).trans h₂, hq₁.trans hq₂⟩

/-- A BUFFERED I/O WRITE with the bus free. -/
theorem ioWriteBuffered_spec (hs : s.BusReady) (port : Word) (bs : List Byte) :
    ∃ b, ioWriteBuffered port bs s = .ok () { s with bus := b } ∧ Bus.Quiet s.memCtx s.bus b
      ∧ (0 < bs.length → s.platform.ioBus8 = [] → s.platform.ioBus16 = [] → portLane port + bs.length ≤ 4 →
          (b.wb = [] ∧ b.lastIoWrite port bs) ∨ b.lastBufferedOut port bs) := by
  obtain ⟨b, h, hq⟩ := postWrites_io (c := s.memCtx) hs.bus (portWrites port bs) s.bus hs.wf hs.script fun _ => portWrites_io
  refine ⟨b, bus_ok h, hq, fun hn h8 h16 hp => ?_⟩
  obtain ⟨e, hone, hio, hw⟩ := portWrites_one hn hp
  obtain ⟨b', h', -⟩ := postWrite_io (c := s.memCtx) hio hs.wf hs.bus hs.script
  rw [hone, postWrites, bind_ok h'] at h
  injection h with _ hb
  exact hb ▸ postWrite_out hio hs.script h8 h16 hw h'

theorem Bus.DrainedOnly.quiet {b' : Bus} (h : Bus.DrainedOnly c b b') : Bus.Quiet c b b' :=
  ⟨fun _ => h.drained.wf, h.control, h.drained.view⟩

/-! ### Registers at an address size (30_encoding.md R226) -/

theorem addressSized_eq (as : AddrSize) (v : DWord) : addressSized as v = atSize as v := by cases as <;> rfl

theorem stepValue_esi (as : AddrSize) (v : DWord) (n : Nat) (df : Bool) : stepValue as v (outsDelta n df) = outsNext as df v n := by
  have hup : (BitVec.ofNat 32 n).setWidth 16 = BitVec.ofNat 16 n := BitVec.setWidth_ofNat_of_le (by decide) n
  cases as <;> cases df
  · exact congrArg (fun d => low16 v (v.setWidth 16 + d)) hup
  · refine congrArg (low16 v) ?_
    show v.setWidth 16 + (0 - BitVec.ofNat 32 n).setWidth 16 = v.setWidth 16 - BitVec.ofNat 16 n
    rw [← hup]
    bv_omega
  · rfl
  · show v + (0 - BitVec.ofNat 32 n) = v - BitVec.ofNat 32 n
    bv_omega

theorem stepValue_ecx (as : AddrSize) (v : DWord) : stepValue as v (0 - 1#32) = countDown as v := by
  cases as
  · refine congrArg (low16 v) ?_
    show v.setWidth 16 + (0 - 1#32).setWidth 16 = v.setWidth 16 - 1#16
    bv_omega
  · show v + (0 - 1#32) = v - 1
    bv_omega

/-- The iteration that counts to 0 is the last one. -/
theorem addressSized_pred (as : AddrSize) (v : DWord) : addressSized as (v - 1) = 0 ↔ atSize as v = 1 := by
  cases as
  · have hmask : ∀ x : DWord, x &&& 0xFFFF#32 = (x.setWidth 16).setWidth 32 := fun x => by
      refine BitVec.eq_of_toNat_eq ?_
      rw [BitVec.toNat_and, BitVec.toNat_setWidth_of_le (by decide), BitVec.toNat_setWidth]
      exact Nat.and_two_pow_sub_one_eq_mod x.toNat 16
    show (v - 1) &&& 0xFFFF#32 = 0 ↔ v &&& 0xFFFF#32 = 1
    rw [hmask, hmask]
    constructor <;> intro h <;> bv_omega
  · show v - 1 = 0 ↔ v = 1
    constructor <;> intro h <;> bv_omega

/-! ### OUTS (44_instructions_referenced.md R530, R531) -/

/-- One OUTS, from its read and its write. -/
theorem outsOnce_run {b' : Bus} {buffered : Bool} (hp : s.ioPermitted)
    (hread : readMem seg (atSize as s.regs.esi) n s = .ok bs { s with bus := b })
    (hwrite : (if buffered then ioWriteBuffered (s.regs.edx.setWidth 16) bs else ioWrite (s.regs.edx.setWidth 16) bs) { s with bus := b }
      = .ok () { s with bus := b' }) :
    outsOnce n seg as buffered s
      = .ok () { s with regs := { s.regs with esi := outsNext as s.df s.regs.esi n }, bus := b' } := by
  unfold outsOnce
  rw [bind_ok (get_run s), bind_ok (ioPermission_ok hp), addressSized_eq, bind_ok hread, ← stepValue_esi]
  cases buffered with
  | false => exact (bind_ok hwrite).trans (modify_run ..)
  | true => exact (bind_ok hwrite).trans (modify_run ..)

theorem seenBytes_length (s : State) (seg : SegReg) (off : DWord) (n : Nat) : (s.seenBytes seg off n).length = n := by
  unfold State.seenBytes
  rw [List.length_map, List.length_range]

/-- OUTS ALONE. -/
theorem outsSingle_spec (hl : s.noLock) (hn : 0 < n) (hp : s.ioPermitted) (hs : s.Flat)
    (ha : s.Admits seg (atSize as s.regs.esi) n false) (hf : s.NoFill seg (atSize as s.regs.esi) n) :
    ∃ b, outsSingle n seg as s = .next ({ s with
          regs := { s.regs with esi := outsNext as s.df s.regs.esi n }
          bus := b }.complete (some ⟨s.eip - s.dec.start, none⟩))
      ∧ Bus.Quiet s.memCtx s.bus b ∧ b.wb = []
      ∧ (s.platform.ioBus8 = [] ∧ s.platform.ioBus16 = [] ∧ portLane (s.regs.edx.setWidth 16) + n ≤ 4 →
          b.lastIoWrite (s.regs.edx.setWidth 16) (s.seenBytes seg (atSize as s.regs.esi) n)) := by
  obtain ⟨b₁, hread, hwf, hq₁, -⟩ := readMem_spec hs ha hf
  obtain ⟨b₂, hwrite, hd, hlast⟩ := ioWrite_spec (hs.ready.after hq₁.control hwf) (s.regs.edx.setWidth 16)
    (s.seenBytes seg (atSize as s.regs.esi) n)
  rw [memCtx_bus hq₁.control] at hd
  rw [seenBytes_length] at hlast
  exact ⟨b₂, runWith_unlocked hl (outsOnce_run (buffered := false) hp hread hwrite), hq₁.trans hd.quiet, hd.drained.wb,
    fun ⟨h8, h16, hle⟩ => hlast hn h8 h16 hle⟩

/-- ONE ITERATION of a repeated OUTS. -/
theorem outsRep_spec (hl : s.noLock) (hn : 0 < n) (hp : s.ioPermitted) (hs : s.Flat)
    (ha : s.Admits seg (atSize as s.regs.esi) n false) (hf : s.NoFill seg (atSize as s.regs.esi) n) (hcx : atSize as s.regs.ecx ≠ 0) :
    ∃ b, outsRep n seg as s = .next ({ s with
          regs := { s.regs with esi := outsNext as s.df s.regs.esi n, ecx := countDown as s.regs.ecx }
          eip := if atSize as s.regs.ecx = 1 then s.eip else s.dec.start
          eflags := if atSize as s.regs.ecx = 1 then s.eflags else setBit s.eflags 16 s.dec.rf
          bus := b }.complete (some ⟨if atSize as s.regs.ecx = 1 then s.eip - s.dec.start else 0,
            some ⟨as, false, if s.df then 0 - BitVec.ofNat 32 n else BitVec.ofNat 32 n⟩⟩))
      ∧ Bus.Quiet s.memCtx s.bus b
      ∧ (s.platform.ioBus8 = [] ∧ s.platform.ioBus16 = [] ∧ portLane (s.regs.edx.setWidth 16) + n ≤ 4 →
          (b.wb = [] ∧ b.lastIoWrite (s.regs.edx.setWidth 16) (s.seenBytes seg (atSize as s.regs.esi) n))
            ∨ b.lastBufferedOut (s.regs.edx.setWidth 16) (s.seenBytes seg (atSize as s.regs.esi) n)) := by
  obtain ⟨b₁, hread, hwf, hq₁, -⟩ := readMem_spec hs ha hf
  obtain ⟨b₂, hwrite, hq₂, hlast⟩ := ioWriteBuffered_spec (hs.ready.after hq₁.control hwf) (s.regs.edx.setWidth 16)
    (s.seenBytes seg (atSize as s.regs.esi) n)
  rw [memCtx_bus hq₁.control] at hq₂
  rw [seenBytes_length] at hlast
  refine ⟨b₂, ?_, hq₁.trans hq₂, fun ⟨h8, h16, hle⟩ => hlast hn h8 h16 hle⟩
  have honce := outsOnce_run (buffered := true) hp hread hwrite
  unfold outsRep
  rw [if_neg (by rwa [addressSized_eq])]
  simp only [addressSized_pred, stepValue_ecx]
  exact runWith_unlocked hl ((bind_ok honce).trans (modify_run ..))

theorem outsRep_zero (hl : s.noLock) (hcx : atSize as s.regs.ecx = 0) : outsRep n seg as s = .next (s.complete none) := by
  unfold outsRep
  rw [if_pos (by rwa [addressSized_eq])]
  exact run_ok (lockable_noLock hl false)

/-- OUTS is alone or repeated. -/
theorem exec_outs {i : Instr} (hi : OutsForm i n seg as) (s : State) :
    0 < n ∧ exec i s = if s.dec.rep || s.dec.repne then outsRep n seg as s else outsSingle n seg as s := by
  rcases hi with ⟨rfl, rfl⟩ | ⟨os, rfl, rfl⟩
  · exact ⟨Nat.one_pos, rfl⟩
  · exact ⟨OpSize.bytes_pos os, rfl⟩

/-- Settles O23: alone the write has run when the instruction ends, repeated it may still be buffered. -/
theorem outsWrites : Obligations.OutsWrites := by
  intro i n seg as s hi hl
  obtain ⟨hn, hexec⟩ := exec_outs hi s
  have hrepeated : s.dec.rep = true ∨ s.dec.repne = true → exec i s = outsRep n seg as s := fun h => by
    rw [hexec, if_pos (by rwa [Bool.or_eq_true])]
  refine ⟨fun hp hs ha hf => ⟨fun hrep hrepne => ?_, fun h hcx => ?_⟩, fun h hcx => (hrepeated h).trans (outsRep_zero hl hcx)⟩
  · rw [hexec, hrep, hrepne]
    exact outsSingle_spec hl hn hp hs ha hf
  · rw [hrepeated h]
    exact outsRep_spec hl hn hp hs ha hf hcx

end Sys2Proof.Machine
end

section
/-! SUPPORT. What stands before floating-point instructions (O30), and the instructions, registers and values that do not exist (O34). -/

namespace Sys2Proof.Machine

variable {s t : State} {m : M Unit} {fin : State → State} {ok : Bool} {n : BitVec 3} {v : DWord}

/-! ### The floating-point gate (60_exceptions.md R634, R635; 44_instructions_referenced.md R540, R541) -/

/-- An instruction without LOCK that freezes. -/
theorem run_unlocked_freeze (hl : s.noLock) (h : m s = .error .freeze t) :
    run (do
      lockable ok
      m) s = .next s.freezing :=
  runWith_freeze ((bind_ok (lockable_noLock hl ok)).trans h)

/-- A pending error with NE is exception 16. -/
theorem fpErrorCheck_error (hfpu : s.part.hasFPU = true) (hp : s.fpErrorPending = true) (hne : s.ne = true) :
    fpErrorCheck s = .error (.exc floatingPointError) s := by
  unfold fpErrorCheck
  rw [bind_ok (get_run s), State.ferr, hfpu, hp, hne]
  rfl

/-- A pending error without NE and IGNNE# freezes the processor. -/
theorem fpErrorCheck_freeze (hfpu : s.part.hasFPU = true) (hp : s.fpErrorPending = true) (hne : s.ne = false)
    (hi : s.pins.ignne = false) : fpErrorCheck s = .error .freeze s := by
  unfold fpErrorCheck
  rw [bind_ok (get_run s), State.ferr, hfpu, hp, hne, hi]
  rfl

/-- Nothing to report: no unit, no error, or one that IGNNE# ignores. -/
theorem fpErrorCheck_quiet (h : s.part.hasFPU = false ∨ s.fpErrorPending = false ∨ (s.ne = false ∧ s.pins.ignne = true)) :
    fpErrorCheck s = .ok () s := by
  rcases h with hfpu | h
  · unfold fpErrorCheck
    rw [bind_ok (get_run s), State.ferr, hfpu]
    rfl
  · exact fpErrorCheck_ok h

/-- The unit is missing, emulated or another task's. -/
theorem escGate_unavailable (noWait : Bool) (h : s.part.hasFPU = false ∨ s.em = true ∨ s.ts = true) :
    escGate noWait s = .error (.exc deviceNotAvailable) s := by
  have hgate : (!s.part.hasFPU || s.em || s.ts) = true := by
    rcases h with h | h | h <;> simp [h]
  unfold escGate
  rw [bind_ok (get_run s), if_pos hgate]
  exact bind_error (raise_run ..)

/-- With the unit there an escape that waits looks at the pending error. -/
theorem escGate_waits (hfpu : s.part.hasFPU = true) (hem : s.em = false) (hts : s.ts = false) :
    escGate false s = fpErrorCheck s := by
  unfold escGate
  rw [bind_ok (get_run s), hfpu, hem, hts]
  rfl

/-- WAIT asks for the unit only with MP and TS. -/
theorem waitGate_passes (h : s.mp = false ∨ s.ts = false) :
    (do
      if s.mp && s.ts then raise deviceNotAvailable
      fpErrorCheck : M Unit) s = fpErrorCheck s := by
  rw [if_neg (by rcases h with h | h <;> simp [h])]

/-- Settles O30: the gate's checks in their order, before WAIT and before the escapes. -/
theorem fpuGate : Obligations.FpuGate := by
  intro s hl
  refine ⟨fun h os op reg rm => ?_, fun hmp hts => ?_, fun hfpu hp => ⟨fun h => ⟨fun hne => ?_, fun hne hi => ?_⟩,
    fun hem hts os op reg rm hw => ⟨fun hne => ?_, fun hne hi => ?_⟩⟩, fun h hq => ?_⟩
  · exact run_unlocked_exc hl (bind_error (escGate_unavailable _ h))
  · refine run_unlocked_exc (t := s) hl ?_
    rw [hmp, hts]
    exact bind_error (raise_run ..)
  · exact run_unlocked_exc hl ((waitGate_passes h).trans (fpErrorCheck_error hfpu hp hne))
  · exact run_unlocked_freeze hl ((waitGate_passes h).trans (fpErrorCheck_freeze hfpu hp hne hi))
  · exact run_unlocked_exc hl (bind_error ((hw ▸ escGate_waits hfpu hem hts).trans (fpErrorCheck_error hfpu hp hne)))
  · exact run_unlocked_freeze hl (bind_error ((hw ▸ escGate_waits hfpu hem hts).trans (fpErrorCheck_freeze hfpu hp hne hi)))
  · exact run_unlocked hl ((waitGate_passes h).trans (fpErrorCheck_quiet hq))

/-! ### Registers and values that do not exist (44_instructions_referenced.md R545, R547; 10_state.md R54, R57) -/

/-- The numbers without a control register on the part. -/
def noControlRegister (p : Part) (n : BitVec 3) : Prop := n ∈ [1#3, 5#3, 6#3, 7#3] ∨ (n = 4#3 ∧ p.hasExt = false)

theorem noControlRegister_cases {p : Part} (h : noControlRegister p n) :
    n = 1 ∨ n = 5 ∨ n = 6 ∨ n = 7 ∨ (n = 4 ∧ p.hasExt = false) := by
  simpa [noControlRegister, or_assoc] using h

theorem readCr_error (h : noControlRegister s.part n) : readCr n s = .error (.exc invalidOpcode) s := by
  rcases noControlRegister_cases h with rfl | rfl | rfl | rfl | ⟨rfl, hext⟩
  · rfl
  · rfl
  · rfl
  · rfl
  · unfold readCr
    rw [bind_ok (get_run s), hext]
    rfl

theorem writeCr_error (h : noControlRegister s.part n) : writeCr n v s = .error (.exc invalidOpcode) s := by
  rcases noControlRegister_cases h with rfl | rfl | rfl | rfl | ⟨rfl, hext⟩
  · rfl
  · rfl
  · rfl
  · rfl
  · unfold writeCr
    rw [bind_ok (get_run s), hext]
    rfl

/-- A combination that CR0 must not hold. -/
theorem writeCr_illegal (h : cr0Illegal v = true) : writeCr 0 v s = .error (.exc (generalProtection 0)) s := by
  unfold writeCr
  rw [bind_ok (get_run s)]
  show (do
    if cr0Illegal v then raise (generalProtection 0)
    modify fun t => t.setCr0 (normCr0 v)
    if (s.cr0 ^^^ normCr0 v) &&& 0x80010001#32 = 0 then pure () else flushTlb : M Unit) s = _
  rw [if_pos h]
  exact bind_error (raise_run ..)

theorem cr0Illegal_iff : cr0Illegal v = true
    ↔ (v.getLsbD 31 = true ∧ v.getLsbD 0 = false) ∨ (v.getLsbD 29 = true ∧ v.getLsbD 30 = false) := by
  unfold cr0Illegal
  rw [Bool.or_eq_true, Bool.and_eq_true, Bool.and_eq_true, Bool.not_eq_true', Bool.not_eq_true', or_comm, and_comm (b := v.getLsbD 29 = true)]

/-- The bits of CR4 that are reserved. -/
theorem cr4Reserved_bit {i : Nat} (hi : i < 32) (h : i ∉ [0, 1, 4]) : cr4Reserved.getLsbD i = true := by
  revert i
  decide

theorem writeCr_reserved (hext : s.part.hasExt = true) (h : ∃ i, i < 32 ∧ i ∉ [0, 1, 4] ∧ v.getLsbD i = true) :
    writeCr 4 v s = .error (.exc (generalProtection 0)) s := by
  obtain ⟨i, hi, hr, hv⟩ := h
  have hbit : v &&& cr4Reserved ≠ 0 := fun h0 => by
    have := congrArg (fun x : DWord => x.getLsbD i) h0
    simp [hv, cr4Reserved_bit hi hr] at this
  unfold writeCr
  rw [bind_ok (get_run s), hext]
  show (if v &&& cr4Reserved = 0 then modify fun t => { t with cr4 := v } else raise (generalProtection 0) : M Unit) s = _
  rw [if_neg hbit]
  rfl

/-- The numbers without a test register. -/
theorem testRegister_lt (h : n ∈ [0#3, 1#3, 2#3]) : n.toNat < 3 := by
  revert h
  revert n
  decide

theorem run_noTestRegister (hl : s.noLock) (h0 : s.level = 0) (h : n ∈ [0#3, 1#3, 2#3]) :
    run (do
      lockable ok
      privileged
      if n.toNat < 3 then raise invalidOpcode
      m) s = except s invalidOpcode s := by
  refine run_privileged_exc (t := s) hl h0 ?_
  rw [if_pos (testRegister_lt h)]
  exact bind_error (raise_run ..)

/-! ### RSM and CPUID (43_instructions_new.md R493, R495) -/

theorem runWith_unlocked_exc {e : Exc} (hl : s.noLock) (h : m s = .error (.exc e) t) :
    runWith (do
      lockable ok
      m) fin s = except s e t :=
  runWith_exc ((bind_ok (lockable_noLock hl ok)).trans h)

theorem exec_rsm_outside (hl : s.noLock) (h : s.part.hasSL = false ∨ s.inSMM = false) : exec .rsm s = except s invalidOpcode s := by
  refine runWith_unlocked_exc hl ((bind_ok (get_run s)).trans ?_)
  rw [if_pos (by rcases h with h | h <;> simp [h])]
  exact bind_error (raise_run ..)

theorem exec_cpuid_missing (hl : s.noLock) (h : s.part.hasExt = false) : exec .cpuid s = except s invalidOpcode s := by
  refine run_unlocked_exc (t := s) hl ?_
  rw [h]
  exact bind_error (raise_run ..)

/-- Settles O34: each check raises its exception before anything changes. -/
theorem operandsChecked : Obligations.OperandsChecked := by
  refine ⟨fun s hl => ⟨exec_rsm_outside hl, exec_cpuid_missing hl, fun h0 r n => ⟨fun hn => ⟨?_, ?_⟩, fun hn => ⟨?_, ?_⟩⟩⟩, ?_⟩
  · exact run_privileged_exc hl h0 (bind_error (readCr_error hn))
  · exact run_privileged_exc hl h0 (bind_error (writeCr_error hn))
  · exact run_noTestRegister hl h0 hn
  · exact run_noTestRegister hl h0 hn
  · intro r s hl h0 v
    exact ⟨fun hv => run_privileged_exc hl h0 (bind_error (writeCr_illegal (cr0Illegal_iff.2 hv))),
      fun hext hv => run_privileged_exc hl h0 (bind_error (writeCr_reserved hext hv))⟩

end Sys2Proof.Machine
end

section
/-! SUPPORT. Where memory may change and what the buffers may hold, kept by every access with the environment answering as the platform
says; the record of cycles only grows. -/

namespace Sys2Proof.Machine

variable {c : MemCtx} {b₀ b b' : Bus} {W : WbEntry → Prop} {M R : Addr → Prop}

/-! ### The bus unit confined -/

/-- Since `b₀` main memory has changed only at addresses in `M` and SMRAM only at addresses in `R`, and cycles have only been added to the
record; every buffered write satisfies `W`. -/
structure Bus.Confined (b₀ : Bus) (W : WbEntry → Prop) (M R : Addr → Prop) (b : Bus) : Prop where
  script : b.script = []
  buffered : ∀ e ∈ b.wb, W e
  trace : b₀.trace <:+ b.trace
  mem : ∀ a, ¬M a → b.mem.get a.toNat = b₀.mem.get a.toNat
  smram : ∀ a, ¬R a → b.smram.get a.toNat = b₀.smram.get a.toNat

/-- A write of these goes only where it may. -/
def WbEntry.Allowed (c : MemCtx) (M R : Addr → Prop) (e : WbEntry) : Prop :=
  ∀ a, e.byteAt a ≠ none → if inSmram c a = true then R a else M a

theorem Bus.Confined.start (hs : b.script = []) (hw : ∀ e ∈ b.wb, W e) : b.Confined W M R b :=
  ⟨hs, hw, List.suffix_rfl, fun _ _ => rfl, fun _ _ => rfl⟩

/-- The bus unit with other buffered writes and a longer record is as confined. -/
theorem Bus.Confined.sameMemory (h : b₀.Confined W M R b) (hm : b'.mem = b.mem) (hr : b'.smram = b.smram) (hs : b'.script = b.script)
    (ht : b.trace <:+ b'.trace) (hw : ∀ e ∈ b'.wb, W e) : b₀.Confined W M R b' :=
  ⟨hs.trans h.script, hw, h.trace.trans ht, fun a ha => hm ▸ h.mem a ha, fun a ha => hr ▸ h.smram a ha⟩

/-! ### Transfers run whole -/

theorem Bus.suffix_movePart (x : Xfer) (p : BusPart) (driven : BitVec 4) (first ads more : Bool) :
    b.trace <:+ (b.movePart c x p driven first ads more).trace := by
  unfold Bus.movePart
  rw [Bus.trace_keepPart, Bus.trace_moveLanes]
  exact List.suffix_append ..

theorem Bus.suffix_moveRest (x : Xfer) (ps : List BusPart) : b.trace <:+ (Bus.moveRest c x ps b).trace := by
  induction ps generalizing b with
  | nil => exact List.suffix_rfl
  | cons p ps ih => exact (Bus.suffix_movePart ..).trans ih

theorem Bus.suffix_moveAll (x : Xfer) (driven : BitVec 4) (first : Bool) : b.trace <:+ (b.moveAll c x driven first).trace := by
  unfold Bus.moveAll
  split
  · exact List.suffix_rfl
  · exact (Bus.suffix_movePart ..).trans (Bus.suffix_moveRest ..)

/-- A transfer that fills no line adds its cycles to the record. -/
theorem Bus.suffix_finish {x : Xfer} (hw : x.want = false) (hf : x.fill = false) : b.trace <:+ (b.finish c x).trace := by
  rw [Bus.finish_plain b c hw hf]
  exact Bus.suffix_moveAll ..

/-- A byte written where it may be. -/
theorem Bus.Confined.setPhysByte (h : b₀.Confined W M R b) (a : Addr) (v : Byte) (ha : if inSmram c a = true then R a else M a) :
    b₀.Confined W M R (b.setPhysByte c a v) := by
  have apart {P : Addr → Prop} (hP : P a) {x : Addr} (hx : ¬P x) : x.toNat ≠ a.toNat :=
    fun e => hx (BitVec.eq_of_toNat_eq e ▸ hP)
  unfold Bus.setPhysByte
  split_ifs with hc
  · rw [if_pos hc] at ha
    exact { h with smram := fun x hx => (Memory.get_set_ne _ (apart ha hx)).trans (h.smram x hx) }
  · rw [if_neg hc] at ha
    exact { h with mem := fun x hx => (Memory.get_set_ne _ (apart ha hx)).trans (h.mem x hx) }

theorem Bus.Confined.storeLanes (h : b₀.Confined W M R b) {a : BitVec 30} {lanes : BitVec 4} (d : DWord)
    (ha : ∀ k : BitVec 2, lanes.getLsbD k.toNat = true → if inSmram c (laneAddr a k) = true then R (laneAddr a k) else M (laneAddr a k)) :
    b₀.Confined W M R (b.storeLanes c a lanes d) := by
  have lane (k : BitVec 2) {b : Bus} (hb : b₀.Confined W M R b) : b₀.Confined W M R
      (if lanes.getLsbD k.toNat then b.setPhysByte c (laneAddr a k) (d.extractLsb' (8 * k.toNat) 8) else b) := by
    split
    · next hk => exact hb.setPhysByte _ _ (ha k hk)
    · exact hb
  exact lane 3 (lane 2 (lane 1 (lane 0 h)))

/-- A data write carries a byte for each of its lanes. -/
theorem WbEntry.byteAt_lane {e : WbEntry} (hio : e.io = false) {k : BitVec 2} (hk : e.lanes.getLsbD k.toNat = true) :
    e.byteAt (laneAddr e.addr k) ≠ none := by
  obtain ⟨ha, hl⟩ := extract_laneAddr e.addr k
  unfold WbEntry.byteAt
  rw [ha, hl, hio, hk]
  simp

/-- A buffered write that reaches the bus. -/
theorem Bus.Confined.finish_entry (h : b₀.Confined W M R b) {e : WbEntry} (he : e.Allowed c M R) :
    b₀.Confined W M R (b.finish c e.xfer) := by
  rw [Bus.finish_one (x := e.xfer) (p := ⟨e.addr, e.lanes, e.data, 0⟩) rfl rfl rfl]
  set x : Xfer := { e.xfer with decided := true }
  set cs := itemCycles c x ⟨e.addr, e.lanes, e.data, 0⟩ e.lanes e.data (!e.xfer.decided) e.xfer.ads false
  have recorded : b₀.Confined W M R (b.record cs) := h.sameMemory rfl rfl rfl (List.suffix_append ..) h.buffered
  cases hio : e.io with
  | true =>
    rw [Bus.movePart_message b c (x := x) _ _ _ _ _ (.inl (by show e.xfer.kind = _; rw [WbEntry.xfer_kind, hio]; rfl))]
    exact recorded
  | false =>
    have hk : x.kind = .memWrite := by
      show e.xfer.kind = _
      rw [WbEntry.xfer_kind, hio]
      rfl
    have hrun : b.movePart c x ⟨e.addr, e.lanes, e.data, 0⟩ e.lanes (!e.xfer.decided) e.xfer.ads false
        = (b.record cs).storeLanes c e.addr e.lanes e.data := by
      unfold Bus.movePart Bus.answer Bus.moveLanes Bus.keepPart
      simp only [hk]
      rfl
    rw [hrun]
    exact recorded.storeLanes _ fun k hk => he _ (WbEntry.byteAt_lane hio hk)

theorem Bus.Confined.finishAll_entries (l : List WbEntry) (hl : ∀ e ∈ l, e.Allowed c M R) :
    ∀ {b : Bus}, b₀.Confined W M R b → b₀.Confined W M R (b.finishAll c (l.map WbEntry.xfer)) := by
  induction l with
  | nil => exact id
  | cons e l ih =>
    exact fun h => ih (fun e he => hl e (List.mem_cons_of_mem _ he)) (h.finish_entry (hl e (List.mem_cons_self ..)))

/-- A read that fills no line. -/
theorem Bus.Confined.finish_read (h : b₀.Confined W M R b) {x : Xfer} (hk : x.kind = .memRead ∨ x.kind = .codeRead)
    (hw : x.want = false) (hf : x.fill = false) : b₀.Confined W M R (b.finish c x) := by
  obtain ⟨hsame, -⟩ := Bus.finish_read b c hk hw hf
  exact h.sameMemory hsame.mem hsame.smram hsame.script (Bus.suffix_finish hw hf) (hsame.wb ▸ h.buffered)

theorem transact_entries_confined (l : List WbEntry) (hl : ∀ e ∈ l, e.Allowed c M R) :
    Keeps (b₀.Confined W M R) (transact c false (l.map WbEntry.xfer)) := ⟨fun b h => by
  rw [transact_ok false _ h.script, entries_noRead, if_neg Bool.false_ne_true]
  exact h.finishAll_entries l hl⟩

theorem transact_read_confined {x : Xfer} (hk : x.kind = .memRead ∨ x.kind = .codeRead) (hw : x.want = false) (hf : x.fill = false) :
    Keeps (b₀.Confined W M R) (transact c false [x]) := ⟨fun b h => by
  rw [transact_ok false _ h.script]
  refine Bus.Confined.finish_read ?_ hk hw hf
  split
  · exact h.sameMemory rfl rfl rfl List.suffix_rfl h.buffered
  · exact h⟩

/-! ### Buffers, reads and writes -/

section
variable (hW : ∀ e, W e → e.Allowed c M R)
include hW

theorem drainBuffers_confined : Keeps (b₀.Confined W M R) (drainBuffers c) := ⟨fun b h => by
  unfold drainBuffers
  split_ifs
  · exact h
  · exact (transact_entries_confined b.wb fun e he => hW e (h.buffered e he)).run _
      (h.sameMemory rfl rfl rfl List.suffix_rfl (fun _ he => absurd he List.not_mem_nil))
  · exact h⟩

theorem drainOne_confined : Keeps (b₀.Confined W M R) (drainOne c) := ⟨fun b h => by
  unfold drainOne
  split
  · exact h
  · next e rest hb =>
    have hmem : ∀ x ∈ e :: rest, W x := hb ▸ h.buffered
    exact (transact_entries_confined [e] fun x hx => hW x (hmem x (List.mem_singleton.1 hx ▸ List.mem_cons_self ..))).run _
      (h.sameMemory rfl rfl rfl List.suffix_rfl fun x hx => hmem x (List.mem_cons_of_mem _ hx))⟩

theorem postWrite_confined {e : WbEntry} (he : W e) : Keeps (b₀.Confined W M R) (postWrite c e) := ⟨fun b h => by
  have enters {b : Bus} (h : b₀.Confined W M R b) : b₀.Confined W M R { b with wb := b.wb ++ [e] } :=
    h.sameMemory rfl rfl rfl List.suffix_rfl fun x hx =>
      (List.mem_append.1 hx).elim (h.buffered x) fun hx => List.mem_singleton.1 hx ▸ he
  unfold postWrite
  split_ifs
  · exact (transact_entries_confined [e] fun x hx => hW x (List.mem_singleton.1 hx ▸ he)).run _ h
  · exact enters h
  · have hd := (drainOne_confined hW).run b h
    split
    · next hr => exact enters (hd.of_ok hr)
    · next hr => exact hd.of_error hr
  · exact h⟩

theorem postWrites_confined {es : List WbEntry} (hes : ∀ e ∈ es, W e) : Keeps (b₀.Confined W M R) (postWrites c es) := by
  induction es with
  | nil => exact .pure
  | cons e es ih =>
    exact .bind (postWrite_confined hW (hes e (List.mem_cons_self ..))) fun _ => ih fun e he => hes e (List.mem_cons_of_mem _ he)

theorem writeChunk_confined {follows more : Bool} {ch : PChunk} {bs : List Byte}
    (hes : ∀ hit, ∀ e ∈ writeEntries false hit ch.pcd ch.pwt follows more memDword (dwordsOf (maskA20 c ch.pa) ch.len) bs, W e) :
    Keeps (b₀.Confined W M R) (writeChunk c follows more ch bs) := by
  unfold writeChunk
  refine .get fun b h => ?_
  split
  · exact .bind (.set (h.sameMemory rfl rfl rfl List.suffix_rfl h.buffered)) fun _ =>
      .ite (fun _ => .pure) fun _ => postWrites_confined hW (hes true)
  · exact postWrites_confined hW (hes false)

theorem orderRead_confined (a : Addr) : Keeps (b₀.Confined W M R) (orderRead c a) := ⟨fun b h => by
  unfold orderRead
  split_ifs
  · exact h
  · exact h.sameMemory rfl rfl rfl List.suffix_rfl h.buffered
  · exact (drainBuffers_confined hW).run b h⟩

/-- A read with the cache disabled. -/
theorem readChunk_confined (hcd : c.cd = true) {kind : CycleKind} (hk : kind = .memRead ∨ kind = .codeRead) (more : Bool) (ch : PChunk) :
    Keeps (b₀.Confined W M R) (readChunk c kind more ch) := by
  unfold readChunk
  refine .get fun b h => ?_
  split
  · exact .bind (.set (h.sameMemory rfl rfl rfl List.suffix_rfl h.buffered)) fun _ => .pure
  · refine .bind (orderRead_confined hW _) fun _ => .get fun b _ => .bind (transact_read_confined hk ?_ rfl) fun _ => .get fun _ _ => .pure
    show (!c.cd && !ch.pcd) = false
    rw [hcd]
    rfl

theorem readChunks_confined (hcd : c.cd = true) (chs : List PChunk) : Keeps (b₀.Confined W M R) (readChunks c .memRead chs) := by
  induction chs with
  | nil => exact .pure
  | cons ch chs ih =>
    exact .get fun _ _ => .bind (readChunk_confined hW hcd (.inl rfl) _ _) fun _ => .bind ih fun _ => .pure

end

/-! ### The record of cycles -/

/-- Every change of memory and every buffered write admitted: only the record of cycles is looked at. -/
abbrev Bus.Recorded (b₀ : Bus) : Bus → Prop := b₀.Confined (fun _ => True) (fun _ => True) fun _ => True

theorem allowed_all (e : WbEntry) : e.Allowed c (fun _ => True) fun _ => True := fun _ _ => by split <;> trivial

theorem writeChunks_recorded (follows : Bool) (chs : List PChunk) (bs : List Byte) : Keeps b₀.Recorded (writeChunks c follows chs bs) := by
  induction chs generalizing follows bs with
  | nil => exact .pure
  | cons ch chs ih =>
    exact .get fun _ _ => .bind (writeChunk_confined (fun e _ => allowed_all e) fun _ _ _ => trivial) fun _ => ih ..

/-- A write with paging off. -/
theorem linWrite_recorded {p : PageCtx} (hp : p.pg = false) (lin : Addr) (bs : List Byte) : Keeps b₀.Recorded (linWrite c p lin bs) :=
  ⟨fun b h => by
    unfold linWrite
    rw [bind_ok (translateRange_flat hp lin bs.length b)]
    exact (writeChunks_recorded ..).run b h⟩

/-- A read with paging off and the cache disabled. -/
theorem linRead_recorded {p : PageCtx} (hp : p.pg = false) (hcd : c.cd = true) (lin : Addr) (n : Nat) :
    Keeps b₀.Recorded (linRead c p lin n) := ⟨fun b h => by
  unfold linRead
  rw [bind_ok (translateRange_flat hp lin n b)]
  exact (readChunks_confined (fun e _ => allowed_all e) hcd _).run b h⟩

end Sys2Proof.Machine
end

section
/-! SUPPORT. The delivery of an exception in real mode (60_exceptions.md R625): the frame it pushes, the table it reads, the state it leaves. -/

namespace Sys2Proof.Machine

variable {s t : State} {b b₁ b₂ : Bus} {c : MemCtx} {e : Exc} {bs bs₁ bs₂ : List Byte} {k : Nat}

/-! ### Stores one after the other -/

/-- A store and then another one elsewhere, which comes first in the order of the addresses. -/
theorem Bus.Stored.below {at₁ at₂ at_ : Nat → Addr} (h₁ : Bus.Stored c b at₁ bs₁ b₁) (h₂ : Bus.Stored c b₁ at₂ bs₂ b₂)
    (hne : ∀ i, i < bs₁.length → ∀ j, j < bs₂.length → at₁ i ≠ at₂ j) (hlow : ∀ j, j < bs₂.length → at_ j = at₂ j)
    (hhigh : ∀ i, i < bs₁.length → at_ (bs₂.length + i) = at₁ i) : Bus.Stored c b at_ (bs₂ ++ bs₁) b₂ where
  wf := h₂.wf
  control := h₁.control.trans h₂.control
  written i hi := by
    rw [List.length_append] at hi
    by_cases hj : i < bs₂.length
    · rw [hlow i hj, h₂.written i hj, List.getD_append _ _ _ _ hj]
    · obtain ⟨m, rfl⟩ := Nat.exists_eq_add_of_le (Nat.le_of_not_lt hj)
      have hm : m < bs₁.length := by omega
      rw [hhigh m hm, h₂.others _ (hne m hm), h₁.written m hm, List.getD_append_right _ _ _ _ (Nat.le_add_right ..),
        Nat.add_sub_cancel_left]
  others x hx := by
    rw [List.length_append] at hx
    rw [h₂.others x fun j hj => hlow j hj ▸ hx j (by omega), h₁.others x fun i hi => hhigh i hi ▸ hx _ (by omega)]

/-- Reads after a store. -/
theorem Bus.Stored.quiet {at_ : Nat → Addr} (h : Bus.Stored c b at_ bs b₁) (hq : Bus.Quiet c b₁ b₂) : Bus.Stored c b at_ bs b₂ :=
  ⟨hq.wf h.wf, h.control.trans hq.control, fun i hi => (hq.view _).trans (h.written i hi), fun x hx => (hq.view x).trans (h.others x hx)⟩

/-! ### Bytes of words -/

theorem toBytes_two {n : Nat} (v : BitVec n) : toBytes 2 v = [BitVec.ofNat 8 v.toNat, BitVec.ofNat 8 (v.toNat / 256)] := rfl

/-- Two bytes of a value are those of its low word. -/
theorem toBytes_low {n : Nat} (v : BitVec n) : toBytes 2 (v.setWidth 16) = toBytes 2 v := by
  have hbyte : ∀ x y : Nat, x % 256 = y % 256 → BitVec.ofNat 8 x = BitVec.ofNat 8 y :=
    fun x y h => BitVec.eq_of_toNat_eq (by rw [BitVec.toNat_ofNat, BitVec.toNat_ofNat]; exact h)
  rw [toBytes_two, toBytes_two, BitVec.toNat_setWidth, hbyte (v.toNat % 2 ^ 16) v.toNat (by omega),
    hbyte (v.toNat % 2 ^ 16 / 256) (v.toNat / 256) (by omega)]

/-- RF lies above the low word of the flags. -/
theorem toBytes_savedFlags (e : Exc) (s : State) : toBytes 2 (e.savedFlags s) = toBytes 2 s.eflags := by
  have hrf : (setBit s.eflags 16 true).setWidth 16 = s.eflags.setWidth 16 := BitVec.eq_of_getLsbD_eq fun i hi => by
    rw [BitVec.getLsbD_setWidth, BitVec.getLsbD_setWidth, getLsbD_setBit, if_neg (by omega)]
  unfold Exc.savedFlags
  split
  · rw [← toBytes_low, hrf, toBytes_low]
  · rfl

theorem toBytes_selector (w : Word) : toBytes 2 (w.setWidth 32 : DWord) = toBytes 2 w := by
  rw [← toBytes_low, BitVec.setWidth_setWidth_of_le _ (by decide), BitVec.setWidth_eq]

/-- The two bytes of a word read. -/
theorem natOfBytes_two (x y : Byte) : natOfBytes [x, y] = (y ++ x).toNat := by
  have hx := x.isLt
  rw [BitVec.toNat_append, ← Nat.shiftLeft_add_eq_or_of_lt hx, Nat.shiftLeft_eq]
  show x.toNat + 256 * (y.toNat + 256 * 0) = _
  omega

/-! ### A 16-bit stack -/

/-- The stack pointer after `k` words have been pushed on a 16-bit stack. -/
def State.spBelow (s : State) (k : Nat) : DWord := low16 s.regs.esp (s.regs.esp.setWidth 16 - BitVec.ofNat 16 (2 * k))

theorem low16_setWidth (x : DWord) (v : BitVec 16) : (low16 x v).setWidth 16 = v := by
  refine BitVec.eq_of_getLsbD_eq fun i hi => ?_
  unfold low16
  rw [BitVec.getLsbD_setWidth, BitVec.getLsbD_append, if_pos hi, decide_eq_true hi, Bool.true_and]

theorem low16_low16 (x : DWord) (v w : BitVec 16) : low16 (low16 x v) w = low16 x w := by
  unfold low16
  rw [BitVec.extractLsb'_append_eq_left]

theorem spBelow_zero (s : State) : s.spBelow 0 = s.regs.esp := by
  show low16 s.regs.esp (s.regs.esp.setWidth 16 - 0#16) = _
  rw [BitVec.sub_zero, low16_self]

/-- A word pushed. -/
theorem stackDown_spBelow (s : State) (k : Nat) : stackDown false (s.spBelow k) 2 = (s.below16 (k + 1), s.spBelow (k + 1)) := by
  have hlow : (s.spBelow k).setWidth 16 - BitVec.ofNat 16 2 = s.regs.esp.setWidth 16 - BitVec.ofNat 16 (2 * (k + 1)) := by
    unfold State.spBelow
    rw [low16_setWidth]
    bv_omega
  show (((s.spBelow k).setWidth 16 - BitVec.ofNat 16 2).setWidth 32, low16 (s.spBelow k) ((s.spBelow k).setWidth 16 - BitVec.ofNat 16 2)) = _
  rw [hlow]
  unfold State.spBelow
  rw [low16_low16]
  rfl

/-- The bytes of different words of a frame lie apart. -/
theorem frame_apart (s : State) {j k m n : Nat} (hj : j < k) (hk : k ≤ 3) (hm : m < 2) (hn : n < 2) :
    s.dataAddr .ss (s.below16 j) m ≠ s.dataAddr .ss (s.below16 k) n := by
  have place (i x : Nat) : (s.segs.get .ss).base + s.below16 i + BitVec.ofNat 32 x
      = (s.segs.get .ss).base + BitVec.ofNat 32 ((s.regs.esp.setWidth 16 - BitVec.ofNat 16 (2 * i)).toNat + x) := by
    rw [BitVec.add_assoc, BitVec.ofNat_add]
    congr 2
    unfold State.below16
    exact BitVec.eq_of_toNat_eq (by rw [BitVec.toNat_setWidth, BitVec.toNat_ofNat])
  have hsp := (s.regs.esp.setWidth 16).isLt
  unfold State.dataAddr
  rw [place, place, BitVec.toNat_sub, BitVec.toNat_sub, BitVec.toNat_ofNat, BitVec.toNat_ofNat]
  generalize (s.regs.esp.setWidth 16).toNat = x at hsp
  rcases Nat.lt_or_gt_of_ne (show (2 ^ 16 - 2 * j % 2 ^ 16 + x) % 2 ^ 16 + m ≠ (2 ^ 16 - 2 * k % 2 ^ 16 + x) % 2 ^ 16 + n by omega) with h | h
  · exact maskA20_ne _ _ h (by omega)
  · exact (maskA20_ne _ _ h (by omega)).symm

end Sys2Proof.Machine
end

section
/-! SUPPORT. Exceptions and INT n in real mode (O31), and what a fault in a delivery leads to (O32). -/

namespace Sys2Proof.Machine

variable {s t : State} {b : Bus} {e f g : Exc} {v : Byte}

/-! ### What an exception reports about itself -/

/-- The breakpoints do not look at bit 13 of DR7, which a debug exception clears. -/
theorem dataHits_reported (s : State) (e : Exc) (lin : Addr) (n : Nat) (write : Bool) :
    (s.reported e).dataHits lin n write = s.dataHits lin n write := by
  have bit (i : Nat) (hi : i ≠ 13) : (s.reported e).dr7.getLsbD i = s.dr7.getLsbD i := by
    show (if e.dr6 = 0 then s.dr7 else setBit s.dr7 13 false).getLsbD i = _
    split
    · rfl
    · rw [getLsbD_setBit, if_neg fun h => hi h.2]
  have field (i : Nat) (hi : 16 ≤ i) : (s.reported e).dr7.extractLsb' i 2 = s.dr7.extractLsb' i 2 := by
    refine BitVec.eq_of_getLsbD_eq fun j hj => ?_
    rw [BitVec.getLsbD_extractLsb', BitVec.getLsbD_extractLsb', bit _ (by omega)]
  unfold State.dataHits State.breakHits
  simp only [field 18 (by omega), field 22 (by omega), field 26 (by omega), field 30 (by omega), field 16 (by omega),
    field 20 (by omega), field 24 (by omega), field 28 (by omega), bit 0 (by omega), bit 1 (by omega), bit 2 (by omega),
    bit 3 (by omega), bit 4 (by omega), bit 5 (by omega), bit 6 (by omega), bit 7 (by omega), Nat.reduceMul, Nat.reduceAdd]
  rfl

theorem State.RealReady.reported (h : s.RealReady v) (e : Exc) : (s.reported e).RealReady v where
  real := h.real
  flat := ⟨h.flat.pg, ⟨h.flat.ready.bus, h.flat.ready.script, h.flat.ready.wf⟩⟩
  uncached := h.uncached
  vector := h.vector
  room := h.room
  unwatched k h1 h3 := (dataHits_reported s e _ _ _).trans (h.unwatched k h1 h3)

/-- An exception that sets no debug status and has no linear address reports nothing. -/
theorem State.reported_plain (s : State) (hl : e.lin = none) (hd : e.dr6 = 0) : s.reported e = s := by
  unfold State.reported
  rw [hl, hd, BitVec.ofNat_eq_ofNat, BitVec.or_zero]
  rfl

/-! ### The frame -/

theorem prot_real (h : s.pe = false) : s.prot = false := by
  unfold State.prot
  rw [h]
  rfl

theorem level_real (h : s.pe = false) : s.level = 0 := by
  unfold State.level
  rw [h]
  rfl

/-- The stack in use after `j` words of a frame. -/
def State.frameStack (s : State) (j : Nat) : Stack := { s.stack with sp := s.spBelow j }

theorem frameStack_zero (s : State) : s.frameStack 0 = s.stack := by
  unfold State.frameStack
  rw [spBelow_zero]
  rfl

/-- One word of the frame, held back: its place and its bytes. -/
theorem holdPush_frame (h : s.RealReady v) {j : Nat} (hj : j < 3) (x : DWord) :
    ∃ w, holdPush (s.frameStack j) (toBytes 2 x) s = .ok (s.frameStack (j + 1), w) s
      ∧ w.perform = bus fun c => linWrite c (s.pageCtx s.stack.user) (s.segs.ss.base + s.below16 (j + 1)) (toBytes 2 x) := by
  have hprot : s.stack.prot = false := prot_real h.real
  have huser : s.stack.user = false := by
    show (s.level == 3) = false
    rw [level_real h.real]
    rfl
  have hdown : stackDown ((s.frameStack j).prot && (s.frameStack j).seg.ar.getLsbD 14) (s.frameStack j).sp (toBytes 2 x).length
      = (s.below16 (j + 1), s.spBelow (j + 1)) := by
    show stackDown (s.stack.prot && _) (s.spBelow j) (toBytes 2 x).length = _
    rw [hprot, Bool.false_and, toBytes_length, stackDown_spBelow]
  have hlen : (toBytes 2 x).length = 2 := toBytes_length ..
  have spec := holdPush_spec (k := s.frameStack j) (bs := toBytes 2 x) h.flat
  rw [hdown, hlen] at spec
  exact spec (fun hp => absurd (hprot.symm.trans hp) Bool.false_ne_true)
    (by show s.segs.ss.inLimit s.stack.prot _ _ = true; rw [hprot]; exact h.room (j + 1) (by omega) (by omega))
    (fun hu => absurd (huser.symm.trans hu) Bool.false_ne_true) (h.unwatched (j + 1) (by omega) (by omega))

/-- A word of the frame written. -/
theorem writeFrame_spec (h : s.RealReady v) (hc : Bus.SameControl s.bus b) (hb : b.memWf = true) (j : Nat) (x : DWord) {w : HeldWrite}
    (hw : w.perform = bus fun c => linWrite c (s.pageCtx s.stack.user) (s.segs.ss.base + s.below16 j) (toBytes 2 x)) :
    ∃ b', w.perform { s with bus := b } = .ok () { s with bus := b' }
      ∧ Bus.Stored s.memCtx b (s.dataAddr .ss (s.below16 j)) (toBytes 2 x) b' ∧ b.trace <:+ b'.trace := by
  have hscript := hc.script.trans h.flat.ready.script
  obtain ⟨b', hrun, hstored, -⟩ := linWrite_flat (p := s.pageCtx s.stack.user) (lin := s.segs.ss.base + s.below16 j) (bs := toBytes 2 x)
    (c := s.memCtx) h.flat.pg h.flat.ready.bus hb hscript (by rw [toBytes_length]; omega)
  have hrec := ((linWrite_recorded (c := s.memCtx) (p := s.pageCtx s.stack.user) h.flat.pg _ _).run b
    (.start hscript fun _ _ => trivial)).of_ok hrun
  refine ⟨b', ?_, hstored, hrec.trace⟩
  rw [hw]
  exact bus_ok (s := { s with bus := b }) (by rw [memCtx_bus hc]; exact hrun)

theorem holdPushes_cons {n : Nat} {x : DWord} {xs : List DWord} {k k' k'' : Stack} {w : HeldWrite} {ws : List HeldWrite}
    (h : holdPush k (toBytes n x) s = .ok (k', w) s) (hs : holdPushes n xs k' s = .ok (k'', ws) s) :
    holdPushes n (x :: xs) k s = .ok (k'', w :: ws) s :=
  (bind_ok h).trans (bind_ok hs)

theorem performAll_cons {w : HeldWrite} {ws : List HeldWrite} (h : w.perform s = .ok () t) : performAll (w :: ws) s = performAll ws t :=
  bind_ok h

/-- THE FRAME of a real-mode delivery pushed. -/
theorem pushAll_frame (h : s.RealReady v) (x y z : DWord) :
    ∃ b, pushAll 2 [x, y, z] s.stack s = .ok (s.frameStack 3) { s with bus := b }
      ∧ Bus.Stored s.memCtx s.bus s.frameAddr (toBytes 2 z ++ (toBytes 2 y ++ toBytes 2 x)) b ∧ s.bus.trace <:+ b.trace := by
  obtain ⟨w₁, hhold₁, hw₁⟩ := holdPush_frame h (j := 0) (by omega) x
  obtain ⟨w₂, hhold₂, hw₂⟩ := holdPush_frame h (j := 1) (by omega) y
  obtain ⟨w₃, hhold₃, hw₃⟩ := holdPush_frame h (j := 2) (by omega) z
  obtain ⟨b₁, hrun₁, hs₁, ht₁⟩ := writeFrame_spec h (.refl s.bus) h.flat.ready.wf 1 x hw₁
  obtain ⟨b₂, hrun₂, hs₂, ht₂⟩ := writeFrame_spec h hs₁.control hs₁.wf 2 y hw₂
  obtain ⟨b₃, hrun₃, hs₃, ht₃⟩ := writeFrame_spec h (hs₁.control.trans hs₂.control) hs₂.wf 3 z hw₃
  refine ⟨b₃, ?_, ?_, (ht₁.trans ht₂).trans ht₃⟩
  · have hholds := holdPushes_cons hhold₁ (holdPushes_cons hhold₂ (holdPushes_cons hhold₃
      (show holdPushes 2 [] (s.frameStack 3) s = .ok (s.frameStack 3, []) s from rfl)))
    rw [frameStack_zero] at hholds
    exact (bind_ok hholds).trans (bind_ok (((performAll_cons hrun₁).trans (performAll_cons hrun₂)).trans (performAll_cons hrun₃)))
  · have hs₁₂ : Bus.Stored s.memCtx s.bus (fun i => s.frameAddr (i + 2)) (toBytes 2 y ++ toBytes 2 x) b₂ := by
      refine hs₁.below hs₂ ?_ ?_ ?_ <;> simp only [toBytes_length]
      · exact fun i hi j hj => frame_apart s (by omega) (by omega) hi hj
      · intro j hj
        interval_cases j <;> rfl
      · intro i hi
        interval_cases i <;> rfl
    refine hs₁₂.below hs₃ ?_ ?_ ?_ <;> simp only [toBytes_length, List.length_append]
    · intro i hi j hj
      exact frame_apart s (by omega) (by omega) (Nat.mod_lt _ (by omega)) hj
    · intro j hj
      interval_cases j <;> rfl
    · intro i _
      rw [Nat.add_comm]

/-! ### The interrupt table -/

/-- A word of the interrupt table read with the cache disabled. -/
theorem sysRead_tableWord (hs : s.Flat) (hcd : s.cd = true) (hc : Bus.SameControl s.bus b) (hb : b.memWf = true) (off : Nat) :
    ∃ b', sysRead (s.idtr.base + BitVec.ofNat 32 off) 2 { s with bus := b } = .ok (s.tableWord b off).toNat { s with bus := b' }
      ∧ b'.memWf = true ∧ Bus.Quiet s.memCtx b b' ∧ b.trace <:+ b'.trace := by
  have hscript := hc.script.trans hs.ready.script
  obtain ⟨b', hrun, hwf, hq, -⟩ := linRead_flat (c := s.memCtx) (p := s.pageCtx false) (b := b)
    (lin := s.idtr.base + BitVec.ofNat 32 off) (n := 2) hs.pg hs.ready.bus hb hscript (.inl hcd)
  have hrec := ((linRead_recorded (c := s.memCtx) (p := s.pageCtx false) hs.pg hcd _ _).run b (.start hscript fun _ _ => trivial)).of_ok hrun
  refine ⟨b', ?_, hwf, hq, hrec.trace⟩
  unfold sysRead
  rw [bind_ok (get_run _), bind_ok (bus_ok (s := { s with bus := b }) (by rw [memCtx_bus hc]; exact hrun))]
  show EStateM.Result.ok (natOfBytes [b.view s.memCtx (maskA20 s.memCtx (s.idtr.base + BitVec.ofNat 32 off + 0#32)),
    b.view s.memCtx (maskA20 s.memCtx (s.idtr.base + BitVec.ofNat 32 off + 1#32))]) _ = _
  rw [natOfBytes_two, BitVec.add_zero]
  rfl

theorem tableWord_quiet {b' : Bus} (hq : Bus.Quiet s.memCtx b b') (off : Nat) : s.tableWord b' off = s.tableWord b off := by
  unfold State.tableWord
  rw [hq.view, hq.view]

theorem ofNat_toNat_word (w : Word) (n : Nat) : BitVec.ofNat n w.toNat = w.setWidth n :=
  BitVec.eq_of_toNat_eq (by rw [BitVec.toNat_setWidth, BitVec.toNat_ofNat])

/-! ### The delivery -/

/-- What a delivery in real mode does before the processor leaves its waits. -/
def State.vectored (s : State) (e : Exc) (b : Bus) : State :=
  { s with
    regs := { s.regs with esp := s.spBelow 3 }
    eflags := s.eflags &&& 0xFFFBFCFF#32
    eip := (s.tableWord b (4 * e.vector.toNat)).setWidth 32
    segs := { s.segs with cs := s.segs.cs.loadReal s.realLimit (s.tableWord b (4 * e.vector.toNat + 2)) }
    bus := b }

theorem deliverReal_spec (h : s.RealReady e.vector) :
    ∃ b, deliverReal e s = .ok () (s.vectored e b) ∧ Bus.Stored s.memCtx s.bus s.frameAddr (s.frameBytes (e.returnPc s)) b
      ∧ s.bus.trace <:+ b.trace := by
  obtain ⟨b₁, hpush, hstored, ht₁⟩ := pushAll_frame h (e.savedFlags s) (s.segs.cs.sel.setWidth 32) (e.returnPc s)
  obtain ⟨b₂, hip, hwf₂, hq₂, ht₂⟩ := sysRead_tableWord h.flat h.uncached hstored.control hstored.wf (4 * e.vector.toNat)
  obtain ⟨b₃, hcs, hwf₃, hq₃, ht₃⟩ := sysRead_tableWord h.flat h.uncached (hstored.control.trans hq₂.control) hwf₂
    (4 * e.vector.toNat + 2)
  have hframe : s.frameBytes (e.returnPc s)
      = toBytes 2 (e.returnPc s) ++ (toBytes 2 (s.segs.cs.sel.setWidth 32 : DWord) ++ toBytes 2 (e.savedFlags s)) := by
    rw [toBytes_savedFlags, toBytes_selector, ← List.append_assoc]
    rfl
  refine ⟨b₃, ?_, hframe ▸ (hstored.quiet hq₂).quiet hq₃, (ht₁.trans ht₂).trans ht₃⟩
  unfold deliverReal
  rw [bind_ok (get_run s)]
  dsimp only
  rw [if_neg (Nat.not_lt.2 h.vector), bind_ok hpush, bind_ok hip, bind_ok hcs, modify_run, ofNat_toNat_word, ofNat_toNat_word,
    BitVec.setWidth_eq, ← tableWord_quiet (hq₂.trans hq₃), ← tableWord_quiet hq₃]
  rfl

/-- DELIVERY IN REAL MODE that meets no fault. -/
theorem deliver_real (h : s.RealReady e.vector) :
    ∃ b, deliver e s = .ok () (s.entered e b) ∧ Bus.Stored s.memCtx s.bus s.frameAddr (s.frameBytes (e.returnPc s)) b
      ∧ s.bus.trace <:+ b.trace := by
  obtain ⟨b, hrun, hstored, ht⟩ := deliverReal_spec (h.reported e)
  refine ⟨b, ?_, hstored, ht⟩
  unfold deliver
  rw [bind_ok (modify_run ..), bind_ok (get_run _), if_neg (by rw [show (s.reported e).pe = false from h.real]; exact Bool.false_ne_true),
    bind_ok hrun]
  rfl

/-- Delivery in real mode of a vector past the end of the interrupt table. -/
theorem deliver_missing (hr : s.pe = false) (h : s.idtr.limit.toNat < 4 * e.vector.toNat + 3) :
    deliver e s = .error (.exc (generalProtection (BitVec.ofNat 32 (8 * e.vector.toNat + 2)))) (s.reported e) := by
  have hraise : deliverReal e (s.reported e) = .error (.exc (generalProtection (BitVec.ofNat 32 (8 * e.vector.toNat + 2)))) (s.reported e) := by
    unfold deliverReal
    rw [bind_ok (get_run _)]
    dsimp only
    rw [if_pos (by exact h)]
    exact bind_error (raise_run ..)
  unfold deliver
  rw [bind_ok (modify_run ..), bind_ok (get_run _), if_neg (by rw [show (s.reported e).pe = false from hr]; exact Bool.false_ne_true),
    bind_error hraise]

/-! ### A row of exceptions (60_exceptions.md R636) -/

theorem takeException_delivered {n : Nat} (h : deliver e s = .ok () t) : takeException (n + 1) e s = .ok () t := by
  unfold takeException
  rw [h]

theorem takeException_escalated {n : Nat} (h : deliver e s = .error (.exc f) t) (hg : escalate e f = some g) :
    takeException (n + 1) e s = takeException n g ((s.afterFailed t).reported f) := by
  conv_lhs => unfold takeException
  rw [h]
  dsimp only
  rw [hg]

theorem takeException_shutdown {n : Nat} (h : deliver e s = .error (.exc f) t) (hg : escalate e f = none) :
    takeException (n + 1) e s = enterShutdown ((s.afterFailed t).reported f) := by
  unfold takeException
  rw [h]
  dsimp only
  rw [hg]

/-- AN EXCEPTION TAKEN IN REAL MODE that meets no fault. -/
theorem takeException_real (n : Nat) (h : s.RealReady e.vector) :
    ∃ b, takeException (n + 1) e s = .ok () (s.entered e b)
      ∧ Bus.Stored s.memCtx s.bus s.frameAddr (s.frameBytes (e.returnPc s)) b ∧ s.bus.trace <:+ b.trace := by
  obtain ⟨b, hrun, hstored, ht⟩ := deliver_real h
  exact ⟨b, takeException_delivered hrun, hstored, ht⟩

theorem exec_intN_real (hl : s.noLock) (hr : s.pe = false) (v : Byte) : exec (.intN v) s = except s (softwareInterrupt v) s := by
  have hv86 : s.v86 = false := by
    unfold State.v86
    rw [hr]
    rfl
  refine run_unlocked_exc (t := s) hl ?_
  unfold softInterrupt
  rw [bind_ok (get_run s), hv86]
  rfl

theorem except_taken {u : State} (h : takeExc e s = .ok () u) : except s e s = .next u := by
  unfold except exceptIn
  rw [show s.afterFailed s = s from rfl, h]

/-- Settles O31: the delivery pushes the frame and reads the table; INT n is its delivery. -/
theorem exceptionInRealMode : Obligations.ExceptionInRealMode := by
  refine ⟨fun e s h => ?_, fun v s hl h => ?_⟩
  · obtain ⟨b, hrun, hstored, -⟩ := takeException_real 4 h
    exact ⟨b, hrun, hstored⟩
  · obtain ⟨b, hrun, hstored, -⟩ := takeException_real 4 (e := softwareInterrupt v) h
    exact ⟨b, (exec_intN_real hl h.real v).trans (except_taken hrun), hstored⟩

end Sys2Proof.Machine
end

section
/-! SUPPORT. What a fault in the delivery of an exception leads to (O32). -/

namespace Sys2Proof.Machine

variable {s t : State} {b : Bus} {e f : Exc} {code : DWord}

/-! ### The rule (60_exceptions.md R636) -/

theorem contributory_iff : e.contributory = true ↔ e.fault = true ∧ e.vector ∈ [0#8, 10#8, 11#8, 12#8, 13#8] := by
  unfold Exc.contributory
  simp [or_assoc]

theorem isPageFault_iff : e.isPageFault = true ↔ e.fault = true ∧ e.vector = 14#8 := by
  unfold Exc.isPageFault
  simp

/-- A fault in delivering a double fault shuts the processor down. -/
theorem escalate_double (h : e.fault = true ∧ e.vector = 8#8) : escalate e f = none := by
  unfold escalate
  rw [h.1, h.2]
  rfl

/-- The second of the two makes a double fault of both. -/
def Exc.doubles (e f : Exc) : Bool :=
  (e.contributory && f.contributory) || (e.isPageFault && (f.isPageFault || f.contributory))

theorem doubles_iff : e.doubles f = true ↔ (e.contributory = true ∧ f.contributory = true)
    ∨ (e.isPageFault = true ∧ (f.isPageFault = true ∨ f.contributory = true)) := by
  unfold Exc.doubles
  simp

theorem escalate_other (h : ¬(e.fault = true ∧ e.vector = 8#8)) :
    escalate e f = some (if e.doubles f = true then doubleFault else f) := by
  unfold escalate
  rw [if_neg (by simpa using h)]
  unfold Exc.doubles
  split <;> rfl

/-- Neither a contributory exception nor a page fault is a double fault. -/
theorem doubles_notDouble (h : e.doubles f = true) : ¬(e.fault = true ∧ e.vector = 8#8) := by
  rintro ⟨-, hv⟩
  rcases doubles_iff.1 h with ⟨hc, -⟩ | ⟨hp, -⟩
  · have hm := (contributory_iff.1 hc).2
    rw [hv] at hm
    exact absurd hm (by decide)
  · have hm := (isPageFault_iff.1 hp).2
    rw [hv] at hm
    exact absurd hm (by decide)

theorem generalProtection_contributory (code : DWord) : (generalProtection code).contributory = true := rfl

/-! ### Vectors past the end of the interrupt table (60_exceptions.md R625) -/

/-- The general protection fault of a vector past the end of the table. -/
def missingVector (v : Byte) : Exc := generalProtection (BitVec.ofNat 32 (8 * v.toNat + 2))

/-- The first fault has reported itself, and the second one reports nothing. -/
theorem afterFailed_missing (s : State) (e : Exc) (v : Byte) :
    (s.afterFailed (s.reported e)).reported (missingVector v) = s.reported e :=
  State.reported_plain _ rfl rfl

theorem takeException_missing {n : Nat} {g : Exc} (hr : s.pe = false) (h : s.idtr.limit.toNat < 4 * e.vector.toNat + 3)
    (hg : escalate e (missingVector e.vector) = some g) : takeException (n + 1) e s = takeException n g (s.reported e) := by
  rw [takeException_escalated (deliver_missing hr h) hg]
  exact congrArg _ (afterFailed_missing s e e.vector)

theorem takeException_missing_shutdown {n : Nat} (hr : s.pe = false) (h : s.idtr.limit.toNat < 4 * e.vector.toNat + 3)
    (hg : escalate e (missingVector e.vector) = none) : takeException (n + 1) e s = enterShutdown (s.reported e) := by
  rw [takeException_shutdown (deliver_missing hr h) hg]
  exact congrArg _ (afterFailed_missing s e e.vector)

/-- What the general protection fault of a missing vector makes of the first exception, where the table reaches vector 13. -/
theorem escalate_missing (h : s.idtr.limit.toNat < 4 * e.vector.toNat + 3)
    (hg : 4 * (if e.fault = true ∧ e.vector ∈ [10#8, 11#8, 12#8, 13#8, 14#8] then doubleFault else missingVector e.vector).vector.toNat + 3
      ≤ s.idtr.limit.toNat) :
    escalate e (missingVector e.vector)
      = some (if e.fault = true ∧ e.vector ∈ [10#8, 11#8, 12#8, 13#8, 14#8] then doubleFault else missingVector e.vector) := by
  have hd : e.doubles (missingVector e.vector) = true ↔ e.contributory = true ∨ e.isPageFault = true := by
    rw [doubles_iff, show (missingVector e.vector).contributory = true from rfl]
    simp
  by_cases hc : e.fault = true ∧ e.vector ∈ [10#8, 11#8, 12#8, 13#8, 14#8]
  · have hdoubles : e.doubles (missingVector e.vector) = true := by
      rw [hd, contributory_iff, isPageFault_iff]
      obtain ⟨hfault, hv⟩ := hc
      simp only [List.mem_cons, List.not_mem_nil, or_false] at hv ⊢
      tauto
    rw [if_pos hc, escalate_other (doubles_notDouble hdoubles), if_pos hdoubles]
  · rw [if_neg hc] at hg ⊢
    have hbeyond : 13 < e.vector.toNat := by
      have : 4 * 13 + 3 ≤ s.idtr.limit.toNat := hg
      omega
    have hne (w : Byte) (hw : w.toNat ≤ 13) : e.vector ≠ w := fun he => by rw [he] at hbeyond; omega
    have hnot : ¬e.doubles (missingVector e.vector) = true := by
      rw [hd, contributory_iff, isPageFault_iff]
      rintro (⟨-, hv⟩ | ⟨hfault, hv⟩)
      · simp only [List.mem_cons, List.not_mem_nil, or_false] at hv
        rcases hv with hv | hv | hv | hv | hv <;> exact hne _ (by decide) hv
      · exact hc ⟨hfault, by rw [hv]; decide⟩
    rw [escalate_other fun hdouble => hne 8 (by decide) hdouble.2, if_neg hnot]

/-! ### A table that ends before the double fault's vector (60_exceptions.md R641) -/

theorem takeException_doubleFault_shutdown {n : Nat} (hr : s.pe = false) (h : s.idtr.limit.toNat < 35) :
    takeException (n + 1) doubleFault s = enterShutdown s :=
  (takeException_missing_shutdown (e := doubleFault) hr h (escalate_double ⟨rfl, rfl⟩)).trans (congrArg _ (State.reported_plain _ rfl rfl))

theorem takeException_generalProtection_shutdown {n : Nat} (hr : s.pe = false) (h : s.idtr.limit.toNat < 35) :
    takeException (n + 2) (generalProtection code) s = enterShutdown s := by
  have h13 : s.idtr.limit.toNat < 4 * (generalProtection code).vector.toNat + 3 := Nat.lt_of_lt_of_le h (by decide : 35 ≤ 4 * 13 + 3)
  rw [takeException_missing hr h13 (g := doubleFault) rfl, State.reported_plain _ rfl rfl]
  exact takeException_doubleFault_shutdown hr h

/-- Every exception past the end of such a table shuts the processor down. -/
theorem takeExc_shutdown (hr : s.pe = false) (h : s.idtr.limit.toNat < 35) (hv : s.idtr.limit.toNat < 4 * e.vector.toNat + 3) :
    takeExc e s = enterShutdown (s.reported e) := by
  by_cases hd : e.fault = true ∧ e.vector = 8#8
  · exact takeException_missing_shutdown hr hv (escalate_double hd)
  · unfold takeExc
    rw [takeException_missing hr hv (escalate_other hd)]
    split
    · exact takeException_doubleFault_shutdown hr h
    · exact takeException_generalProtection_shutdown hr h

/-! ### An exception left over from the step before (log 28) -/

/-- With no input, request or clock state before it, a step is the processor's. -/
theorem step_proceed (hi : s.inputs = []) (ha : s.latch.upgradePresent = false) (hq : s.bus.queue = [])
    (hc : s.clock = .normal ∨ (s.clock = .autoHaltPowerDown ∧ s.pend.flush = false)) : step s = settleOutcome (proceed s) := by
  have hp : stepClocked s = proceed s := by
    unfold stepClocked
    rcases hc with hc | ⟨hc, hf⟩
    · rw [hc]
    · rw [hc, hf, Bool.and_false, Bool.false_and]
      rfl
  unfold step stepMachine
  rw [hi]
  dsimp only
  rw [ha, hq, if_neg Bool.false_ne_true, hp]

theorem runEvent_ok {m : M Unit} (h : m s = .ok () t) : runEvent m s = .next { t with busWanted := false } := by
  unfold runEvent
  rw [h]

theorem State.RealReady.serial {v : Byte} (h : s.RealReady v) (x : Option Exc) : { s with serial := x }.RealReady v :=
  ⟨h.real, ⟨h.flat.pg, ⟨h.flat.ready.bus, h.flat.ready.script, h.flat.ready.wf⟩⟩, h.uncached, h.vector, h.room, h.unwatched⟩

/-- Settles O32: the rule, a missing vector, a table without the double fault's, and the next step of a long row. -/
theorem tripleFaultShutsDown : Obligations.TripleFaultShutsDown := by
  refine ⟨fun e f => ?_, fun e s hv => ?_, fun e s hr hb h hv => ?_, fun e s he hrun h => ?_⟩
  · dsimp only
    rw [← contributory_iff, ← contributory_iff, ← isPageFault_iff, ← isPageFault_iff, ← doubles_iff]
    refine ⟨escalate_double, fun hs => ⟨doubleFault, ?_, ⟨rfl, rfl⟩, rfl⟩, fun hd hs => ?_⟩
    · rw [escalate_other (doubles_notDouble hs), if_pos hs]
    · rw [escalate_other hd, if_neg hs]
  · intro missing g hg
    have hesc : escalate e (missingVector e.vector) = some g := escalate_missing hv hg.vector
    obtain ⟨b, hrun, hstored, -⟩ := takeException_real 3 hg
    have hpc : g.returnPc (s.reported e) = s.dec.start := by
      have hfault : g.fault = true := by
        unfold g
        split <;> rfl
      unfold Exc.returnPc
      rw [hfault]
      rfl
    rw [hpc] at hstored
    exact ⟨b, (takeException_missing (s := s) hg.real hv hesc).trans hrun, hstored⟩
  · obtain ⟨b, hrun, hd, hlast⟩ := enterShutdown_spec (s := s.reported e) ⟨hb.bus, hb.script, hb.wf⟩
    exact ⟨b, (takeExc_shutdown hr h hv).trans hrun, hd, hlast⟩
  · obtain ⟨b, htake, hstored, -⟩ := takeException_real 4 (h.serial none)
    refine ⟨b, ?_, hstored⟩
    have hclock : s.clock = .normal := hrun.clock.resolve_right fun hc => Bool.false_ne_true hc.1
    rw [step_proceed (s := s) hrun.inputs hrun.alone hrun.queue (.inl hclock), proceed_serial he,
      runEvent_ok (show takeSerial e s = .ok () _ from (bind_ok (modify_run ..)).trans htake)]
    rfl

end Sys2Proof.Machine
end

section
/-! SUPPORT. NMI and INTR at an instruction boundary (O36): the buffers drain and the acknowledge cycles bring the vector. -/

namespace Sys2Proof.Machine

variable {s t : State} {b b' : Bus} {c : MemCtx}

/-! ### The record of drained writes -/

/-- A buffered write that reaches the bus enters the record in cycles of its own, each with its address and data. -/
theorem Bus.record_finish_entry (e : WbEntry) :
    ∃ cs : List BusCycle, cs ≠ [] ∧ (b.finish c e.xfer).trace = cs.reverse ++ b.trace
      ∧ ∀ x ∈ cs, (x.kind = .memWrite ∨ x.kind = .ioWrite) ∧ x.addr = e.addr ∧ x.data = e.data := by
  have hdata : b.answer c e.xfer.kind ⟨e.addr, e.lanes, e.data, 0⟩ = e.data := by
    rw [WbEntry.xfer_kind]
    cases e.io <;> rfl
  have hkind : e.xfer.kind = .memWrite ∨ e.xfer.kind = .ioWrite := by
    rw [WbEntry.xfer_kind]
    cases e.io
    · exact .inl rfl
    · exact .inr rfl
  refine ⟨itemCycles c { e.xfer with decided := true } ⟨e.addr, e.lanes, e.data, 0⟩ e.lanes (b.answer c e.xfer.kind ⟨e.addr, e.lanes, e.data, 0⟩)
    (!e.xfer.decided) e.xfer.ads false, itemCycles_ne_nil, ?_, fun x hx => ?_⟩
  · rw [Bus.finish_one (x := e.xfer) (p := ⟨e.addr, e.lanes, e.data, 0⟩) rfl rfl rfl]
    unfold Bus.movePart
    rw [Bus.trace_keepPart, Bus.trace_moveLanes]
    rfl
  · obtain ⟨hk, ha, hd⟩ := mem_itemCycles hx
    exact ⟨hk ▸ hkind, ha, hd.trans hdata⟩

theorem Bus.record_finishAll_entries (l : List WbEntry) : ∀ b : Bus,
    ∃ cs : List BusCycle, (b.finishAll c (l.map WbEntry.xfer)).trace = cs.reverse ++ b.trace
      ∧ (∀ x ∈ cs, x.kind = .memWrite ∨ x.kind = .ioWrite) ∧ ∀ e ∈ l, ∃ x ∈ cs, x.addr = e.addr ∧ x.data = e.data := by
  induction l with
  | nil => exact fun b => ⟨[], rfl, fun _ hx => absurd hx List.not_mem_nil, fun _ he => absurd he List.not_mem_nil⟩
  | cons e l ih =>
    intro b
    obtain ⟨cs, hne, ht, hcs⟩ := b.record_finish_entry (c := c) e
    obtain ⟨ds, hts, hkind, hentry⟩ := ih (b.finish c e.xfer)
    refine ⟨cs ++ ds, ?_, fun x hx => ?_, fun f hf => ?_⟩
    · show ((b.finish c e.xfer).finishAll c (l.map WbEntry.xfer)).trace = _
      rw [hts, ht, List.reverse_append, List.append_assoc]
    · exact (List.mem_append.1 hx).elim (fun hx => (hcs x hx).1) (hkind x)
    · rcases List.mem_cons.1 hf with rfl | hf
      · obtain ⟨x, hx⟩ := List.exists_mem_of_ne_nil _ hne
        exact ⟨x, List.mem_append_left _ hx, (hcs x hx).2⟩
      · obtain ⟨x, hx, h⟩ := hentry f hf
        exact ⟨x, List.mem_append_right _ hx, h⟩

/-- What draining adds to the record: cycles for each buffered write, on a 32-bit bus one each and in their order. -/
structure Bus.DrainRecord (c : MemCtx) (b : Bus) (drained : List BusCycle) : Prop where
  kind : ∀ x ∈ drained, x.kind = .memWrite ∨ x.kind = .ioWrite
  entry : ∀ e ∈ b.wb, ∃ x ∈ drained, x.addr = e.addr ∧ x.data = e.data
  ordered : c.plat.bus8 = [] → c.plat.bus16 = [] → c.plat.ioBus8 = [] → c.plat.ioBus16 = [] →
    drained.map (fun x => (x.kind, x.addr, x.be, x.data))
      = b.wb.map (fun e => ((if e.io then CycleKind.ioWrite else .memWrite), e.addr, ~~~e.lanes, e.data))

theorem drainBuffers_record (hfree : c.busFree = true) (hs : b.script = []) (h : drainBuffers c b = .ok () b') :
    ∃ drained : List BusCycle, b'.trace = drained.reverse ++ b.trace ∧ b.DrainRecord c drained := by
  have hrec : ∃ drained : List BusCycle, b'.trace = drained.reverse ++ b.trace ∧ (∀ x ∈ drained, x.kind = .memWrite ∨ x.kind = .ioWrite)
      ∧ ∀ e ∈ b.wb, ∃ x ∈ drained, x.addr = e.addr ∧ x.data = e.data := by
    have hrun := h
    rw [drainBuffers_eq hfree hs] at hrun
    injection hrun with _ hb
    subst hb
    split
    · next he =>
      rw [List.isEmpty_iff.1 he]
      exact ⟨[], rfl, fun _ hx => absurd hx List.not_mem_nil, fun _ he => absurd he List.not_mem_nil⟩
    · exact Bus.record_finishAll_entries b.wb { b with wb := [], readPassed := false }
  obtain ⟨drained, ht, hkind, hentry⟩ := hrec
  refine ⟨drained, ht, hkind, hentry, fun h8 h16 hio8 hio16 => ?_⟩
  obtain ⟨cycles, htc, hmap⟩ := drainBuffers_cycles hfree hs h h8 h16 hio8 hio16
  rw [ht, List.append_left_inj, List.reverse_inj] at htc
  rw [htc, hmap]

/-! ### The acknowledge cycles (42_bus_transactions.md R410) -/

/-- The two locked interrupt acknowledge cycles, the second with the vector. -/
structure AckCycles (v : Byte) (a1 a2 : BusCycle) : Prop where
  kind1 : a1.kind = .intAck
  lock1 : a1.lock = true
  addr1 : a1.addr = 1
  be1 : a1.be = 0xE#4
  kind2 : a2.kind = .intAck
  lock2 : a2.lock = true
  addr2 : a2.addr = 0
  be2 : a2.be = 0xE#4
  vector : a2.data.extractLsb' 0 8 = v

theorem transact_acks (v : Byte) (hs : b.script = []) :
    ∃ b' a1 a2, transact c false (ackXfers v) b = .ok () b' ∧ Bus.SameButRead { b with vector := v } b'
      ∧ b'.trace = a2 :: a1 :: b.trace ∧ AckCycles v a1 a2 := by
  set x₁ : Xfer := Xfer.new .intAck ⟨true, false, false, false, false⟩ [⟨1, 1, 0, 0⟩]
  set x₂ : Xfer := { Xfer.new .intAck ⟨true, false, false, false, false⟩ [⟨0, 1, v.setWidth 32, 0⟩] with idle := 4, cont := true }
  set b₀ : Bus := { b with fillBuf := [], pchk := false }
  have k₀ : Bus.SameButRead b b₀ := by constructor <;> rfl
  have k₁ := Bus.finish_ack (b := b₀) (c := c) (x := x₁) rfl rfl rfl rfl
  have k₂ := Bus.finish_ack (b := b₀.finish c x₁) (c := c) (x := x₂) rfl rfl rfl rfl
  obtain ⟨y₁, ht₁, hy₁⟩ := Bus.trace_finish_one (b := b₀) (c := c) (x := x₁) rfl rfl rfl rfl rfl
  obtain ⟨y₂, ht₂, hy₂⟩ := Bus.trace_finish_one (b := b₀.finish c x₁) (c := c) (x := x₂) rfl rfl rfl rfl rfl
  have hbe : ~~~(1#4) = 0xE#4 := by decide
  have hv : (v.setWidth 32).setWidth 8 = v := by simp
  have hlow : (v.setWidth 32 : DWord).extractLsb' 0 8 = v := by rw [← BitVec.setWidth_eq_extractLsb' (by decide), hv]
  rw [if_neg (by decide)] at k₁
  rw [if_pos rfl, hv] at k₂
  exact ⟨_, y₁, y₂, transact_ok false _ hs, ((k₀.trans k₁).withVector v).trans k₂, ht₂.trans (congrArg _ ht₁),
    hy₁.kind, hy₁.lock, hy₁.addr, hy₁.be.trans hbe, hy₂.kind, hy₂.lock, hy₂.addr, hy₂.be.trans hbe,
    (congrArg (BitVec.extractLsb' 0 8) hy₂.data).trans hlow⟩

/-- The bus part of INTR: the buffered writes, then the acknowledge cycles; the processor sees the bytes it saw. -/
theorem acknowledge_spec (hs : s.BusReady) :
    ∃ b drained a1 a2, bus (fun c => do
        needBus c
        drainBuffers c
        transact c false (ackXfers c.vector)) s = .ok () { s with bus := b }
      ∧ b.memWf = true ∧ Bus.SameControl { s.bus with vector := s.pins.intVector } b ∧ (∀ x, b.view s.memCtx x = s.view x)
      ∧ b.trace = a2 :: a1 :: (drained.reverse ++ s.bus.trace) ∧ s.bus.DrainRecord s.memCtx drained
      ∧ AckCycles s.pins.intVector a1 a2 := by
  obtain ⟨b₁, hdrain, hwf, hsame, -, -, hview⟩ := drainBuffers_spec (c := s.memCtx) (b := s.bus) hs.wf hs.bus hs.script
  obtain ⟨drained, ht, hrec⟩ := drainBuffers_record (c := s.memCtx) hs.bus hs.script hdrain
  obtain ⟨b₂, a1, a2, hrun, hread, ht₂, hack⟩ := transact_acks (c := s.memCtx) s.pins.intVector (hsame.script.trans hs.script)
  refine ⟨b₂, drained, a1, a2, bus_ok ?_, hread.memWf.trans hwf, (hsame.control.withVector _).trans hread.control,
    fun x => (hread.view s.memCtx x).trans (hview x), ht₂.trans (by rw [ht]), hrec, hack⟩
  rw [bind_ok (needBus_ok hs.bus _), bind_ok hdrain]
  exact hrun

/-! ### The event at the boundary -/

theorem boundary_event {m : M Unit} (hd : s.dec.active = false) (hf : s.pins.flush = false) (h : boundaryEvent s = some m) :
    boundary s = runEvent m s := by
  unfold boundary
  rw [hd, if_neg Bool.false_ne_true, heldFlush_ok hf]
  dsimp only
  rw [h]

/-- No trap, FLUSH# or SMI# comes first. -/
theorem State.BelowSmi.below (h : s.BelowSmi) :
    (s.trapDue && !s.ssShadow) = false ∧ s.pend.flush = false ∧ (s.pend.smi && s.part.hasSL && !s.inSMM && !s.shutdown) = false := by
  refine ⟨?_, h.flush.1, ?_⟩
  · rcases h.trap with ⟨ht, hk, hd⟩ | hm
    · unfold State.trapDue
      rw [ht, hk, hd]
      rfl
    · rw [hm, Bool.not_true, Bool.and_false]
  · rcases h.smi with hp | hp | hp | hp <;> simp [hp]

theorem boundaryEvent_nmi (h : s.BelowSmi) (hn : s.pend.nmi = true)
    (hopen : s.shutdown = true ∨ (s.nmiBlocked = false ∧ s.inNmi = false ∧ s.ssShadow = false)) : boundaryEvent s = some takeNmi := by
  obtain ⟨htrap, hflush, hsmi⟩ := h.below
  have hdue : ((s.pend.nmi && s.shutdown) || (s.nmiDue && !s.ssShadow)) = true := by
    unfold State.nmiDue
    rcases hopen with hs | ⟨hb, hi, hm⟩
    · simp [hn, hs]
    · simp [hn, hb, hi, hm]
  unfold boundaryEvent
  rw [htrap, hflush, hsmi, hdue]
  rfl

theorem boundaryEvent_intr (h : s.BelowSmi) (hn : s.pend.nmi = false ∨ s.nmiBlocked = true ∨ s.inNmi = true ∨ s.ssShadow = true)
    (hs : s.shutdown = false) (hp : s.pins.intr = true) (hif : s.if_ = true) (hsh : s.shadow = false) :
    boundaryEvent s = some takeIntr := by
  obtain ⟨htrap, hflush, hsmi⟩ := h.below
  have hdue : ((s.pend.nmi && s.shutdown) || (s.nmiDue && !s.ssShadow)) = false := by
    unfold State.nmiDue
    rcases hn with hn | hn | hn | hn <;> simp [hn, hs]
  unfold boundaryEvent
  rw [htrap, hflush, hsmi, hdue, hs, hp, hif, hsh]
  rfl

theorem step_event {m : M Unit} (hrun : s.Running true) (hb : s.BelowSmi) (he : boundaryEvent s = some m) (h : m s = .ok () t) :
    step s = .next { t with busWanted := false }.settle := by
  rw [step_proceed (s := s) hrun.inputs hrun.alone hrun.queue (hrun.clock.imp_right fun hc => ⟨hc.2, hb.flush.1⟩),
    proceed_none hrun.serial, boundary_event hb.boundary hb.flush.2 he, runEvent_ok h]
  rfl

/-! ### NMI and INTR taken -/

theorem takeNmi_real (h : s.RealReady 2) :
    ∃ b, takeNmi s = .ok () ({ s with shutdown := false, inNmi := true, pend := { s.pend with nmi := false } }.entered
        (externalInterrupt 2) b)
      ∧ Bus.Stored s.memCtx s.bus s.frameAddr (s.frameBytes s.eip) b := by
  have hready : ({ s with pend := { s.pend with nmi := false }, halted := false, shutdown := false, inNmi := true
                          dec := { s.dec with start := s.eip } } : State).RealReady 2 :=
    ⟨h.real, ⟨h.flat.pg, ⟨h.flat.ready.bus, h.flat.ready.script, h.flat.ready.wf⟩⟩, h.uncached, h.vector, h.room, h.unwatched⟩
  obtain ⟨b, hrun, hstored, -⟩ := takeException_real 4 (e := externalInterrupt 2) hready
  exact ⟨b, (bind_ok (modify_run ..)).trans ((bind_ok (modify_run ..)).trans hrun), hstored⟩

/-- The state in which the vector of the acknowledge cycles is delivered. -/
def State.acknowledged (s : State) (b : Bus) : State := { s with bus := b, halted := false, dec := { s.dec with start := s.eip } }

theorem acknowledged_memCtx (hc : Bus.SameControl { s.bus with vector := s.pins.intVector } b) :
    (s.acknowledged b).memCtx = s.memCtx :=
  memCtx_bus (s := { s with bus := { s.bus with vector := s.pins.intVector } }) hc

theorem acknowledged_entered {e : Exc} (hc : (s.acknowledged b).memCtx = s.memCtx) (b' : Bus) :
    (s.acknowledged b).entered e b' = s.entered e b' := by
  unfold State.entered State.tableWord
  rw [hc]
  rfl

theorem acknowledged_frameAddr (hc : (s.acknowledged b).memCtx = s.memCtx) : (s.acknowledged b).frameAddr = s.frameAddr := by
  unfold State.frameAddr State.dataAddr
  rw [hc]
  rfl

theorem takeIntr_real (h : s.RealReady s.pins.intVector) :
    ∃ b later drained a2 a1, takeIntr s = .ok () (s.entered (externalInterrupt s.pins.intVector) b)
      ∧ Bus.Stored s.memCtx { s.bus with vector := s.pins.intVector } s.frameAddr (s.frameBytes s.eip) b
      ∧ b.trace = later ++ a2 :: a1 :: (drained.reverse ++ s.bus.trace) ∧ s.bus.DrainRecord s.memCtx drained
      ∧ AckCycles s.pins.intVector a1 a2 := by
  obtain ⟨b₁, drained, a1, a2, hack, hwf, hc, hview, ht, hrec, hcycles⟩ := acknowledge_spec h.flat.ready
  have hctx := acknowledged_memCtx hc
  have hready : (s.acknowledged b₁).RealReady s.pins.intVector :=
    ⟨h.real, ⟨h.flat.pg, ⟨(congrArg MemCtx.busFree hctx).trans h.flat.ready.bus, hc.script.trans h.flat.ready.script, hwf⟩⟩,
      h.uncached, h.vector, h.room, h.unwatched⟩
  obtain ⟨b, hrun, hstored, later, hlater⟩ := takeException_real 4 (e := externalInterrupt s.pins.intVector) hready
  rw [acknowledged_entered hctx] at hrun
  rw [acknowledged_frameAddr hctx, hctx] at hstored
  have hquiet : Bus.Quiet s.memCtx { s.bus with vector := s.pins.intVector } b₁ := ⟨fun _ => hwf, hc, hview⟩
  have hvector : b₁.vector = s.pins.intVector := hc.vector
  have ht' : b.trace = later ++ b₁.trace := hlater.symm
  refine ⟨b, later, drained, a2, a1, ?_, stored_after_quiet hquiet hstored, ht'.trans (congrArg _ ht), hrec, hcycles⟩
  unfold takeIntr
  rw [bind_ok hack, bind_ok (modify_run ..), bind_ok (get_run _)]
  show takeEvent (externalInterrupt b₁.vector) _ = _
  rw [hvector]
  exact (bind_ok (modify_run ..)).trans hrun

theorem entered_notWaiting (s : State) (e : Exc) (b : Bus) : { s.entered e b with busWanted := false } = s.entered e b := rfl

/-- An event at the boundary that delivers an interrupt. -/
theorem step_interrupt {m : M Unit} {e : Exc} (hrun : s.Running true) (hb : s.BelowSmi) (he : boundaryEvent s = some m)
    (h : m s = .ok () (t.entered e b)) : step s = .next (t.entered e b).settle := by
  rw [step_event hrun hb he h, entered_notWaiting]

/-- Settles O36: the event at the boundary is the one pending, and its delivery is that of an interrupt in real mode. -/
theorem externalInterrupts : Obligations.ExternalInterrupts := by
  intro s hrun hbelow
  refine ⟨fun hn hopen hready => ?_, fun hn hs hp hif hsh hready => ?_⟩
  · obtain ⟨b, htake, hstored⟩ := takeNmi_real hready
    exact ⟨b, step_interrupt hrun hbelow (boundaryEvent_nmi hbelow hn hopen) htake, hstored⟩
  · obtain ⟨b, later, drained, a2, a1, htake, hstored, ht, hrec, hack⟩ := takeIntr_real hready
    exact ⟨b, step_interrupt hrun hbelow (boundaryEvent_intr hbelow hn hs hp hif hsh) htake, hstored, later, drained, a2, a1, ht,
      hrec.kind, hrec.entry, hrec.ordered, hack.kind1, hack.lock1, hack.addr1, hack.be1, hack.kind2, hack.lock2, hack.addr2,
      hack.be2, hack.vector⟩

end Sys2Proof.Machine
end

section
/-! SUPPORT. Where the state-save map holds what (60_exceptions.md R661): the image that SMM entry saves, slot by slot. -/

namespace Sys2Proof.Machine

variable {s : State} {l m : List Byte} {k n : Nat}

/-! ### Bytes at an offset -/

theorem take_drop_append_right (h : l.length ≤ k) : ((l ++ m).drop k).take n = (m.drop (k - l.length)).take n := by
  rw [List.drop_append, List.drop_eq_nil_of_le h, List.nil_append]

theorem take_drop_append_left (h : k + n ≤ l.length) : ((l ++ m).drop k).take n = (l.drop k).take n := by
  rw [List.drop_append_of_le_length (by omega), List.take_append_of_le_length (by rw [List.length_drop]; omega)]

/-- A doubleword of a row of doublewords. -/
theorem take_drop_flatten {bss : List (List Byte)} (h : ∀ bs ∈ bss, bs.length = 4) (i : Nat) :
    (bss.flatten.drop (4 * i)).take 4 = bss.getD i [] := by
  induction bss generalizing i with
  | nil => rw [List.flatten_nil, List.drop_nil, List.take_nil, List.getD_nil]
  | cons bs bss ih =>
    have hbs : bs.length = 4 := h bs (List.mem_cons_self ..)
    rw [List.flatten_cons]
    cases i with
    | zero =>
      rw [Nat.mul_zero, List.drop_zero, List.take_append_of_le_length hbs.ge, List.take_of_length_le hbs.le]
      rfl
    | succ i =>
      rw [take_drop_append_right (by omega), hbs, show 4 * (i + 1) - 4 = 4 * i by omega,
        ih (fun bs hb => h bs (List.mem_cons_of_mem _ hb))]
      rfl

theorem length_flatten_dwords {bss : List (List Byte)} (h : ∀ bs ∈ bss, bs.length = 4) : bss.flatten.length = 4 * bss.length := by
  rw [List.length_flatten, List.map_congr_left h, List.map_const', List.sum_replicate, smul_eq_mul, Nat.mul_comm]

/-! ### The image (60_exceptions.md R661) -/

/-- What the reserved bytes hold. -/
def State.smmReservedBytes (s : State) (k n : Nat) : List Byte := (List.range n).map fun i => Config.smmReserved s.bus.draws (k + i)

theorem smmReservedBytes_length (s : State) (k n : Nat) : (s.smmReservedBytes k n).length = n := by
  rw [State.smmReservedBytes, List.length_map, List.length_range]

/-- A selector's slot, its upper half reserved. -/
def State.smmSelector (s : State) (k : Nat) (w : Word) : List Byte := toBytes 2 w ++ s.smmReservedBytes (k + 2) 2

/-- The doublewords from F8h on: SMBASE, the revision identifier, the I/O restart slot with the auto-HALT slot. -/
def State.smmMiddle (s : State) : List (List Byte) :=
  [toBytes 4 s.smbase, toBytes 4 s.part.smmRevision, toBytes 2 (0#16) ++ toBytes 2 (if s.haltedAtSmi then 1#16 else 0#16)]

/-- The doublewords from 1A8h on: selectors, debug registers, general registers, EIP, EFLAGS, CR3, CR0. -/
def State.smmUpper (s : State) : List (List Byte) :=
  [s.smmSelector 0x1A8 s.segs.es.sel, s.smmSelector 0x1AC s.segs.cs.sel, s.smmSelector 0x1B0 s.segs.ss.sel,
    s.smmSelector 0x1B4 s.segs.ds.sel, s.smmSelector 0x1B8 s.segs.fs.sel, s.smmSelector 0x1BC s.segs.gs.sel,
    s.smmSelector 0x1C0 s.ldtr.sel, s.smmSelector 0x1C4 s.tr.sel, toBytes 4 s.dr7, toBytes 4 s.dr6,
    toBytes 4 s.regs.eax, toBytes 4 s.regs.ecx, toBytes 4 s.regs.edx, toBytes 4 s.regs.ebx,
    toBytes 4 s.regs.esp, toBytes 4 s.regs.ebp, toBytes 4 s.regs.esi, toBytes 4 s.regs.edi,
    toBytes 4 s.eip, toBytes 4 s.eflags, toBytes 4 s.cr3, toBytes 4 s.cr0]

theorem smmMiddle_length : ∀ bs ∈ s.smmMiddle, bs.length = 4 := by
  intro bs h
  simp only [State.smmMiddle, List.mem_cons, List.not_mem_nil, or_false] at h
  rcases h with rfl | rfl | rfl <;> simp

theorem smmSelector_length (k : Nat) (w : Word) : (s.smmSelector k w).length = 4 := by
  rw [State.smmSelector, List.length_append, toBytes_length, smmReservedBytes_length]

theorem smmUpper_length : ∀ bs ∈ s.smmUpper, bs.length = 4 := by
  simp [State.smmUpper, smmSelector_length]

theorem smmSave_parts (s : State) : smmSave s
    = s.smmReservedBytes 0 92 ++ (toBytes 4 s.cr4 ++ (s.smmReservedBytes 96 152 ++ (s.smmMiddle.flatten
      ++ (s.smmReservedBytes 0x104 164 ++ s.smmUpper.flatten)))) := by
  show s.smmReservedBytes 0 92 ++ toBytes 4 s.cr4 ++ s.smmReservedBytes 96 152
    ++ toBytes 4 s.smbase ++ toBytes 4 s.part.smmRevision
    ++ toBytes 2 (0#16) ++ toBytes 2 (if s.haltedAtSmi then 1#16 else 0#16)
    ++ s.smmReservedBytes 0x104 164
    ++ s.smmSelector 0x1A8 s.segs.es.sel ++ s.smmSelector 0x1AC s.segs.cs.sel ++ s.smmSelector 0x1B0 s.segs.ss.sel
    ++ s.smmSelector 0x1B4 s.segs.ds.sel ++ s.smmSelector 0x1B8 s.segs.fs.sel ++ s.smmSelector 0x1BC s.segs.gs.sel
    ++ s.smmSelector 0x1C0 s.ldtr.sel ++ s.smmSelector 0x1C4 s.tr.sel ++ toBytes 4 s.dr7 ++ toBytes 4 s.dr6
    ++ toBytes 4 s.regs.eax ++ toBytes 4 s.regs.ecx ++ toBytes 4 s.regs.edx ++ toBytes 4 s.regs.ebx
    ++ toBytes 4 s.regs.esp ++ toBytes 4 s.regs.ebp ++ toBytes 4 s.regs.esi ++ toBytes 4 s.regs.edi
    ++ toBytes 4 s.eip ++ toBytes 4 s.eflags ++ toBytes 4 s.cr3 ++ toBytes 4 s.cr0 = _
  simp only [State.smmMiddle, State.smmUpper, List.flatten_cons, List.flatten_nil, List.append_nil, List.append_assoc]

theorem smmMiddle_flatten_length : s.smmMiddle.flatten.length = 12 := by
  rw [length_flatten_dwords smmMiddle_length]
  rfl

theorem smmUpper_flatten_length : s.smmUpper.flatten.length = 88 := by
  rw [length_flatten_dwords smmUpper_length]
  rfl

theorem smmSave_length (s : State) : (smmSave s).length = 512 := by
  rw [smmSave_parts]
  rw [List.length_append, List.length_append, List.length_append, List.length_append, List.length_append, smmUpper_flatten_length,
    smmMiddle_flatten_length, smmReservedBytes_length, smmReservedBytes_length, smmReservedBytes_length, toBytes_length]

/-! ### Its slots -/

theorem smmSave_cr4 (s : State) : at32 (smmSave s) 92 = s.cr4 := by
  unfold at32
  rw [smmSave_parts, take_drop_append_right (by rw [smmReservedBytes_length]), smmReservedBytes_length,
    take_drop_append_left (by rw [toBytes_length]), Nat.sub_self, List.drop_zero, List.take_of_length_le (by rw [toBytes_length]),
    ofBytes_toBytes]

theorem smmSave_middle (s : State) {i : Nat} (hi : i < 3) : ((smmSave s).drop (0xF8 + 4 * i)).take 4 = s.smmMiddle.getD i [] := by
  rw [smmSave_parts, take_drop_append_right (by rw [smmReservedBytes_length]; omega), smmReservedBytes_length,
    take_drop_append_right (by rw [toBytes_length]; omega), toBytes_length,
    take_drop_append_right (by rw [smmReservedBytes_length]; omega), smmReservedBytes_length,
    take_drop_append_left (by rw [smmMiddle_flatten_length]; omega), show 0xF8 + 4 * i - 92 - 4 - 152 = 4 * i by omega,
    take_drop_flatten smmMiddle_length]

theorem smmSave_upper (s : State) (i : Nat) : ((smmSave s).drop (0x1A8 + 4 * i)).take 4 = s.smmUpper.getD i [] := by
  rw [smmSave_parts, take_drop_append_right (by rw [smmReservedBytes_length]; omega), smmReservedBytes_length,
    take_drop_append_right (by rw [toBytes_length]; omega), toBytes_length,
    take_drop_append_right (by rw [smmReservedBytes_length]; omega), smmReservedBytes_length,
    take_drop_append_right (by rw [smmMiddle_flatten_length]; omega), smmMiddle_flatten_length,
    take_drop_append_right (by rw [smmReservedBytes_length]; omega), smmReservedBytes_length,
    show 0x1A8 + 4 * i - 92 - 4 - 152 - 12 - 164 = 4 * i by omega, take_drop_flatten smmUpper_length]

/-- A doubleword slot. -/
theorem at32_of_slot {img : List Byte} {v : DWord} (h : (img.drop k).take 4 = toBytes 4 v) : at32 img k = v := by
  unfold at32
  rw [h, ofBytes_toBytes]

/-- A word slot at the start of a doubleword. -/
theorem at16_of_slot {img : List Byte} {v : Word} (h : (img.drop k).take 4 = toBytes 2 v ++ m) : at16 img k = v := by
  have htake : (img.drop k).take 2 = ((img.drop k).take 4).take 2 := by rw [List.take_take]; rfl
  unfold at16
  rw [htake, h, List.take_append_of_le_length (by rw [toBytes_length]), List.take_of_length_le (by rw [toBytes_length]),
    ofBytes_toBytes_eq (w := 16) (k := 2) rfl]

/-- The word slot after it. -/
theorem at16_of_slot_upper {img : List Byte} {v w : Word} (h : (img.drop k).take 4 = toBytes 2 v ++ toBytes 2 w) :
    at16 img (k + 2) = w := by
  have hdrop : (img.drop (k + 2)).take 2 = ((img.drop k).take 4).drop 2 := by rw [List.drop_take, List.drop_drop]
  unfold at16
  rw [hdrop, h, List.drop_left' (toBytes_length ..), ofBytes_toBytes_eq (w := 16) (k := 2) rfl]

/-- An image that holds the registers of a state where the map puts them. -/
structure SavesIn (img : List Byte) (s : State) (halt : Bool) : Prop where
  cr0 : at32 img 0x1FC = s.cr0
  cr3 : at32 img 0x1F8 = s.cr3
  eflags : at32 img 0x1F4 = s.eflags
  eip : at32 img 0x1F0 = s.eip
  edi : at32 img 0x1EC = s.regs.edi
  esi : at32 img 0x1E8 = s.regs.esi
  ebp : at32 img 0x1E4 = s.regs.ebp
  esp : at32 img 0x1E0 = s.regs.esp
  ebx : at32 img 0x1DC = s.regs.ebx
  edx : at32 img 0x1D8 = s.regs.edx
  ecx : at32 img 0x1D4 = s.regs.ecx
  eax : at32 img 0x1D0 = s.regs.eax
  dr6 : at32 img 0x1CC = s.dr6
  dr7 : at32 img 0x1C8 = s.dr7
  tr : at16 img 0x1C4 = s.tr.sel
  ldtr : at16 img 0x1C0 = s.ldtr.sel
  gs : at16 img 0x1BC = s.segs.gs.sel
  fs : at16 img 0x1B8 = s.segs.fs.sel
  ds : at16 img 0x1B4 = s.segs.ds.sel
  ss : at16 img 0x1B0 = s.segs.ss.sel
  cs : at16 img 0x1AC = s.segs.cs.sel
  es : at16 img 0x1A8 = s.segs.es.sel
  halt : at16 img 0x102 = (if halt then 1#16 else 0#16)
  io : at16 img 0x100 = 0
  revision : at32 img 0xFC = s.part.smmRevision
  smbase : at32 img 0xF8 = s.smbase
  cr4 : imageCr4 img = s.cr4

/-- THE SLOTS of what SMM entry saves. -/
theorem smmSave_saves (s : State) : SavesIn (smmSave s) s s.haltedAtSmi where
  cr0 := at32_of_slot (smmSave_upper s 21)
  cr3 := at32_of_slot (smmSave_upper s 20)
  eflags := at32_of_slot (smmSave_upper s 19)
  eip := at32_of_slot (smmSave_upper s 18)
  edi := at32_of_slot (smmSave_upper s 17)
  esi := at32_of_slot (smmSave_upper s 16)
  ebp := at32_of_slot (smmSave_upper s 15)
  esp := at32_of_slot (smmSave_upper s 14)
  ebx := at32_of_slot (smmSave_upper s 13)
  edx := at32_of_slot (smmSave_upper s 12)
  ecx := at32_of_slot (smmSave_upper s 11)
  eax := at32_of_slot (smmSave_upper s 10)
  dr6 := at32_of_slot (smmSave_upper s 9)
  dr7 := at32_of_slot (smmSave_upper s 8)
  tr := at16_of_slot (smmSave_upper s 7)
  ldtr := at16_of_slot (smmSave_upper s 6)
  gs := at16_of_slot (smmSave_upper s 5)
  fs := at16_of_slot (smmSave_upper s 4)
  ds := at16_of_slot (smmSave_upper s 3)
  ss := at16_of_slot (smmSave_upper s 2)
  cs := at16_of_slot (smmSave_upper s 1)
  es := at16_of_slot (smmSave_upper s 0)
  halt := at16_of_slot_upper (smmSave_middle s (i := 2) (by decide))
  io := at16_of_slot (smmSave_middle s (i := 2) (by decide))
  revision := at32_of_slot (smmSave_middle s (i := 1) (by decide))
  smbase := at32_of_slot (smmSave_middle s (i := 0) (by decide))
  cr4 := smmSave_cr4 s

end Sys2Proof.Machine
end

section
/-! SUPPORT. The state-save map written and read (60_exceptions.md R660, R680): doubleword by doubleword, and what that leaves alone. -/

namespace Sys2Proof.Machine

variable {c : MemCtx} {p : PageCtx} {b b' b₀ : Bus} {base : DWord} {img : List Byte}

/-! ### The addresses of the map -/

/-- Byte `k` of the map of an SMBASE on the bus. -/
def mapAddr (c : MemCtx) (base : DWord) (k : Nat) : Addr := maskA20 c (smmAddr base k)

/-- An address of the map. -/
def InMap (c : MemCtx) (base : DWord) (a : Addr) : Prop := ∃ k, k < 512 ∧ a = mapAddr c base k

theorem smmAddr_add (base : DWord) (k i : Nat) : smmAddr base k + BitVec.ofNat 32 i = smmAddr base (k + i) := by
  unfold smmAddr
  rw [add_ofNat, Nat.add_assoc]

theorem mapAddr_ne {i j : Nat} (hij : i < j) (hj : j < 512) : mapAddr c base i ≠ mapAddr c base j :=
  maskA20_ne c base (by omega) (by omega)

/-- The place of a doubleword of the map of an SMBASE on a 32KB boundary. -/
theorem smmAddr_aligned (hbase : base.extractLsb' 0 15 = 0) (k : Nat) : (smmAddr base (4 * k)).toNat % 16 = 4 * k % 16 := by
  have hb : base.toNat % 2 ^ 15 = 0 := by
    have h := congrArg BitVec.toNat hbase
    rwa [BitVec.extractLsb'_toNat, Nat.shiftRight_zero] at h
  unfold smmAddr
  rw [BitVec.toNat_add, BitVec.toNat_ofNat]
  have := base.isLt
  omega

theorem fits_dword (hbase : base.extractLsb' 0 15 = 0) (k : Nat) : Fits 4 (smmAddr base (4 * k)) 4 := by
  unfold Fits
  rw [show (2 : Nat) ^ 4 = 16 from rfl, smmAddr_aligned hbase k]
  omega

theorem mapAddr_dword (hbase : base.extractLsb' 0 15 = 0) {k i : Nat} (hi : i < 4) :
    mapAddr c base (4 * k + i) = mapAddr c base (4 * k) + BitVec.ofNat 32 i := by
  unfold mapAddr
  rw [← smmAddr_add, mask_part (fits_dword hbase _) hi]

/-! ### The doublewords of the map -/

/-- Doubleword `k` of the map. -/
def mapChunk (p : PageCtx) (base : DWord) (k : Nat) : PChunk :=
  ⟨smmAddr base (4 * k), 4, (flatPhys p (smmAddr base (4 * k))).pcd, (flatPhys p (smmAddr base (4 * k))).pwt⟩

/-- The last `n` of the first doublewords of an image, the last first. -/
def downTo (n : Nat) (img : List Byte) : List Byte := (List.range n).flatMap fun k => (img.drop (4 * (n - 1 - k))).take 4

theorem downTo_succ (n : Nat) (img : List Byte) : downTo (n + 1) img = (img.drop (4 * n)).take 4 ++ downTo n img := by
  unfold downTo
  rw [List.range_succ_eq_map, List.flatMap_cons, List.flatMap_map, Nat.add_sub_cancel, Nat.sub_zero]
  refine congrArg _ (List.flatMap_congr fun k _ => ?_)
  rw [show n - Nat.succ k = n - 1 - k by omega]

theorem downward_eq (img : List Byte) : downward img = downTo 128 img :=
  List.flatMap_congr fun k _ => by rw [show 508 - 4 * k = 4 * (128 - 1 - k) by omega]

theorem smmChunks_eq (base : DWord) (p : PageCtx) : smmChunks base p = (List.range 128).map (mapChunk p base) := rfl

theorem dwordsOf_aligned {a : Addr} (ha : a.toNat % 4 = 0) : dwordsOf a 4 = [⟨a, 4⟩] := by
  have h : min 4 (2 ^ 2 - a.toNat % 2 ^ 2) = 4 := by omega
  unfold dwordsOf
  rw [chunksOf, if_neg (by omega), h]
  rfl

/-! ### Writing it -/

/-- A buffered write of bytes of the map. -/
def WbEntry.InMap (c : MemCtx) (base : DWord) (e : WbEntry) : Prop := ∀ a, e.byteAt a ≠ none → Machine.InMap c base a

theorem inMap_allowed (e : WbEntry) (h : e.InMap c base) : e.Allowed c (InMap c base) (InMap c base) := fun a ha => by
  have := h a ha
  split <;> exact this

/-- The buffered writes of a doubleword of the map. -/
theorem mapChunk_entries (hbase : base.extractLsb' 0 15 = 0) {k : Nat} (hk : k < 128) (bs : List Byte) (hit : Bool) :
    ∀ e ∈ writeEntries false hit (mapChunk p base k).pcd (mapChunk p base k).pwt false false memDword
      (dwordsOf (maskA20 c (mapChunk p base k).pa) (mapChunk p base k).len) bs, e.InMap c base := by
  have hplace : (mapAddr c base (4 * k)).toNat % 4 = 0 := by
    have h := maskA20_place c (smmAddr base (4 * k))
    rw [smmAddr_aligned hbase k] at h
    unfold mapAddr
    omega
  have hfits : Fits 2 (mapAddr c base (4 * k)) 4 := by
    unfold Fits
    omega
  rw [show dwordsOf (maskA20 c (mapChunk p base k).pa) (mapChunk p base k).len = [⟨mapAddr c base (4 * k), 4⟩] from dwordsOf_aligned hplace]
  intro e he a ha
  obtain rfl := List.mem_singleton.1 he
  rw [byteAt_part hfits] at ha
  have hcov : Covers (mapAddr c base (4 * k)) 4 a := by
    by_contra hn
    exact ha (if_neg hn)
  exact ⟨4 * k + (a - mapAddr c base (4 * k)).toNat, by have := hcov; omega, (mapAddr_dword hbase hcov).symm ▸ covers_eq⟩

theorem writeImage_cons {ch : PChunk} {chs : List PChunk} {bs : List Byte} (h : writeChunk c false false ch (bs.take ch.len) b = .ok () b') :
    writeImage c (ch :: chs) bs b = writeImage c chs (bs.drop ch.len) b' := bind_ok h

theorem writeImage_confined {chs : List PChunk} (h : ∀ ch ∈ chs, ∀ bs hit, ∀ e ∈ writeEntries false hit ch.pcd ch.pwt false false memDword
      (dwordsOf (maskA20 c ch.pa) ch.len) bs, e.InMap c base) (bs : List Byte) :
    Keeps (b₀.Confined (WbEntry.InMap c base) (InMap c base) (InMap c base)) (writeImage c chs bs) := by
  induction chs generalizing bs with
  | nil => exact .pure
  | cons ch chs ih =>
    exact .bind (writeChunk_confined inMap_allowed (h ch (List.mem_cons_self ..) _)) fun _ =>
      ih (fun x hx => h x (List.mem_cons_of_mem _ hx)) _

/-- THE IMAGE WRITTEN from the top downward: it stands in the map. -/
theorem writeImage_stored (hfree : c.busFree = true) (hbase : base.extractLsb' 0 15 = 0) (p : PageCtx) (img : List Byte) :
    ∀ n, n ≤ 128 → 4 * n ≤ img.length → ∀ b : Bus, b.memWf = true → b.script = [] →
      ∃ b', writeImage c ((List.range n).map (mapChunk p base)).reverse (downTo n img) b = .ok () b'
        ∧ Bus.Stored c b (mapAddr c base) (img.take (4 * n)) b'
        ∧ ∀ x, b'.cache.lookup c.big x = b.cache.lookup c.big x := by
  intro n
  induction n with
  | zero => exact fun _ _ b hb _ => ⟨b, rfl, ⟨hb, .refl b, fun i hi => absurd hi (by simp), fun _ _ => rfl⟩, fun _ => rfl⟩
  | succ n ih =>
    intro hn hlen b hb hs
    have hbs : ((img.drop (4 * n)).take 4).length = 4 := by rw [List.length_take, List.length_drop]; omega
    have hlow : (img.take (4 * n)).length = 4 * n := by rw [List.length_take]; omega
    obtain ⟨b₁, hrun₁, hwf₁, hctl₁, hlook₁, hwr⟩ := writeChunk_spec (c := c) (follows := false) (more := false)
      (ch := mapChunk p base n) hb hfree hs hbs (fits_mask (fits_dword hbase _))
    obtain ⟨b₂, hrun₂, hstored₂, hlook₂⟩ := ih (by omega) (by omega) b₁ hwf₁ (hctl₁.script.trans hs)
    have hstored₁ := stored_of_writes (a := smmAddr base (4 * n)) (by rw [hbs]; exact fits_dword hbase _) hwf₁ hctl₁
      (by rw [hbs]; exact hwr)
    refine ⟨b₂, ?_, ?_, fun x => (hlook₂ x).trans (hlook₁ x)⟩
    · have htake : ((img.drop (4 * n)).take 4 ++ downTo n img).take (mapChunk p base n).len = (img.drop (4 * n)).take 4 := List.take_left' hbs
      have hdrop : ((img.drop (4 * n)).take 4 ++ downTo n img).drop (mapChunk p base n).len = downTo n img := List.drop_left' hbs
      rw [downTo_succ, List.range_succ, List.map_append, List.reverse_append]
      exact (writeImage_cons (by rw [htake]; exact hrun₁)).trans (by rw [hdrop]; exact hrun₂)
    · rw [show 4 * (n + 1) = 4 * n + 4 by omega, List.take_add]
      refine hstored₁.below hstored₂ (fun i hi j hj => ?_) (fun j _ => rfl) fun i hi => ?_
      · rw [hbs] at hi
        rw [hlow] at hj
        rw [smmAddr_add]
        exact (mapAddr_ne (show j < 4 * n + i by omega) (by omega)).symm
      · rw [hlow, smmAddr_add]
        rfl

/-! ### Reading it -/

theorem readImage_confined (hcd : c.cd = true) {W : WbEntry → Prop} {M R : Addr → Prop} (hW : ∀ e, W e → e.Allowed c M R)
    (chs : List PChunk) : Keeps (b₀.Confined W M R) (readImage c chs) := by
  induction chs with
  | nil => exact .pure
  | cons ch chs ih => exact .bind (readChunk_confined hW hcd (.inl rfl) _ _) fun _ => .bind ih fun _ => .pure

theorem readImage_cons {ch : PChunk} {chs : List PChunk} {x y : List Byte} {b'' : Bus} (h : readChunk c .memRead false ch b = .ok x b')
    (hs : readImage c chs b' = .ok y b'') : readImage c (ch :: chs) b = .ok (x ++ y) b'' :=
  (bind_ok h).trans (bind_ok hs)

/-- THE IMAGE READ with the cache disabled: the bytes that the processor sees in the map. -/
theorem readImage_seen (hfree : c.busFree = true) (hcd : c.cd = true) (hbase : base.extractLsb' 0 15 = 0) (p : PageCtx) :
    ∀ m n, ∀ b : Bus, b.memWf = true → b.script = [] →
      ∃ b', readImage c ((List.range' m n).map (mapChunk p base)) b
          = .ok ((List.range' (4 * m) (4 * n)).map fun k => b.view c (mapAddr c base k)) b'
        ∧ Bus.Quiet c b b' := by
  intro m n
  induction n generalizing m with
  | zero => exact fun b _ _ => ⟨b, rfl, .refl c b⟩
  | succ n ih =>
    intro b hb hs
    obtain ⟨b₁, hrun₁, hwf₁, hq₁, -⟩ := readChunk_spec (c := c) (kind := .memRead) (more := false) (ch := mapChunk p base m) hb hfree hs
      (.inl rfl) (fits_mask (fits_dword hbase _)) (.inl hcd)
    obtain ⟨b₂, hrun₂, hq₂⟩ := ih (m + 1) b₁ hwf₁ (hq₁.control.script.trans hs)
    refine ⟨b₂, ?_, hq₁.trans hq₂⟩
    have hspan : b.span c (maskA20 c (mapChunk p base m).pa) 4 = (List.range' (4 * m) 4).map fun k => b.view c (mapAddr c base k) := by
      refine (span_mask (fits_dword hbase _) b).trans ?_
      rw [List.range'_eq_map_range, List.map_map]
      refine List.map_congr_left fun i _ => ?_
      rw [smmAddr_add]
      rfl
    rw [List.map_congr_left fun k _ => hq₁.view (mapAddr c base k)] at hrun₂
    have happend : List.range' (4 * m) (4 * (n + 1)) = List.range' (4 * m) 4 ++ List.range' (4 * (m + 1)) (4 * n) := by
      rw [show 4 * (m + 1) = 4 * m + 4 by omega, List.range'_append_1, show 4 * (n + 1) = 4 + 4 * n by omega]
    rw [happend, List.map_append, ← hspan]
    exact readImage_cons hrun₁ hrun₂

end Sys2Proof.Machine
end

section
/-! SUPPORT. SMM entry (O44): the buffers drained, the map written, the registers of the handler. -/

namespace Sys2Proof.Machine

variable {s t : State} {c : MemCtx} {b b' b₁ b₂ : Bus} {base : DWord} {a : Addr} {io : Option IoInfo}

/-! ### What stands outside the map -/

theorem wbByte_none {l : List WbEntry} (h : ∀ e ∈ l, e.byteAt a = none) : wbByte a l = none := by
  induction l with
  | nil => rfl
  | cons e l ih =>
    rw [wbByte_cons, ih fun x hx => h x (List.mem_cons_of_mem _ hx), h e (List.mem_cons_self ..)]
    rfl

/-- The same byte seen in the same line is the same byte of the cache. -/
theorem byteAt_of_view (hl : b'.cache.lookup c.big a = b.cache.lookup c.big a) (hv : b'.view c a = b.view c a) :
    b'.cache.byteAt c.big a = b.cache.byteAt c.big a := by
  rw [Bus.view_eq, Bus.view_eq] at hv
  unfold Cache.byteAt at hv ⊢
  rw [hl] at hv ⊢
  cases h : b.cache.lookup c.big a with
  | none => rfl
  | some w =>
    rw [h] at hv
    exact congrArg some hv

/-- What is not written to the map stays, also as the interrupted program, without SMIACT#, sees it. -/
theorem view_outside_map (hs : b₁.wb = []) (hc : b₁.Confined (WbEntry.InMap c base) (InMap c base) (InMap c base) b₂)
    (hl : b₂.cache.lookup c.big a = b₁.cache.lookup c.big a) (hv : b₂.view c a = b₁.view c a) (ha : ¬InMap c base a) (smm : Bool) :
    b₂.view { c with smiact := smm } a = b₁.view { c with smiact := smm } a := by
  have hwb : wbByte a b₂.wb = none := wbByte_none fun e he => by
    by_contra hne
    exact ha (hc.buffered e he a hne)
  have hphys : b₂.physByte { c with smiact := smm } a = b₁.physByte { c with smiact := smm } a := by
    unfold Bus.physByte
    rw [hc.mem a ha, hc.smram a ha]
  rw [Bus.view_eq, Bus.view_eq, hwb, hs, hphys]
  exact congrArg (Option.getD · _) (byteAt_of_view (c := c) hl hv)

/-! ### The steps of SMM entry -/

/-- The state whose registers SMM entry saves: SMIACT# asserted, the buffers drained. -/
def State.smiTaken (s : State) (io : Option IoInfo) (b : Bus) : State :=
  { s with bus := b, inSMM := true, pend := { s.pend with smi := false }, nmiBlocked := true, haltedAtSmi := s.halted, ioAtSmi := io }

/-- The state that the handler starts in (60_exceptions.md R662), after the state `s` has been saved. -/
def State.inHandler (s : State) (g : Regs) (d6 : DWord) (b : Bus) : State :=
  { s with
    regs := g
    eflags := 0x00000002#32
    eip := 0x00008000#32
    segs := { cs := ⟨s.smbase.extractLsb' 4 16, s.smbase, 0xFFFFFFFF#32, 0x0093#16⟩, ds := Seg.smmData, es := Seg.smmData
              fs := Seg.smmData, gs := Seg.smmData, ss := Seg.smmData }
    cr0 := s.cr0 &&& 0x7FFFFFF2#32
    dr6 := normDr6 d6
    dr7 := s.dr7 &&& 0x3000#32
    cpl := 0
    smmImage := smmSave s
    smmHidden := some s.hidden
    halted := false
    clock := if s.clock = .autoHaltPowerDown then .normal else s.clock
    dec := Decoding.idle
    trapPending := false
    taskTrap := false
    dbgHits := 0
    shadow := false
    ssShadow := false
    frozen := false
    busWanted := false
    lastIo := none
    bus := b }

/-- The map has been written: `b₁` is the bus unit drained, `b₂` that after the writes. -/
structure State.MapSaved (s : State) (io : Option IoInfo) (b₁ b₂ : Bus) : Prop where
  drained : Bus.Emptied s.memCtx s.bus b₁
  smram : ∀ a : Addr, b₁.smram.get a.toNat = s.bus.smram.get a.toNat
  context : (s.smiTaken io b₁).memCtx = { s.memCtx with smiact := true }
  stored : Bus.Stored { s.memCtx with smiact := true } b₁ (mapAddr s.memCtx s.smbase) (smmSave (s.smiTaken io b₁)) b₂
  lookup : ∀ a, b₂.cache.lookup s.part.bigCache a = b₁.cache.lookup s.part.bigCache a
  confined : b₁.Confined (WbEntry.InMap s.memCtx s.smbase) (InMap s.memCtx s.smbase) (InMap s.memCtx s.smbase) b₂

/-- Draining outside SMM leaves SMRAM alone. -/
theorem drain_outside (hs : s.BusReady) (ho : s.inSMM = false) :
    ∃ b₁, drain s = .ok () { s with bus := b₁ } ∧ Bus.Emptied s.memCtx s.bus b₁
      ∧ ∀ a : Addr, b₁.smram.get a.toNat = s.bus.smram.get a.toNat := by
  obtain ⟨b₁, hrun, hwf, hsame, hwb, hmem, hview⟩ := drainBuffers_spec (c := s.memCtx) (b := s.bus) hs.wf hs.bus hs.script
  have hoff (x : Addr) : inSmram s.memCtx x = false := by
    unfold inSmram
    rw [show s.memCtx.smiact = false from ho, Bool.false_and]
  have hconf := ((drainBuffers_confined (c := s.memCtx) (b₀ := s.bus) (W := fun _ => True) (M := fun _ => True) (R := fun _ => False)
    fun e _ x _ => by rw [hoff, if_neg Bool.false_ne_true]; trivial).run s.bus (.start hs.script fun _ _ => trivial)).of_ok hrun
  exact ⟨b₁, bus_ok hrun, ⟨hwf, hwb, hsame, hmem, hview⟩, fun a => hconf.smram a id⟩

theorem smiTaken_memCtx (h : Bus.SameControl s.bus b) : (s.smiTaken io b).memCtx = { s.memCtx with smiact := true } :=
  memCtx_bus (s := { s with inSMM := true }) h

/-- The image of the state saved, written to the map. -/
theorem writeMap_saved (h : s.SmiReady) (hd : Bus.Emptied s.memCtx s.bus b₁)
    (hr : ∀ a : Addr, b₁.smram.get a.toNat = s.bus.smram.get a.toNat) (p : PageCtx) :
    ∃ b₂, bus (fun c => writeImage c (smmChunks s.smbase p).reverse (downward (smmSave (s.smiTaken io b₁)))) (s.smiTaken io b₁)
        = .ok () { s.smiTaken io b₁ with bus := b₂ } ∧ s.MapSaved io b₁ b₂ := by
  have hctx : (s.smiTaken io b₁).memCtx = { s.memCtx with smiact := true } := smiTaken_memCtx hd.same.control
  have hscript : b₁.script = [] := hd.same.script.trans h.ready.script
  have hlen := smmSave_length (s.smiTaken io b₁)
  obtain ⟨b₂, hrun, hstored, hlook⟩ := writeImage_stored (c := { s.memCtx with smiact := true }) h.ready.bus h.base p
    (smmSave (s.smiTaken io b₁)) 128 le_rfl hlen.ge b₁ hd.wf hscript
  rw [← downward_eq, List.take_of_length_le hlen.le] at *
  refine ⟨b₂, bus_ok (s := s.smiTaken io b₁) (by rw [hctx]; exact hrun), hd, hr, hctx, hstored, hlook, ?_⟩
  refine ((writeImage_confined (c := { s.memCtx with smiact := true }) (base := s.smbase) (fun ch hch bs hit => ?_) _).run b₁
    (.start hscript fun e he => absurd (hd.wb ▸ he) List.not_mem_nil)).of_ok hrun
  obtain ⟨k, hk, rfl⟩ := List.mem_map.1 (List.mem_reverse.1 hch)
  exact mapChunk_entries h.base (List.mem_range.1 hk) bs hit

theorem freeDWord_run (t : State) : freeDWord t = .ok (Config.freeDWord t.bus.draws) { t with bus := t.bus.drawn } := rfl

theorem freeRegs_run (t : State) : ∃ g, freeRegs t = .ok g { t with bus := { t.bus with draws := t.bus.draws + 8 } } := ⟨_, rfl⟩

/-- SMM ENTRY: drain, save, and the handler's registers, the general ones and DR6 free. -/
theorem enterSmm_spec (io : Option IoInfo) (h : s.SmiReady) :
    ∃ b₁ b₂ g d6 n, enterSmm io s = .ok () ((s.smiTaken io b₁).inHandler g d6 { b₂ with fetchq := .empty, draws := n })
      ∧ s.MapSaved io b₁ b₂ := by
  obtain ⟨b₁, hdrain, hd, hr⟩ := drain_outside h.ready h.outside
  obtain ⟨b₂, hwrite, hsaved⟩ := writeMap_saved (io := io) h hd hr { s.pageCtx false with pg := false }
  obtain ⟨g, hregs⟩ := freeRegs_run { s.smiTaken io b₁ with bus := b₂.drawn }
  refine ⟨b₁, b₂, g, Config.freeDWord (b₂.draws + 9), b₂.draws + 10, ?_, hsaved⟩
  unfold enterSmm
  rw [bind_ok (bus_ok (needBus_ok h.ready.bus _)), bind_ok hdrain, bind_ok (modify_run ..), bind_ok (get_run _)]
  refine (bind_ok hwrite).trans ((bind_ok (freeDWord_run _)).trans ((bind_ok hregs).trans ((bind_ok (freeDWord_run _)).trans ?_)))
  exact (bind_ok (x := clearFetch) (modify_run ..)).trans (modify_run ..)

/-! ### The state the handler starts in -/

/-- SMM entry clears PE, EM, TS and PG of CR0 and leaves the cache bits. -/
theorem smmCr0_bit (x : DWord) {i : Nat} (hi : (0x7FFFFFF2#32).getLsbD i = true) : (x &&& 0x7FFFFFF2#32).getLsbD i = x.getLsbD i := by
  rw [BitVec.getLsbD_and, hi, Bool.and_true]

theorem inHandler_memCtx (h : Bus.SameControl s.bus b) (g : Regs) (d6 : DWord) (n : Nat) :
    (s.inHandler g d6 { b with fetchq := .empty, draws := n }).memCtx = s.memCtx := by
  have hcd : (s.inHandler g d6 { b with fetchq := .empty, draws := n }).cd = s.cd := smmCr0_bit s.cr0 (i := 30) (by decide)
  have hnw : (s.inHandler g d6 { b with fetchq := .empty, draws := n }).nw = s.nw := smmCr0_bit s.cr0 (i := 29) (by decide)
  rw [← memCtx_bus h]
  unfold State.memCtx
  rw [hcd, hnw]
  rfl

theorem State.mapImage_eq (s : State) : s.mapImage = (List.range 512).map fun k => s.bus.view s.memCtx (mapAddr s.memCtx s.smbase k) := rfl

namespace State.MapSaved

variable (h : s.MapSaved io b₁ b₂) (g : Regs) (d6 : DWord) (n : Nat)
include h

theorem handler_memCtx : ((s.smiTaken io b₁).inHandler g d6 { b₂ with fetchq := .empty, draws := n }).memCtx
    = { s.memCtx with smiact := true } :=
  (inHandler_memCtx (s := s.smiTaken io b₁) h.stored.control g d6 n).trans h.context

/-- The map holds what was saved. -/
theorem mapImage : ((s.smiTaken io b₁).inHandler g d6 { b₂ with fetchq := .empty, draws := n }).mapImage = smmSave (s.smiTaken io b₁) := by
  have hlen := smmSave_length (s.smiTaken io b₁)
  rw [State.mapImage_eq, h.handler_memCtx]
  refine List.ext_getElem (by rw [List.length_map, List.length_range, hlen]) fun k _ hk => ?_
  rw [List.getElem_map, List.getElem_range, ← List.getD_eq_getElem _ 0 hk]
  exact h.stored.written k hk

theorem tlb : b₂.tlb = s.bus.tlb := h.stored.control.tlb.trans h.drained.same.tlb

theorem lookup_kept (a : Addr) : b₂.cache.lookup s.part.bigCache a = s.bus.cache.lookup s.part.bigCache a :=
  (h.lookup a).trans (by rw [h.drained.same.cache])

/-- Outside the map every byte is as it was for the interrupted program, and SMRAM's is. -/
theorem outside (ho : s.inSMM = false) (ha : ¬InMap s.memCtx s.smbase a) :
    b₂.view s.memCtx a = s.view a ∧ b₂.smram.get a.toNat = s.bus.smram.get a.toNat := by
  have hoff : ({ { s.memCtx with smiact := true } with smiact := false } : MemCtx) = s.memCtx := by
    unfold State.memCtx
    rw [ho]
  have hview := h.stored.others a fun k hk he => ha ⟨k, (smmSave_length _) ▸ hk, he⟩
  have hsame := view_outside_map (c := { s.memCtx with smiact := true }) h.drained.wb h.confined (h.lookup a) hview ha false
  rw [hoff] at hsame
  exact ⟨hsame.trans (h.drained.view a), (h.confined.smram a ha).trans (h.smram a)⟩

end State.MapSaved

/-- Settles O44: the map's slots, the handler's registers, and what stays outside the map. -/
theorem smmEntry : Obligations.SmmEntry := by
  intro io s h
  obtain ⟨b₁, b₂, g, d6, n, hrun, hsaved⟩ := enterSmm_spec io h
  refine ⟨_, hrun, ?_, rfl, rfl, rfl, rfl, rfl, rfl, ?_, rfl, rfl, rfl, rfl, rfl, rfl, rfl, rfl, rfl, rfl, rfl, rfl, rfl, rfl,
    rfl, rfl, rfl, rfl, rfl, rfl, rfl, rfl, rfl, hsaved.tlb, hsaved.lookup_kept, fun a ha => ?_⟩
  · have k := smmSave_saves (s.smiTaken io b₁)
    rw [hsaved.mapImage]
    exact ⟨k.cr0, k.cr3, k.eflags, k.eip, k.edi, k.esi, k.ebp, k.esp, k.ebx, k.edx, k.ecx, k.eax, k.dr6, k.dr7, k.tr, k.ldtr, k.gs,
      k.fs, k.ds, k.ss, k.cs, k.es, k.halt, k.io, k.revision, k.smbase⟩
  · intro x hx
    simp only [List.mem_cons, List.not_mem_nil, or_false] at hx
    rcases hx with rfl | rfl | rfl | rfl | rfl <;> exact ⟨rfl, rfl, rfl⟩
  · exact hsaved.outside h.outside fun ⟨k, hk, he⟩ => ha k hk he

end Sys2Proof.Machine
end

section
/-! SUPPORT. RSM (O45): the map read, an invalid one, the registers back, the restart slots. -/

namespace Sys2Proof.Machine

variable {s t u : State} {b b' : Bus} {img : List Byte} {io : Option IoInfo}

/-! ### The map read -/

/-- The end of RSM: a latched SMI# taken, or the halt state entered again. -/
def rsmLast (latched rehalt : Bool) (io : Option IoInfo) : M Unit := do
  if latched then
    modify fun t => { t with halted := rehalt }
    enterSmm io
  else if rehalt then
    haltSpecial
    modify fun t => { t with halted := true, clock := .autoHaltPowerDown }

/-- RSM once the map has been read. -/
def rsmAfter (s : State) (img : List Byte) : M Unit := do
  if imageInvalid img then enterShutdown
  else
    let rehalt := (at16 img 0x102).getLsbD 0
    let slot := at16 img 0x100
    if rehalt && !s.haltedAtSmi then refuse .rsmHaltSlot
    if slot != 0 && slot != 0xFF then refuse .ioRestartSlot
    if !smmUnaltered 0 img s.smmImage then refuse .saveMapAltered
    clearFetch
    modify fun t =>
      { restoreImage img t with
        smbase := at32 img 0xF8, inSMM := false, nmiBlocked := false, ioAtSmi := none, haltedAtSmi := false, smmImage := []
        smmHidden := none, smiLatched := false, dec := Decoding.idle, lastIo := none }
    if slot == 0xFF then restartIo s.ioAtSmi
    rsmLast s.smiLatched rehalt s.ioAtSmi

/-- The map read with the cache disabled: its bytes as the processor sees them, the buffers empty. -/
theorem readMap_spec (hs : s.BusReady) (hcd : s.cd = true) (hbase : s.smbase.extractLsb' 0 15 = 0) (hw : s.bus.wb = []) (p : PageCtx) :
    ∃ b, bus (fun c => readImage c (smmChunks s.smbase p)) s = .ok s.mapImage { s with bus := b }
      ∧ Bus.Quiet s.memCtx s.bus b ∧ b.wb = [] := by
  obtain ⟨b, hrun, hq⟩ := readImage_seen (c := s.memCtx) (base := s.smbase) hs.bus hcd hbase p 0 128 s.bus hs.wf hs.script
  rw [← List.range_eq_range', ← List.range_eq_range', ← smmChunks_eq] at hrun
  have hconf := ((readImage_confined (c := s.memCtx) (b₀ := s.bus) (W := fun _ => False) (M := fun _ => True) (R := fun _ => True) hcd
    (fun _ h => h.elim) (smmChunks s.smbase p)).run s.bus (.start hs.script fun e he => absurd (hw ▸ he) List.not_mem_nil)).of_ok hrun
  exact ⟨b, bus_ok hrun, hq, List.eq_nil_iff_forall_not_mem.2 hconf.buffered⟩

/-- RSM IN SMM reads the map and goes on with its image. -/
theorem rsmBody_after (hl : s.noLock) (hsl : s.part.hasSL = true) (hin : s.inSMM = true) (hs : s.BusReady) (hcd : s.cd = true)
    (hbase : s.smbase.extractLsb' 0 15 = 0) :
    ∃ b, rsmBody s = rsmAfter s s.mapImage { s with bus := b } ∧ Bus.Quiet s.memCtx s.bus b ∧ b.wb = [] := by
  obtain ⟨b₁, hdrain, hwf, hsame, hwb, -, hview⟩ := drainBuffers_spec (c := s.memCtx) (b := s.bus) hs.wf hs.bus hs.script
  have hctx := memCtx_bus (s := s) hsame.control
  obtain ⟨b, hread, hq, hempty⟩ := readMap_spec (s := { s with bus := b₁ }) (hs.after hsame.control hwf) hcd hbase hwb
    { s.pageCtx false with pg := false }
  have himg : ({ s with bus := b₁ } : State).mapImage = s.mapImage := by
    rw [State.mapImage_eq, State.mapImage_eq, hctx]
    exact List.map_congr_left fun k _ => hview _
  rw [himg] at hread
  rw [hctx] at hq
  have hdrained : drain s = .ok () { s with bus := b₁ } := bus_ok hdrain
  refine ⟨b, ?_, Bus.Quiet.trans ⟨fun _ => hwf, hsame.control, hview⟩ hq, hempty⟩
  unfold rsmBody
  rw [bind_ok (lockable_noLock hl _), bind_ok (get_run s)]
  dsimp only
  rw [if_neg (by rw [hsl, hin]; exact Bool.false_ne_true), bind_ok hdrained]
  exact bind_ok hread

/-! ### An invalid map (60_exceptions.md R683) -/

theorem imageInvalid_iff : imageInvalid img = true ↔ (at32 img 0xF8).extractLsb' 0 15 ≠ 0 ∨ imageCr4 img &&& 0xFFFFFFEC#32 ≠ 0
    ∨ ((at32 img 0x1FC).getLsbD 31 = true ∧ (at32 img 0x1FC).getLsbD 0 = false)
    ∨ ((at32 img 0x1FC).getLsbD 29 = true ∧ (at32 img 0x1FC).getLsbD 30 = false) := by
  unfold imageInvalid
  rw [Bool.or_eq_true, Bool.or_eq_true, bne_iff_ne, bne_iff_ne, cr0Illegal_iff, or_assoc]
  rfl

theorem rsmAfter_invalid (h : imageInvalid img = true) : rsmAfter s img t = enterShutdown t := by
  unfold rsmAfter
  rw [if_pos h]

/-! ### What is refused -/

theorem rsmAfter_haltSlot (hv : imageInvalid img = false) (hr : (at16 img 0x102).getLsbD 0 = true) (hh : s.haltedAtSmi = false) :
    rsmAfter s img t = .error (.refuse .rsmHaltSlot) t := by
  unfold rsmAfter
  rw [if_neg (by rw [hv]; exact Bool.false_ne_true)]
  dsimp only
  rw [if_pos (by rw [hr, hh]; rfl)]
  exact bind_error (refuse_run ..)

theorem rsmAfter_ioSlot (hv : imageInvalid img = false) (hr : (at16 img 0x102).getLsbD 0 = true → s.haltedAtSmi = true)
    (h0 : at16 img 0x100 ≠ 0) (hff : at16 img 0x100 ≠ 0xFF) : rsmAfter s img t = .error (.refuse .ioRestartSlot) t := by
  unfold rsmAfter
  rw [if_neg (by rw [hv]; exact Bool.false_ne_true)]
  dsimp only
  rw [if_neg (by simpa using hr), if_pos (by simpa using ⟨h0, hff⟩)]
  exact bind_error (refuse_run ..)

theorem rsmAfter_altered (hv : imageInvalid img = false) (hr : (at16 img 0x102).getLsbD 0 = true → s.haltedAtSmi = true)
    (hslot : at16 img 0x100 = 0 ∨ at16 img 0x100 = 0xFF) (ha : smmUnaltered 0 img s.smmImage = false) :
    rsmAfter s img t = .error (.refuse .saveMapAltered) t := by
  unfold rsmAfter
  rw [if_neg (by rw [hv]; exact Bool.false_ne_true)]
  dsimp only
  rw [if_neg (by simpa using hr), if_neg (by rcases hslot with h | h <;> rw [h] <;> decide),
    if_pos (by rw [ha]; rfl)]
  exact bind_error (refuse_run ..)

/-! ### The registers back, and the restart slots -/

/-- The I/O restart slot moves EIP and, with REP, the registers of one iteration, at either address size. -/
theorem restartIo_run (io : Option IoInfo) (t : State) : restartIo io t = .ok () (t.ioRestarted io) := by
  cases io with
  | none => rfl
  | some i =>
    obtain ⟨len, rep⟩ := i
    cases rep with
    | none => rfl
    | some r =>
      obtain ⟨as, dst, delta⟩ := r
      cases as <;> cases dst <;> rfl

/-- The state of RSM once the registers are back and the I/O restart slot has acted. -/
def State.rsmRestored (s : State) (img : List Byte) (b : Bus) : State :=
  if at16 img 0x100 = 0xFF then (s.returned img b).ioRestarted s.ioAtSmi else s.returned img b

/-- RSM of a map that nothing refuses: what comes after the registers. -/
theorem rsmAfter_restored (hv : imageInvalid img = false) (hr : (at16 img 0x102).getLsbD 0 = true → s.haltedAtSmi = true)
    (hslot : at16 img 0x100 = 0 ∨ at16 img 0x100 = 0xFF) (ha : smmUnaltered 0 img s.smmImage = true) (b : Bus) :
    rsmAfter s img { s with bus := b } = rsmLast s.smiLatched ((at16 img 0x102).getLsbD 0) s.ioAtSmi (s.rsmRestored img b) := by
  unfold rsmAfter
  rw [if_neg (by rw [hv]; exact Bool.false_ne_true)]
  dsimp only
  rw [if_neg (by simpa using hr), if_neg (by rcases hslot with h | h <;> rw [h] <;> decide), if_neg (by rw [ha]; exact Bool.false_ne_true)]
  refine (bind_ok (x := clearFetch) (modify_run ..)).trans ((bind_ok (modify_run ..)).trans ?_)
  unfold State.rsmRestored
  rcases hslot with h | h
  · rw [if_neg (show ¬(at16 img 0x100 == 0xFF) = true by rw [h]; decide), if_neg (show ¬at16 img 0x100 = 0xFF by rw [h]; decide)]
    rfl
  · rw [if_pos (show (at16 img 0x100 == 0xFF) = true by rw [h]; rfl), if_pos h]
    exact bind_ok (restartIo_run s.ioAtSmi (s.returned img b))

/-! ### The end of RSM -/

/-- What RSM leaves of a valid map accepts an SMI#, with its bus ready. -/
theorem returned_smiReady (hsl : s.part.hasSL = true) (hs : s.BusReady) (hv : imageInvalid img = false) (hq : Bus.Quiet s.memCtx s.bus b) :
    (s.returned img b).SmiReady := by
  have hready := hs.after hq.control (hq.wf hs.wf)
  have hbase : (at32 img 0xF8).extractLsb' 0 15 = 0 := by
    by_contra hne
    exact Bool.false_ne_true (hv.symm.trans (imageInvalid_iff.2 (.inl hne)))
  exact ⟨hsl, rfl, ⟨hready.bus, hready.script, hready.wf⟩, hbase⟩

theorem State.SmiReady.ioRestarted (h : t.SmiReady) (io : Option IoInfo) : (t.ioRestarted io).SmiReady := by
  cases io <;> exact ⟨h.sl, h.outside, ⟨h.ready.bus, h.ready.script, h.ready.wf⟩, h.base⟩

theorem State.SmiReady.halting (h : t.SmiReady) (x : Bool) : { t with halted := x }.SmiReady :=
  ⟨h.sl, h.outside, ⟨h.ready.bus, h.ready.script, h.ready.wf⟩, h.base⟩

theorem rsmRestored_smiReady (h : (s.returned img b).SmiReady) : (s.rsmRestored img b).SmiReady := by
  unfold State.rsmRestored
  split
  · exact h.ioRestarted _
  · exact h

theorem rsmLast_latched (rehalt : Bool) (io : Option IoInfo) (t : State) : rsmLast true rehalt io t = enterSmm io { t with halted := rehalt } :=
  bind_ok (modify_run ..)

theorem rsmLast_running (io : Option IoInfo) (t : State) : rsmLast false false io t = .ok () t := rfl

theorem rsmLast_halted (io : Option IoInfo) (ht : t.BusReady) :
    ∃ b', rsmLast false true io t = .ok () { t with halted := true, clock := .autoHaltPowerDown, bus := b' }
      ∧ Bus.DrainedOnly t.memCtx t.bus b' ∧ b'.lastSpecial 0xB#4 0 := by
  obtain ⟨b', hrun, hd, hc, hlast⟩ := specialCycle_spec 0xB#4 0 ht
  exact ⟨b', (bind_ok (x := haltSpecial) hrun).trans (modify_run ..), ⟨hd, hc⟩, hlast⟩

theorem exec_rsm_ok (h : rsmBody s = .ok () t) : exec .rsm s = .next t := runWith_ok h

/-- An invalid map shuts the processor down. -/
theorem exec_rsm_invalid {b : Bus} (hrun : rsmBody s = rsmAfter s img { s with bus := b }) (hs : s.BusReady) (hq : Bus.Quiet s.memCtx s.bus b)
    (hv : imageInvalid img = true) :
    ∃ b', exec .rsm s = .next { s with bus := b' }.shutDown ∧ Bus.Quiet s.memCtx s.bus b' ∧ b'.wb = [] ∧ b'.lastSpecial 0xE#4 0 := by
  obtain ⟨b', hdown, hd, hlast⟩ := enterShutdown_spec (hs.after hq.control (hq.wf hs.wf))
  rw [memCtx_bus hq.control] at hd
  exact ⟨b', exec_rsm_ok (hrun.trans ((rsmAfter_invalid hv).trans hdown)), hq.trans hd.quiet, hd.drained.wb, hlast⟩

/-- Settles O45: the map read, then what it asks for. -/
theorem rsmReturns : Obligations.RsmReturns := by
  intro s hl hsl hin hs hcd hbase img cr0 invalid rehalt slot
  obtain ⟨b, hrun, hq, hwb⟩ := rsmBody_after hl hsl hin hs hcd hbase
  have hvalid (hn : ¬invalid) : imageInvalid img = false := by
    rw [← Bool.not_eq_true]
    exact fun hi => hn (imageInvalid_iff.1 hi)
  refine ⟨fun hi => exec_rsm_invalid hrun hs hq (imageInvalid_iff.2 hi), fun hn hr hh => ?_, fun hn hr => ⟨fun h0 hff => ?_, fun hslot =>
    ⟨fun ha => ?_, fun ha => ⟨b, hq, hwb, ?_⟩⟩⟩⟩
  · exact runWith_refuse (hrun.trans (rsmAfter_haltSlot (hvalid hn) hr hh))
  · exact runWith_refuse (hrun.trans (rsmAfter_ioSlot (hvalid hn) hr h0 hff))
  · exact runWith_refuse (hrun.trans (rsmAfter_altered (hvalid hn) hr hslot ha))
  · have hlast := hrun.trans (rsmAfter_restored (hvalid hn) hr hslot ha b)
    have hready := rsmRestored_smiReady (returned_smiReady hsl hs (hvalid hn) hq)
    refine ⟨fun hsmi hr => ?_, fun hsmi hr => ?_, fun hsmi => ?_⟩
    · rw [hsmi, show (at16 s.mapImage 0x102).getLsbD 0 = false from hr] at hlast
      exact exec_rsm_ok hlast
    · rw [hsmi, show (at16 s.mapImage 0x102).getLsbD 0 = true from hr] at hlast
      obtain ⟨b', hhalt, hd, hcycle⟩ := rsmLast_halted s.ioAtSmi hready.ready
      exact ⟨b', exec_rsm_ok (hlast.trans hhalt), hd, hcycle⟩
    · rw [hsmi, rsmLast_latched] at hlast
      obtain ⟨b₁, b₂, g, d6, n, henter, -⟩ := enterSmm_spec s.ioAtSmi (hready.halting rehalt)
      exact ⟨_, henter, exec_rsm_ok (hlast.trans henter)⟩

end Sys2Proof.Machine
end

section
/-! SUPPORT. SMM entry and RSM one after the other (O46). -/

namespace Sys2Proof.Machine

variable {s t u : State} {b b₁ b₂ : Bus} {img : List Byte} {io : Option IoInfo}

/-! ### What comes back -/

/-- Every register that an SMI# and RSM give back, but for the halt state. -/
structure GivenBack (s u : State) : Prop where
  regs : u.regs = s.regs
  eip : u.eip = s.eip
  eflags : u.eflags = s.eflags
  segs : u.segs = s.segs
  ldtr : u.ldtr = s.ldtr
  tr : u.tr = s.tr
  gdtr : u.gdtr = s.gdtr
  idtr : u.idtr = s.idtr
  cr0 : u.cr0 = s.cr0
  cr2 : u.cr2 = s.cr2
  cr3 : u.cr3 = s.cr3
  cr4 : u.cr4 = s.cr4
  dr0 : u.dr0 = s.dr0
  dr1 : u.dr1 = s.dr1
  dr2 : u.dr2 = s.dr2
  dr3 : u.dr3 = s.dr3
  dr6 : u.dr6 = s.dr6
  dr7 : u.dr7 = s.dr7
  tr3 : u.tr3 = s.tr3
  tr4 : u.tr4 = s.tr4
  tr5 : u.tr5 = s.tr5
  tr6 : u.tr6 = s.tr6
  tr7 : u.tr7 = s.tr7
  cpl : u.cpl = s.cpl
  shadow : u.shadow = s.shadow
  ssShadow : u.ssShadow = s.ssShadow
  trapPending : u.trapPending = s.trapPending
  taskTrap : u.taskTrap = s.taskTrap
  dbgHits : u.dbgHits = s.dbgHits
  smbase : u.smbase = s.smbase
  inSMM : u.inSMM = false
  fpu : u.fpu = s.fpu
  fpErrorPending : u.fpErrorPending = s.fpErrorPending

/-- The state after an SMI#: `s` saved, with the handler's registers. -/
def State.entering (s : State) (io : Option IoInfo) (g : Regs) (d6 : DWord) (b₁ b₂ : Bus) : State := (s.smiTaken io b₁).inHandler g d6 b₂

section
variable (g : Regs) (d6 : DWord)

theorem entering_regs {halt : Bool} (k : SavesIn img (s.smiTaken io b₁) halt) : ((s.entering io g d6 b₁ b₂).returned img b).regs = s.regs := by
  show ({ eax := at32 img 0x1D0, ecx := at32 img 0x1D4, edx := at32 img 0x1D8, ebx := at32 img 0x1DC
          esp := at32 img 0x1E0, ebp := at32 img 0x1E4, esi := at32 img 0x1E8, edi := at32 img 0x1EC } : Regs) = _
  rw [k.eax, k.ecx, k.edx, k.ebx, k.esp, k.ebp, k.esi, k.edi]
  rfl

theorem entering_segs {halt : Bool} (k : SavesIn img (s.smiTaken io b₁) halt) : ((s.entering io g d6 b₁ b₂).returned img b).segs = s.segs := by
  show ({ es := { s.segs.es with sel := at16 img 0x1A8 }, cs := { s.segs.cs with sel := at16 img 0x1AC }
          ss := { s.segs.ss with sel := at16 img 0x1B0 }, ds := { s.segs.ds with sel := at16 img 0x1B4 }
          fs := { s.segs.fs with sel := at16 img 0x1B8 }, gs := { s.segs.gs with sel := at16 img 0x1BC } } : Segs) = _
  rw [k.es, k.cs, k.ss, k.ds, k.fs, k.gs]
  rfl

/-- The registers of the map are the ones saved, and legal registers come back as they are. -/
theorem entering_givenBack {halt : Bool} (k : SavesIn img (s.smiTaken io b₁) halt) (hr : RegInv s) :
    GivenBack s ((s.entering io g d6 b₁ b₂).returned img b) := by
  obtain ⟨⟨hflags, hcr0, -, hcr3, -⟩, -⟩ := hr
  exact {
    regs := entering_regs g d6 k
    segs := entering_segs g d6 k
    eip := k.eip
    eflags := (congrArg (normFlags s.part) k.eflags).trans hflags.symm
    cr0 := (congrArg normCr0 k.cr0).trans hcr0.symm
    cr3 := (congrArg normCr3 k.cr3).trans hcr3.symm
    cr4 := k.cr4
    dr6 := k.dr6
    dr7 := k.dr7
    ldtr := congrArg (fun w => { s.ldtr with sel := w }) k.ldtr
    tr := congrArg (fun w => { s.tr with sel := w }) k.tr
    smbase := k.smbase
    gdtr := rfl, idtr := rfl, cr2 := rfl, dr0 := rfl, dr1 := rfl, dr2 := rfl, dr3 := rfl, tr3 := rfl, tr4 := rfl, tr5 := rfl
    tr6 := rfl, tr7 := rfl, cpl := rfl, shadow := rfl, ssShadow := rfl, trapPending := rfl, taskTrap := rfl, dbgHits := rfl
    inSMM := rfl, fpu := rfl, fpErrorPending := rfl }

end

/-- The halt state entered again changes none of them. -/
theorem GivenBack.halting (h : GivenBack s u) (x : Bool) (k : ClockState) (b : Bus) : GivenBack s { u with halted := x, clock := k, bus := b } :=
  { h with }

/-! ### The map of an SMI# is one that RSM accepts -/

theorem smmUnaltered_self (k : Nat) (img : List Byte) : smmUnaltered k img img = true := by
  induction img generalizing k with
  | nil => rfl
  | cons x img ih =>
    unfold smmUnaltered
    rw [ih, beq_self_eq_true, Bool.or_true, Bool.and_self]

theorem savesIn_valid {halt : Bool} (k : SavesIn img s halt) (hb : s.smbase.extractLsb' 0 15 = 0) (hr : RegInv s) :
    imageInvalid img = false := by
  obtain ⟨⟨-, -, hcr0, -, hcr4⟩, -⟩ := hr
  unfold imageInvalid
  rw [k.smbase, k.cr4, k.cr0, hb, hcr4, hcr0]
  rfl

theorem savesIn_halt {halt : Bool} (k : SavesIn img s halt) : (at16 img 0x102).getLsbD 0 = halt := by
  rw [k.halt]
  cases halt <;> rfl

/-! ### The round trip -/

/-- RSM right after SMM entry: every register comes back, and the halt state. -/
theorem exec_rsm_entering (h : s.SmiReady) (hr : RegInv s) (hcd : s.cd = true) (hl : s.smiLatched = false) (h₁₂ : s.MapSaved io b₁ b₂)
    (g : Regs) (d6 : DWord) (n : Nat) :
    ∃ u, exec .rsm (s.entering io g d6 b₁ { b₂ with fetchq := .empty, draws := n }) = .next u ∧ GivenBack s u ∧ u.halted = s.halted := by
  set t := s.entering io g d6 b₁ { b₂ with fetchq := .empty, draws := n } with ht
  have hctx : t.memCtx = { s.memCtx with smiact := true } := h₁₂.handler_memCtx g d6 n
  have hready : t.BusReady := ⟨(congrArg MemCtx.busFree hctx).trans h.ready.bus,
    h₁₂.stored.control.script.trans (h₁₂.drained.same.script.trans h.ready.script), h₁₂.stored.wf⟩
  have hmap : t.mapImage = smmSave (s.smiTaken io b₁) := h₁₂.mapImage g d6 n
  have k : SavesIn t.mapImage (s.smiTaken io b₁) s.halted := hmap ▸ smmSave_saves (s.smiTaken io b₁)
  have hvalid := savesIn_valid k h.base hr
  have hhalt := savesIn_halt k
  obtain ⟨-, -, hgo⟩ := rsmReturns t rfl h.sl rfl hready ((congrArg MemCtx.cd hctx).trans hcd) h.base
  have hn := fun hi => Bool.false_ne_true (hvalid.symm.trans (imageInvalid_iff.2 hi))
  obtain ⟨-, hgo⟩ := hgo hn fun hi => hhalt.symm.trans hi
  obtain ⟨-, hgo⟩ := hgo (.inl k.io)
  obtain ⟨b, -, -, hrun, hrunHalt, -⟩ := hgo (by rw [hmap]; exact smmUnaltered_self 0 _)
  have hslot : ¬at16 t.mapImage 0x100 = 0xFF := by rw [k.io]; decide
  rw [if_neg hslot] at hrun hrunHalt
  have hback : GivenBack s (t.returned t.mapImage b) := entering_givenBack g d6 k hr
  cases hs : s.halted with
  | false => exact ⟨_, hrun hl (hhalt.trans hs), hback, rfl⟩
  | true =>
    obtain ⟨b', hexec, -⟩ := hrunHalt hl (hhalt.trans hs)
    exact ⟨_, hexec, hback.halting .., rfl⟩

/-- Settles O46: RSM reads the map that SMM entry wrote. -/
theorem smmRoundTrip : Obligations.SmmRoundTrip := by
  intro io s t h hr hcd hl henter
  obtain ⟨b₁, b₂, g, d6, n, hrun, hsaved⟩ := enterSmm_spec io h
  obtain rfl : t = s.entering io g d6 b₁ { b₂ with fetchq := .empty, draws := n } := by
    rw [hrun] at henter
    injection henter with _ ht
    exact ht.symm
  obtain ⟨u, hexec, k, hhalt⟩ := exec_rsm_entering h hr hcd hl hsaved g d6 n
  exact ⟨u, hexec, k.regs, k.eip, k.eflags, k.segs, k.ldtr, k.tr, k.gdtr, k.idtr, k.cr0, k.cr2, k.cr3, k.cr4, k.dr0, k.dr1, k.dr2, k.dr3,
    k.dr6, k.dr7, k.tr3, k.tr4, k.tr5, k.tr6, k.tr7, k.cpl, k.shadow, k.ssShadow, k.trapPending, k.taskTrap, k.dbgHits, k.smbase,
    k.inSMM, hhalt, k.fpu, k.fpErrorPending⟩

end Sys2Proof.Machine
end

section
/-! SUPPORT. RESET and SRESET as input events (O57). -/

namespace Sys2Proof.Machine

variable {s : State} {e : Input} {rest : List Input} {p : Part} {m : ClkMul} {up wbwt : Bool}

/-! ### The step at an input event -/

/-- An input event comes before everything else a step can do. -/
theorem step_input (hi : s.inputs = e :: rest) : step s = applyInput e { s with inputs := rest } := by
  unfold step stepMachine
  rw [hi]

/-- An input that may change while CLK is stopped is refused in no clock state. -/
theorem not_refused_of_clockFree (he : e.clockFree = true) : ¬(decide (s.clock = .stopClock) && !e.clockFree) = true := by
  simp [he]

/-- RESET is taken in every state, also with CLK stopped or an upgrade processor present (70_reset_and_hazards.md R741). -/
theorem step_reset (hi : s.inputs = .reset up wbwt m :: rest) : step s = .next ({ s with inputs := rest }.resetPin up wbwt m) :=
  (step_input hi).trans (if_neg (not_refused_of_clockFree rfl))

theorem step_sreset (hi : s.inputs = .sreset :: rest) : step s = .next ({ s with inputs := rest }.applyReset .soft) :=
  (step_input hi).trans (if_neg (not_refused_of_clockFree rfl))

/-! ### SRESET by part and cache mode (70_reset_and_hazards.md R742) -/

/-- Without SL technology there is no SRESET pin. -/
theorem applyReset_soft_noPin (hl : s.part.hasSL = false) : s.applyReset .soft = s := if_neg (Bool.eq_false_iff.1 hl)

/-- What SRESET resets in both cache modes. -/
def State.softCleared (s : State) : State :=
  { State.afterReset s.part s.latch s.fpu s.pins s.inputs s.platform s.bus.afterReset with smbase := s.smbase }

theorem applyReset_soft_writeThrough (hl : s.part.hasSL = true) (hw : s.wbMode = false) : s.applyReset .soft = s.softCleared :=
  (if_pos hl).trans (if_neg (Bool.eq_false_iff.1 hw))

/-- In write-back mode the cache, CD and NW stay (45_family_variants.md R578). -/
theorem applyReset_soft_writeBack (hl : s.part.hasSL = true) (hw : s.wbMode = true) :
    s.applyReset .soft = { s.softCleared with
      cr0 := mergeBits 0x60000000#32 s.part.resetState.cr0 s.cr0, bus := { s.bus.afterReset with cache := s.bus.cache } } :=
  (if_pos hl).trans (if_pos hw)

/-! ### The latches that RESET samples (70_reset_and_hazards.md R743; 45_family_variants.md R593) -/

theorem latchAtReset_writeBackMode :
    (Part.latchAtReset p up wbwt m).writeBackMode = true ↔ p.variant = .dx2wb ∧ wbwt = true := by
  show (p.variant == .dx2wb && wbwt) = true ↔ _
  rw [Bool.and_eq_true, beq_iff_eq]

theorem latchAtReset_clockMul2_dx4 (hv : p.variant = .dx4) : (Part.latchAtReset p up wbwt m).clockMul2 = m.ratio2 := by
  unfold Part.latchAtReset
  rw [hv]

theorem latchAtReset_clockMul2_doubled (hv : p.variant ∈ [.dx2, .sx2, .dx2wb]) : (Part.latchAtReset p up wbwt m).clockMul2 = 4 := by
  unfold Part.latchAtReset
  simp only [List.mem_cons, List.not_mem_nil, or_false] at hv
  obtain hv | hv | hv := hv <;> rw [hv]

theorem latchAtReset_clockMul2_undoubled (hv : p.variant ∈ [.dx, .sx]) : (Part.latchAtReset p up wbwt m).clockMul2 = 2 := by
  unfold Part.latchAtReset
  simp only [List.mem_cons, List.not_mem_nil, or_false] at hv
  obtain hv | hv := hv <;> rw [hv]

/-! ### The empty cache and the empty TLB (10_state.md R97) -/

theorem emptyCache_way (i : BitVec 8) (w : BitVec 2) : (emptyCache.entry i).way w = emptyLine := by
  simp [emptyCache, Cache.entry, CacheSet.way]

theorem lookup_emptyCache (big : Bool) (a : Addr) : emptyCache.lookup big a = none := by
  refine CacheSet.find_eq_none_iff.2 fun w => ?_
  rw [CacheSet.matches, emptyCache_way]
  rfl

theorem tlbAt_emptyTlb (i : BitVec 5) : tlbAt emptyTlb i = emptyTlbEntry := Vector.getElem_replicate _

theorem tlbFind_emptyTlb (a : Addr) : tlbFind emptyTlb a = none := by
  rw [tlbFind_eq_find?, List.find?_eq_none]
  intro w _ hm
  rw [tlbMatches, tlbAt_emptyTlb] at hm
  exact Bool.false_ne_true hm

/-! ### The obligation -/

/-- Settles O57: each input event steps to its reset, whose fields are the ones the statement writes out. -/
theorem resets : Obligations.Resets := by
  refine ⟨fun rest s => ⟨fun up wbwt m hi => ?_, fun hi hl => ⟨fun hw => ?_, fun hw => ?_⟩, fun hi hl => ?_⟩,
    lookup_emptyCache, tlbFind_emptyTlb, by decide⟩
  · refine ⟨Part.latchAtReset s.part up wbwt m, step_reset hi, rfl, latchAtReset_writeBackMode, fun hv => ?_,
      latchAtReset_clockMul2_doubled, latchAtReset_clockMul2_undoubled⟩
    rw [latchAtReset_clockMul2_dx4 hv]
    cases m <;> simp [ClkMul.ratio2]
  · exact (step_sreset hi).trans (congrArg _ (applyReset_soft_writeThrough (s := { s with inputs := rest }) hl hw))
  · exact (step_sreset hi).trans (congrArg _ (applyReset_soft_writeBack (s := { s with inputs := rest }) hl hw))
  · exact (step_sreset hi).trans (congrArg _ (applyReset_soft_noPin (s := { s with inputs := rest }) hl))

end Sys2Proof.Machine
end
